-- ==== Sys2Proof/Word.lean ====
section
/-! DEFINITION. The word types of the part: bytes, 32-bit register words and 32-bit byte addresses. -/

namespace Sys2Proof

/-- One byte of memory, of a slot or of a table field that is held as stored. -/
abbrev Byte := BitVec 8

/-- One register word or window word (R196, R203). -/
abbrev Word := BitVec 32

/-- A byte address on either bus port (section 0.6: 32-bit byte addresses). -/
abbrev Addr := BitVec 32

end Sys2Proof
end

