-- ==== Sys2Proof/Config.lean ====
section
/-! DEFINITION. What is fixed for a part: the two parts of the die, the limits the chapters name, and the free values
of points the spec leaves open. -/

namespace Sys2Proof

/-- The two parts made from the die (section 0.2). -/
inductive Part where
  | azunel4420
  | azunel4410
  deriving DecidableEq, Repr

/-- The largest magnitude of an accumulator, of a staging entry and of a record's value field (R1, R71, R73). -/
def Config.maxTotal : Int := 10 ^ 28 - 1

/-- The largest magnitude of a working value (R9). -/
def Config.maxWorking : Int := 10 ^ 32 - 1

/-- The largest accumulator count (R71). -/
def Config.maxCount : Nat := 4294967295

/-- The highest byte address (section 0.7). -/
def Config.topAddress : Nat := 0xFFFFFFFF

/-- Order Table entries (R157). -/
def Config.tableEntries : Nat := 32

/-- Where the run timer holds, in µs (R172). -/
def Config.maxRunTime : Nat := 65535000

/-- Where notify-pending holds (R150, R152). -/
def Config.maxNotify : Nat := 65535

/-- FREE VALUE, log 13, DESIGN CHOICE, safe. Whether a POSTED slot that the Order Table already holds ends the sweep
when the table is full (second row of R142's table) or is skipped (its third row): both rows fit and give different
outcomes. -/
opaque Config.fullTableEndsHeldSlot : Bool

/-- FREE VALUE, log 14, DESIGN CHOICE, safe. The lane bit and the two bank bits of an Order Table entry before the
Dispatcher and a park first set them: R157 gives them meaning in RUNNING and in PARKED only, and R205 shows them
always. Read at a counter of State, so each entry has its own. -/
opaque Config.unsetPlace : Nat → BitVec 3

/-- FREE VALUE, log 14, DESIGN CHOICE, safe. The reserving lane bit that R205 shows for a HOLDING bank, which no lane
reserves. Read at a counter of State, so each fetch has its own. -/
opaque Config.holdingLaneBit : Nat → BitVec 1

end Sys2Proof
end

