-- ==== Sys2Proof/Syntax.lean ====
section
/-! DEFINITION. The commands of the part: one constructor per row of spec/opcode_table.json, with the operands its
rule reads. The table gives no operand and no bit pattern (log 27); operands are what the host writes, what the bus
answers, or which lane takes the event. -/

namespace Sys2Proof

/-- The two lanes (R159). -/
inductive LaneId where
  | lane0
  | lane1
  deriving DecidableEq, Repr

/-- One bit for each sticky STATUS flag: the flags, their IRQ enables, or the flags a STATUS write names (R191,
R196). -/
structure StickyBits where
  anchorFault : Bool
  slateFault : Bool
  cancelMiss : Bool
  windowRefused : Bool
  deriving DecidableEq, Repr

/-- Bytes that the host wrote to the shared memory before the access at hand was answered (log 2). -/
abbrev HostWrites := List (Addr × Byte)

/-- The bus's answer to a read: the bytes memory holds once the host's earlier writes stand, or a bus error. -/
inductive Reply where
  | data (host : HostWrites)
  | busError
  deriving DecidableEq, Repr

/-- Whose access a slate fault answers (R184). -/
inductive Requester where
  | slateReader
  | lane (n : LaneId)
  | completionWriter
  deriving DecidableEq, Repr

/-- The commands, one constructor per row of the table. -/
inductive Instr where
  /-- RESETn low and high again (R195). -/
  | powerOnReset
  /-- A CONTROL write with RESET 1 (R194). -/
  | softReset (irq : StickyBits)
  /-- A CONTROL write with ENABLE 1 (R178, R179). -/
  | enable (pause : Bool) (irq : StickyBits)
  /-- A CONTROL write with ENABLE 0 (R178, R182). -/
  | engineStop (pause : Bool) (irq : StickyBits)
  /-- A CONTROL write with ENABLE 1 and PAUSE 1 (R178, R180). -/
  | pause (irq : StickyBits)
  /-- A CONTROL write with ENABLE 1 and PAUSE 0 (R178, R181). -/
  | pauseRelease (irq : StickyBits)
  /-- A CONTROL write whose ENABLE and PAUSE are as CONTROL reads (R178). -/
  | irqEnableWrite (irq : StickyBits)
  /-- A STATUS write: the flags written 1 (R191). -/
  | statusClear (clear : StickyBits)
  /-- An ANCHOR write (R198). -/
  | anchorWrite (value : Word)
  /-- A NUDGE write (R140). -/
  | nudge (value : Word)
  /-- A CANCEL write; the slot index is bits 15 to 0 (R187, R198). -/
  | cancel (value : Word)
  /-- An ACK write (R192). -/
  | ack (n : Word)
  /-- A WINDOW_ADDR write (R200). -/
  | windowAddrWrite (value : Word)
  /-- A WINDOW_DATA read (R201). -/
  | windowDataRead
  /-- A WINDOW_DATA write (R202). -/
  | windowDataWrite (value : Word)
  /-- A write to IDENT, to an unused offset, or of fewer than four bytes (R196). -/
  | registerWriteOther (offset : BitVec 6) (strobe : BitVec 4) (value : Word)
  /-- The sweep timer reaches the sweep period (R141). -/
  | sweepTimerExpiry
  /-- The anchor read is answered (R135). -/
  | anchorReadDone (reply : Reply)
  /-- The completion-word read is answered (R135). -/
  | completionWordReadDone (reply : Reply)
  /-- A slot header read is answered with data (R142). -/
  | headerReadDone (host : HostWrites)
  /-- A body read is answered (R143). -/
  | bodyReadDone (reply : Reply)
  /-- The TAKEN write is accepted (R144). -/
  | take
  /-- The Slate Reader claims the next entry and writes its slot POSTED (R183). -/
  | handBack
  /-- The hand-back write is accepted (R153). -/
  | handBackWriteAccept
  /-- The Completion Writer takes a waiting hand-over; `pick` chooses among those that reached it together (R150). -/
  | completion (pick : Nat)
  /-- The result area write is accepted (R152). -/
  | resultAreaWriteAccept
  /-- The final-state write is accepted (R152). -/
  | stateWriteAccept
  /-- The completion-word write is accepted (R152). -/
  | completionWordWriteAccept
  /-- The Dispatcher takes a start event (R163). -/
  | startEvent
  /-- The RUNNING progress write is accepted (R164, R165). -/
  | progressRunningAccept (lane : LaneId)
  /-- The Band Store takes the lane's start claim (R60). -/
  | startClaim (lane : LaneId)
  /-- The Band Store takes the lane's BANDSET start test (R63). -/
  | startTest (lane : LaneId)
  /-- A read of the band set image is answered with its next `bytes` bytes (R128). -/
  | imageReadDone (lane : LaneId) (bytes : Nat) (host : HostWrites)
  /-- The Band Store takes the lane's load claim (R63). -/
  | loadClaim (lane : LaneId)
  /-- A preset record read is answered (R84). -/
  | presetRecordReadDone (lane : LaneId) (host : HostWrites)
  /-- The Bank takes the lane's apply claim (R85). -/
  | apply (lane : LaneId)
  /-- The Bank takes the lane's latch claim (R80). -/
  | latch (lane : LaneId)
  /-- A snapshot record write is accepted (R81). -/
  | snapshotRecordWriteAccept (lane : LaneId)
  /-- The Bank takes the lane's clear claim (R82). -/
  | clear (lane : LaneId)
  /-- A mark read is answered (R27). -/
  | markReadDone (lane : LaneId) (host : HostWrites)
  /-- A source cell read is answered (R30). -/
  | sourceReadDone (lane : LaneId) (host : HostWrites)
  /-- A destination or result-plane read is answered (R29, R32, R35). -/
  | destinationReadDone (lane : LaneId) (host : HostWrites)
  /-- A destination or result-plane write is accepted (R31). -/
  | destinationWriteAccept (lane : LaneId)
  /-- An exception record write is accepted (R114). -/
  | exceptionRecordWriteAccept (lane : LaneId)
  /-- The lane passes a cell boundary (R171). -/
  | cellBoundary (lane : LaneId)
  /-- The Bank takes the lane's commit claim (R77). -/
  | commit (lane : LaneId)
  /-- The Dispatcher posts a PARK request (R166). -/
  | parkRequest
  /-- A lane takes the Dispatcher's withdrawal of a PARK (R167). -/
  | parkWithdraw
  /-- The PARKED progress write is accepted (R169). -/
  | parkComplete (lane : LaneId)
  /-- The run timer reaches the order time limit (R172). -/
  | timeLimit (lane : LaneId)
  /-- A bus error answers the lane's access; `took` says which bytes of a record write memory took, bit 0 whether it
  took a destination write (R173, log 9). -/
  | memoryFault (lane : LaneId) (took : BitVec 32)
  /-- A bus error answers a slate access; `took` says which bytes of a result area, TAKEN or progress write memory
  took (R184, R154, log 9). -/
  | slateFault (requester : Requester) (took : BitVec 48)
  deriving DecidableEq, Repr

end Sys2Proof
end

