-- ==== Sys2Proof/WellFormed.lean ====
section
/-! DEFINITION. Which commands can be sent: the checks on operands that the types do not make. -/

namespace Sys2Proof

/-- The offsets of the registers that a full write acts on: CONTROL to WINDOW_DATA (R196). -/
def isWrittenRegister (offset : BitVec 6) : Bool :=
  offset == 0x04 || offset == 0x08 || offset == 0x0C || offset == 0x10 || offset == 0x14 ||
    offset == 0x18 || offset == 0x1C || offset == 0x20

/-- The bytes of a band set image (R156). -/
def imageBytes : Nat := 264

/-- A command is well formed when its operands are ones the world can bring: REGISTER_WRITE_OTHER is not a full write
of a register that acts (R196), and a read of a band set image brings at least one byte and at most the image
(R128). -/
def Instr.wellFormed : Instr → Bool
  | .registerWriteOther offset strobe _ => !(isWrittenRegister offset && strobe == 0xF)
  | .imageReadDone _ bytes _ => decide (1 ≤ bytes) && decide (bytes ≤ imageBytes)
  | _ => true

end Sys2Proof
end

