-- ==== Sys2Proof/Decode.lean ====
section
/-! DEFINITION. Bits to commands. The table gives no row any bits, so `decodeTableWord` reads none (log 27). What the
spec does encode, the host's register writes, `decodeRegisterWrite` reads: offset, byte lanes and value to the command
the write is (R196, R198). -/

namespace Sys2Proof

/-- The command a table word spells: none, since no row of the table has bits (log 27). -/
def decodeTableWord (_nbits _w : Nat) : Option Instr := none

/-- The four bits from `i` up, one for each sticky flag in the order of R196. -/
def stickyAt (value : Word) (i : Nat) : StickyBits where
  anchorFault := value.getLsbD i
  slateFault := value.getLsbD (i + 1)
  cancelMiss := value.getLsbD (i + 2)
  windowRefused := value.getLsbD (i + 3)

/-- The command that a CONTROL write is, by its RESET, ENABLE and PAUSE fields (R178, R194, R196). -/
def decodeControlWrite (value : Word) : Instr :=
  if value.getLsbD 2 then .softReset (stickyAt value 8)
  else if !value.getLsbD 0 then .engineStop (value.getLsbD 1) (stickyAt value 8)
  else if value.getLsbD 1 then .pause (stickyAt value 8)
  else .enable false (stickyAt value 8)

/-- The command that a write of the register space is (R196, R198). A write that lacks a byte lane, or of IDENT or an
unused offset, is REGISTER_WRITE_OTHER. -/
def decodeRegisterWrite (offset : BitVec 6) (strobe : BitVec 4) (value : Word) : Instr :=
  if strobe != 0xF then .registerWriteOther offset strobe value
  else if offset == 0x04 then decodeControlWrite value
  else if offset == 0x08 then .statusClear (stickyAt value 8)
  else if offset == 0x0C then .anchorWrite value
  else if offset == 0x10 then .nudge value
  else if offset == 0x14 then .cancel value
  else if offset == 0x18 then .ack value
  else if offset == 0x1C then .windowAddrWrite value
  else if offset == 0x20 then .windowDataWrite value
  else .registerWriteOther offset strobe value

end Sys2Proof
end

