-- ==== Sys2Proof/Machine/State.lean ====
section
/-! DEFINITION. The state of the part, block by block (section 0.4), the shared memory, the queue of commands, and the
state after power-on reset (R195). Plain data throughout. -/

namespace Sys2Proof.Machine

/-! ## Memory -/

/-- The memory that host and part share: byte addresses strictly rising, none listed that holds 00h (log 1). -/
abbrev Memory := List Host.Cell

/-! ## Orders -/

/-- The eight order kinds, with their codes in R156. -/
inductive OrderKind where
  | tally
  | difference
  | compare
  | convert
  | pattern
  | bandset
  | preset
  | snapshot
  deriving DecidableEq, Repr

/-- The final states (R136). -/
inductive FinalState where
  | done
  | failed
  | cancelled
  deriving DecidableEq, Repr

/-- Why an order reached its final state (R156). -/
inductive Reason where
  | none
  | kindAbsent
  | fieldRange
  | gridRange
  | windowRange
  | accumRange
  | bandSetEmpty
  | bandSetInvalid
  | bandSetInUse
  | memoryFault
  | recordMalformed
  | timeLimit
  | hostCancel
  | engineStopped
  deriving DecidableEq, Repr

/-- The result indicators (R93). -/
structure Indicators where
  zero : Bool
  saturated : Bool
  overflow : Bool
  lost : Bool
  allTrue : Bool
  noneTrue : Bool
  deriving DecidableEq, Repr

/-- Every indicator written 0. -/
def Indicators.clear : Indicators := ⟨false, false, false, false, false, false⟩

/-- The header copy of an Order Table entry (R157). -/
structure Header where
  kind : OrderKind
  urgent : Bool
  hold : Bool
  notify : Bool
  tag : BitVec 16
  listAddr : Addr
  listCapacity : Nat
  deriving DecidableEq, Repr

/-- The phase of a held order (R158). -/
inductive Phase where
  | waiting
  | running
  | parked
  deriving DecidableEq, Repr

/-- One Order Table entry (R157). The last three fields are what R60, R183 and R190 imply. -/
structure Entry where
  slot : Nat
  seq : Word
  header : Header
  body : List Byte
  phase : Phase
  /-- meaningful in RUNNING; kept after -/
  lane : LaneId
  /-- meaningful in PARKED; kept after -/
  bank : Fin 4
  pendingCancel : Bool
  parkCount : Nat
  /-- the order's start claim succeeded and is not released (R60, R62) -/
  claimed : Bool
  /-- the Slate Reader has claimed the entry for hand-back (R183) -/
  handBack : Bool
  /-- the Dispatcher has ended the parked order (R182, R190) -/
  ended : Bool
  deriving DecidableEq, Repr

/-! ## Totals: accumulators, staging entries, record buffer entries -/

/-- A value, a count and an overflow flag: an accumulator (R71), a staging entry (R73) or a record buffer entry
(R79). -/
structure Total where
  value : Int
  count : Nat
  overflow : Bool
  deriving DecidableEq, Repr

/-- Plus zero, count 0, flag clear. -/
def Total.zero : Total := ⟨0, 0, false⟩

/-- A staging set (R73): entries 0 to 7 for the bands, entry 8 for the residue. -/
abbrev Staging := Vector Total 9

/-- The starting values of a staging set (R73). -/
def Staging.start : Staging := Vector.replicate 9 Total.zero

/-- A lane's record buffer (R79). -/
structure RecordBuffer where
  range : Option (Nat × Nat)
  entries : Vector Total 64
  deriving DecidableEq, Repr

/-- The empty record buffer (R79). What its 64 entries hold is the model's choice: plus zero, 0, clear (log 33). -/
def RecordBuffer.empty : RecordBuffer := ⟨none, Vector.replicate 64 Total.zero⟩

/-! ## The walk -/

/-- The axis of a walk (R24). -/
inductive Axis where
  | rowsFirst
  | columnsFirst
  deriving DecidableEq, Repr

/-- A column or row direction (R24). -/
inductive Direction where
  | forward
  | reverse
  deriving DecidableEq, Repr

/-- The walk context (R25): window bounds, walk fields, and the walk index of the next cell. -/
structure Walk where
  rowStart : Nat
  rowEnd : Nat
  colStart : Nat
  colEnd : Nat
  axis : Axis
  colDir : Direction
  rowDir : Direction
  next : Nat
  deriving DecidableEq, Repr

/-- The part of the per-order record that travels into a park bank (R90, R168). -/
structure OrderRecord where
  visited : Nat
  contributed : Nat
  marked : Nat
  excluded : Nat
  rejected : Nat
  raised : Nat
  written : Nat
  lost : Nat
  cursor : Nat
  nonzero : Bool
  saturated : Bool
  trueCount : Nat
  falseCount : Nat
  deriving DecidableEq, Repr

/-- The record of an order that has worked no cell (R90). -/
def OrderRecord.start : OrderRecord := ⟨0, 0, 0, 0, 0, 0, 0, 0, 0, false, false, 0, 0⟩

/-- What a lane holds for a walking order: walk context, per-order record with its commit report, ramp position (R25,
R90, R123). -/
structure WalkContext where
  walk : Walk
  record : OrderRecord
  commitOverflow : Bool
  ramp : Int
  deriving DecidableEq, Repr

/-- The exception kinds (R92, codes in R156). -/
inductive ExceptionKind where
  | malformed
  | saturated
  | rollover
  | reversal
  | unbanded
  | alarmBand
  deriving DecidableEq, Repr

/-- One exception of a cell with its subclass or band index code and its value (R92). -/
structure CellException where
  kind : ExceptionKind
  sub : Nat
  value : Int
  deriving DecidableEq, Repr

/-- The class a cell counts in (R37). -/
inductive CellClass where
  | marked
  | excluded
  | contributed
  | rejected
  deriving DecidableEq, Repr

/-- The cell in hand (R9, R41), with what its boundary needs: its class, whether it sets the nonzero mark, and a
COMPARE's verdict. -/
structure CellWork where
  row : Nat
  col : Nat
  /-- source A's bytes while source B is read (R43) -/
  operandA : List Byte
  /-- the working value; after the stage, the value to write; of a cell rejected at step 2, the value formed there -/
  working : Option Int
  malformed : Bool
  saturated : Bool
  /-- exceptions not yet written or lost, in the order of R92 -/
  exceptions : List CellException
  cls : CellClass
  nonzero : Bool
  verdict : Option Bool
  deriving DecidableEq, Repr

/-! ## Lanes -/

/-- The lane states (R159). -/
inductive LaneState where
  | idle
  | active
  | yielding
  | frozen
  deriving DecidableEq, Repr

/-- The pending stop request (R159, R170). -/
inductive StopRequest where
  | none
  | park (bank : Fin 4)
  | timeLimit
  | cancel
  | engineStop
  deriving DecidableEq, Repr

/-- What a lane waits for: an access it has issued, a claim it has presented, its boundary, or the completion of the
order it has handed over. -/
inductive LaneWork where
  | none
  /-- RUNNING progress write issued, at a first start or a resume (R164, R165) -/
  | runningWrite (resume : Bool)
  /-- PARKED progress write issued: a park under way into a bank (R169) -/
  | parkedWrite (bank : Fin 4)
  | startClaim
  | startTest
  | loadClaim
  | applyClaim
  | latchClaim
  | clearClaim
  | commitClaim
  /-- band set image read issued (R128) -/
  | imageRead
  /-- preset record read issued (R84) -/
  | recordRead
  /-- snapshot record write issued (R81) -/
  | recordWrite
  | markRead
  | sourceARead
  | sourceBRead
  /-- destination cell or result byte read issued (R30 step 3) -/
  | destinationRead
  /-- destination cell or result byte write issued; `claim` says it is the second half of a read-modify-write
  (R33) -/
  | destinationWrite (addr : Addr) (bytes : List Byte) (claim : Bool)
  /-- exception record write issued, for the head of the cell's exceptions (R114) -/
  | exceptionWrite
  /-- the cell's work has ended; its boundary comes next (R171) -/
  | boundary
  /-- the order's end is with the Completion Writer (R161) -/
  | handedOver
  deriving DecidableEq, Repr

/-- A lane (R159). -/
structure Lane where
  state : LaneState
  /-- the order it runs, by the slot of its Order Table entry -/
  order : Option Nat
  request : StopRequest
  runTimer : Nat
  endMark : Bool
  context : Option WalkContext
  staging : Staging
  /-- steps completed of a housekeeping order, as R205 counts them -/
  steps : Nat
  buffer : RecordBuffer
  image : List Byte
  cell : Option CellWork
  work : LaneWork
  deriving DecidableEq, Repr

/-- A lane after reset and after its order has left it (R159). -/
def Lane.reset : Lane where
  state := .idle
  order := none
  request := .none
  runTimer := 0
  endMark := false
  context := none
  staging := Staging.start
  steps := 0
  buffer := RecordBuffer.empty
  image := []
  cell := none
  work := .none

/-! ## Dispatcher -/

/-- The context a HOLDING park bank keeps (R168). -/
structure ParkedContext where
  slot : Nat
  next : Nat
  ramp : Int
  record : OrderRecord
  staging : Staging
  runTime : Nat
  deriving DecidableEq, Repr

/-- A park bank (R168). -/
inductive ParkBank where
  | free
  | reserved (n : LaneId)
  | holding (c : ParkedContext)
  deriving DecidableEq, Repr

/-! ## Band Store -/

/-- A band entry as stored: bounds of 24 digit nibbles and a sign nibble (bits 3 to 0), an index byte, the alarm flag
(R56). -/
structure Band where
  low : BitVec 100
  high : BitVec 100
  accum : Byte
  alarm : Bool
  deriving DecidableEq, Repr

/-- The power-on values of a band entry: plus-zero bounds (sign nibble Ch), index 0, alarm clear (R58). -/
def Band.powerOn : Band := ⟨0xC, 0xC, 0, false⟩

/-- The states of a band set (R56). -/
inductive BandSetState where
  | empty
  | loaded
  | unchecked
  deriving DecidableEq, Repr

/-- A band set (R56); the band count as stored. -/
structure BandSet where
  state : BandSetState
  count : Byte
  bands : Vector Band 8
  uses : Nat
  deriving DecidableEq, Repr

/-- A band set after power-on reset (R58). -/
def BandSet.powerOn : BandSet := ⟨.empty, 0, Vector.replicate 8 Band.powerOn, 0⟩

/-! ## Engine Control -/

/-- The engine states (R177). -/
inductive EngineState where
  | off
  | starting
  | running
  | pausing
  | paused
  | stopping
  | halted
  deriving DecidableEq, Repr

/-- The read of a start that is outstanding (R135). -/
inductive EngineAccess where
  | none
  | anchorRead
  | wordRead
  deriving DecidableEq, Repr

/-- The copy of the anchor block (R134). -/
structure Anchor where
  slateBase : Addr
  slotCount : Nat
  wordAddr : Addr
  sweepPeriod : Nat
  timeLimit : Nat
  deriving DecidableEq, Repr

/-- The copy after reset and after a failed start (R134, R135). -/
def Anchor.zero : Anchor := ⟨0, 0, 0, 0, 0⟩

/-- The access kinds of the fault record (R185). -/
inductive FaultKind where
  | none
  | anchorRead
  | wordRead
  | anchorContent
  | headerRead
  | takenWrite
  | progressWrite
  | resultWrite
  | stateWrite
  | wordWrite
  | handBackWrite
  deriving DecidableEq, Repr

/-- The fault record (R185). -/
structure FaultRecord where
  address : Addr
  kind : FaultKind
  slot : Nat
  state : EngineState
  deriving DecidableEq, Repr

/-- The fault record after reset: every item 0 (R185). -/
def FaultRecord.clear : FaultRecord := ⟨0, .none, 0, .off⟩

/-- No sticky bit set. -/
def noStickyBits : StickyBits := ⟨false, false, false, false⟩

/-- Engine Control, with the ANCHOR register and the IRQ enables of CONTROL (R134, R177, R185, R191, R196). -/
structure Engine where
  state : EngineState
  /-- an ENABLE 0 was taken while a start read is outstanding (R179) -/
  abandoned : Bool
  access : EngineAccess
  anchor : Anchor
  fault : FaultRecord
  flags : StickyBits
  irqEnables : StickyBits
  anchorReg : Addr
  deriving DecidableEq, Repr

/-- Engine Control after power-on reset (R195). -/
def Engine.powerOn : Engine where
  state := .off
  abandoned := false
  access := .none
  anchor := Anchor.zero
  fault := FaultRecord.clear
  flags := noStickyBits
  irqEnables := noStickyBits
  anchorReg := 0

/-! ## Slate Reader -/

/-- The slot the Slate Reader has in hand and the access it has issued for it (R139, R143, R145, R153). -/
inductive SlateStep where
  | idle
  | headerRead (slot : Nat)
  | bodyRead (slot : Nat) (header : List Byte)
  | takenWrite (slot : Nat) (header body : List Byte)
  /-- a failure at take is with the Completion Writer (R145) -/
  | failing (slot : Nat)
  | handBackWrite (slot : Nat)
  deriving DecidableEq, Repr

/-- The Slate Reader (R139). -/
structure SlateReader where
  cursor : Nat
  again : Bool
  /-- a PAUSE was taken during this sweep (R148, log 15) -/
  ending : Bool
  timer : Nat
  nextSeq : Word
  /-- slots visited by this sweep (R142) -/
  visited : Nat
  step : SlateStep
  deriving DecidableEq, Repr

/-- The Slate Reader after reset (R139). -/
def SlateReader.reset : SlateReader := ⟨0, false, false, 0, 0, 0, .idle⟩

/-! ## Completion Writer -/

/-- A hand-over: what a completion writes (R94, R126, R150). -/
structure HandOver where
  slot : Nat
  final : FinalState
  reason : Reason
  indicators : Indicators
  record : OrderRecord
  fault : Option (Nat × Nat)
  parkCount : Nat
  tag : BitVec 16
  notify : Bool
  /-- a failure at take (R145) -/
  atTake : Bool
  /-- it reached the Completion Writer together with the hand-over before it (R150, log 16) -/
  together : Bool
  deriving DecidableEq, Repr

/-- The hand-over in hand and the write issued for it (R152). -/
inductive WriterStep where
  | idle
  | resultWrite (h : HandOver)
  | stateWrite (h : HandOver)
  | wordWrite (h : HandOver)
  deriving DecidableEq, Repr

/-- The Completion Writer (R150). -/
structure CompletionWriter where
  count : Word
  notifyPending : Nat
  waiting : List HandOver
  step : WriterStep
  deriving DecidableEq, Repr

/-- The Completion Writer after reset (R150). -/
def CompletionWriter.reset : CompletionWriter := ⟨0, 0, [], .idle⟩

/-! ## Window Port -/

/-- The accumulator latch (R88). -/
structure AccumLatch where
  holds : Option (Fin 64)
  total : Total
  deriving DecidableEq, Repr

/-- The band latch: the set and band it holds, or none, and the band (R199, R204). -/
structure BandLatch where
  holds : Option (Fin 8 × Fin 8)
  band : Band
  deriving DecidableEq, Repr

/-- The Window Port (R199). -/
structure WindowPort where
  addr : BitVec 11
  autoIncrement : Bool
  buffer : Word
  accumLatch : AccumLatch
  bandLatch : BandLatch
  deriving DecidableEq, Repr

/-- The Window Port after reset (R88, R199). What the band latch's words hold while it is marked none the spec does not
say: they are the power-on values of a band here, and no read shows them (log 31, the model's choice). -/
def WindowPort.reset : WindowPort := ⟨0, false, 0, ⟨none, Total.zero⟩, ⟨none, Band.powerOn⟩⟩

/-! ## The whole part -/

/-- The state of the part, with the shared memory and the queue of commands. -/
structure State where
  /-- which part is fitted; no command changes it (R197, log 6) -/
  part : Part
  mem : Memory
  engine : Engine
  slate : SlateReader
  /-- the Order Table, in take order (R157) -/
  table : List Entry
  lane0 : Lane
  lane1 : Lane
  banks : Vector ParkBank 4
  /-- the parked entries' slots, in the order in which their parks completed (R163) -/
  parkOrder : List Nat
  bandSets : Vector BandSet 8
  accums : Vector Total 64
  writer : CompletionWriter
  window : WindowPort
  /-- the word the last WINDOW_DATA read returned (log 23) -/
  readData : Word
  /-- where free values are read (log 14) -/
  free : Nat
  /-- commands waiting, first in, first out -/
  pending : List Instr
  deriving DecidableEq, Repr

/-- The part after power-on reset, a 4420 (log 6), with nothing written to memory (log 1). -/
def State.reset : State where
  part := .azunel4420
  mem := []
  engine := Engine.powerOn
  slate := SlateReader.reset
  table := []
  lane0 := Lane.reset
  lane1 := Lane.reset
  banks := Vector.replicate 4 .free
  parkOrder := []
  bandSets := Vector.replicate 8 BandSet.powerOn
  accums := Vector.replicate 64 Total.zero
  writer := CompletionWriter.reset
  window := WindowPort.reset
  readData := 0
  free := 0
  pending := []

/-! ## How a step can stop -/

/-- Why the machine stops with a fault: it never does. The spec gives every command an effect in every state, and a
bus error is an event with an effect of its own (R173, R179, R184), so no command of the model faults (log 29,
safe). -/
inductive Fault where
  deriving DecidableEq, Repr

/-- Why a command is refused. -/
inductive Refusal where
  /-- Raised by Dispatch alone, for a command that has no meaning yet; safe: nothing is claimed of it. -/
  | notModelled (mnemonic : String)
  deriving DecidableEq, Repr

end Sys2Proof.Machine
end

