-- ==== Sys2Proof/Machine/Memory.lean ====
section
/-! DEFINITION. The shared memory: reading and writing bytes, its canonical form, byte order (R156), and the packed
decimal forms (R2, R3, R8, R156). -/

namespace Sys2Proof.Machine

/-! ## Bytes of memory -/

/-- What an unlisted byte reads as (log 1, DESIGN CHOICE). -/
def unlistedByte : Byte := 0

/-- The byte at an address. -/
def Memory.read : Memory → Nat → Byte
  | [], _ => unlistedByte
  | (k, b) :: rest, a => if k = a then b else Memory.read rest a

/-- Memory with the byte at an address written; the canonical form is kept. -/
def Memory.write : Memory → Nat → Byte → Memory
  | [], a, b => if b = unlistedByte then [] else [(a, b)]
  | (k, c) :: rest, a, b =>
    if a < k then (if b = unlistedByte then (k, c) :: rest else (a, b) :: (k, c) :: rest)
    else if a = k then (if b = unlistedByte then rest else (a, b) :: rest)
    else (k, c) :: Memory.write rest a b

/-- Every listed address lies above `low`, the addresses rise strictly, none is beyond the top of the address space,
and no listed byte is what an unlisted one reads as. -/
def Memory.canonicalAbove : Int → Memory → Bool
  | _, [] => true
  | low, (k, b) :: rest =>
    decide (low < (k : Int)) && decide (k ≤ Config.topAddress) && decide (b ≠ unlistedByte) &&
      Memory.canonicalAbove k rest

/-- The canonical form (log 1). -/
def Memory.wf (m : Memory) : Bool := Memory.canonicalAbove (-1) m

/-- The memory cell key of an address computed in the natural numbers: 32-bit addresses (section 0.7, log 24). -/
def wrapAddr (a : Nat) : Nat := a % (Config.topAddress + 1)

/-- `n` bytes from address `a` up. -/
def Memory.readBytes (m : Memory) : Nat → Nat → List Byte
  | _, 0 => []
  | a, n + 1 => m.read (wrapAddr a) :: Memory.readBytes m (a + 1) n

/-- The bytes written from address `a` up. -/
def Memory.writeBytes : Memory → Nat → List Byte → Memory
  | m, _, [] => m
  | m, a, b :: rest => Memory.writeBytes (m.write (wrapAddr a) b) (a + 1) rest

/-- The bytes written from address `a` up, but for those that `took` says memory did not take (log 9). -/
def Memory.writeTaken (took : Nat → Bool) : Memory → Nat → Nat → List Byte → Memory
  | m, _, _, [] => m
  | m, a, i, b :: rest =>
    Memory.writeTaken took (if took i then m.write (wrapAddr a) b else m) (a + 1) (i + 1) rest

/-- Memory after the host's writes (log 2). -/
def Memory.hostWrites : Memory → HostWrites → Memory
  | m, [] => m
  | m, (a, b) :: rest => Memory.hostWrites (m.write a.toNat b) rest

/-! ## Byte order -/

/-- The value of bytes, the first least significant (R156). -/
def leValue : List Byte → Nat
  | [] => 0
  | b :: rest => b.toNat + 256 * leValue rest

/-- `n` bytes of a value, the first least significant (R156). -/
def leBytes : Nat → Nat → List Byte
  | 0, _ => []
  | n + 1, v => BitVec.ofNat 8 v :: leBytes n (v / 256)

/-- The value of bytes, the first most significant: nibbles in reading order become digits from the top (R156). -/
def beValue (bs : List Byte) : Nat := leValue bs.reverse

/-- `n` bytes of a value, the first most significant. -/
def beBytes (n v : Nat) : List Byte := (leBytes n v).reverse

/-- The byte at offset `i` of a format. -/
def byteAt (bs : List Byte) (i : Nat) : Byte := bs.getD i 0

/-- `n` bytes at offset `i` of a format. -/
def slice (bs : List Byte) (i n : Nat) : List Byte := (bs.drop i).take n

/-- The little-endian field of `n` bytes at offset `i` (R156). -/
def leField (bs : List Byte) (i n : Nat) : Nat := leValue (slice bs i n)

/-! ## Packed decimals

A packed decimal field read as one big-endian number has digit position `k` in nibble `k`, or in nibble `k + 1` where
a sign nibble stands lowest. -/

/-- The packed digits of the low `k` digit positions of a value. -/
def packDigits : Nat → Nat → Nat
  | 0, _ => 0
  | k + 1, v => v % 10 + 16 * packDigits k (v / 10)

/-- Whether the low `k` nibbles are all digits (R6). -/
def digitsOk : Nat → Nat → Bool
  | 0, _ => true
  | k + 1, raw => decide (raw % 16 ≤ 9) && digitsOk k (raw / 16)

/-- The value of the low `k` nibbles as digits (R2). -/
def digitsValue : Nat → Nat → Nat
  | 0, _ => 0
  | k + 1, raw => raw % 16 + 10 * digitsValue k (raw / 16)

/-- The plus code of a sign nibble (R3). -/
def plusCode : Nat := 0xC

/-- The minus code of a sign nibble (R3). -/
def minusCode : Nat := 0xD

/-- The signed value of `k` digits over a sign nibble, or none where a digit or the sign is bad. Minus zero is plus
zero (R3, R7). -/
def unpackSigned (k raw : Nat) : Option Int :=
  if digitsOk k (raw / 16) then
    if raw % 16 = plusCode then some (digitsValue k (raw / 16))
    else if raw % 16 = minusCode then some (-(digitsValue k (raw / 16) : Int))
    else none
  else none

/-- The packed form of a signed value: `k` digits over a sign nibble, plus on zero (R8). -/
def packSigned (k : Nat) (v : Int) : Nat :=
  16 * packDigits k v.natAbs + (if v < 0 then minusCode else plusCode)

/-- The signed decimal field of `k` digits that lies in `n` bytes at offset `i`; its pad nibble is not checked (R156,
log 21). -/
def signedField (k : Nat) (bs : List Byte) (i n : Nat) : Option Int := unpackSigned k (beValue (slice bs i n))

end Sys2Proof.Machine
end

