-- ==== Sys2Proof/Machine/Operands.lean ====
section
/-! DEFINITION. The operand forms: order kinds and codes, grid descriptors, windows and walks, planes, cells in their
five formats, the fields of an order body, and the formats the part writes (chapters 1 and 2, R156). -/

namespace Sys2Proof.Machine

/-! ## Codes of R156 -/

/-- The order kind of a kind code. -/
def kindOfCode (code : Nat) : Option OrderKind :=
  match code with
  | 1 => some .tally
  | 2 => some .difference
  | 3 => some .compare
  | 4 => some .convert
  | 5 => some .pattern
  | 6 => some .bandset
  | 7 => some .preset
  | 8 => some .snapshot
  | _ => none

/-- The kind code of an order kind. -/
def OrderKind.code : OrderKind → Nat
  | .tally => 1
  | .difference => 2
  | .compare => 3
  | .convert => 4
  | .pattern => 5
  | .bandset => 6
  | .preset => 7
  | .snapshot => 8

/-- Whether a kind is a housekeeping kind (R125). -/
def OrderKind.housekeeping : OrderKind → Bool
  | .bandset | .preset | .snapshot => true
  | .tally | .difference | .compare | .convert | .pattern => false

/-- Whether a part carries out a kind (section 0.2, R197). -/
def carriesOut : Part → OrderKind → Bool
  | .azunel4410, .compare | .azunel4410, .pattern => false
  | _, _ => true

/-- The code of a final state (R136). -/
def FinalState.code : FinalState → Nat
  | .done => 3
  | .failed => 4
  | .cancelled => 5

/-- The code of a reason (R156). -/
def Reason.code : Reason → Nat
  | .none => 0x00
  | .kindAbsent => 0x01
  | .fieldRange => 0x02
  | .gridRange => 0x03
  | .windowRange => 0x04
  | .accumRange => 0x05
  | .bandSetEmpty => 0x06
  | .bandSetInvalid => 0x07
  | .bandSetInUse => 0x08
  | .memoryFault => 0x09
  | .recordMalformed => 0x0A
  | .timeLimit => 0x0B
  | .hostCancel => 0x10
  | .engineStopped => 0x11

/-- The code of an exception kind (R156). -/
def ExceptionKind.code : ExceptionKind → Nat
  | .malformed => 1
  | .saturated => 2
  | .rollover => 3
  | .reversal => 4
  | .unbanded => 5
  | .alarmBand => 6

/-! ## Cell formats -/

/-- The five cell formats (section 1.2). -/
inductive CellFormat where
  | dec (n : Nat)
  | sdec (n : Nat)
  | bin16
  | bin32
  | field (w : Nat)
  deriving DecidableEq, Repr

/-- The format a descriptor's code and count name (R156). -/
def formatOfCode (code n : Nat) : Option CellFormat :=
  match code with
  | 1 => some (.dec n)
  | 2 => some (.sdec n)
  | 3 => some .bin16
  | 4 => some .bin32
  | 5 => some (.field n)
  | _ => none

/-- Bytes of a cell of a byte format (R18). A FIELD cell has none of its own. -/
def CellFormat.cellBytes : CellFormat → Nat
  | .dec n => (n + 1) / 2
  | .sdec n => (n + 2) / 2
  | .bin16 => 2
  | .bin32 => 4
  | .field _ => 0

/-- Whether a destination of this format is signed (R14). -/
def CellFormat.signed : CellFormat → Bool
  | .sdec _ => true
  | .dec _ | .bin16 | .bin32 | .field _ => false

/-- The value of a cell, or none where it is MALFORMED (R2 to R7). `bit` is the place of a FIELD cell's lowest bit in
its first byte (R20). -/
def CellFormat.decode (f : CellFormat) (bit : Nat) (bytes : List Byte) : Option Int :=
  match f with
  | .dec n =>
    let raw := beValue bytes
    if digitsOk n raw ∧ raw / 16 ^ n = 0 then some (digitsValue n raw : Int) else none
  | .sdec n =>
    let raw := beValue bytes
    if raw / 16 ^ (n + 1) = 0 then unpackSigned n raw else none
  | .bin16 | .bin32 => some (leValue bytes : Int)
  | .field w => some ((leValue bytes / 2 ^ bit % 2 ^ w : Nat) : Int)

/-- The content of a cell of a byte format that holds an in-range value (R8). -/
def CellFormat.encode (f : CellFormat) (v : Int) : List Byte :=
  match f with
  | .dec n => beBytes f.cellBytes (packDigits n v.toNat)
  | .sdec n => beBytes f.cellBytes (packSigned n v)
  | .bin16 | .bin32 => leBytes f.cellBytes v.toNat
  | .field _ => []

/-- `n` nibbles, each from `old` where its mask bit is set and from `new` otherwise (R35). -/
def mergeDigits : Nat → Nat → Nat → Nat → Nat
  | 0, _, _, _ => 0
  | n + 1, mask, old, new =>
    (if mask % 2 = 1 then old % 16 else new % 16) + 16 * mergeDigits n (mask / 2) (old / 16) (new / 16)

/-- The bytes a read-modify-write puts back: a FIELD cell's bits replaced (R32), or the kept digits of a decimal cell
merged with the new value's other digits, pad and sign (R35). -/
def CellFormat.merge (f : CellFormat) (bit mask : Nat) (old : List Byte) (v : Int) : List Byte :=
  match f with
  | .dec n => beBytes f.cellBytes (mergeDigits n mask (beValue old) (beValue (f.encode v)))
  | .sdec n =>
    let new := beValue (f.encode v)
    beBytes f.cellBytes (new % 16 + 16 * mergeDigits n mask (beValue old / 16) (new / 16))
  | .bin16 | .bin32 => f.encode v
  | .field w =>
    let o := leValue old
    leBytes old.length (o % 2 ^ bit + v.toNat % 2 ^ w * 2 ^ bit + o / 2 ^ (bit + w) * 2 ^ (bit + w))

/-! ## Grids -/

/-- A grid descriptor (R18). -/
structure Grid where
  base : Nat
  rows : Nat
  cols : Nat
  pitch : Nat
  format : CellFormat
  deriving DecidableEq, Repr

/-- The format of the descriptor at offset `i` of a body, or none for an unlisted code (R21). -/
def gridFormat (body : List Byte) (i : Nat) : Option CellFormat :=
  formatOfCode (byteAt body (i + 12)).toNat (byteAt body (i + 13)).toNat

/-- The descriptor at offset `i` of a body (R156). An order whose format code is unlisted never reaches a lane
(R21). -/
def gridAt (body : List Byte) (i : Nat) : Grid where
  base := leField body i 4
  rows := leField body (i + 4) 2
  cols := leField body (i + 6) 2
  pitch := leField body (i + 8) 4
  format := (gridFormat body i).getD .bin16

/-- The descriptor of source A. -/
def gridA (body : List Byte) : Grid := gridAt body 0

/-- The descriptor of source B. -/
def gridB (body : List Byte) : Grid := gridAt body 24

/-- The descriptor of destination C. -/
def gridC (body : List Byte) : Grid := gridAt body 48

/-- The row size of a grid, in bytes or, for FIELD-w, in bits (R18). -/
def Grid.rowSize (g : Grid) : Nat :=
  match g.format with
  | .field w => g.cols * w
  | f => g.cols * f.cellBytes

/-- The address of the last byte of a grid (R21). -/
def Grid.lastByte (g : Grid) : Nat :=
  match g.format with
  | .field w => g.base + ((g.rows - 1) * g.pitch + g.cols * w - 1) / 8
  | _ => g.base + (g.rows - 1) * g.pitch + g.rowSize - 1

/-- The bit offset of a FIELD cell from the grid base (R20). -/
def Grid.bitOffset (g : Grid) (w r c : Nat) : Nat := r * g.pitch + c * w

/-- The address of the first byte a cell touches (R19, R20). -/
def Grid.cellAddr (g : Grid) (r c : Nat) : Nat :=
  match g.format with
  | .field w => g.base + g.bitOffset w r c / 8
  | f => g.base + r * g.pitch + c * f.cellBytes

/-- The place of a FIELD cell's lowest bit in its first byte (R20); 0 for a byte format. -/
def Grid.cellBit (g : Grid) (r c : Nat) : Nat :=
  match g.format with
  | .field w => g.bitOffset w r c % 8
  | _ => 0

/-- How many bytes a cell touches (R19, R20). -/
def Grid.cellLen (g : Grid) (r c : Nat) : Nat :=
  match g.format with
  | .field w => (g.bitOffset w r c % 8 + w + 7) / 8
  | f => f.cellBytes

/-- The value of the cell whose bytes were read (R42). -/
def Grid.decodeCell (g : Grid) (r c : Nat) (bytes : List Byte) : Option Int :=
  g.format.decode (g.cellBit r c) bytes

/-! ## Windows and walks -/

/-- The window form code (R22). -/
def windowForm (body : List Byte) : Nat := (byteAt body 80).toNat

/-- The axis a code names (R24). -/
def axisOfCode (code : Nat) : Axis := if code = 1 then .columnsFirst else .rowsFirst

/-- The direction a code names (R24). -/
def directionOfCode (code : Nat) : Direction := if code = 1 then .reverse else .forward

/-- The walk of an order, at its first cell (R22, R24, R25). -/
def walkOf (body : List Byte) : Walk where
  rowStart := leField body 84 2
  rowEnd := if windowForm body = 1 then leField body 84 2 + leField body 88 2 else leField body 88 2
  colStart := leField body 86 2
  colEnd := if windowForm body = 1 then leField body 86 2 + leField body 90 2 else leField body 90 2
  axis := axisOfCode (byteAt body 81).toNat
  colDir := directionOfCode (byteAt body 82).toNat
  rowDir := directionOfCode (byteAt body 83).toNat
  next := 0

/-- The rows of a window, R of R22. -/
def Walk.rows (w : Walk) : Nat := w.rowEnd - w.rowStart + 1

/-- The columns of a window, C of R22. -/
def Walk.cols (w : Walk) : Nat := w.colEnd - w.colStart + 1

/-- The cells of a window (R22). -/
def Walk.cells (w : Walk) : Nat := w.rows * w.cols

/-- The distances i and j of the cell at walk index `k` from the starting row and column (R24). -/
def Walk.distances (w : Walk) (k : Nat) : Nat × Nat :=
  match w.axis with
  | .rowsFirst => (k / w.cols, k % w.cols)
  | .columnsFirst => (k % w.rows, k / w.rows)

/-- The cell at walk index `k`, as (row, column) (R24). -/
def Walk.cellAt (w : Walk) (k : Nat) : Nat × Nat :=
  let (i, j) := w.distances k
  (match w.rowDir with
    | .forward => w.rowStart + i
    | .reverse => w.rowEnd - i,
   match w.colDir with
    | .forward => w.colStart + j
    | .reverse => w.colEnd - j)

/-- The cell the walk comes to next (R25). -/
def Walk.cell (w : Walk) : Nat × Nat := w.cellAt w.next

/-- Whether the walk is over (R25). -/
def Walk.over (w : Walk) : Bool := decide (w.cells ≤ w.next)

/-- Whether the exclusion rectangle excludes a cell (R28). -/
def excludes (body : List Byte) (r c : Nat) : Bool :=
  let inside := decide (leField body 94 2 ≤ r) && decide (r ≤ leField body 98 2) &&
    decide (leField body 96 2 ≤ c) && decide (c ≤ leField body 100 2)
  match (byteAt body 92).toNat with
  | 1 => inside
  | 2 => !inside
  | _ => false

/-! ## Planes -/

/-- The base and pitch of the mark plane; base 0 means none (R26). -/
def markPlane (body : List Byte) : Nat × Nat := (leField body 72 4, leField body 76 4)

/-- The base and pitch of the result plane of a COMPARE (R29). -/
def resultPlane (body : List Byte) : Nat × Nat := (leField body 156 4, leField body 160 4)

/-- The byte of a plane that holds the bit of a cell (R26, R29). -/
def planeAddr (plane : Nat × Nat) (r c : Nat) : Nat := plane.1 + r * plane.2 + c / 8

/-- Whether an order has a mark plane; PATTERN has none (R26). -/
def hasMarkPlane (kind : OrderKind) (body : List Byte) : Bool :=
  match kind with
  | .pattern => false
  | _ => decide ((markPlane body).1 ≠ 0)

/-! ## Other fields of a walking order's body (R156) -/

/-- The offset (R45). -/
def offsetOf (body : List Byte) : Int := (signedField 24 body 104 13).getD 0

/-- The scale s (R12, R13). -/
def scaleOf (body : List Byte) : Int := (byteAt body 117).toInt

/-- Whether the rounding mode is HALF_UP (R13). -/
def halfUp (body : List Byte) : Bool := byteAt body 118 == 1

/-- The tally width n_t (R14). -/
def tallyWidth (body : List Byte) : Nat := (byteAt body 119).toNat

/-- The keep mask, bit k for digit position k (R34). -/
def keepMask (body : List Byte) : Nat := leField body 120 3

/-- The rollover digits m (R101). -/
def rolloverDigits (body : List Byte) : Nat := (byteAt body 123).toNat

/-- The packed digits of the rollover limit (R101). -/
def rolloverRaw (body : List Byte) : Nat := beValue (slice body 124 12)

/-- The rollover limit L (R101). -/
def rolloverLimit (body : List Byte) : Nat := digitsValue 24 (rolloverRaw body)

/-- The residue accumulator, or none for FFh (R65). -/
def residueOf (body : List Byte) : Option (Fin 64) :=
  if byteAt body 137 = 0xFF then none else some (Fin.ofNat 64 (byteAt body 137).toNat)

/-- Whether a COMPARE's operand is the constant K (R108). -/
def comparesConstant (body : List Byte) : Bool := byteAt body 138 == 1

/-- The constant K of a COMPARE, and the first value V of a PATTERN (R107, R120). -/
def constantOf (body : List Byte) : Int := (signedField 24 body 140 13).getD 0

/-- The step S of a PATTERN; only RAMP checks it (R120, log 18). -/
def stepOf (body : List Byte) : Int := (signedField 24 body 164 13).getD 0

/-- The second value W of a PATTERN (R120). -/
def secondOf (body : List Byte) : Int := (signedField 24 body 177 13).getD 0

/-- Whether a relation code holds between a value and its operand (R109). -/
def relationHolds (code : Nat) (a b : Int) : Bool :=
  match code with
  | 0 => decide (a = b)
  | 1 => decide (a ≠ b)
  | 2 => decide (b < a)
  | 3 => decide (b ≤ a)
  | 4 => decide (a < b)
  | 5 => decide (a ≤ b)
  | _ => false

/-- The band set an order references (section 4.3): a TALLY's always, a DIFFERENCE's unless the field is FFh. -/
def referencedSet (kind : OrderKind) (body : List Byte) : Option (Fin 8) :=
  match kind with
  | .tally => some (Fin.ofNat 8 (byteAt body 136).toNat)
  | .difference =>
    if byteAt body 136 = 0xFF then none else some (Fin.ofNat 8 (byteAt body 136).toNat)
  | _ => none

/-! ## The body of a housekeeping order (R156) -/

/-- The set number of a BANDSET (R127). -/
def bandsetNumber (body : List Byte) : Fin 8 := Fin.ofNat 8 (byteAt body 0).toNat

/-- The first accumulator of a PRESET or SNAPSHOT (R129, R131). -/
def firstAccum (body : List Byte) : Nat := (byteAt body 0).toNat

/-- The last accumulator of a PRESET or SNAPSHOT (R129, R131). -/
def lastAccum (body : List Byte) : Nat := (byteAt body 1).toNat

/-- How many accumulators the range of a PRESET or SNAPSHOT holds. -/
def rangeSize (body : List Byte) : Nat := lastAccum body - firstAccum body + 1

/-- The image or record address of a housekeeping order. -/
def dataAddr (body : List Byte) : Nat := leField body 4 4

/-- The CLEAR flag of a SNAPSHOT (R131). -/
def clearFlag (body : List Byte) : Bool := (byteAt body 8).getLsbD 0

/-! ## The slot header (R156) -/

/-- The header copy of a slot header whose kind is known (R157). -/
def headerOf (kind : OrderKind) (header : List Byte) : Header where
  kind := kind
  urgent := byteAt header 3 == 1
  hold := (byteAt header 6).getLsbD 0
  notify := (byteAt header 6).getLsbD 1
  tag := BitVec.ofNat 16 (leField header 4 2)
  listAddr := BitVec.ofNat 32 (leField header 8 4)
  listCapacity := leField header 12 2

/-! ## Formats the part writes (R156) -/

/-- An exception record, 32 bytes. -/
def exceptionRecord (tag : BitVec 16) (row col : Nat) (e : CellException) : List Byte :=
  leBytes 2 row ++ leBytes 2 col ++ leBytes 1 e.kind.code ++ leBytes 1 e.sub ++ leBytes 2 tag.toNat ++
    beBytes 15 (packSigned 28 e.value) ++ leBytes 9 0

/-- A snapshot or preset record, 24 bytes. That bits 7 to 1 of its flags byte are written 0 is the model's choice
(log 39). -/
def totalRecord (i : Nat) (t : Total) : List Byte :=
  leBytes 1 i ++ leBytes 1 t.overflow.toNat ++ leBytes 2 0 ++ leBytes 4 t.count ++
    beBytes 15 (packSigned 28 t.value) ++ leBytes 1 0

/-- The total a record holds, or none where the record read from the position of accumulator `i` is malformed
(R84). -/
def recordTotal (i : Nat) (bytes : List Byte) : Option Total :=
  match signedField 28 bytes 8 15 with
  | none => none
  | some v =>
    if (byteAt bytes 0).toNat = i then some ⟨v, leField bytes 4 4, (byteAt bytes 1).getLsbD 0⟩ else none

/-- Band `i` of a band set image (R156); bounds are not decoded here (R56). That a bound loaded as minus zero keeps its
minus code, which a window read then shows, is the model's choice between R56 and R7 (log 36). -/
def imageBand (image : List Byte) (i : Nat) : Band where
  low := BitVec.ofNat 100 (beValue (slice image (8 + 32 * i) 13))
  high := BitVec.ofNat 100 (beValue (slice image (21 + 32 * i) 13))
  accum := byteAt image (34 + 32 * i)
  alarm := (byteAt image (35 + 32 * i)).getLsbD 0

/-- The indicator byte of a result area. -/
def Indicators.code (x : Indicators) : Nat :=
  x.zero.toNat + 2 * x.saturated.toNat + 4 * x.overflow.toNat + 8 * x.lost.toNat +
    16 * x.allTrue.toNat + 32 * x.noneTrue.toNat

/-- The 48 bytes of a result area (R94, R126, R156). -/
def resultArea (h : HandOver) : List Byte :=
  leBytes 1 h.final.code ++ leBytes 1 h.reason.code ++ leBytes 1 h.indicators.code ++ leBytes 1 h.parkCount ++
    leBytes 2 h.tag.toNat ++
    leBytes 2 (match h.fault with | some (r, _) => r | none => 0xFFFF) ++
    leBytes 2 (match h.fault with | some (_, c) => c | none => 0xFFFF) ++
    leBytes 2 h.record.written ++
    leBytes 4 h.record.visited ++ leBytes 4 h.record.contributed ++ leBytes 4 h.record.marked ++
    leBytes 4 h.record.excluded ++ leBytes 4 h.record.rejected ++
    leBytes 4 h.record.raised ++ leBytes 4 h.record.lost ++
    leBytes 4 h.record.trueCount ++ leBytes 4 h.record.falseCount

end Sys2Proof.Machine
end

