-- ==== Sys2Proof/Machine/Convert.lean ====
section
/-! DEFINITION. The arithmetic of a cell: scaling, saturation, the DIFFERENCE value, classification, generated
values, the saturating totals, and the whole stage from operand bytes to a cell's outcome (chapters 1, 3, 4, 5). -/

namespace Sys2Proof.Machine

/-! ## Saturation and scaling -/

/-- A value held to a magnitude, and whether it had to be. -/
def clampTo (limit v : Int) : Int × Bool :=
  if limit < v then (limit, true) else if v < -limit then (-limit, true) else (v, false)

/-- A value held to 28 nines of its sign (R48, R72, R74, R82). -/
def clampTotal (v : Int) : Int × Bool := clampTo Config.maxTotal v

/-- Scaling by 10^s, and whether the step saturates (R12, R13). -/
def scaleValue (s : Int) (half : Bool) (v : Int) : Int × Bool :=
  if 0 ≤ s then clampTo Config.maxWorking (v * 10 ^ s.toNat)
  else
    let p := 10 ^ (-s).toNat
    let q := v.natAbs / p
    let q' := if half && decide (p ≤ 2 * (v.natAbs % p)) then q + 1 else q
    (if v < 0 then -(q' : Int) else (q' : Int), false)

/-- The output classes of R14. -/
inductive OutputClass where
  | signed (n : Nat)
  | unsigned (n : Nat)
  | binary (b : Nat)
  deriving DecidableEq, Repr

/-- The output class of a destination format (R14). -/
def CellFormat.outputClass : CellFormat → OutputClass
  | .dec n => .unsigned n
  | .sdec n => .signed n
  | .bin16 => .binary 16
  | .bin32 => .binary 32
  | .field w => .binary w

/-- A value brought into 0 to `top`, and whether it had to be (R16, R17). -/
def clampUnsigned (top v : Int) : Int × Bool :=
  if v < 0 then (0, true) else if top < v then (top, true) else (v, false)

/-- Saturation at the output, and its report (R15, R16, R17). -/
def OutputClass.saturate : OutputClass → Int → Int × Bool
  | .signed n, v => clampTo (10 ^ n - 1) v
  | .unsigned n, v => clampUnsigned (10 ^ n - 1) v
  | .binary b, v => clampUnsigned (2 ^ b - 1) v

/-- What the conversion stage hands on: the output value, the saturated mark, and the working value as it reached
output saturation (R47, R48). -/
structure Converted where
  output : Int
  saturated : Bool
  before : Int
  deriving DecidableEq, Repr

/-- Steps 3 to 5 of the conversion stage (R45 to R48). -/
def convertValue (body : List Byte) (cls : OutputClass) (v : Int) : Converted :=
  let (u, s4) := scaleValue (scaleOf body) (halfUp body) (v + offsetOf body)
  let (o, s5) := cls.saturate u
  ⟨o, s4 || s5, u⟩

/-- The SATURATED exception of a cell, where its saturated mark is set (R48). -/
def saturatedException (x : Converted) : List CellException :=
  if x.saturated then [⟨.saturated, 0, (clampTotal x.before).1⟩] else []

/-! ## DIFFERENCE -/

/-- The DIFFERENCE value and its exception (R102). -/
def formDifference (m limit : Nat) (a b : Int) : Int × Option CellException :=
  if b ≤ a then (a - b, none)
  else
    let w := a + 10 ^ m - b
    if 1 ≤ m ∧ 1 ≤ w ∧ w ≤ limit then (w, some ⟨.rollover, 0, w⟩)
    else (a - b, some ⟨.reversal, 0, a - b⟩)

/-! ## Band sets and classification -/

/-- The value of a stored bound (R57); a malformed bound has none that is used. -/
def boundValue (b : BitVec 100) : Option Int := unpackSigned 24 b.toNat

/-- Low and high bound of a band of a valid set. -/
def Band.lowValue (b : Band) : Int := (boundValue b.low).getD 0

/-- High bound of a band of a valid set. -/
def Band.highValue (b : Band) : Int := (boundValue b.high).getD 0

/-- Whether one band passes R57 and lies above the bands before it. -/
def bandsAscend : Option Int → List Band → Bool
  | _, [] => true
  | prev, b :: rest =>
    match boundValue b.low, boundValue b.high with
    | some lo, some hi =>
      decide (lo ≤ hi) && (match prev with | none => true | some p => decide (p < lo)) &&
        decide (b.accum.toNat ≤ 63) && bandsAscend (some hi) rest
    | _, _ => false

/-- The check of a band count and its bands (R57). -/
def bandsValid (count : Nat) (bands : List Band) : Bool :=
  decide (1 ≤ count) && decide (count ≤ 8) && bandsAscend none (bands.take count)

/-- The bands in use of a set. -/
def BandSet.inUse (s : BandSet) : List Band := s.bands.toList.take s.count.toNat

/-- Whether a set passes its check (R57). -/
def BandSet.valid (s : BandSet) : Bool := bandsValid s.count.toNat s.bands.toList

/-- Where a value falls (R66). -/
inductive BandResult where
  | band (i : Nat)
  | gap
  | below
  | above
  deriving DecidableEq, Repr

/-- The classification of a value against the bands of a set, counted from `i` (R66). `any` says that a band has been
passed below it. -/
def classifyIn (v : Int) : Bool → Nat → List Band → BandResult
  | _, _, [] => .above
  | passed, i, b :: rest =>
    if v < b.lowValue then (if passed then .gap else .below)
    else if v ≤ b.highValue then .band i
    else classifyIn v true (i + 1) rest

/-- The classification of a value against a set (R66). -/
def classify (s : BandSet) (v : Int) : BandResult := classifyIn v false 0 s.inUse

/-- The staging entry that a classified value is added to, or none (R67, R68). -/
def stagingEntry (residue : Option (Fin 64)) : BandResult → Option (Fin 9)
  | .band i => some (Fin.ofNat 9 i)
  | .gap | .below | .above => if residue.isSome then some 8 else none

/-- The classification exception of a value (R69, codes in R156). -/
def classException (s : BandSet) (v : Int) : BandResult → List CellException
  | .band i => if (s.bands.toList.getD i Band.powerOn).alarm then [⟨.alarmBand, i, v⟩] else []
  | .gap => [⟨.unbanded, 1, v⟩]
  | .below => [⟨.unbanded, 2, v⟩]
  | .above => [⟨.unbanded, 3, v⟩]

/-! ## Totals -/

/-- The Bank's saturating addition, and whether it saturated (R72). -/
def Total.add (a : Total) (x : Int) (n : Nat) : Total × Bool :=
  let (v, vs) := clampTotal (a.value + x)
  let cs := decide (Config.maxCount < a.count + n)
  (⟨v, if cs then Config.maxCount else a.count + n, a.overflow || vs || cs⟩, vs || cs)

/-- One contribution to a staging entry (R74). -/
def Total.contribute (e : Total) (v : Int) : Total :=
  let (x, s) := clampTotal (e.value + v)
  ⟨x, e.count + 1, e.overflow || s⟩

/-- One staging entry applied to its accumulator, and whether the commit reports overflow for it (R77). -/
def Total.applyEntry (a e : Total) : Total × Bool :=
  let (t, s) := a.add e.value e.count
  (⟨t.value, t.count, t.overflow || e.overflow⟩, s || e.overflow)

/-- The clear of one accumulator by what the latch holds of it (R82). -/
def Total.clearBy (latched a : Total) : Total :=
  if latched.overflow then Total.zero
  else
    let (v, s) := clampTotal (a.value - latched.value)
    ⟨v, a.count - latched.count, a.overflow || s || decide (a.count < latched.count)⟩

/-! ## PATTERN -/

/-- The generated value of a cell (R121); RAMP takes the ramp position, which R123 keeps at V + k × S. -/
def generatedValue (body : List Byte) (ramp : Int) (r c : Nat) : Int :=
  match (byteAt body 153).toNat with
  | 1 => ramp
  | 2 => if (r + c) % 2 = 0 then constantOf body else secondOf body
  | _ => constantOf body

/-- A generated value brought into the destination's range (R122). -/
def patternValue (f : CellFormat) (g : Int) : Converted :=
  match f.outputClass with
  | .signed n =>
    let (o, s) := OutputClass.saturate (.signed n) g
    ⟨o, s, g⟩
  | .unsigned n => ⟨g % 10 ^ n, false, g⟩
  | .binary b => ⟨g % 2 ^ b, false, g⟩

/-! ## The stage of a cell -/

/-- A cell whose work begins: nothing decoded, nothing raised (R41). -/
def CellWork.begin (r c : Nat) : CellWork := ⟨r, c, [], none, false, false, [], .excluded, false, none⟩

/-- A cell rejected for a MALFORMED operand (R42). -/
def CellWork.reject (w : CellWork) : CellWork :=
  { w with malformed := true, exceptions := [⟨.malformed, 0, 0⟩], cls := .rejected }

/-- TALLY: the decoded value converted, classified and contributed (R98). -/
def tallyCell (body : List Byte) (set : BandSet) (w : CellWork) (a : Int) : CellWork × Option (Fin 9) :=
  let x := convertValue body (.signed (tallyWidth body)) a
  let b := classify set x.output
  let e := stagingEntry (residueOf body) b
  ({ w with
      working := some x.output
      saturated := x.saturated
      exceptions := saturatedException x ++ classException set x.output b
      cls := if e.isSome then .contributed else .rejected
      nonzero := e.isSome && decide (x.output ≠ 0) }, e)

/-- DIFFERENCE: the value formed (R9, R102), then rejected with that value still held (R103) or converted, classified
where a set is named, and written (R104). -/
def differenceCell (body : List Byte) (set : Option BandSet) (w : CellWork) (a b : Int) :
    CellWork × Option (Fin 9) :=
  let (d, raised) := formDifference (rolloverDigits body) (rolloverLimit body) a b
  if raised.any (fun e => e.kind == .reversal) && !(gridC body).format.signed then
    ({ w with working := some d, exceptions := raised.toList, cls := .rejected }, none)
  else
    let x := convertValue body (gridC body).format.outputClass d
    let r := set.map (fun s => (s, classify s x.output))
    ({ w with
        working := some x.output
        saturated := x.saturated
        exceptions := saturatedException x ++ raised.toList ++
          (match r with | some (s, k) => classException s x.output k | none => [])
        cls := .contributed
        nonzero := decide (x.output ≠ 0) },
      match r with
      | some (_, k) => stagingEntry (residueOf body) k
      | none => none)

/-- CONVERT: the decoded value converted to the destination's class (R118). -/
def convertCell (body : List Byte) (w : CellWork) (a : Int) : CellWork :=
  let x := convertValue body (gridC body).format.outputClass a
  { w with
    working := some x.output
    saturated := x.saturated
    exceptions := saturatedException x
    cls := .contributed
    nonzero := decide (x.output ≠ 0) }

/-- COMPARE: the verdict of the relation (R109, R110). -/
def compareCell (body : List Byte) (w : CellWork) (a b : Int) : CellWork :=
  { w with
    cls := .contributed
    verdict := some (relationHolds (byteAt body 139).toNat a b) }

/-- PATTERN: the generated value brought into range (R122, R124). -/
def patternCell (body : List Byte) (ramp : Int) (w : CellWork) : CellWork :=
  let x := patternValue (gridC body).format (generatedValue body ramp w.row w.col)
  { w with
    working := some x.output
    saturated := x.saturated
    exceptions := saturatedException x
    cls := .contributed
    nonzero := decide (x.output ≠ 0) }

/-- Whether a kind reads source B for each cell (R30). -/
def readsB (kind : OrderKind) (body : List Byte) : Bool :=
  match kind with
  | .difference => true
  | .compare => !comparesConstant body
  | _ => false

/-- Decoding and all that lies between the operand reads and the writes of a cell (R42, R44, R91 steps 3 and 4), and
the staging entry that takes the working value. `set` is the band set the order references. -/
def workCell (kind : OrderKind) (body : List Byte) (set : Option BandSet) (w : CellWork) (bytesA bytesB : List Byte) :
    CellWork × Option (Fin 9) :=
  let a := (gridA body).decodeCell w.row w.col bytesA
  let b :=
    if readsB kind body then (gridB body).decodeCell w.row w.col bytesB
    else some (constantOf body)
  match a, b with
  | some x, some y =>
    match kind with
    | .tally => tallyCell body (set.getD BandSet.powerOn) w x
    | .difference => differenceCell body set w x y
    | .compare => (compareCell body w x y, none)
    | .convert => (convertCell body w x, none)
    | .pattern | .bandset | .preset | .snapshot => (w, none)
  | _, _ => (w.reject, none)

/-- Whether a worked cell's destination or result bit is written (R30): COMPARE always writes its bit; DIFFERENCE,
CONVERT and PATTERN write C unless the cell is rejected; TALLY writes none. -/
def writesDestination (kind : OrderKind) (w : CellWork) : Bool :=
  match kind with
  | .compare => true
  | .difference | .convert | .pattern => decide (w.cls = .contributed)
  | .tally | .bandset | .preset | .snapshot => false

/-- Whether the old destination content is read first (R29, R30 step 3, R32, R35). -/
def readsDestination (kind : OrderKind) (body : List Byte) : Bool :=
  match kind with
  | .compare => true
  | _ =>
    match (gridC body).format with
    | .field _ => true
    | .dec _ | .sdec _ => decide (keepMask body ≠ 0)
    | .bin16 | .bin32 => false

end Sys2Proof.Machine
end

