-- ==== Sys2Proof/Machine/Flags.lean ====
section
/-! DEFINITION. Every flag the spec derives: result indicators (R93), the marks a cell sets, the sticky STATUS flags
(R191), IRQ (R193), and the register reads that show them (R196, R198). -/

namespace Sys2Proof.Machine

/-! ## Result indicators -/

/-- The indicators of a walking order, by its kind's entry (R93, R99, R105, R112, R119, R124). `overflow` is the
commit report, which only an order that ended DONE has. -/
def walkIndicators (kind : OrderKind) (r : OrderRecord) (overflow : Bool) : Indicators :=
  match kind with
  | .tally | .difference => ⟨!r.nonzero, r.saturated, overflow, decide (0 < r.lost), false, false⟩
  | .convert | .pattern => ⟨!r.nonzero, r.saturated, false, decide (0 < r.lost), false, false⟩
  | .compare =>
    ⟨false, false, false, decide (0 < r.lost), decide (r.falseCount = 0) && decide (0 < r.trueCount),
      decide (r.trueCount = 0)⟩
  | .bandset | .preset | .snapshot => Indicators.clear

/-- The indicators of a housekeeping order: OVERFLOW alone, for a SNAPSHOT that latched an overflow flag (R126,
R132). -/
def housekeepingIndicators (kind : OrderKind) (overflow : Bool) : Indicators :=
  match kind with
  | .snapshot => { Indicators.clear with overflow := overflow }
  | _ => Indicators.clear

/-! ## The per-order record -/

/-- One cell counted at its boundary: visited, its class, the marks, and a COMPARE's verdict (R37, R93, R110). -/
def OrderRecord.countCell (r : OrderRecord) (w : CellWork) : OrderRecord :=
  { r with
    visited := r.visited + 1
    contributed := r.contributed + (if w.cls = .contributed then 1 else 0)
    marked := r.marked + (if w.cls = .marked then 1 else 0)
    excluded := r.excluded + (if w.cls = .excluded then 1 else 0)
    rejected := r.rejected + (if w.cls = .rejected then 1 else 0)
    nonzero := r.nonzero || w.nonzero
    saturated := r.saturated || w.saturated
    trueCount := r.trueCount + (if w.verdict = some true then 1 else 0)
    falseCount := r.falseCount + (if w.verdict = some false then 1 else 0) }

/-- One exception record written (R114). -/
def OrderRecord.countWritten (r : OrderRecord) : OrderRecord :=
  { r with raised := r.raised + 1, written := r.written + 1, cursor := r.cursor + 1 }

/-- One exception lost (R114). -/
def OrderRecord.countLost (r : OrderRecord) : OrderRecord :=
  { r with raised := r.raised + 1, lost := r.lost + 1 }

/-- The exceptions at the head of a cell's set that find no room, counted as lost; what is left begins with one that
is written, or is empty (R114). -/
def OrderRecord.loseFull (capacity : Nat) : OrderRecord → List CellException → OrderRecord × List CellException
  | r, [] => (r, [])
  | r, e :: rest =>
    if r.cursor < capacity then (r, e :: rest) else OrderRecord.loseFull capacity r.countLost rest

/-! ## Sticky flags, IRQ and register reads -/

/-- Flags cleared where the write carries 1 (R191). -/
def stickyCleared (flags clear : StickyBits) : StickyBits where
  anchorFault := flags.anchorFault && !clear.anchorFault
  slateFault := flags.slateFault && !clear.slateFault
  cancelMiss := flags.cancelMiss && !clear.cancelMiss
  windowRefused := flags.windowRefused && !clear.windowRefused

/-- The level of the IRQ output (R193). -/
def State.irq (s : State) : Bool :=
  decide (0 < s.writer.notifyPending) ||
    (s.engine.flags.anchorFault && s.engine.irqEnables.anchorFault) ||
    (s.engine.flags.slateFault && s.engine.irqEnables.slateFault) ||
    (s.engine.flags.cancelMiss && s.engine.irqEnables.cancelMiss) ||
    (s.engine.flags.windowRefused && s.engine.irqEnables.windowRefused)

/-- The code of an engine state in STATUS and in the fault record (R196, R205). -/
def EngineState.code : EngineState → Nat
  | .off => 0
  | .starting => 1
  | .running => 2
  | .pausing => 3
  | .paused => 4
  | .stopping => 5
  | .halted => 6

/-- The code of an access kind (R185). -/
def FaultKind.code : FaultKind → Nat
  | .none => 0
  | .anchorRead => 1
  | .wordRead => 2
  | .anchorContent => 3
  | .headerRead => 4
  | .takenWrite => 5
  | .progressWrite => 6
  | .resultWrite => 7
  | .stateWrite => 8
  | .wordWrite => 9
  | .handBackWrite => 10

/-- Whether the engine is PAUSING or PAUSED, as CONTROL.PAUSE reads (R178). -/
def EngineState.freezes : EngineState → Bool
  | .pausing | .paused => true
  | .off | .starting | .running | .stopping | .halted => false

/-- What CONTROL.ENABLE reads (R198). -/
def EngineState.enabled : EngineState → Bool
  | .starting | .running | .pausing | .paused => true
  | .off | .stopping | .halted => false

/-- Sticky bits in bits 8 to 11 of a register (R196). -/
def stickyWord (b : StickyBits) : Nat :=
  256 * b.anchorFault.toNat + 512 * b.slateFault.toNat + 1024 * b.cancelMiss.toNat + 2048 * b.windowRefused.toNat

/-- The IDENT register (R197). -/
def identWord : Part → Word
  | .azunel4420 => 0x11FFFFFF
  | .azunel4410 => 0x13FFFFEB

/-- The CONTROL register as read (R178, R198). -/
def State.controlWord (s : State) : Word :=
  BitVec.ofNat 32 (s.engine.state.enabled.toNat + 2 * s.engine.state.freezes.toNat + stickyWord s.engine.irqEnables)

/-- The STATUS register as read (R191, R192, R196). -/
def State.statusWord (s : State) : Word :=
  BitVec.ofNat 32 (s.engine.state.code + stickyWord s.engine.flags + 65536 * s.writer.notifyPending)

/-- The WINDOW_ADDR register as read (R196, R200). -/
def State.windowAddrWord (s : State) : Word :=
  BitVec.ofNat 32 (s.window.addr.toNat + 2147483648 * s.window.autoIncrement.toNat)

/-- The word of the register at an offset (R196). -/
def State.registerWord (s : State) (offset : Nat) : Word :=
  if offset = 0x00 then identWord s.part
  else if offset = 0x04 then s.controlWord
  else if offset = 0x08 then s.statusWord
  else if offset = 0x0C then s.engine.anchorReg
  else if offset = 0x1C then s.windowAddrWord
  else if offset = 0x20 then s.window.buffer
  else 0

/-- The word that a four-byte read of the register space returns: that of the register in which the offset lies (R196,
R198). A WINDOW_DATA read returns the read buffer; its effects are the command WINDOW_DATA_READ, whatever its width. -/
def State.readRegister (s : State) (offset : BitVec 6) : Word := s.registerWord (offset.toNat / 4 * 4)

/-- The byte of the register space at an offset (R196). -/
def State.readRegisterByte (s : State) (offset : BitVec 6) : Byte :=
  (s.readRegister offset).extractLsb' (8 * (offset.toNat % 4)) 8

/-- What a read of `n` bytes of the register space returns: the bytes addressed (R196). -/
def State.readRegisterBytes (s : State) (offset : BitVec 6) (n : Nat) : List Byte :=
  (List.range n).map (fun i => s.readRegisterByte (offset + BitVec.ofNat 6 i))

end Sys2Proof.Machine
end

