-- ==== Sys2Proof/Machine/Ops.lean ====
section
/-! DEFINITION. The shared operations over the state: lanes, entries, banks, issued writes, hand-overs, the ends of
orders, stop requests, and the engine's own passages to PAUSED and OFF. -/

namespace Sys2Proof.Machine

/-! ## Parts of the state -/

/-- A lane. -/
def State.lane (s : State) : LaneId → Lane
  | .lane0 => s.lane0
  | .lane1 => s.lane1

/-- The state with a lane replaced. -/
def State.setLane (s : State) (n : LaneId) (l : Lane) : State :=
  match n with
  | .lane0 => { s with lane0 := l }
  | .lane1 => { s with lane1 := l }

/-- The state with a park bank replaced. -/
def State.setBank (s : State) (b : Fin 4) (x : ParkBank) : State := { s with banks := s.banks.set b x }

/-- The state with a band set replaced. -/
def State.setBandSet (s : State) (i : Fin 8) (x : BandSet) : State := { s with bandSets := s.bandSets.set i x }

/-- The entry that holds a slot (R142: at most one does). -/
def State.entry? (s : State) (slot : Nat) : Option Entry := s.table.find? (fun e => e.slot == slot)

/-- The state with the entry of a slot changed. -/
def State.updEntry (s : State) (slot : Nat) (f : Entry → Entry) : State :=
  { s with table := s.table.map (fun e => if e.slot = slot then f e else e) }

/-- The state with the entry of a slot removed; the others keep their order (R157). -/
def State.removeEntry (s : State) (slot : Nat) : State :=
  { s with table := s.table.filter (fun e => e.slot != slot) }

/-- The entry that a lane runs. -/
def State.laneEntry (s : State) (n : LaneId) : Option Entry :=
  match (s.lane n).order with
  | some slot => s.entry? slot
  | none => none

/-- The address of a slot (R134). -/
def State.slotAddr (s : State) (slot : Nat) : Nat := s.engine.anchor.slateBase.toNat + 256 * slot

/-- The state with the engine in another state (R177). -/
def State.setEngineState (s : State) (x : EngineState) : State := { s with engine := { s.engine with state := x } }

/-- The state with sticky flags changed (R191). -/
def State.setFlags (s : State) (f : StickyBits → StickyBits) : State :=
  { s with engine := { s.engine with flags := f s.engine.flags } }

/-- CANCEL_MISS set (R191). -/
def State.cancelMissed (s : State) : State := s.setFlags (fun f => { f with cancelMiss := true })

/-- WINDOW_REFUSED set (R191). -/
def State.windowRefused (s : State) : State := s.setFlags (fun f => { f with windowRefused := true })

/-- The state with the Slate Reader changed. -/
def State.setSlate (s : State) (x : SlateReader) : State := { s with slate := x }

/-- The state with the Completion Writer changed. -/
def State.setWriter (s : State) (x : CompletionWriter) : State := { s with writer := x }

/-- The state with memory changed. -/
def State.setMem (s : State) (m : Memory) : State := { s with mem := m }

/-- The state with the accumulators changed. -/
def State.setAccums (s : State) (accums : Vector Total 64) : State := { s with accums := accums }

/-- The state after the host's writes (log 2). -/
def State.afterHost (s : State) (host : HostWrites) : State := s.setMem (s.mem.hostWrites host)

/-- The band set that an entry references, as the Band Store holds it. -/
def State.setOfEntry (s : State) (e : Entry) : Option BandSet :=
  (referencedSet e.header.kind e.body).map (fun i => s.bandSets[i])

/-- The sweep-in-progress flag: a sweep has a slot in hand (R139, R145). -/
def SlateReader.sweeping (x : SlateReader) : Bool :=
  match x.step with
  | .idle | .handBackWrite _ => false
  | .headerRead _ | .bodyRead _ _ | .takenWrite _ _ _ | .failing _ => true

/-- Whether a lane's park is under way (R169). -/
def Lane.parkUnderWay (l : Lane) : Bool :=
  match l.work with
  | .parkedWrite _ => true
  | _ => false

/-- Whether a lane is ACTIVE or YIELDING. -/
def Lane.busy (l : Lane) : Bool := l.state == .active || l.state == .yielding

/-! ## Issued writes -/

/-- The write a lane has issued, as address and bytes: a progress byte (R137), a destination write (R31), an exception
record (R114) or a snapshot record (R81). -/
def State.laneWrite (s : State) (n : LaneId) : Option (Nat × List Byte) :=
  let l := s.lane n
  match l.work with
  | .runningWrite _ => l.order.map (fun slot => (s.slotAddr slot + 1, [2]))
  | .parkedWrite _ => l.order.map (fun slot => (s.slotAddr slot + 1, [3]))
  | .destinationWrite a bytes _ => some (a.toNat, bytes)
  | .exceptionWrite =>
    match s.laneEntry n, l.context, l.cell with
    | some e, some c, some w =>
      w.exceptions.head?.map (fun x =>
        (e.header.listAddr.toNat + 32 * c.record.cursor, exceptionRecord e.header.tag w.row w.col x))
    | _, _, _ => none
  | .recordWrite =>
    (s.laneEntry n).map (fun e =>
      let i := firstAccum e.body + (l.steps - 1)
      (dataAddr e.body + 24 * (l.steps - 1), totalRecord i l.buffer.entries[Fin.ofNat 64 i]))
  | _ => none

/-- The write the Slate Reader has issued: TAKEN with WAITING, or POSTED with NONE (R144, R153). -/
def State.slateWrite (s : State) : Option (Nat × List Byte) :=
  match s.slate.step with
  | .takenWrite slot _ _ => some (s.slotAddr slot, [2, 1])
  | .handBackWrite slot => some (s.slotAddr slot, [1, 0])
  | .idle | .headerRead _ | .bodyRead _ _ | .failing _ => none

/-- The bytes of a final-state write (R137, R152). -/
def stateBytes (h : HandOver) : List Byte :=
  if h.atTake then [BitVec.ofNat 8 h.final.code, 0] else [BitVec.ofNat 8 h.final.code]

/-- The write the Completion Writer has issued (R152). -/
def State.writerWrite (s : State) : Option (Nat × List Byte) :=
  match s.writer.step with
  | .idle => none
  | .resultWrite h => some (s.slotAddr h.slot + 16, resultArea h)
  | .stateWrite h => some (s.slotAddr h.slot, stateBytes h)
  | .wordWrite _ => some (s.engine.anchor.wordAddr.toNat, leBytes 4 s.writer.count.toNat)

/-- Memory after an issued write has landed whole. -/
def Memory.land (m : Memory) : Option (Nat × List Byte) → Memory
  | none => m
  | some (a, bytes) => m.writeBytes a bytes

/-- Whether a lane holds a claim at the Memory Port: the write of its read-modify-write is issued (R33). -/
def Lane.holdsClaim (l : Lane) : Bool :=
  match l.work with
  | .destinationWrite _ _ claim => claim
  | _ => false

/-- Every issued write landed whole, a held claim before the other lane's write (R31, R33, R174, R175, log 7). -/
def State.landIssued (s : State) : State :=
  let first := if s.lane1.holdsClaim then LaneId.lane1 else LaneId.lane0
  let second := if s.lane1.holdsClaim then LaneId.lane0 else LaneId.lane1
  s.setMem
    ((((s.mem.land (s.laneWrite first)).land (s.laneWrite second)).land s.slateWrite).land s.writerWrite)

/-- The other lane. -/
def otherLane : LaneId → LaneId
  | .lane0 => .lane1
  | .lane1 => .lane0

/-- Whether two runs of bytes share a byte. -/
def runsMeet (a n b k : Nat) : Bool := decide (a < b + k) && decide (b < a + n)

/-- Whether the other lane's claim covers a byte of a run, so that the Memory Port answers no write of this lane to it
and no read that begins a claim on it (R33, log 10). A write of the Slate Reader or the Completion Writer is not held
back by a claim: R33 is silent on it (log 10, the model's choice). -/
def State.claimed (s : State) (n : LaneId) (a len : Nat) : Bool :=
  match (s.lane (otherLane n)).work with
  | .destinationWrite b bytes true => runsMeet a len b.toNat bytes.length
  | _ => false

/-- Whether the lane's issued write must wait for the other lane's claim (R33). -/
def State.writeHeld (s : State) (n : LaneId) : Bool :=
  match s.laneWrite n with
  | some (a, bytes) => s.claimed n a bytes.length
  | none => false

/-! ## Hand-overs and the ends of orders -/

/-- A hand-over joins those that wait at the Completion Writer (R150). -/
def State.handOver (s : State) (h : HandOver) : State :=
  s.setWriter { s.writer with waiting := s.writer.waiting ++ [h] }

/-- The hand-overs after the first `k` marked as having come together with the one before them, but for the first of
them (R150, log 16). -/
def joinAfter (k : Nat) (hs : List HandOver) : List HandOver :=
  hs.take (k + 1) ++ (hs.drop (k + 1)).map (fun h => { h with together := true })

/-- One event: the hand-overs it makes reach the Completion Writer together (log 16). -/
def State.asOneEvent (s : State) (f : State → State) : State :=
  let t := f s
  t.setWriter { t.writer with waiting := joinAfter s.writer.waiting.length t.writer.waiting }

/-- The hand-over of a walking order (R94). -/
def walkHandOver (e : Entry) (r : OrderRecord) (final : FinalState) (reason : Reason) (overflow : Bool)
    (fault : Option (Nat × Nat)) : HandOver where
  slot := e.slot
  final := final
  reason := reason
  indicators := walkIndicators e.header.kind r overflow
  record := r
  fault := fault
  parkCount := e.parkCount
  tag := e.header.tag
  notify := e.header.notify
  atTake := false
  together := false

/-- The hand-over of an order that has worked nothing, or of a housekeeping order: every count 0 (R60, R126, R145,
R188). -/
def plainHandOver (e : Entry) (final : FinalState) (reason : Reason) (indicators : Indicators) : HandOver where
  slot := e.slot
  final := final
  reason := reason
  indicators := indicators
  record := OrderRecord.start
  fault := none
  parkCount := e.parkCount
  tag := e.header.tag
  notify := e.header.notify
  atTake := false
  together := false

/-- The band set claim of an entry released, where it holds one (R62). -/
def State.releaseSet (s : State) (e : Entry) : State :=
  if e.claimed then
    match referencedSet e.header.kind e.body with
    | some i =>
      (s.setBandSet i { s.bandSets[i] with uses := s.bandSets[i].uses - 1 }).updEntry e.slot
        (fun x => { x with claimed := false })
    | none => s
  else s

/-- The bank that a lane's pending PARK reserves set free (R168). -/
def State.freeRequestBank (s : State) (n : LaneId) : State :=
  match (s.lane n).request with
  | .park b => s.setBank b .free
  | .none | .timeLimit | .cancel | .engineStop => s

/-- A lane that has handed its order over: end mark set, no request, context, staging set, buffers and cell dropped
(R75, R79, R90, R161). -/
def Lane.ending (l : Lane) : Lane :=
  { l with
    state := .active
    endMark := true
    request := .none
    context := none
    staging := Staging.start
    buffer := RecordBuffer.empty
    image := []
    cell := none
    work := .handedOver }

/-- A walking order ended on its lane with its counts as they stand (R95, R171, R173): pending request dropped, band
set released, hand-over made. -/
def State.endWalk (s : State) (n : LaneId) (final : FinalState) (reason : Reason) (fault : Option (Nat × Nat)) :
    State :=
  match s.laneEntry n, (s.lane n).context with
  | some e, some c =>
    let h := walkHandOver e c.record final reason (final == .done && c.commitOverflow) fault
    (((s.freeRequestBank n).setLane n (s.lane n).ending).releaseSet e).handOver h
  | _, _ => s

/-- An order ended on its lane with every count 0: a failed start claim, or a housekeeping order (R60, R126). -/
def State.endPlain (s : State) (n : LaneId) (final : FinalState) (reason : Reason) : State :=
  match s.laneEntry n with
  | some e =>
    let i := housekeepingIndicators e.header.kind ((s.lane n).buffer.entries.toList.any (fun t => t.overflow))
    ((s.freeRequestBank n).setLane n (s.lane n).ending).handOver (plainHandOver e final reason i)
  | none => s

/-- A PARKED order ended CANCELLED by the Dispatcher with the counts of its bank (R182, R190). That it leaves the
park-order list at an engine stop too is log 35. -/
def State.endParked (s : State) (slot : Nat) (reason : Reason) : State :=
  match s.entry? slot with
  | some e =>
    match s.banks[e.bank] with
    | .holding c =>
      let t := (s.releaseSet e).updEntry slot (fun x => { x with ended := true })
      ({ t with parkOrder := t.parkOrder.filter (fun k => k != slot) } : State).handOver
        (walkHandOver e c.record .cancelled reason false none)
    | .free | .reserved _ => s
  | none => s

/-! ## Stop requests -/

/-- The rank of a stop request (R170). -/
def StopRequest.rank : StopRequest → Nat
  | .none => 0
  | .park _ => 1
  | .timeLimit => 2
  | .cancel => 3
  | .engineStop => 4

/-- A request other than PARK acted on as the order's end (R171). -/
def State.actOn (s : State) (n : LaneId) (r : StopRequest) : State :=
  match r with
  | .timeLimit => s.endWalk n .failed .timeLimit none
  | .cancel => s.endWalk n .cancelled .hostCancel none
  | .engineStop => s.endWalk n .cancelled .engineStopped none
  | .none | .park _ => s

/-- A stop request posted to a lane that runs a walking order: kept where it outranks what is pending, and then acted
on at once by a FROZEN lane (R160, R161, R169, R170). -/
def State.post (s : State) (n : LaneId) (r : StopRequest) : State :=
  let l := s.lane n
  if l.state = .idle ∨ l.endMark ∨ l.parkUnderWay then s
  else if l.request.rank < r.rank then
    let t := (s.freeRequestBank n).setLane n { l with request := r, state := .yielding }
    if l.state = .frozen then t.actOn n r else t
  else s

/-! ## The engine's own passages -/

/-- PAUSING becomes PAUSED when no lane is ACTIVE or YIELDING and no sweep is in progress (R180). -/
def State.settlePause (s : State) : State :=
  if s.engine.state = .pausing ∧ s.lane0.busy = false ∧ s.lane1.busy = false ∧ s.slate.sweeping = false then
    s.setEngineState .paused
  else s

/-- STOPPING becomes OFF when the Order Table is empty, the Completion Writer holds nothing, and the Slate Reader has
no slot in hand (R177, R183, log 19). -/
def State.settleStop (s : State) : State :=
  if s.engine.state = .stopping ∧ s.table = [] ∧ s.writer.waiting = [] ∧ s.writer.step = .idle ∧
      s.slate.step = .idle then
    s.setEngineState .off
  else s

end Sys2Proof.Machine
end

