-- ==== Sys2Proof/Machine/TakeChecks.lean ====
section
/-! DEFINITION. The checks that the Slate Reader makes of an order at take, in the sequence of R143. -/

namespace Sys2Proof.Machine

/-- Whether a signed 24-digit field at offset `i` has only digit nibbles and a sign code (R50, R108, R120). -/
def signedFieldOk (body : List Byte) (i : Nat) : Bool := (signedField 24 body i 13).isSome

/-- The exception list fields of a header (R113). -/
def listOk (header : List Byte) : Bool :=
  let cap := leField header 12 2
  decide (cap ≤ 4096) && (decide (cap = 0) || decide (leField header 8 4 + 32 * cap - 1 ≤ Config.topAddress))

/-- The header's FIELD_RANGE checks: urgency and exception list (R143 step 3). -/
def headerFieldsOk (header : List Byte) : Bool :=
  decide ((byteAt header 3).toNat ≤ 1) && listOk header

/-- The form, walk and exclusion codes of a walking order (R22, R24, R28). -/
def walkFieldsOk (body : List Byte) : Bool :=
  decide (windowForm body ≤ 1) && decide ((byteAt body 81).toNat ≤ 1) && decide ((byteAt body 82).toNat ≤ 1) &&
    decide ((byteAt body 83).toNat ≤ 1) && decide ((byteAt body 92).toNat ≤ 2)

/-- The conversion fields (R50). -/
def conversionFieldsOk (body : List Byte) : Bool :=
  signedFieldOk body 104 && decide (-8 ≤ scaleOf body) && decide (scaleOf body ≤ 8) &&
    decide ((byteAt body 118).toNat ≤ 1)

/-- The keep mask against the destination's format (R34). -/
def keepMaskOk (body : List Byte) : Bool :=
  match gridFormat body 48 with
  | some (.dec n) | some (.sdec n) => decide (keepMask body < 2 ^ n)
  | some .bin16 | some .bin32 | some (.field _) => decide (keepMask body = 0)
  | none => true

/-- The rollover fields (R101). -/
def rolloverFieldsOk (body : List Byte) : Bool :=
  decide (rolloverDigits body ≤ 24) && digitsOk 24 (rolloverRaw body)

/-- Whether both accumulator indices of a PRESET or SNAPSHOT lie in range (R129, R131). -/
def accumRangeOk (body : List Byte) : Bool :=
  decide (firstAccum body ≤ 63) && decide (lastAccum body ≤ 63) && decide (firstAccum body ≤ lastAccum body)

/-- The record range of a PRESET or SNAPSHOT, checked only where the indices pass (R129, R131). -/
def recordRangeOk (body : List Byte) : Bool :=
  !accumRangeOk body || decide (dataAddr body + 24 * rangeSize body - 1 ≤ Config.topAddress)

/-- The PATTERN fields (R120). -/
def patternFieldsOk (body : List Byte) : Bool :=
  let generator := (byteAt body 153).toNat
  decide (generator ≤ 2) && signedFieldOk body 140 &&
    (decide (generator ≠ 1) || signedFieldOk body 164) && (decide (generator ≠ 2) || signedFieldOk body 177)

/-- The COMPARE fields (R108). -/
def compareFieldsOk (body : List Byte) : Bool :=
  decide ((byteAt body 138).toNat ≤ 1) && decide ((byteAt body 139).toNat ≤ 5) &&
    (!comparesConstant body || signedFieldOk body 140)

/-- Every FIELD_RANGE check of a kind's body (R143 step 3). -/
def bodyFieldsOk (kind : OrderKind) (body : List Byte) : Bool :=
  match kind with
  | .tally =>
    walkFieldsOk body && conversionFieldsOk body && decide (1 ≤ tallyWidth body) &&
      decide (tallyWidth body ≤ 24) && decide ((byteAt body 136).toNat ≤ 7)
  | .difference =>
    walkFieldsOk body && conversionFieldsOk body && keepMaskOk body && rolloverFieldsOk body &&
      (decide ((byteAt body 136).toNat ≤ 7) || byteAt body 136 == 0xFF)
  | .compare => walkFieldsOk body && compareFieldsOk body
  | .convert => walkFieldsOk body && conversionFieldsOk body && keepMaskOk body
  | .pattern => walkFieldsOk body && keepMaskOk body && patternFieldsOk body
  | .bandset =>
    decide ((byteAt body 0).toNat ≤ 7) && decide (dataAddr body + 263 ≤ Config.topAddress)
  | .preset | .snapshot => recordRangeOk body

/-- The descriptors a kind names, by their offsets in the body (R21, R100, R107). -/
def gridsNamed (kind : OrderKind) (body : List Byte) : List Nat :=
  match kind with
  | .tally => [0]
  | .difference => [0, 24, 48]
  | .compare => if comparesConstant body then [0] else [0, 24]
  | .convert => [0, 48]
  | .pattern => [48]
  | .bandset | .preset | .snapshot => []

/-- Whether a format's digit or bit count is one of its values (R21). -/
def CellFormat.countOk : CellFormat → Bool
  | .dec n | .sdec n => decide (1 ≤ n) && decide (n ≤ 24)
  | .field w => decide (1 ≤ w) && decide (w ≤ 32)
  | .bin16 | .bin32 => true

/-- The descriptor check of R21. -/
def gridOk (body : List Byte) (i : Nat) : Bool :=
  let g := gridAt body i
  (gridFormat body i).isSome && g.format.countOk &&
    decide (1 ≤ g.rows) && decide (g.rows ≤ 4096) && decide (1 ≤ g.cols) && decide (g.cols ≤ 4096) &&
    decide (g.rowSize ≤ g.pitch) && decide (g.lastByte ≤ Config.topAddress)

/-- The window's own range (R22). -/
def windowRangeOk (body : List Byte) : Bool :=
  let w := walkOf body
  decide (leField body 84 2 ≤ 4095) && decide (leField body 86 2 ≤ 4095) &&
    decide (leField body 88 2 ≤ 4095) && decide (leField body 90 2 ≤ 4095) &&
    decide (w.rowEnd ≤ 4095) && decide (w.colEnd ≤ 4095) &&
    decide (w.rowStart ≤ w.rowEnd) && decide (w.colStart ≤ w.colEnd)

/-- The exclusion rectangle's range (R28). -/
def exclusionRangeOk (body : List Byte) : Bool :=
  decide ((byteAt body 92).toNat = 0) ||
    (decide (leField body 94 2 ≤ 4095) && decide (leField body 96 2 ≤ 4095) &&
      decide (leField body 98 2 ≤ 4095) && decide (leField body 100 2 ≤ 4095) &&
      decide (leField body 94 2 ≤ leField body 98 2) && decide (leField body 96 2 ≤ leField body 100 2))

/-- Whether the window lies inside a plane (R23). -/
def planeOk (body : List Byte) (plane : Nat × Nat) : Bool :=
  let w := walkOf body
  decide (w.colEnd / 8 + 1 ≤ plane.2) && decide (planeAddr plane w.rowEnd w.colEnd ≤ Config.topAddress)

/-- Every WINDOW_RANGE check of a walking kind (R22, R23, R28). -/
def windowOk (kind : OrderKind) (body : List Byte) : Bool :=
  let w := walkOf body
  windowRangeOk body && exclusionRangeOk body &&
    (gridsNamed kind body).all (fun i =>
      decide (w.rowEnd < (gridAt body i).rows) && decide (w.colEnd < (gridAt body i).cols)) &&
    (!hasMarkPlane kind body || planeOk body (markPlane body)) &&
    (decide (kind ≠ .compare) || planeOk body (resultPlane body))

/-- Whether a residue field is FFh or an accumulator (R65). -/
def residueOk (body : List Byte) : Bool :=
  byteAt body 137 == 0xFF || decide ((byteAt body 137).toNat ≤ 63)

/-- Every ACCUM_RANGE check of a kind (R65, R129, R131). -/
def accumOk (kind : OrderKind) (body : List Byte) : Bool :=
  match kind with
  | .tally => residueOk body
  | .difference => byteAt body 136 == 0xFF || residueOk body
  | .preset | .snapshot => accumRangeOk body
  | .compare | .convert | .pattern | .bandset => true

/-- Why an order whose body was read fails at take, or none (R143 steps 3 to 6). -/
def takeFailure (kind : OrderKind) (header body : List Byte) : Option Reason :=
  if !(headerFieldsOk header && bodyFieldsOk kind body) then some .fieldRange
  else if !(gridsNamed kind body).all (gridOk body) then some .gridRange
  else if !(kind.housekeeping || windowOk kind body) then some .windowRange
  else if !accumOk kind body then some .accumRange
  else none

/-- The kind that a header names and the part carries out, or none for KIND_ABSENT (R143 step 1, R197). -/
def kindAtTake (part : Part) (header : List Byte) : Option OrderKind :=
  match kindOfCode (byteAt header 2).toNat with
  | some k => if carriesOut part k then some k else none
  | none => none

end Sys2Proof.Machine
end

