-- ==== Sys2Proof/Machine/Sweep.lean ====
section
/-! DEFINITION. The sweep's shared operations: its beginning, its advance past a slot, its end (R139 to R142, R148). -/

namespace Sys2Proof.Machine

/-- A sweep begun at the cursor, with sweep-again as given: the header read of its first slot is issued (R140, R142).
A cursor at or above the slot count is treated as 0 (R139). -/
def State.beginSweep (s : State) (again : Bool) : State :=
  let cur := if s.slate.cursor < s.engine.anchor.slotCount then s.slate.cursor else 0
  s.setSlate { s.slate with cursor := cur, again := again, ending := false, visited := 0, step := .headerRead cur }

/-- A sweep request, by NUDGE or timer expiry (R140). -/
def State.requestSweep (s : State) : State :=
  match s.engine.state with
  | .running =>
    if s.slate.sweeping then s.setSlate { s.slate with again := true } else s.beginSweep s.slate.again
  | .pausing | .paused => s.setSlate { s.slate with again := true }
  | .off | .starting | .stopping | .halted => s

/-- The end of a sweep (R140, R141, R148): the timer is set to 0; a sweep ended for a pause leaves sweep-again set, one
ended for a stop leaves it clear; in RUNNING a sweep-again begins the next sweep. -/
def State.endSweep (s : State) : State :=
  let again := s.slate.again || s.slate.ending
  let t := s.setSlate { s.slate with timer := 0, ending := false, visited := 0, step := .idle, again := again }
  match s.engine.state with
  | .running => if again then t.beginSweep false else t
  | .stopping => t.setSlate { t.slate with again := false }
  | .off | .starting | .pausing | .paused | .halted => t

/-- The slot in hand is finished: the cursor advances past it, and the sweep goes on to the next slot or ends (R142,
R148). -/
def State.advanceSweep (s : State) (slot : Nat) : State :=
  let next := if slot + 1 < s.engine.anchor.slotCount then slot + 1 else 0
  let seen := s.slate.visited + 1
  let t := s.setSlate { s.slate with cursor := next, visited := seen, step := .headerRead next }
  if s.engine.anchor.slotCount ≤ seen ∨ s.slate.ending ∨ s.engine.state ≠ .running then t.endSweep else t

/-- An order failed at take, handed to the Completion Writer with every count 0 (R145). -/
def State.failAtTake (s : State) (slot : Nat) (header : List Byte) (reason : Reason) : State :=
  (s.setSlate { s.slate with step := .failing slot }).handOver
    { slot := slot
      final := .failed
      reason := reason
      indicators := Indicators.clear
      record := OrderRecord.start
      fault := none
      parkCount := 0
      tag := BitVec.ofNat 16 (leField header 4 2)
      notify := (byteAt header 6).getLsbD 1
      atTake := true
      together := false }

end Sys2Proof.Machine
end

