-- ==== Sys2Proof/Machine/Completion.lean ====
section
/-! DEFINITION. The Completion Writer: the four steps of a completion (R150 to R152). -/

namespace Sys2Proof.Machine

/-- How many of the waiting hand-overs reached the Completion Writer together with the first of them (R150, log 16). -/
def togetherCount : List HandOver → Nat
  | [] => 0
  | _ :: rest => 1 + (rest.takeWhile (fun h => h.together)).length

/-- The place of the hand-over that is taken next: one of those that came together first (R150). -/
def takenPlace (pick : Nat) (waiting : List HandOver) : Nat := pick % togetherCount waiting

/-- A lane that runs the order of a slot made IDLE (R160). -/
def State.clearLaneOf (s : State) (slot : Nat) (n : LaneId) : State :=
  if (s.lane n).order = some slot then s.setLane n Lane.reset else s

/-- The bank of a PARKED entry made FREE (R168). -/
def State.clearBankOf (s : State) (slot : Nat) : State :=
  match s.entry? slot with
  | some e => if e.phase = .parked then s.setBank e.bank .free else s
  | none => s

/-- What an accepted state write ends: a failure at take lets the sweep go on; any other order leaves its lane or bank
and the Order Table (R145, R152, R160, R168). -/
def State.leaveSlot (s : State) (h : HandOver) : State :=
  if h.atTake then
    match s.slate.step with
    | .failing slot => s.advanceSweep slot
    | .idle | .headerRead _ | .bodyRead _ _ | .takenWrite _ _ _ | .handBackWrite _ => s
  else
    ((((s.clearLaneOf h.slot .lane0).clearLaneOf h.slot .lane1).clearBankOf h.slot).removeEntry h.slot)

/-! ## The commands -/

/-- COMPLETION: a waiting hand-over is taken and its result area write issued (R150, R152 step 1). -/
def execCompletion (pick : Nat) (s : State) : Host.Outcome State Fault Refusal :=
  .next
    (match s.writer.step, s.writer.waiting[takenPlace pick s.writer.waiting]? with
    | .idle, some h =>
      s.setWriter
        { s.writer with
          step := .resultWrite h
          waiting := s.writer.waiting.eraseIdx (takenPlace pick s.writer.waiting) }
    | _, _ => s)

/-- RESULT_AREA_WRITE_ACCEPT: the final-state write follows (R152 step 2). -/
def execResultAreaWriteAccept (s : State) : Host.Outcome State Fault Refusal :=
  .next
    (match s.writer.step with
    | .resultWrite h => (s.setMem (s.mem.land s.writerWrite)).setWriter { s.writer with step := .stateWrite h }
    | .idle | .stateWrite _ | .wordWrite _ => s)

/-- STATE_WRITE_ACCEPT: the slot is no longer held; the count rises and the completion-word write is issued (R152 steps
2 and 3). -/
def execStateWriteAccept (s : State) : Host.Outcome State Fault Refusal :=
  .next
    (match s.writer.step with
    | .stateWrite h =>
      let t := (s.setMem (s.mem.land s.writerWrite)).leaveSlot h
      (t.setWriter { t.writer with count := t.writer.count + 1, step := .wordWrite h }).settlePause
    | .idle | .resultWrite _ | .wordWrite _ => s)

/-- COMPLETION_WORD_WRITE_ACCEPT: the notification is counted and the completion is finished (R152 step 4, R183). -/
def execCompletionWordWriteAccept (s : State) : Host.Outcome State Fault Refusal :=
  .next
    (match s.writer.step with
    | .wordWrite h =>
      let n := if h.notify then min (s.writer.notifyPending + 1) Config.maxNotify else s.writer.notifyPending
      ((s.setMem (s.mem.land s.writerWrite)).setWriter
        { s.writer with notifyPending := n, step := .idle }).settleStop
    | .idle | .resultWrite _ | .stateWrite _ => s)

end Sys2Proof.Machine
end

