-- ==== Sys2Proof/Machine/LaneOps.lean ====
section
/-! DEFINITION. The lanes' shared operations: a cell from its first access to its boundary, a step of a housekeeping
order and its boundary, and the passages IDLE, FROZEN and ACTIVE (R27, R30, R91, R125, R160). -/

namespace Sys2Proof.Machine

/-! ## Cells -/

/-- The exceptions of a cell taken against the exception cursor: those without room are lost; the first with room has
its record write issued; with none left the cell comes to its boundary (R91, R114). -/
def Lane.toRecords (e : Entry) (l : Lane) : Lane :=
  match l.context, l.cell with
  | some c, some w =>
    let (r, rest) := c.record.loseFull e.header.listCapacity w.exceptions
    { l with
      context := some { c with record := r }
      cell := some { w with exceptions := rest }
      work := if rest.isEmpty then .boundary else .exceptionWrite }
  | _, _ => l

/-- The address of a worked cell's destination: its cell of destination C, or the byte of its result bit (R19, R20,
R29). -/
def destinationAddr (e : Entry) (r c : Nat) : Nat :=
  match e.header.kind with
  | .compare => planeAddr (resultPlane e.body) r c
  | _ => (gridC e.body).cellAddr r c

/-- How many bytes a worked cell's destination touches. -/
def destinationLen (e : Entry) (r c : Nat) : Nat :=
  match e.header.kind with
  | .compare => 1
  | _ => (gridC e.body).cellLen r c

/-- The byte of a result plane with a cell's bit set or cleared (R29, R110). -/
def resultByte (old : Byte) (c : Nat) (verdict : Bool) : Byte :=
  if verdict then old ||| ((1 : Byte) <<< (c % 8)) else old &&& ~~~((1 : Byte) <<< (c % 8))

/-- The bytes that a read-modify-write puts back over the old ones (R29, R32, R35). -/
def mergedBytes (e : Entry) (w : CellWork) (old : List Byte) : List Byte :=
  match e.header.kind with
  | .compare => [resultByte (byteAt old 0) w.col (w.verdict == some true)]
  | _ =>
    (gridC e.body).format.merge ((gridC e.body).cellBit w.row w.col) (keepMask e.body) old (w.working.getD 0)

/-- The writes of a worked cell begun: the destination is read where the order needs its old content, else written
whole; a cell without a destination write goes on to its records (R30, R31). -/
def Lane.startWrites (e : Entry) (l : Lane) : Lane :=
  match l.cell with
  | some w =>
    if writesDestination e.header.kind w then
      if readsDestination e.header.kind e.body then { l with work := .destinationRead }
      else
        { l with
          work := .destinationWrite (BitVec.ofNat 32 (destinationAddr e w.row w.col))
            ((gridC e.body).format.encode (w.working.getD 0)) false }
    else l.toRecords e
  | none => l

/-- A cell that is not marked: excluded, or worked, beginning with its first source read; a PATTERN cell has its value
generated (R27, R28, R30, R124). -/
def Lane.afterMark (e : Entry) (l : Lane) : Lane :=
  match l.context, l.cell with
  | some c, some w =>
    if excludes e.body w.row w.col then
      { l with cell := some { w with cls := .excluded }, work := .boundary }
    else if e.header.kind = .pattern then
      ({ l with cell := some (patternCell e.body c.ramp w) } : Lane).startWrites e
    else { l with work := .sourceARead }
  | _, _ => l

/-- The cell at the walk index begun: its mark bit is read where the order has a mark plane (R25, R27). -/
def Lane.beginCell (e : Entry) (l : Lane) : Lane :=
  match l.context with
  | some c =>
    let w := CellWork.begin c.walk.cell.1 c.walk.cell.2
    if hasMarkPlane e.header.kind e.body then { l with cell := some w, work := .markRead }
    else ({ l with cell := some w } : Lane).afterMark e
  | none => l

/-- The lane's next cell begun (R171 case 4). -/
def State.beginCell (s : State) (n : LaneId) : State :=
  match s.laneEntry n with
  | some e => s.setLane n ((s.lane n).beginCell e)
  | none => s

/-- All operands of a cell read: it is decoded and worked, its contribution added to staging, and its writes begun
(R42, R67, R74, R91). -/
def State.workOperands (s : State) (n : LaneId) (e : Entry) (w : CellWork) (bytesA bytesB : List Byte) : State :=
  let (w', entry) := workCell e.header.kind e.body (s.setOfEntry e) w bytesA bytesB
  let l := s.lane n
  let staging :=
    match entry with
    | some i => l.staging.set i (l.staging[i].contribute (w'.working.getD 0))
    | none => l.staging
  s.setLane n (({ l with cell := some w', staging := staging } : Lane).startWrites e)

/-! ## Boundaries -/

/-- A lane frozen at a boundary, its context and buffers kept (R125, R171). -/
def State.freezeLane (s : State) (n : LaneId) : State :=
  (s.setLane n { s.lane n with state := .frozen, work := .none }).settlePause

/-- The lane's work replaced. -/
def State.setWork (s : State) (n : LaneId) (w : LaneWork) : State := s.setLane n { s.lane n with work := w }

/-- The next step of a housekeeping order, by the steps it has completed (R128, R130, R132). BANDSET's check makes no
access: an invalid image ends the order, a valid one has its load claim presented. A step that ends the order FAILED is
not counted among the steps completed (log 32, the model's choice). -/
def State.nextHousekeepingStep (s : State) (n : LaneId) (e : Entry) : State :=
  let l := s.lane n
  match e.header.kind with
  | .bandset =>
    if l.steps = 1 then s.setLane n { l with image := [], work := .imageRead }
    else if l.steps = 2 then
      if bandsValid (byteAt l.image 0).toNat ((List.range 8).map (imageBand l.image)) then
        s.setLane n { l with steps := 3, work := .loadClaim }
      else s.endPlain n .failed .bandSetInvalid
    else s.setWork n .loadClaim
  | .preset =>
    if l.steps < rangeSize e.body then s.setWork n .recordRead else s.setWork n .applyClaim
  | .snapshot =>
    if l.steps ≤ rangeSize e.body then s.setWork n .recordWrite
    else if clearFlag e.body then s.setWork n .clearClaim
    else s.endPlain n .done .none
  | .tally | .difference | .compare | .convert | .pattern => s

/-- Whether the last step of a housekeeping order is done, so that no boundary but its end follows: a SNAPSHOT without
CLEAR after its last record (R132). -/
def lastStepDone (e : Entry) (steps : Nat) : Bool :=
  match e.header.kind with
  | .snapshot => decide (rangeSize e.body < steps) && !clearFlag e.body
  | _ => false

/-- A step boundary of a housekeeping order: the lane freezes there while the engine is PAUSING or PAUSED, and goes on
otherwise (R125, R160, log 12). -/
def State.stepBoundary (s : State) (n : LaneId) (e : Entry) : State :=
  if s.engine.state.freezes && !lastStepDone e (s.lane n).steps then s.freezeLane n
  else s.nextHousekeepingStep n e

/-- A FROZEN lane goes on with its next cell or step (R160, R181, R182). -/
def State.thaw (s : State) (n : LaneId) : State :=
  if (s.lane n).state = .frozen then
    match s.laneEntry n with
    | some e =>
      let t := s.setLane n { s.lane n with state := .active }
      if e.header.kind.housekeeping then t.nextHousekeepingStep n e else t.beginCell n
    | none => s
  else s

end Sys2Proof.Machine
end

