-- ==== Sys2Proof/Machine/Control.lean ====
section
/-! DEFINITION. Resets and CONTROL writes: POWER_ON_RESET, SOFT_RESET, ENABLE, ENGINE_STOP, PAUSE, PAUSE_RELEASE,
IRQ_ENABLE_WRITE (R178 to R183, R194, R195), and the fault record of a failed start (R179, R185). -/

namespace Sys2Proof.Machine

/-- A start that fails: ANCHOR_FAULT set, the fault record written, the copy at 0, the engine OFF (R135, R179,
R185). -/
def State.failStart (s : State) (kind : FaultKind) (address : Addr) : State :=
  { s with
    engine :=
      { s.engine with
        state := .off
        abandoned := false
        access := .none
        anchor := Anchor.zero
        flags := { s.engine.flags with anchorFault := true }
        fault := ⟨address, kind, 0, .starting⟩ } }

/-- A start abandoned and its outstanding read answered: OFF with the copy at 0, no flag, no record (R179). -/
def State.dropStart (s : State) : State :=
  { s with
    engine := { s.engine with state := .off, abandoned := false, access := .none, anchor := Anchor.zero } }

/-- Entry to STARTING: the take sequence number is set to 0 and the anchor read is issued, unless the anchor block runs
beyond the top of the address space (R135, R139, R179). -/
def State.beginStart (s : State) : State :=
  let t := s.setSlate { s.slate with nextSeq := 0 }
  if Config.topAddress < s.engine.anchorReg.toNat + 31 then t.failStart .anchorContent s.engine.anchorReg
  else { t with engine := { t.engine with state := .starting, abandoned := false, access := .anchorRead } }

/-- An ENABLE 0 write taken in STARTING: the start is abandoned once its read is answered (R179). -/
def State.abandonStart (s : State) : State := { s with engine := { s.engine with abandoned := true } }

/-- Entry to PAUSING: a sweep in progress ends after its slot in hand (R148, R180). -/
def State.beginPause (s : State) : State :=
  ((s.setSlate { s.slate with ending := s.slate.sweeping }).setEngineState .pausing).settlePause

/-- Return to RUNNING: frozen lanes go on, and a sweep-again begins a sweep where none is in progress (R181, R140). -/
def State.releasePause (s : State) : State :=
  let t := ((s.setEngineState .running).thaw .lane0).thaw .lane1
  if t.slate.again && !t.slate.sweeping then t.beginSweep false else t

/-- What entry to STOPPING does at a lane: ENGINE_STOP is posted to a walking order; a FROZEN housekeeping order goes on
(R182). -/
def State.stopLane (s : State) (n : LaneId) : State :=
  match s.laneEntry n with
  | some e => if e.header.kind.housekeeping then s.thaw n else s.post n .engineStop
  | none => s

/-- The PARKED orders that entry to STOPPING ends: those whose pending cancel is clear (R182). -/
def State.parkedToEnd (s : State) : List Nat :=
  (s.table.filter (fun e => e.phase == .parked && !e.pendingCancel && !e.ended)).map (fun e => e.slot)

/-- Entry to STOPPING (R182): sweep-again is cleared, the lanes are stopped, the PARKED orders are ended. -/
def State.beginStop (s : State) : State :=
  let t := (s.setSlate { s.slate with again := false }).setEngineState .stopping
  let u := (t.stopLane .lane0).stopLane .lane1
  (u.parkedToEnd.foldl (fun x slot => x.endParked slot .engineStopped) u).settleStop

/-- What ENABLE and PAUSE of a CONTROL write do, by the engine state (R178). -/
def State.controlFields (s : State) (enable pause : Bool) : State :=
  match s.engine.state, enable, pause with
  | .off, true, _ => s.beginStart
  | .starting, false, _ => s.abandonStart
  | .running, true, true => s.beginPause
  | .running, false, _ => s.beginStop
  | .pausing, true, false => s.releasePause
  | .pausing, false, _ => s.beginStop
  | .paused, true, false => s.releasePause
  | .paused, false, _ => s.beginStop
  | _, _, _ => s

/-- The IRQ enables stored, as by every CONTROL write (R178). -/
def State.storeIrq (s : State) (irq : StickyBits) : State := { s with engine := { s.engine with irqEnables := irq } }

/-- A CONTROL write with RESET 0 (R178). -/
def State.controlWrite (s : State) (enable pause : Bool) (irq : StickyBits) : State :=
  (s.storeIrq irq).asOneEvent (fun t => t.controlFields enable pause)

/-! ## The commands -/

/-- POWER_ON_RESET (R195): every block at its power-on values; memory, the part fitted and the queue stand. -/
def execPowerOnReset (s : State) : Host.Outcome State Fault Refusal :=
  .next { State.reset with part := s.part, mem := s.mem, free := s.free, pending := s.pending }

/-- SOFT_RESET (R194): issued accesses land and their answers are dropped; every block takes its soft-reset values;
accumulators, band set contents and ANCHOR are kept, use counts become 0, IRQ enables are as the write carries. -/
def execSoftReset (irq : StickyBits) (s : State) : Host.Outcome State Fault Refusal :=
  .next
    { s.landIssued with
      engine := { Engine.powerOn with anchorReg := s.engine.anchorReg, irqEnables := irq }
      slate := SlateReader.reset
      table := []
      lane0 := Lane.reset
      lane1 := Lane.reset
      banks := Vector.replicate 4 .free
      parkOrder := []
      bandSets := s.bandSets.map (fun b => { b with uses := 0 })
      writer := CompletionWriter.reset
      window := WindowPort.reset }

/-- ENABLE: a CONTROL write with ENABLE 1 (R178, R179). -/
def execEnable (pause : Bool) (irq : StickyBits) (s : State) : Host.Outcome State Fault Refusal :=
  .next (s.controlWrite true pause irq)

/-- ENGINE_STOP: a CONTROL write with ENABLE 0 (R178, R182). -/
def execEngineStop (pause : Bool) (irq : StickyBits) (s : State) : Host.Outcome State Fault Refusal :=
  .next (s.controlWrite false pause irq)

/-- PAUSE: a CONTROL write with ENABLE 1 and PAUSE 1 (R178, R180). -/
def execPause (irq : StickyBits) (s : State) : Host.Outcome State Fault Refusal :=
  .next (s.controlWrite true true irq)

/-- PAUSE_RELEASE: a CONTROL write with ENABLE 1 and PAUSE 0 (R178, R181). -/
def execPauseRelease (irq : StickyBits) (s : State) : Host.Outcome State Fault Refusal :=
  .next (s.controlWrite true false irq)

/-- IRQ_ENABLE_WRITE: a CONTROL write that leaves ENABLE and PAUSE as they read (R178). -/
def execIrqEnableWrite (irq : StickyBits) (s : State) : Host.Outcome State Fault Refusal :=
  .next (s.storeIrq irq)

end Sys2Proof.Machine
end

