-- ==== Sys2Proof/Machine/Tick.lean ====
section
/-! DEFINITION. The passing of one microsecond: the run timers and the sweep timer count, and what they reach happens
(R141, R172, log 4). -/

namespace Sys2Proof.Machine

/-- Whether a lane's run timer counts: a walking order, ACTIVE or YIELDING, end mark clear, no park under way (R172). -/
def State.runTimerCounts (s : State) (n : LaneId) : Bool :=
  (s.lane n).context.isSome && (s.lane n).busy && !(s.lane n).endMark && !(s.lane n).parkUnderWay

/-- The order time limit in µs (R172). -/
def State.limitMicros (s : State) : Nat := s.engine.anchor.timeLimit * 1000

/-- One µs of a lane's run timer; reaching the limit posts TIME_LIMIT (R172). -/
def State.tickLane (s : State) (n : LaneId) : State :=
  if s.runTimerCounts n then
    let time := min ((s.lane n).runTimer + 1) Config.maxRunTime
    let t := s.setLane n { s.lane n with runTimer := time }
    if s.engine.anchor.timeLimit ≠ 0 ∧ (s.lane n).runTimer < s.limitMicros ∧ s.limitMicros ≤ time then
      t.post n .timeLimit
    else t
  else s

/-- Whether the sweep timer counts (R141). -/
def State.sweepTimerCounts (s : State) : Bool :=
  s.engine.state == .running && decide (s.engine.anchor.sweepPeriod ≠ 0)

/-- One µs of the sweep timer; reaching the sweep period makes a sweep request and starts again from 0 (R141). -/
def State.tickSweep (s : State) : State :=
  if s.sweepTimerCounts then
    if s.engine.anchor.sweepPeriod ≤ s.slate.timer + 1 then
      (s.setSlate { s.slate with timer := 0 }).requestSweep
    else s.setSlate { s.slate with timer := s.slate.timer + 1 }
  else s

/-- One µs (log 4). -/
def State.tick (s : State) : State := ((s.tickLane .lane0).tickLane .lane1).tickSweep

end Sys2Proof.Machine
end

