-- ==== Sys2Proof/Machine/Dispatcher.lean ====
section
/-! DEFINITION. The Dispatcher: eligibility and the fence, starts and resumes, PARK requests, withdrawals and the end of
a park (R162 to R169, R176, R182, R190). -/

namespace Sys2Proof.Machine

/-! ## Eligibility and ranking -/

/-- The eligible entries of a table; `ahead` says an entry stands before it, `fence` that one of those carries HOLD and
is WAITING (R162). -/
def eligibleFrom : Bool → Bool → List Entry → List Entry
  | _, _, [] => []
  | ahead, fence, e :: rest =>
    let tail := eligibleFrom true (fence || (e.header.hold && e.phase == .waiting)) rest
    if e.phase != .running && !e.pendingCancel && !fence && !(e.header.hold && ahead) then e :: tail else tail

/-- The eligible entries, in take order (R162). -/
def State.eligible (s : State) : List Entry := eligibleFrom false false s.table

/-- The first PARKED ROUTINE entry in park order among the eligible (R163). -/
def firstParked (parkOrder : List Nat) (eligible : List Entry) : Option Entry :=
  parkOrder.findSome? (fun slot =>
    eligible.find? (fun e => e.slot == slot && e.phase == .parked && !e.header.urgent))

/-- The entry that a start event chooses (R163). -/
def State.startChoice (s : State) : Option Entry :=
  match s.eligible.find? (fun e => e.header.urgent) with
  | some e => some e
  | none =>
    match firstParked s.parkOrder s.eligible with
    | some e => some e
    | none => s.eligible.find? (fun e => e.phase == .waiting && !e.header.urgent)

/-- The lane that a start event serves: lane 0 first (R163). -/
def State.idleLane (s : State) : Option LaneId :=
  if s.lane0.state = .idle then some .lane0 else if s.lane1.state = .idle then some .lane1 else none

/-! ## Starts and resumes -/

/-- The walk context of a first start; the ramp position begins at V (R25, R90, R123). -/
def freshContext (kind : OrderKind) (body : List Byte) : WalkContext where
  walk := walkOf body
  record := OrderRecord.start
  commitOverflow := false
  ramp := if kind = .pattern then constantOf body else 0

/-- A lane on which an order first starts, its RUNNING write issued (R164). -/
def freshLane (e : Entry) : Lane :=
  { Lane.reset with
    state := .active
    order := some e.slot
    context := if e.header.kind.housekeeping then none else some (freshContext e.header.kind e.body)
    work := .runningWrite false }

/-- A lane that resumes an order from its bank, its RUNNING write issued (R165, R168). -/
def resumedLane (e : Entry) (c : ParkedContext) : Lane :=
  { Lane.reset with
    state := .active
    order := some e.slot
    runTimer := c.runTime
    context := some ⟨{ walkOf e.body with next := c.next }, c.record, false, c.ramp⟩
    staging := c.staging
    work := .runningWrite true }

/-- An entry set RUNNING on a lane (R158). -/
def Entry.runOn (n : LaneId) (e : Entry) : Entry := { e with phase := .running, lane := n }

/-- A first start (R164). -/
def State.firstStart (s : State) (n : LaneId) (e : Entry) : State :=
  (s.setLane n (freshLane e)).updEntry e.slot (Entry.runOn n)

/-- A resume: the bank becomes FREE, and TIME_LIMIT is posted where the restored time stands at the limit (R165,
R172). -/
def State.resume (s : State) (n : LaneId) (e : Entry) : State :=
  match s.banks[e.bank] with
  | .holding c =>
    let t := ((s.setLane n (resumedLane e c)).setBank e.bank .free).updEntry e.slot (Entry.runOn n)
    let u : State := { t with parkOrder := t.parkOrder.filter (fun k => k != e.slot) }
    if s.engine.anchor.timeLimit ≠ 0 ∧ s.limitMicros ≤ c.runTime then u.post n .timeLimit else u
  | .free | .reserved _ => s

/-! ## Parks -/

/-- How many lanes satisfy a test. -/
def State.countLanes (s : State) (p : Lane → Bool) : Nat := (p s.lane0).toNat + (p s.lane1).toNat

/-- Whether a lane's pending request is PARK. -/
def Lane.parkPending (l : Lane) : Bool :=
  match l.request with
  | .park _ => true
  | .none | .timeLimit | .cancel | .engineStop => false

/-- The demand for parks: U − I − Y, or 0 where that is negative (R166). -/
def State.parkDemand (s : State) : Nat :=
  (s.eligible.filter (fun e => e.header.urgent)).length - s.countLanes (fun l => l.state == .idle) -
    s.countLanes (fun l => l.state == .yielding && !l.parkPending)

/-- The PARK requests pending. -/
def State.parksPending (s : State) : Nat := s.countLanes Lane.parkPending

/-- The place in the table of the order a lane runs. -/
def State.laneRank (s : State) (n : LaneId) : Nat := s.table.findIdx (fun e => (s.lane n).order == some e.slot)

/-- Whether a lane is a candidate for a PARK request (R166). -/
def State.parkCandidate (s : State) (n : LaneId) : Bool :=
  (s.lane n).state == .active && !(s.lane n).endMark && (s.lane n).request == .none &&
    (s.laneEntry n).any (fun e => !e.header.urgent && !e.header.kind.housekeeping)

/-- Of the lanes that pass a test, the one whose order stands later in the table. -/
def State.youngestLane (s : State) (p : LaneId → Bool) : Option LaneId :=
  if p .lane0 then
    if p .lane1 && decide (s.laneRank .lane0 < s.laneRank .lane1) then some .lane1 else some .lane0
  else if p .lane1 then some .lane1
  else none

/-- Of the lanes that pass a test, the one whose order stands earlier in the table. -/
def State.oldestLane (s : State) (p : LaneId → Bool) : Option LaneId :=
  if p .lane0 then
    if p .lane1 && decide (s.laneRank .lane1 < s.laneRank .lane0) then some .lane1 else some .lane0
  else if p .lane1 then some .lane1
  else none

/-- The lowest-numbered FREE bank (R166). -/
def State.freeBank (s : State) : Option (Fin 4) := (List.finRange 4).find? (fun b => s.banks[b] == .free)

/-- A PARK request posted to a lane with a bank reserved for it (R166, R168). -/
def State.requestPark (s : State) (n : LaneId) (b : Fin 4) : State :=
  (s.setBank b (.reserved n)).setLane n { s.lane n with request := .park b, state := .yielding }

/-- A pending PARK withdrawn: its bank FREE, the lane ACTIVE (R167). -/
def State.withdrawPark (s : State) (n : LaneId) : State :=
  (s.freeRequestBank n).setLane n { s.lane n with request := .none, state := .active }

/-- The context that a lane's park puts into its bank (R168). -/
def Lane.parkedContext (l : Lane) (slot : Nat) (c : WalkContext) : ParkedContext where
  slot := slot
  next := c.walk.next
  ramp := c.ramp
  record := c.record
  staging := l.staging
  runTime := l.runTimer

/-- An entry set PARKED in a bank (R169). -/
def Entry.parkIn (b : Fin 4) (e : Entry) : Entry :=
  { e with phase := .parked, bank := b, parkCount := min (e.parkCount + 1) 255 }

/-- A park's accepted PARKED write: bank HOLDING, entry PARKED, lane IDLE (R169). -/
def State.finishPark (s : State) (n : LaneId) (e : Entry) (c : WalkContext) (b : Fin 4) : State :=
  let t := ((s.setBank b (.holding ((s.lane n).parkedContext e.slot c))).setLane n Lane.reset).updEntry e.slot
    (Entry.parkIn b)
  { t with parkOrder := t.parkOrder ++ [e.slot] }

/-- What the Dispatcher does with an entry whose park has completed: a pending cancel or an engine stop ends it (R182,
R190). -/
def State.afterPark (s : State) (e : Entry) : State :=
  if e.pendingCancel then s.endParked e.slot .hostCancel
  else if s.engine.state = .stopping then s.endParked e.slot .engineStopped
  else s

/-! ## The commands -/

/-- START_EVENT (R163). -/
def execStartEvent (s : State) : Host.Outcome State Fault Refusal :=
  .next
    (match s.engine.state, s.idleLane, s.startChoice with
    | .running, some n, some e => if e.phase = .parked then s.resume n e else s.firstStart n e
    | _, _, _ => s)

/-- PARK_REQUEST (R166, R176). -/
def execParkRequest (s : State) : Host.Outcome State Fault Refusal :=
  .next
    (if s.engine.state = .running ∧ s.parksPending < s.parkDemand then
      match s.youngestLane s.parkCandidate, s.freeBank with
      | some n, some b => s.requestPark n b
      | _, _ => s
    else s)

/-- PARK_WITHDRAW (R167, R176). -/
def execParkWithdraw (s : State) : Host.Outcome State Fault Refusal :=
  .next
    (if s.parkDemand < s.parksPending then
      match s.oldestLane (fun n => (s.lane n).parkPending) with
      | some n => s.withdrawPark n
      | none => s
    else s)

/-- PARK_COMPLETE (R169). -/
def execParkComplete (lane : LaneId) (s : State) : Host.Outcome State Fault Refusal :=
  .next
    (match (s.lane lane).work, s.laneEntry lane, (s.lane lane).context with
    | .parkedWrite b, some e, some c =>
      if s.writeHeld lane then s
      else (((s.setMem (s.mem.land (s.laneWrite lane))).finishPark lane e c b).afterPark e).settlePause
    | _, _, _ => s)

end Sys2Proof.Machine
end

