-- ==== Sys2Proof/Machine/Faults.lean ====
section
/-! DEFINITION. Bus errors: on a lane's access, which ends its order, and on a slate access, which halts the engine
(R39, R81, R115, R128, R147, R148, R154, R173, R174, R184, R185). -/

namespace Sys2Proof.Machine

/-! ## A lane's access -/

/-- Whether a lane waits for an access whose bus error ends its order; progress writes are not among them (R173). -/
def LaneWork.faults : LaneWork → Bool
  | .imageRead | .recordRead | .recordWrite | .markRead | .sourceARead | .sourceBRead | .destinationRead
  | .destinationWrite _ _ _ | .exceptionWrite => true
  | .none | .runningWrite _ | .parkedWrite _ | .startClaim | .startTest | .loadClaim | .applyClaim | .latchClaim
  | .clearClaim | .commitClaim | .boundary | .handedOver => false

/-- Whether a lane's destination read has not begun, because the other lane's claim covers a byte of it (R33, log 10). -/
def State.readHeld (s : State) (n : LaneId) : Bool :=
  match (s.lane n).work, s.laneEntry n, (s.lane n).cell with
  | .destinationRead, some e, some w =>
    s.claimed n (destinationAddr e w.row w.col) (destinationLen e w.row w.col)
  | _, _, _ => false

/-- The bytes of an issued write that `took` marks, landed (log 9). -/
def Memory.landTaken (m : Memory) (took : Nat → Bool) : Option (Nat × List Byte) → Memory
  | none => m
  | some (a, bytes) => m.writeTaken took a 0 bytes

/-- The bytes of an issued write that `took` marks, landed, where it leaves one unmarked; a `took` that marks every
byte lands none, since a faulting result area is partly or wholly old (R154). -/
def Memory.landPartly (m : Memory) (took : Nat → Bool) : Option (Nat × List Byte) → Memory
  | none => m
  | some (a, bytes) => if (List.range bytes.length).all took then m else m.writeTaken took a 0 bytes

/-- Memory after a bus error on the lane's issued write: a destination write is taken whole or not at all (R31), a
record write byte by byte (log 9). -/
def State.faultMem (s : State) (n : LaneId) (took : Nat → Bool) : Memory :=
  match (s.lane n).work with
  | .destinationWrite _ _ _ => if took 0 then s.mem.land (s.laneWrite n) else s.mem
  | .exceptionWrite | .recordWrite => s.mem.landTaken took (s.laneWrite n)
  | _ => s.mem

/-- An order ended by a bus error: a walking order with the fault's cell and its counts as they stand, a housekeeping
order with every count 0 (R39, R126, R173). -/
def State.failOrder (s : State) (n : LaneId) (e : Entry) : State :=
  if e.header.kind.housekeeping then s.endPlain n .failed .memoryFault
  else s.endWalk n .failed .memoryFault ((s.lane n).cell.map (fun w => (w.row, w.col)))

/-! ## The slate -/

/-- The bus error of a slate access: its kind, slot and address (R184, R185, log 20). -/
structure SlateFaultAt where
  kind : FaultKind
  slot : Nat
  address : Nat
  deriving DecidableEq, Repr

/-- What the Slate Reader's outstanding access faults as; a body read's bus error is no slate fault (R147, R154). -/
def State.readerFault (s : State) : Option SlateFaultAt :=
  match s.slate.step with
  | .headerRead slot => some ⟨.headerRead, slot, s.slotAddr slot⟩
  | .takenWrite slot _ _ => some ⟨.takenWrite, slot, s.slotAddr slot⟩
  | .handBackWrite slot => some ⟨.handBackWrite, slot, s.slotAddr slot⟩
  | .idle | .bodyRead _ _ | .failing _ => none

/-- What a lane's outstanding progress write faults as (R164, R165, R169). -/
def State.progressFault (s : State) (n : LaneId) : Option SlateFaultAt :=
  match (s.lane n).work, (s.lane n).order with
  | .runningWrite _, some slot | .parkedWrite _, some slot => some ⟨.progressWrite, slot, s.slotAddr slot + 1⟩
  | _, _ => none

/-- What the Completion Writer's outstanding write faults as (R154). -/
def State.writerFault (s : State) : Option SlateFaultAt :=
  match s.writer.step with
  | .idle => none
  | .resultWrite h => some ⟨.resultWrite, h.slot, s.slotAddr h.slot + 16⟩
  | .stateWrite h => some ⟨.stateWrite, h.slot, s.slotAddr h.slot⟩
  | .wordWrite h => some ⟨.wordWrite, h.slot, s.engine.anchor.wordAddr.toNat⟩

/-- The slate fault that a bus error to a requester makes, or none (R184). -/
def State.faultOf (s : State) : Requester → Option SlateFaultAt
  | .slateReader => s.readerFault
  | .lane n => if s.writeHeld n then none else s.progressFault n
  | .completionWriter => s.writerFault

/-- The faulting write taken off the bus: a TAKEN or progress write leaves the bytes that `took` marks (log 9), a result
area those that it marks but never the whole area (R154); a state, completion-word or hand-back write leaves none
(R154). -/
def State.dropFaulting (s : State) (r : Requester) (took : Nat → Bool) : State :=
  match r with
  | .slateReader =>
    let m :=
      match s.slate.step with
      | .takenWrite _ _ _ => s.mem.landTaken took s.slateWrite
      | .idle | .headerRead _ | .bodyRead _ _ | .failing _ | .handBackWrite _ => s.mem
    (s.setMem m).setSlate { s.slate with step := .idle }
  | .lane n => (s.setMem (s.mem.landTaken took (s.laneWrite n))).setWork n .none
  | .completionWriter =>
    let m :=
      match s.writer.step with
      | .resultWrite _ => s.mem.landPartly took s.writerWrite
      | .idle | .stateWrite _ | .wordWrite _ => s.mem
    (s.setMem m).setWriter { s.writer with step := .idle }

/-- A lane at the halt: FROZEN where it is not IDLE; its request, staging set, buffers and cell dropped, its order and
context kept (R75, R79, R174, log 25). -/
def Lane.halted (l : Lane) : Lane :=
  { l with
    state := if l.state = .idle then .idle else .frozen
    request := .none
    staging := Staging.start
    buffer := RecordBuffer.empty
    image := []
    cell := none
    work := .none }

/-- A bank at the halt: RESERVED becomes FREE (R168). -/
def ParkBank.halted : ParkBank → ParkBank
  | .free => .free
  | .reserved _ => .free
  | .holding c => .holding c

/-- The Slate Reader at the halt: the sweep ended, which sets the timer to 0 (R141, R147, R148). -/
def SlateReader.halted (x : SlateReader) (sweeping : Bool) : SlateReader :=
  { x with
    again := false
    ending := false
    visited := 0
    step := .idle
    timer := if sweeping then 0 else x.timer }

/-- Entry to HALTED: accesses issued land whole, and every block stops where it stands (R174, R184, R185). That the
completion in hand is dropped once its issued write has landed, with none of what follows that write's acceptance (no
entry removed, nothing counted, no notification), is the model's choice, and so for the slot in hand of the Slate Reader
(log 38). -/
def State.halt (s : State) (f : SlateFaultAt) (sweeping : Bool) : State :=
  let t := s.landIssued
  { t with
    engine :=
      { t.engine with
        state := .halted
        access := .none
        flags := { t.engine.flags with slateFault := true }
        fault := ⟨BitVec.ofNat 32 f.address, f.kind, f.slot, t.engine.state⟩ }
    slate := t.slate.halted sweeping
    lane0 := t.lane0.halted
    lane1 := t.lane1.halted
    banks := t.banks.map ParkBank.halted
    writer := { t.writer with waiting := [], step := .idle } }

/-! ## The commands -/

/-- MEMORY_FAULT (R173). -/
def execMemoryFault (lane : LaneId) (took : BitVec 32) (s : State) : Host.Outcome State Fault Refusal :=
  .next
    (match s.laneEntry lane with
    | some e =>
      if (s.lane lane).work.faults && !s.writeHeld lane && !s.readHeld lane then
        (s.setMem (s.faultMem lane (fun i => took.getLsbD i))).failOrder lane e
      else s
    | none => s)

/-- SLATE_FAULT (R184). -/
def execSlateFault (requester : Requester) (took : BitVec 48) (s : State) : Host.Outcome State Fault Refusal :=
  .next
    (match s.faultOf requester with
    | some f => (s.dropFaulting requester (fun i => took.getLsbD i)).halt f s.slate.sweeping
    | none => s)

end Sys2Proof.Machine
end

