-- ==== Sys2Proof/Machine/Housekeeping.lean ====
section
/-! DEFINITION. The housekeeping orders BANDSET, PRESET and SNAPSHOT, step by step (R63, R79 to R85, R125 to R133). -/

namespace Sys2Proof.Machine

/-- A step of a housekeeping order finished, and its boundary taken (R125). -/
def State.finishStep (s : State) (n : LaneId) (e : Entry) : State :=
  (s.setLane n { s.lane n with steps := (s.lane n).steps + 1 }).stepBoundary n e

/-- The last step of a housekeeping order finished: the order ends DONE (R126). -/
def State.finishLast (s : State) (n : LaneId) : State :=
  (s.setLane n { s.lane n with steps := (s.lane n).steps + 1 }).endPlain n .done .none

/-! ## BANDSET -/

/-- The band set that a valid image leaves: bands from `k` up at their power-on values (R63). -/
def loadedSet (image : List Byte) (uses : Nat) : BandSet where
  state := .loaded
  count := byteAt image 0
  bands := Vector.ofFn (fun i : Fin 8 =>
    if i.val < (byteAt image 0).toNat then imageBand image i.val else Band.powerOn)
  uses := uses

/-- The image buffer with the bytes of one more read (R128). -/
def Lane.imageWith (l : Lane) (bytes : List Byte) : Lane := { l with image := l.image ++ bytes }

/-- How many bytes a read of the image brings: no more than the image still lacks (R128, log 11). -/
def Lane.imageTake (l : Lane) (bytes : Nat) : Nat := min bytes (imageBytes - l.image.length)

/-- Bytes of the image read; with the last of them the step is finished (R128). -/
def State.takeImage (s : State) (n : LaneId) (e : Entry) (bytes : Nat) : State :=
  let l := s.lane n
  let more := s.mem.readBytes (dataAddr e.body + l.image.length) (l.imageTake bytes)
  let t := s.setLane n (l.imageWith more)
  if imageBytes ≤ (l.imageWith more).image.length then t.finishStep n e else t

/-! ## PRESET -/

/-- A record put into its buffer entry (R84). -/
def Lane.bufferRecord (l : Lane) (body : List Byte) (i : Nat) (t : Total) : Lane :=
  { l with buffer := ⟨some (firstAccum body, lastAccum body), l.buffer.entries.set (Fin.ofNat 64 i) t⟩ }

/-- A preset record read: checked, buffered, and the step finished; a malformed one ends the order (R84). -/
def State.takePresetRecord (s : State) (n : LaneId) (e : Entry) : State :=
  let k := (s.lane n).steps
  match recordTotal (firstAccum e.body + k) (s.mem.readBytes (dataAddr e.body + 24 * k) 24) with
  | some t => (s.setLane n ((s.lane n).bufferRecord e.body (firstAccum e.body + k) t)).finishStep n e
  | none => s.endPlain n .failed .recordMalformed

/-! ## Ranges of accumulators -/

/-- Whether an accumulator lies in the range of a PRESET or SNAPSHOT. -/
def inRange (body : List Byte) (i : Nat) : Bool := decide (firstAccum body ≤ i) && decide (i ≤ lastAccum body)

/-- The accumulators with those of the order's range replaced (R82, R85). -/
def mapRange (body : List Byte) (f : Fin 64 → Total) (accums : Vector Total 64) : Vector Total 64 :=
  Vector.ofFn (fun i : Fin 64 => if inRange body i.val then f i else accums[i])

/-- The latch of a SNAPSHOT: every accumulator of the range copied (R80). What an entry outside the range holds is the
model's choice: plus zero, 0, clear (log 33). -/
def latchedBuffer (body : List Byte) (accums : Vector Total 64) : RecordBuffer where
  range := some (firstAccum body, lastAccum body)
  entries := Vector.ofFn (fun i : Fin 64 => if inRange body i.val then accums[i] else Total.zero)

/-- The accumulators after an apply claim (R85). -/
def applyBuffer (body : List Byte) (buffer : RecordBuffer) (accums : Vector Total 64) : Vector Total 64 :=
  mapRange body (fun i => buffer.entries[i]) accums

/-- The accumulators after a clear claim (R82). -/
def clearBuffer (body : List Byte) (buffer : RecordBuffer) (accums : Vector Total 64) : Vector Total 64 :=
  mapRange body (fun i => buffer.entries[i].clearBy accums[i]) accums

/-! ## The commands -/

/-- START_TEST (R63, R128 step 1). A test that fails is not counted among the steps completed (log 32). -/
def execStartTest (lane : LaneId) (s : State) : Host.Outcome State Fault Refusal :=
  .next
    (match (s.lane lane).work, s.laneEntry lane with
    | .startTest, some e =>
      if 0 < s.bandSets[bandsetNumber e.body].uses then s.endPlain lane .failed .bandSetInUse
      else s.finishStep lane e
    | _, _ => s)

/-- IMAGE_READ_DONE (R128 step 2, log 11). -/
def execImageReadDone (lane : LaneId) (bytes : Nat) (host : HostWrites) (s : State) :
    Host.Outcome State Fault Refusal :=
  .next
    (match (s.lane lane).work, s.laneEntry lane with
    | .imageRead, some e => (s.afterHost host).takeImage lane e bytes
    | _, _ => s)

/-- LOAD_CLAIM (R63, R128 step 4). A claim that fails is not counted among the steps completed (log 32). -/
def execLoadClaim (lane : LaneId) (s : State) : Host.Outcome State Fault Refusal :=
  .next
    (match (s.lane lane).work, s.laneEntry lane with
    | .loadClaim, some e =>
      if 0 < s.bandSets[bandsetNumber e.body].uses then s.endPlain lane .failed .bandSetInUse
      else (s.setBandSet (bandsetNumber e.body) (loadedSet (s.lane lane).image 0)).finishLast lane
    | _, _ => s)

/-- PRESET_RECORD_READ_DONE (R84, R130). -/
def execPresetRecordReadDone (lane : LaneId) (host : HostWrites) (s : State) : Host.Outcome State Fault Refusal :=
  .next
    (match (s.lane lane).work, s.laneEntry lane with
    | .recordRead, some e => (s.afterHost host).takePresetRecord lane e
    | _, _ => s)

/-- APPLY (R85, R130). -/
def execApply (lane : LaneId) (s : State) : Host.Outcome State Fault Refusal :=
  .next
    (match (s.lane lane).work, s.laneEntry lane with
    | .applyClaim, some e => (s.setAccums (applyBuffer e.body (s.lane lane).buffer s.accums)).finishLast lane
    | _, _ => s)

/-- LATCH (R80, R132 step 1). -/
def execLatch (lane : LaneId) (s : State) : Host.Outcome State Fault Refusal :=
  .next
    (match (s.lane lane).work, s.laneEntry lane with
    | .latchClaim, some e =>
      (s.setLane lane { s.lane lane with buffer := latchedBuffer e.body s.accums }).finishStep lane e
    | _, _ => s)

/-- SNAPSHOT_RECORD_WRITE_ACCEPT (R81, R132 step 2). -/
def execSnapshotRecordWriteAccept (lane : LaneId) (s : State) : Host.Outcome State Fault Refusal :=
  .next
    (match (s.lane lane).work, s.laneEntry lane with
    | .recordWrite, some e =>
      if s.writeHeld lane then s else (s.setMem (s.mem.land (s.laneWrite lane))).finishStep lane e
    | _, _ => s)

/-- CLEAR (R82, R132 step 3). -/
def execClear (lane : LaneId) (s : State) : Host.Outcome State Fault Refusal :=
  .next
    (match (s.lane lane).work, s.laneEntry lane with
    | .clearClaim, some e => (s.setAccums (clearBuffer e.body (s.lane lane).buffer s.accums)).finishLast lane
    | _, _ => s)

end Sys2Proof.Machine
end

