-- ==== Sys2Proof/Machine/Registers.lean ====
section
/-! DEFINITION. The register writes that carry one event to one block: STATUS, ANCHOR, NUDGE, CANCEL, ACK, and the
writes that are ignored (R140, R187 to R192, R196, R198). -/

namespace Sys2Proof.Machine

/-! ## Cancelling -/

/-- Pending cancel set in the entry of a slot (R157). -/
def State.setPendingCancel (s : State) (slot : Nat) : State :=
  s.updEntry slot (fun x => { x with pendingCancel := true })

/-- A cancel of a WAITING entry (R188). -/
def State.cancelWaiting (s : State) (e : Entry) : State :=
  if e.handBack then s.cancelMissed
  else (s.setPendingCancel e.slot).handOver (plainHandOver e .cancelled .hostCancel Indicators.clear)

/-- A cancel of a RUNNING entry (R189). -/
def State.cancelRunning (s : State) (e : Entry) : State :=
  let l := s.lane e.lane
  if l.parkUnderWay then s.setPendingCancel e.slot
  else if e.header.kind.housekeeping || l.endMark then s.cancelMissed
  else (s.setPendingCancel e.slot).post e.lane .cancel

/-- A cancel of a PARKED entry (R190). -/
def State.cancelParked (s : State) (e : Entry) : State :=
  if e.ended then s.cancelMissed else (s.setPendingCancel e.slot).endParked e.slot .hostCancel

/-- A cancel of a held order, by its phase (R187). -/
def State.cancelEntry (s : State) (e : Entry) : State :=
  if e.pendingCancel then s
  else
    match e.phase with
    | .waiting => s.cancelWaiting e
    | .running => s.cancelRunning e
    | .parked => s.cancelParked e

/-- Whether the engine holds orders that a cancel can reach (R187, R198). -/
def EngineState.takesCancels : EngineState → Bool
  | .running | .pausing | .paused | .stopping => true
  | .off | .starting | .halted => false

/-- A cancel with a slot index (R187). -/
def State.cancelSlot (s : State) (index : Nat) : State :=
  if s.engine.state.takesCancels && decide (index < s.engine.anchor.slotCount) then
    match s.entry? index with
    | some e => s.cancelEntry e
    | none => s.cancelMissed
  else s.cancelMissed

/-- The slot index of a CANCEL write: bits 15 to 0 (R198). -/
def cancelIndex (value : Word) : Nat := value.toNat % 65536

/-! ## The commands -/

/-- STATUS_CLEAR (R191). -/
def execStatusClear (clear : StickyBits) (s : State) : Host.Outcome State Fault Refusal :=
  .next (s.setFlags (fun f => stickyCleared f clear))

/-- ANCHOR_WRITE: stored in OFF, else refused with WINDOW_REFUSED (R198). -/
def execAnchorWrite (value : Word) (s : State) : Host.Outcome State Fault Refusal :=
  .next
    (match s.engine.state with
    | .off => { s with engine := { s.engine with anchorReg := value } }
    | .starting | .running | .pausing | .paused | .stopping | .halted => s.windowRefused)

/-- NUDGE: a sweep request; the value written has no effect (R140, R198). -/
def execNudge (_value : Word) (s : State) : Host.Outcome State Fault Refusal := .next s.requestSweep

/-- CANCEL (R187). -/
def execCancel (value : Word) (s : State) : Host.Outcome State Fault Refusal :=
  .next (s.cancelSlot (cancelIndex value))

/-- ACK: the lesser of n and notify-pending is subtracted (R192). -/
def execAck (n : Word) (s : State) : Host.Outcome State Fault Refusal :=
  .next
    (s.setWriter { s.writer with notifyPending := s.writer.notifyPending - min n.toNat s.writer.notifyPending })

/-- REGISTER_WRITE_OTHER: a write to IDENT, to an unused offset, or without all four bytes, is ignored (R196,
R197). -/
def execRegisterWriteOther (_offset : BitVec 6) (_strobe : BitVec 4) (_value : Word) (s : State) :
    Host.Outcome State Fault Refusal :=
  .next s

end Sys2Proof.Machine
end

