-- ==== Sys2Proof/Machine/Slate.lean ====
section
/-! DEFINITION. The Slate Reader and the reads of a start: the anchor block, the completion word, sweeps, takes and
hand-backs (R134 to R149, R153, R179, R183). -/

namespace Sys2Proof.Machine

/-! ## A start's reads -/

/-- The fields of the anchor block (R134, R156). -/
def anchorOf (block : List Byte) : Anchor where
  slateBase := BitVec.ofNat 32 (leField block 0 4)
  slotCount := leField block 4 2
  wordAddr := BitVec.ofNat 32 (leField block 8 4)
  sweepPeriod := leField block 12 2
  timeLimit := leField block 14 2

/-- The checks that an anchor's fields pass (R135). -/
def anchorOk (a : Anchor) : Bool :=
  decide (8 ≤ a.slotCount) && decide (a.slotCount ≤ 256) && decide (a.slateBase.toNat % 256 = 0) &&
    decide (a.slateBase.toNat + 256 * a.slotCount - 1 ≤ Config.topAddress) && decide (a.wordAddr.toNat % 4 = 0)

/-- The anchor block as memory holds it at the ANCHOR register's address (R135). -/
def State.anchorBlock (s : State) : Anchor := anchorOf (s.mem.readBytes s.engine.anchorReg.toNat 32)

/-- The anchor's fields copied and the completion-word read issued, or the start failed (R135). -/
def State.takeAnchor (s : State) : State :=
  if anchorOk s.anchorBlock then
    { s with engine := { s.engine with anchor := s.anchorBlock, access := .wordRead } }
  else s.failStart .anchorContent s.engine.anchorReg

/-- The completion count taken from the completion word; the engine RUNNING and its first sweep begun (R135, R141, R151,
R179). -/
def State.completeStart (s : State) : State :=
  let count := BitVec.ofNat 32 (leValue (s.mem.readBytes s.engine.anchor.wordAddr.toNat 4))
  let t := s.setWriter { s.writer with count := count }
  let u : State := { t with engine := { t.engine with state := .running, access := .none } }
  (u.setSlate { u.slate with timer := 0 }).beginSweep u.slate.again

/-! ## Takes -/

/-- What a POSTED slot meets when its header is read (R142, R143 step 1). -/
def State.meetPosted (s : State) (slot : Nat) (header : List Byte) : State :=
  let held := (s.entry? slot).isSome
  if Config.tableEntries ≤ s.table.length then
    if held && !Config.fullTableEndsHeldSlot then s.advanceSweep slot else s.endSweep
  else if held then s.advanceSweep slot
  else
    match kindAtTake s.part header with
    | none => s.failAtTake slot header .kindAbsent
    | some _ => s.setSlate { s.slate with step := .bodyRead slot header }

/-- What the Slate Reader does with a header it has read (R142). -/
def State.meetHeader (s : State) (slot : Nat) (header : List Byte) : State :=
  if byteAt header 0 = 1 then s.meetPosted slot header else s.advanceSweep slot

/-- What the Slate Reader does with a body it has read (R143 steps 3 to 6, R144). -/
def State.meetBody (s : State) (slot : Nat) (header body : List Byte) : State :=
  match kindAtTake s.part header with
  | none => s.failAtTake slot header .kindAbsent
  | some k =>
    match takeFailure k header body with
    | some r => s.failAtTake slot header r
    | none => s.setSlate { s.slate with step := .takenWrite slot header body }

/-- The lane bit of a place. -/
def placeLane (x : BitVec 3) : LaneId := if x.getLsbD 0 then .lane1 else .lane0

/-- The entry of an order just taken; its lane and bank bits are free values (R144, R157, log 14). -/
def State.newEntry (s : State) (kind : OrderKind) (slot : Nat) (header body : List Byte) : Entry where
  slot := slot
  seq := s.slate.nextSeq
  header := headerOf kind header
  body := body
  phase := .waiting
  lane := placeLane (Config.unsetPlace s.free)
  bank := Fin.ofNat 4 ((Config.unsetPlace s.free).toNat / 2)
  pendingCancel := false
  parkCount := 0
  claimed := false
  handBack := false
  ended := false

/-- The order entered at the tail of the Order Table under the next take sequence number (R144). -/
def State.enterOrder (s : State) (kind : OrderKind) (slot : Nat) (header body : List Byte) : State :=
  { s with
    table := s.table ++ [s.newEntry kind slot header body]
    slate := { s.slate with nextSeq := s.slate.nextSeq + 1 }
    free := s.free + 1 }

/-- The WAITING entry that the Slate Reader claims next for hand-back (R183). -/
def State.nextHandBack (s : State) : Option Entry :=
  s.table.find? (fun e => e.phase == .waiting && !e.pendingCancel && !e.handBack)

/-! ## The commands -/

/-- SWEEP_TIMER_EXPIRY: the timer starts again from 0 and a sweep is requested (R141). -/
def execSweepTimerExpiry (s : State) : Host.Outcome State Fault Refusal :=
  .next (if s.sweepTimerCounts then (s.setSlate { s.slate with timer := 0 }).requestSweep else s)

/-- ANCHOR_READ_DONE (R135, R179). -/
def execAnchorReadDone (reply : Reply) (s : State) : Host.Outcome State Fault Refusal :=
  .next
    (match s.engine.access, reply with
    | .anchorRead, .busError =>
      if s.engine.abandoned then s.dropStart else s.failStart .anchorRead s.engine.anchorReg
    | .anchorRead, .data host =>
      if s.engine.abandoned then (s.afterHost host).dropStart else (s.afterHost host).takeAnchor
    | .none, _ | .wordRead, _ => s)

/-- COMPLETION_WORD_READ_DONE (R135, R151, R179). -/
def execCompletionWordReadDone (reply : Reply) (s : State) : Host.Outcome State Fault Refusal :=
  .next
    (match s.engine.access, reply with
    | .wordRead, .busError =>
      if s.engine.abandoned then s.dropStart else s.failStart .wordRead s.engine.anchor.wordAddr
    | .wordRead, .data host =>
      if s.engine.abandoned then (s.afterHost host).dropStart else (s.afterHost host).completeStart
    | .none, _ | .anchorRead, _ => s)

/-- HEADER_READ_DONE (R142). -/
def execHeaderReadDone (host : HostWrites) (s : State) : Host.Outcome State Fault Refusal :=
  .next
    (match s.slate.step with
    | .headerRead slot =>
      let t := s.afterHost host
      ((t.meetHeader slot (t.mem.readBytes (t.slotAddr slot) 16)).settlePause).settleStop
    | .idle | .bodyRead _ _ | .takenWrite _ _ _ | .failing _ | .handBackWrite _ => s)

/-- BODY_READ_DONE (R143). -/
def execBodyReadDone (reply : Reply) (s : State) : Host.Outcome State Fault Refusal :=
  .next
    (match s.slate.step, reply with
    | .bodyRead slot header, .busError => s.failAtTake slot header .memoryFault
    | .bodyRead slot header, .data host =>
      let t := s.afterHost host
      t.meetBody slot header (t.mem.readBytes (t.slotAddr slot + 64) 192)
    | .idle, _ | .headerRead _, _ | .takenWrite _ _ _, _ | .failing _, _ | .handBackWrite _, _ => s)

/-- TAKE: the TAKEN write lands, the order enters the Order Table, and the sweep goes on (R144). -/
def execTake (s : State) : Host.Outcome State Fault Refusal :=
  .next
    (match s.slate.step with
    | .takenWrite slot header body =>
      match kindAtTake s.part header with
      | some k =>
        let t := (s.setMem (s.mem.land s.slateWrite)).enterOrder k slot header body
        ((t.advanceSweep slot).settlePause).settleStop
      | none => s
    | .idle | .headerRead _ | .bodyRead _ _ | .failing _ | .handBackWrite _ => s)

/-- HAND_BACK: the next WAITING entry is claimed and its POSTED write issued (R183). -/
def execHandBack (s : State) : Host.Outcome State Fault Refusal :=
  .next
    (match s.engine.state, s.slate.step, s.nextHandBack with
    | .stopping, .idle, some e =>
      (s.updEntry e.slot (fun x => { x with handBack := true })).setSlate
        { s.slate with step := .handBackWrite e.slot }
    | _, _, _ => s)

/-- HAND_BACK_WRITE_ACCEPT: the entry leaves the Order Table (R153). -/
def execHandBackWriteAccept (s : State) : Host.Outcome State Fault Refusal :=
  .next
    (match s.slate.step with
    | .handBackWrite slot =>
      let t := (s.setMem (s.mem.land s.slateWrite)).removeEntry slot
      (t.setSlate { t.slate with step := .idle }).settleStop
    | .idle | .headerRead _ | .bodyRead _ _ | .takenWrite _ _ _ | .failing _ => s)

end Sys2Proof.Machine
end

