-- ==== Sys2Proof/Machine/Walking.lean ====
section
/-! DEFINITION. A walking order on its lane: its start, its cells access by access, its boundaries, its commit and its
time limit (R27 to R39, R60, R76, R77, R90, R91, R114, R164, R171, R172). -/

namespace Sys2Proof.Machine

/-! ## The start -/

/-- The first claim or access of an order whose first RUNNING write has been accepted (R164 step 3). -/
def State.firstAccess (s : State) (n : LaneId) (e : Entry) : State :=
  match e.header.kind with
  | .bandset => s.setWork n .startTest
  | .snapshot => s.setWork n .latchClaim
  | .preset => s.setWork n .recordRead
  | .tally | .difference | .compare | .convert | .pattern =>
    if (referencedSet e.header.kind e.body).isSome then s.setWork n .startClaim else s.beginCell n

/-- A start claim that succeeds: the set LOADED with one more use, and the walk begun (R60). -/
def State.grantStart (s : State) (n : LaneId) (e : Entry) (i : Fin 8) : State :=
  ((s.setBandSet i { s.bandSets[i] with state := .loaded, uses := s.bandSets[i].uses + 1 }).updEntry e.slot
    (fun x => { x with claimed := true })).beginCell n

/-- A start claim taken, by the set's state (R60). -/
def State.startClaim (s : State) (n : LaneId) (e : Entry) (i : Fin 8) : State :=
  match s.bandSets[i].state with
  | .loaded => s.grantStart n e i
  | .unchecked => if s.bandSets[i].valid then s.grantStart n e i else s.endPlain n .failed .bandSetInvalid
  | .empty => s.endPlain n .failed .bandSetEmpty

/-! ## Cells -/

/-- The mark bit of a cell in the byte that holds it (R26). -/
def markBit (b : Byte) (col : Nat) : Bool := b.getLsbD (col % 8)

/-- A mark read answered: a marked cell comes to its boundary, any other goes on (R27). -/
def Lane.takeMark (e : Entry) (w : CellWork) (b : Byte) (l : Lane) : Lane :=
  if markBit b w.col then { l with cell := some { w with cls := .marked }, work := .boundary } else l.afterMark e

/-- The bytes of a grid's cell (R19, R20). -/
def State.cellBytes (s : State) (g : Grid) (r c : Nat) : List Byte :=
  s.mem.readBytes (g.cellAddr r c) (g.cellLen r c)

/-- Source A read: source B is read next where the order has it, else the cell is worked (R30, R43). -/
def State.takeSourceA (s : State) (n : LaneId) (e : Entry) (w : CellWork) : State :=
  let bytes := s.cellBytes (gridA e.body) w.row w.col
  if readsB e.header.kind e.body then
    s.setLane n { s.lane n with cell := some { w with operandA := bytes }, work := .sourceBRead }
  else s.workOperands n e w bytes []

/-- The destination read: the write of the read-modify-write is issued, its bytes claimed (R29, R32, R33, R35). -/
def State.takeDestination (s : State) (n : LaneId) (e : Entry) (w : CellWork) : State :=
  let a := destinationAddr e w.row w.col
  let old := s.mem.readBytes a (destinationLen e w.row w.col)
  s.setWork n (.destinationWrite (BitVec.ofNat 32 a) (mergedBytes e w old) true)

/-- The first exception of the cell counted as written (R114). -/
def Lane.recordWritten (l : Lane) (c : WalkContext) (w : CellWork) : Lane :=
  { l with
    context := some { c with record := c.record.countWritten }
    cell := some { w with exceptions := w.exceptions.tail } }

/-! ## Boundaries -/

/-- The context after a cell has been counted: the walk index advanced, the ramp position raised by S (R25, R37,
R123). -/
def WalkContext.pass (e : Entry) (w : CellWork) (c : WalkContext) : WalkContext :=
  { c with
    walk := { c.walk with next := c.walk.next + 1 }
    record := c.record.countCell w
    ramp := if e.header.kind = .pattern then c.ramp + stepOf e.body else c.ramp }

/-- The end of a walk with no request pending: a commit claim where the order tallies, else DONE (R76, R95, R161). -/
def State.walkDone (s : State) (n : LaneId) (e : Entry) : State :=
  if (referencedSet e.header.kind e.body).isSome then
    s.setLane n { s.lane n with state := .active, endMark := true, request := .none, work := .commitClaim }
  else s.endWalk n .done .none none

/-- The boundary after the last cell (R171 case 1). -/
def State.endOfWalk (s : State) (n : LaneId) (e : Entry) : State :=
  match (s.lane n).request with
  | .none | .park _ => (s.freeRequestBank n).walkDone n e
  | .timeLimit => s.actOn n .timeLimit
  | .cancel => s.actOn n .cancel
  | .engineStop => s.actOn n .engineStop

/-- A boundary that is not the last (R171 cases 2 to 4). -/
def State.midBoundary (s : State) (n : LaneId) : State :=
  match (s.lane n).request with
  | .park b => s.setLane n { s.lane n with state := .yielding, request := .none, work := .parkedWrite b }
  | .timeLimit => s.actOn n .timeLimit
  | .cancel => s.actOn n .cancel
  | .engineStop => s.actOn n .engineStop
  | .none => if s.engine.state.freezes then s.freezeLane n else s.beginCell n

/-- A boundary passed: the cell counted and dropped, then the first case of R171 that applies. -/
def State.passBoundary (s : State) (n : LaneId) (e : Entry) (c : WalkContext) (w : CellWork) : State :=
  let c' := c.pass e w
  let t := s.setLane n { s.lane n with context := some c', cell := none }
  if c'.walk.over then t.endOfWalk n e else t.midBoundary n

/-! ## Commit -/

/-- The accumulator that a staging entry names: that of its band, or the residue accumulator for entry 8 (R76). -/
def namedAccum (set : BandSet) (body : List Byte) (i : Fin 9) : Fin 64 :=
  if h : i.val < 8 then Fin.ofNat 64 (set.bands[i.val]'h).accum.toNat else (residueOf body).getD 0

/-- One staging entry applied where its count is above 0, with the report so far (R77). -/
def applyStaged (name : Fin 9 → Fin 64) (staging : Staging) (acc : Vector Total 64 × Bool) (i : Fin 9) :
    Vector Total 64 × Bool :=
  if 0 < staging[i].count then
    let (t, lost) := acc.1[name i].applyEntry staging[i]
    (acc.1.set (name i) t, acc.2 || lost)
  else acc

/-- A commit: the nine entries in ascending number, and the Bank's report (R77). -/
def commitStaging (name : Fin 9 → Fin 64) (staging : Staging) (accums : Vector Total 64) : Vector Total 64 × Bool :=
  (List.finRange 9).foldl (applyStaged name staging) (accums, false)

/-- A commit claim taken; then the order is released and handed over DONE (R77, R95, R99). -/
def State.commitLane (s : State) (n : LaneId) (e : Entry) (c : WalkContext) (set : BandSet) : State :=
  let r := commitStaging (namedAccum set e.body) (s.lane n).staging s.accums
  ((s.setAccums r.1).setLane n { s.lane n with context := some { c with commitOverflow := r.2 } }).endWalk n .done
    .none none

/-! ## The commands -/

/-- PROGRESS_RUNNING_ACCEPT (R164, R165). -/
def execProgressRunningAccept (lane : LaneId) (s : State) : Host.Outcome State Fault Refusal :=
  .next
    (match (s.lane lane).work, s.laneEntry lane with
    | .runningWrite resume, some e =>
      if s.writeHeld lane then s
      else
        let t := s.setMem (s.mem.land (s.laneWrite lane))
        if resume then t.beginCell lane else t.firstAccess lane e
    | _, _ => s)

/-- START_CLAIM (R60). -/
def execStartClaim (lane : LaneId) (s : State) : Host.Outcome State Fault Refusal :=
  .next
    (match (s.lane lane).work, s.laneEntry lane with
    | .startClaim, some e =>
      match referencedSet e.header.kind e.body with
      | some i => s.startClaim lane e i
      | none => s
    | _, _ => s)

/-- MARK_READ_DONE (R27). -/
def execMarkReadDone (lane : LaneId) (host : HostWrites) (s : State) : Host.Outcome State Fault Refusal :=
  .next
    (match (s.lane lane).work, s.laneEntry lane, (s.lane lane).cell with
    | .markRead, some e, some w =>
      let t := s.afterHost host
      t.setLane lane
        ((t.lane lane).takeMark e w (t.mem.read (wrapAddr (planeAddr (markPlane e.body) w.row w.col))))
    | _, _, _ => s)

/-- SOURCE_READ_DONE (R30 steps 1 and 2, R43). -/
def execSourceReadDone (lane : LaneId) (host : HostWrites) (s : State) : Host.Outcome State Fault Refusal :=
  .next
    (match (s.lane lane).work, s.laneEntry lane, (s.lane lane).cell with
    | .sourceARead, some e, some w => (s.afterHost host).takeSourceA lane e w
    | .sourceBRead, some e, some w =>
      let t := s.afterHost host
      t.workOperands lane e w w.operandA (t.cellBytes (gridB e.body) w.row w.col)
    | _, _, _ => s)

/-- DESTINATION_READ_DONE; not answered while the other lane's claim covers a byte of it (R29, R32, R33, R35, log
10). -/
def execDestinationReadDone (lane : LaneId) (host : HostWrites) (s : State) : Host.Outcome State Fault Refusal :=
  .next
    (match (s.lane lane).work, s.laneEntry lane, (s.lane lane).cell with
    | .destinationRead, some e, some w =>
      if s.claimed lane (destinationAddr e w.row w.col) (destinationLen e w.row w.col) then s
      else (s.afterHost host).takeDestination lane e w
    | _, _, _ => s)

/-- DESTINATION_WRITE_ACCEPT (R31, R33). -/
def execDestinationWriteAccept (lane : LaneId) (s : State) : Host.Outcome State Fault Refusal :=
  .next
    (match (s.lane lane).work, s.laneEntry lane with
    | .destinationWrite _ _ _, some e =>
      if s.writeHeld lane then s
      else (s.setMem (s.mem.land (s.laneWrite lane))).setLane lane ((s.lane lane).toRecords e)
    | _, _ => s)

/-- EXCEPTION_RECORD_WRITE_ACCEPT (R114). -/
def execExceptionRecordWriteAccept (lane : LaneId) (s : State) : Host.Outcome State Fault Refusal :=
  .next
    (match (s.lane lane).work, s.laneEntry lane, (s.lane lane).context, (s.lane lane).cell with
    | .exceptionWrite, some e, some c, some w =>
      if s.writeHeld lane then s
      else
        (s.setMem (s.mem.land (s.laneWrite lane))).setLane lane (((s.lane lane).recordWritten c w).toRecords e)
    | _, _, _, _ => s)

/-- CELL_BOUNDARY (R171). -/
def execCellBoundary (lane : LaneId) (s : State) : Host.Outcome State Fault Refusal :=
  .next
    (match (s.lane lane).work, s.laneEntry lane, (s.lane lane).context, (s.lane lane).cell with
    | .boundary, some e, some c, some w => s.passBoundary lane e c w
    | _, _, _, _ => s)

/-- COMMIT (R77). -/
def execCommit (lane : LaneId) (s : State) : Host.Outcome State Fault Refusal :=
  .next
    (match (s.lane lane).work, s.laneEntry lane, (s.lane lane).context with
    | .commitClaim, some e, some c =>
      match s.setOfEntry e with
      | some set => s.commitLane lane e c set
      | none => s
    | _, _, _ => s)

/-- TIME_LIMIT: the run timer comes to the limit and the lane posts TIME_LIMIT to itself (R172, log 5). -/
def execTimeLimit (lane : LaneId) (s : State) : Host.Outcome State Fault Refusal :=
  .next
    (if s.runTimerCounts lane ∧ s.engine.anchor.timeLimit ≠ 0 ∧ (s.lane lane).runTimer < s.limitMicros then
      (s.setLane lane { s.lane lane with runTimer := s.limitMicros }).post lane .timeLimit
    else s)

end Sys2Proof.Machine
end

