-- ==== Sys2Proof/Machine/Window.lean ====
section
/-! DEFINITION. The Window Port: the window map, reads through the buffer and the two latches, permitted and refused
writes (R64, R88, R89, R199 to R205). -/

namespace Sys2Proof.Machine

/-! ## The map -/

/-- What a window word address names (R203). -/
inductive WindowTarget where
  /-- word 0 to 5 of an accumulator -/
  | accum (i : Fin 64) (word : Nat)
  /-- the header word of a band set -/
  | setHeader (i : Fin 8)
  /-- word 0 to 8 of a band -/
  | band (i : Fin 8) (b : Fin 8) (word : Nat)
  /-- a pad word of a band set -/
  | setPad (i : Fin 8)
  /-- word 0 to 3 of a position of the Order Table view -/
  | entry (p : Nat) (word : Nat)
  /-- word 0 to 15 of a lane's view -/
  | lane (n : LaneId) (word : Nat)
  /-- word 0 to 15 of a park bank's view -/
  | bank (b : Fin 4) (word : Nat)
  /-- word 0 to 3 of the fault record -/
  | fault (word : Nat)
  | unmapped
  deriving DecidableEq, Repr

/-- The word of a band set that lies at an offset in its 80 words (R203). -/
def setTarget (i : Fin 8) (k : Nat) : WindowTarget :=
  if k = 0 then .setHeader i
  else if k < 73 then .band i (Fin.ofNat 8 ((k - 1) / 9)) ((k - 1) % 9)
  else .setPad i

/-- The window map (R203). -/
def windowTarget (a : Nat) : WindowTarget :=
  if a < 0x180 then .accum (Fin.ofNat 64 (a / 6)) (a % 6)
  else if a < 0x400 then setTarget (Fin.ofNat 8 ((a - 0x180) / 80)) ((a - 0x180) % 80)
  else if a < 0x480 then .entry ((a - 0x400) / 4) ((a - 0x400) % 4)
  else if a < 0x490 then .lane .lane0 (a - 0x480)
  else if a < 0x4A0 then .lane .lane1 (a - 0x490)
  else if a < 0x4E0 then .bank (Fin.ofNat 4 ((a - 0x4A0) / 16)) ((a - 0x4A0) % 16)
  else if a < 0x4E4 then .fault (a - 0x4E0)
  else .unmapped

/-! ## Words of decimal values -/

/-- Word `k` of the four that a decimal value fills, word 0 from its top nibbles (R203). -/
def decimalWord (raw k : Nat) : Word := BitVec.ofNat 32 (raw / 2 ^ (32 * (3 - k)))

/-- A decimal value's nibbles with word `k` replaced. -/
def replaceWord (raw k : Nat) (w : Word) : Nat :=
  raw / 2 ^ (32 * (4 - k)) * 2 ^ (32 * (4 - k)) + w.toNat * 2 ^ (32 * (3 - k)) + raw % 2 ^ (32 * (3 - k))

/-- A word of an accumulator (R203). -/
def totalWord (t : Total) (k : Nat) : Word :=
  if k < 4 then decimalWord (packSigned 28 t.value) k
  else if k = 4 then BitVec.ofNat 32 t.count
  else BitVec.ofNat 32 t.overflow.toNat

/-- A word of a band (R203). That words 0 to 3 are its low bound and words 4 to 7 its high bound is the model's choice,
after the order of R156's image (log 34), and so is that a bound stored as minus zero is shown with its minus code
(log 36) and that bits 31 to 9 of the ninth word read 0 (log 37). -/
def bandWord (b : Band) (k : Nat) : Word :=
  if k < 4 then decimalWord b.low.toNat k
  else if k < 8 then decimalWord b.high.toNat (k - 4)
  else BitVec.ofNat 32 (b.accum.toNat + 256 * b.alarm.toNat)

/-! ## Codes of the views (R205) -/

/-- The code of a phase. -/
def Phase.code : Phase → Nat
  | .waiting => 1
  | .running => 2
  | .parked => 3

/-- The code of a lane state. -/
def LaneState.code : LaneState → Nat
  | .idle => 0
  | .active => 1
  | .yielding => 2
  | .frozen => 3

/-- The number of a lane. -/
def laneNumber : LaneId → Nat
  | .lane0 => 0
  | .lane1 => 1

/-- The code of a band set state (R203). -/
def BandSetState.code : BandSetState → Nat
  | .empty => 0
  | .loaded => 1
  | .unchecked => 2

/-- The bank that a lane has reserved, pending or with its park under way; 7 for none (R205). -/
def Lane.reservedBank (l : Lane) : Nat :=
  match l.work, l.request with
  | .parkedWrite b, _ => b.val
  | _, .park b => b.val
  | _, _ => 7

/-! ## The views -/

/-- The header word of a band set (R203). That bits 31 to 10 read 0 is the model's choice (log 37). -/
def setHeaderWord (x : BandSet) : Word := BitVec.ofNat 32 (x.count.toNat + 256 * x.state.code)

/-- A word of a position of the Order Table view (R205). That the bits no item is assigned to read 0 is the model's
choice (log 37). -/
def entryWord (e : Entry) (k : Nat) : Word :=
  match k with
  | 0 => BitVec.ofNat 32 (e.slot + 65536 * e.header.tag.toNat)
  | 1 =>
    BitVec.ofNat 32
      (e.phase.code + 4 * laneNumber e.lane + 16 * e.bank.val + 64 * e.pendingCancel.toNat +
        128 * e.header.urgent.toNat + 256 * e.header.hold.toNat + 512 * e.header.notify.toNat +
        65536 * e.header.kind.code + 16777216 * e.parkCount)
  | 2 => e.seq
  | _ => BitVec.ofNat 32 e.header.listCapacity

/-- Words 4 to 13 of a lane's or a bank's view: the counts of the per-order record (R205). -/
def recordWord (r : OrderRecord) (k : Nat) : Nat :=
  match k with
  | 4 => r.visited
  | 5 => r.contributed
  | 6 => r.marked
  | 7 => r.excluded
  | 8 => r.rejected
  | 9 => r.raised
  | 10 => r.written
  | 11 => r.lost
  | 12 => r.trueCount
  | 13 => r.falseCount
  | _ => 0

/-- The marks of a record in bits 9 and 10 (R205). -/
def marksWord (r : OrderRecord) : Nat := 512 * r.nonzero.toNat + 1024 * r.saturated.toNat

/-- Word 1 of a lane's or a bank's view: slot index and tag of its order (R205). That bits 15 to 8 read 0 is the model's
choice (log 37). -/
def orderWord (slot : Nat) (e : Option Entry) : Nat :=
  slot + 65536 * (match e with | some x => x.header.tag.toNat | none => 0)

/-- Word 14 of a lane's or a bank's view: the take sequence number of its order (R205). -/
def seqWord (e : Option Entry) : Nat :=
  match e with
  | some x => x.seq.toNat
  | none => 0

/-- The record that a lane holds, or one of zeros (R205, log 26). -/
def Lane.record (l : Lane) : OrderRecord :=
  match l.context with
  | some c => c.record
  | none => OrderRecord.start

/-- Word 2 of a lane's view: the next walk index, or the steps completed (R205). -/
def Lane.position (l : Lane) : Nat :=
  match l.context with
  | some c => c.walk.next
  | none => l.steps

/-- A word of a lane's view (R205). That bits 31 to 11 of word 0 read 0 is the model's choice (log 37). -/
def State.laneWord (s : State) (n : LaneId) (k : Nat) : Word :=
  let l := s.lane n
  BitVec.ofNat 32
    (match k with
    | 0 =>
      l.state.code + 4 * l.request.rank + 32 * l.reservedBank + 256 * l.endMark.toNat + marksWord l.record
    | 1 =>
      match l.order with
      | some slot => orderWord slot (s.entry? slot)
      | none => 255
    | 2 => l.position
    | 3 => l.runTimer
    | 14 => seqWord (s.laneEntry n)
    | _ => recordWord l.record k)

/-- A word of a HOLDING bank's view; its reserving lane bit is a free value (R205, log 14). That the bits of word 0 that
no item is assigned to read 0 is the model's choice (log 37). -/
def State.holdingWord (s : State) (c : ParkedContext) (k : Nat) : Word :=
  BitVec.ofNat 32
    (match k with
    | 0 => 2 + 4 * (Config.holdingLaneBit s.free).toNat + marksWord c.record
    | 1 => orderWord c.slot (s.entry? c.slot)
    | 2 => c.next
    | 3 => c.runTime
    | 14 => seqWord (s.entry? c.slot)
    | _ => recordWord c.record k)

/-- A word of a bank's view (R205). That the bits of word 0 that no item is assigned to read 0 is the model's choice
(log 37). -/
def State.bankWord (s : State) (b : Fin 4) (k : Nat) : Word :=
  match s.banks[b] with
  | .free => 0
  | .reserved n => if k = 0 then BitVec.ofNat 32 (1 + 4 * laneNumber n) else 0
  | .holding c => s.holdingWord c k

/-- A word of the fault record (R205). -/
def faultWord (f : FaultRecord) (k : Nat) : Word :=
  match k with
  | 0 => f.address
  | 1 => BitVec.ofNat 32 f.kind.code
  | 2 => BitVec.ofNat 32 f.slot
  | _ => BitVec.ofNat 32 f.state.code

/-! ## Reads -/

/-- The Window Port changed. -/
def State.setWindow (s : State) (x : WindowPort) : State := { s with window := x }

/-- The latch after a fetch of a word of an accumulator: refilled at the first word, or where it holds another
(R88). -/
def State.latchAccum (s : State) (i : Fin 64) (k : Nat) : AccumLatch :=
  if k = 0 ∨ s.window.accumLatch.holds ≠ some i then ⟨some i, s.accums[i]⟩ else s.window.accumLatch

/-- The band latch after a fetch of a word of a band (R204). -/
def State.latchBand (s : State) (i b : Fin 8) (k : Nat) : BandLatch :=
  if k = 0 ∨ s.window.bandLatch.holds ≠ some (i, b) then ⟨some (i, b), s.bandSets[i].bands[b]⟩
  else s.window.bandLatch

/-- The word at the window address fetched into the read buffer (R201 step 2, R203 to R205). -/
def State.fetchWord (s : State) : WindowPort :=
  match windowTarget s.window.addr.toNat with
  | .accum i k =>
    let l := s.latchAccum i k
    { s.window with accumLatch := l, buffer := totalWord l.total k }
  | .setHeader i => { s.window with buffer := setHeaderWord s.bandSets[i] }
  | .band i b k =>
    let l := s.latchBand i b k
    { s.window with bandLatch := l, buffer := bandWord l.band k }
  | .setPad _ => { s.window with buffer := 0 }
  | .entry p k =>
    { s.window with
      buffer :=
        match s.table[p]? with
        | some e => entryWord e k
        | none => 0 }
  | .lane n k => { s.window with buffer := s.laneWord n k }
  | .bank b k => { s.window with buffer := s.bankWord b k }
  | .fault k => { s.window with buffer := faultWord s.engine.fault k }
  | .unmapped => { s.window with buffer := 0 }

/-- The address after an access: advanced by 1 where auto-increment is set, from 7FFh to 000h (R200). -/
def WindowPort.advance (w : WindowPort) : WindowPort :=
  if w.autoIncrement then { w with addr := w.addr + 1 } else w

/-! ## Writes -/

/-- Whether the engine permits Window Port writes (R64, R89). -/
def EngineState.permitsWindow : EngineState → Bool
  | .off | .paused => true
  | .starting | .running | .pausing | .stopping | .halted => false

/-- The value that an accumulator holds after a value word is written, or none where the word fails its check: pad
nibbles 0, digits 0 to 9, a sign code (R89). -/
def writtenValue (v : Int) (k : Nat) (w : Word) : Option Int :=
  let raw := replaceWord (packSigned 28 v) k w
  if raw < 2 ^ 116 then unpackSigned 28 raw else none

/-- An accumulator after a write to its word `k`, or none where the word fails its check (R89). -/
def Total.writeWord (t : Total) (k : Nat) (w : Word) : Option Total :=
  if k < 4 then (writtenValue t.value k w).map (fun v => { t with value := v })
  else if k = 4 then some { t with count := w.toNat }
  else some { t with overflow := w.getLsbD 0 }

/-- A band after a write to its word `k`, the low bound's words first (log 34); pad bits are not stored (R64, R203). A
minus zero so written keeps its minus code (log 36), and bits 31 to 9 of the ninth word are not stored (log 37), the
model's choices. -/
def Band.writeWord (b : Band) (k : Nat) (w : Word) : Band :=
  if k < 4 then { b with low := BitVec.ofNat 100 (replaceWord b.low.toNat k w) }
  else if k < 8 then { b with high := BitVec.ofNat 100 (replaceWord b.high.toNat (k - 4) w) }
  else { b with accum := BitVec.ofNat 8 w.toNat, alarm := w.getLsbD 8 }

/-- The accumulator latch marked none where it held an accumulator that was written (R88, R202). -/
def WindowPort.dropAccum (w : WindowPort) (i : Fin 64) : WindowPort :=
  if w.accumLatch.holds = some i then { w with accumLatch := { w.accumLatch with holds := none } } else w

/-- The band latch marked none where it held a band of a set that was written (R202). -/
def WindowPort.dropSet (w : WindowPort) (i : Fin 8) : WindowPort :=
  match w.bandLatch.holds with
  | some (j, _) => if j = i then { w with bandLatch := { w.bandLatch with holds := none } } else w
  | none => w

/-- A write to a word of an accumulator (R89). -/
def State.writeAccum (s : State) (i : Fin 64) (k : Nat) (w : Word) : State :=
  if s.engine.state.permitsWindow then
    match s.accums[i].writeWord k w with
    | some t => { s with accums := s.accums.set i t, window := s.window.dropAccum i }
    | none => s.windowRefused
  else s.windowRefused

/-- A write to a word of a band set, which leaves it UNCHECKED (R64). -/
def State.writeSet (s : State) (i : Fin 8) (f : BandSet → BandSet) : State :=
  if s.engine.state.permitsWindow && decide (s.bandSets[i].uses = 0) then
    (s.setBandSet i { f s.bandSets[i] with state := .unchecked }).setWindow (s.window.dropSet i)
  else s.windowRefused

/-- A write to the word at the window address (R202). -/
def State.writeWindow (s : State) (w : Word) : State :=
  match windowTarget s.window.addr.toNat with
  | .accum i k => s.writeAccum i k w
  | .setHeader i => s.writeSet i (fun x => { x with count := BitVec.ofNat 8 w.toNat })
  | .band i b k => s.writeSet i (fun x => { x with bands := x.bands.set b (x.bands[b].writeWord k w) })
  | .setPad i => s.writeSet i id
  | .entry _ _ | .lane _ _ | .bank _ _ | .fault _ | .unmapped => s.windowRefused

/-! ## The commands -/

/-- WINDOW_ADDR_WRITE: address and auto-increment flag stored, nothing fetched (R200). -/
def execWindowAddrWrite (value : Word) (s : State) : Host.Outcome State Fault Refusal :=
  .next
    (s.setWindow
      { s.window with addr := BitVec.ofNat 11 value.toNat, autoIncrement := value.getLsbD 31 })

/-- WINDOW_DATA_READ: the buffer returned, the next word fetched, the address advanced (R201). -/
def execWindowDataRead (s : State) : Host.Outcome State Fault Refusal :=
  .next
    { s with
      readData := s.window.buffer
      window := s.fetchWord.advance
      free := s.free + 1 }

/-- WINDOW_DATA_WRITE: the write permitted or refused, the address advanced either way (R202). -/
def execWindowDataWrite (value : Word) (s : State) : Host.Outcome State Fault Refusal :=
  .next
    (let t := s.writeWindow value
     t.setWindow t.window.advance)

end Sys2Proof.Machine
end

