-- ==== Sys2Proof/Machine/Dispatch.lean ====
section
/-! DEFINITION. The dispatch of commands to their meanings: one arm per row of spec/opcode_table.json, in its order. -/

namespace Sys2Proof.Machine

def exec (i : Instr) (s : State) : Host.Outcome State Fault Refusal :=
  match i with
  | .powerOnReset => Sys2Proof.Machine.execPowerOnReset s
  | .softReset irq => Sys2Proof.Machine.execSoftReset irq s
  | .enable pause irq => Sys2Proof.Machine.execEnable pause irq s
  | .engineStop pause irq => Sys2Proof.Machine.execEngineStop pause irq s
  | .pause irq => Sys2Proof.Machine.execPause irq s
  | .pauseRelease irq => Sys2Proof.Machine.execPauseRelease irq s
  | .irqEnableWrite irq => Sys2Proof.Machine.execIrqEnableWrite irq s
  | .statusClear clear => Sys2Proof.Machine.execStatusClear clear s
  | .anchorWrite value => Sys2Proof.Machine.execAnchorWrite value s
  | .nudge value => Sys2Proof.Machine.execNudge value s
  | .cancel value => Sys2Proof.Machine.execCancel value s
  | .ack n => Sys2Proof.Machine.execAck n s
  | .windowAddrWrite value => Sys2Proof.Machine.execWindowAddrWrite value s
  | .windowDataRead => Sys2Proof.Machine.execWindowDataRead s
  | .windowDataWrite value => Sys2Proof.Machine.execWindowDataWrite value s
  | .registerWriteOther offset strobe value => Sys2Proof.Machine.execRegisterWriteOther offset strobe value s
  | .sweepTimerExpiry => Sys2Proof.Machine.execSweepTimerExpiry s
  | .anchorReadDone reply => Sys2Proof.Machine.execAnchorReadDone reply s
  | .completionWordReadDone reply => Sys2Proof.Machine.execCompletionWordReadDone reply s
  | .headerReadDone host => Sys2Proof.Machine.execHeaderReadDone host s
  | .bodyReadDone reply => Sys2Proof.Machine.execBodyReadDone reply s
  | .take => Sys2Proof.Machine.execTake s
  | .handBack => Sys2Proof.Machine.execHandBack s
  | .handBackWriteAccept => Sys2Proof.Machine.execHandBackWriteAccept s
  | .completion pick => Sys2Proof.Machine.execCompletion pick s
  | .resultAreaWriteAccept => Sys2Proof.Machine.execResultAreaWriteAccept s
  | .stateWriteAccept => Sys2Proof.Machine.execStateWriteAccept s
  | .completionWordWriteAccept => Sys2Proof.Machine.execCompletionWordWriteAccept s
  | .startEvent => Sys2Proof.Machine.execStartEvent s
  | .progressRunningAccept lane => Sys2Proof.Machine.execProgressRunningAccept lane s
  | .startClaim lane => Sys2Proof.Machine.execStartClaim lane s
  | .startTest lane => Sys2Proof.Machine.execStartTest lane s
  | .imageReadDone lane bytes host => Sys2Proof.Machine.execImageReadDone lane bytes host s
  | .loadClaim lane => Sys2Proof.Machine.execLoadClaim lane s
  | .presetRecordReadDone lane host => Sys2Proof.Machine.execPresetRecordReadDone lane host s
  | .apply lane => Sys2Proof.Machine.execApply lane s
  | .latch lane => Sys2Proof.Machine.execLatch lane s
  | .snapshotRecordWriteAccept lane => Sys2Proof.Machine.execSnapshotRecordWriteAccept lane s
  | .clear lane => Sys2Proof.Machine.execClear lane s
  | .markReadDone lane host => Sys2Proof.Machine.execMarkReadDone lane host s
  | .sourceReadDone lane host => Sys2Proof.Machine.execSourceReadDone lane host s
  | .destinationReadDone lane host => Sys2Proof.Machine.execDestinationReadDone lane host s
  | .destinationWriteAccept lane => Sys2Proof.Machine.execDestinationWriteAccept lane s
  | .exceptionRecordWriteAccept lane => Sys2Proof.Machine.execExceptionRecordWriteAccept lane s
  | .cellBoundary lane => Sys2Proof.Machine.execCellBoundary lane s
  | .commit lane => Sys2Proof.Machine.execCommit lane s
  | .parkRequest => Sys2Proof.Machine.execParkRequest s
  | .parkWithdraw => Sys2Proof.Machine.execParkWithdraw s
  | .parkComplete lane => Sys2Proof.Machine.execParkComplete lane s
  | .timeLimit lane => Sys2Proof.Machine.execTimeLimit lane s
  | .memoryFault lane took => Sys2Proof.Machine.execMemoryFault lane took s
  | .slateFault requester took => Sys2Proof.Machine.execSlateFault requester took s

end Sys2Proof.Machine
end

