-- ==== Sys2Proof/Safety.lean ====
section
/-! DEFINITION. What the part keeps at every step: the properties that the spec states of every state a command leaves,
each as a property of one state. -/

namespace Sys2Proof.Machine

/-! ## Memory -/

/-- Memory is in its canonical form (log 1). -/
def State.memoryCanonical (s : State) : Prop := s.mem.wf = true

/-- Bytes written: those from `a` up hold them where they lie inside the address space, and every other byte reads as
before. -/
structure Memory.Written (m m' : Memory) (a : Nat) (bytes : List Byte) : Prop where
  outside : ∀ x, (∀ i, i < bytes.length → wrapAddr (a + i) ≠ x) → m'.read x = m.read x
  inside : a + bytes.length ≤ Config.topAddress + 1 → ∀ i (h : i < bytes.length), m'.read (a + i) = bytes[i]

/-- Whether an issued write covers a byte. -/
def issuedCovers (w : Option (Nat × List Byte)) (x : Nat) : Prop :=
  ∃ a bytes, w = some (a, bytes) ∧ ∃ i, i < bytes.length ∧ wrapAddr (a + i) = x

/-- The four writes that can be issued at one time: lane 0's, lane 1's, the Slate Reader's, the Completion Writer's. -/
def State.issued (s : State) : Fin 4 → Option (Nat × List Byte)
  | 0 => s.laneWrite .lane0
  | 1 => s.laneWrite .lane1
  | 2 => s.slateWrite
  | 3 => s.writerWrite

/-- Which of the four issued writes a requester's is. -/
def issuerOf : Requester → Fin 4
  | .lane .lane0 => 0
  | .lane .lane1 => 1
  | .slateReader => 2
  | .completionWriter => 3

/-- Memory holds an issued write at a byte of it, unless another issued write covers that byte too (R31, R174, R175,
R184, R194). -/
def State.Landed (s : State) (m : Memory) (k : Fin 4) : Prop :=
  ∀ a bytes, s.issued k = some (a, bytes) → a + bytes.length ≤ Config.topAddress + 1 →
    ∀ i (h : i < bytes.length), (∀ j, j ≠ k → ¬ issuedCovers (s.issued j) (a + i)) → m.read (a + i) = bytes[i]

/-! ## What stays as it was -/

/-- The fields that no operation over orders, lanes, sweeps and completions touches: the part fitted, memory,
accumulators, Window Port, the word read last, the free counter and the queue. -/
structure State.Kept (s t : State) : Prop where
  part : t.part = s.part
  mem : t.mem = s.mem
  accums : t.accums = s.accums
  window : t.window = s.window
  readData : t.readData = s.readData
  free : t.free = s.free
  pending : t.pending = s.pending

/-- An order ended on its lane: the lane has its end mark and holds its order and nothing else of it, the hand-over
waits at the Completion Writer, and the other lane, Engine Control, the Slate Reader, the park-order list and what
`State.Kept` names stand as they were (R95, R126, R161). -/
structure State.Ended (s t : State) (n : LaneId) (h : HandOver) : Prop where
  endMark : (t.lane n).endMark = true
  state : (t.lane n).state = .active
  request : (t.lane n).request = .none
  order : (t.lane n).order = (s.lane n).order
  context : (t.lane n).context = none
  staging : (t.lane n).staging = Staging.start
  buffer : (t.lane n).buffer = RecordBuffer.empty
  work : (t.lane n).work = .handedOver
  other : t.lane (otherLane n) = s.lane (otherLane n)
  writer : t.writer = { s.writer with waiting := s.writer.waiting ++ [h] }
  engine : t.engine = s.engine
  slate : t.slate = s.slate
  parkOrder : t.parkOrder = s.parkOrder
  kept : s.Kept t

/-- The band set claim of an order released: one use less where the order held it, and the entry no longer holds it
(R62). -/
structure State.Released (s t : State) (e : Entry) : Prop where
  held : ∀ i : Fin 8, e.claimed = true → referencedSet e.header.kind e.body = some i →
    t.bandSets = s.bandSets.set i { s.bandSets[i] with uses := s.bandSets[i].uses - 1 } ∧
      ∀ x ∈ t.table, x.slot = e.slot → x.claimed = false
  free : e.claimed = false → t.bandSets = s.bandSets

/-- A lane frozen at a boundary: `l` is the lane as the cell or step left it, and the engine is PAUSED once the other
lane neither works nor yields and no sweep is in progress (R125, R160, R171, R180). -/
structure State.FrozenAt (s t : State) (n : LaneId) (l : Lane) : Prop where
  lane : t.lane n = { l with state := .frozen, work := .none }
  other : t.lane (otherLane n) = s.lane (otherLane n)
  paused : t.engine.state = .paused ↔
    s.engine.state = .paused ∨ ((s.lane (otherLane n)).busy = false ∧ s.slate.sweeping = false)
  engine : t.engine = { s.engine with state := t.engine.state }
  table : t.table = s.table
  banks : t.banks = s.banks
  bandSets : t.bandSets = s.bandSets
  writer : t.writer = s.writer
  slate : t.slate = s.slate
  parkOrder : t.parkOrder = s.parkOrder
  kept : s.Kept t

/-- The engine after an event at the sweep, a lane or a completion (R177, R180, R183, log 19): PAUSING has passed to
PAUSED where no lane is ACTIVE or YIELDING and no sweep is in progress, STOPPING to OFF where nothing is held, and
nothing else of Engine Control has changed. -/
structure State.EngineSettled (s t : State) : Prop where
  fields : t.engine = { s.engine with state := t.engine.state }
  pausing : s.engine.state = .pausing →
    t.engine.state =
      if t.lane0.busy = false ∧ t.lane1.busy = false ∧ t.slate.sweeping = false then .paused else .pausing
  stopping : s.engine.state = .stopping →
    t.engine.state =
      if t.table = [] ∧ t.writer.waiting = [] ∧ t.writer.step = .idle ∧ t.slate.step = .idle then .off else .stopping
  other : s.engine.state ≠ .pausing → s.engine.state ≠ .stopping → t.engine = s.engine

/-! ## What a lane begins -/

/-- The cell at a context's walk index begun on a lane (R25, R27, R28, R30, R31, R91, R121, R122, R124): the mark byte is
read where the order has a mark plane; else an excluded cell comes to its boundary, a source cell is read, and a PATTERN
cell has its generated value brought into range and its destination read or written. -/
structure CellBegun (e : Entry) (c : WalkContext) (l l' : Lane) : Prop where
  mark : hasMarkPlane e.header.kind e.body = true →
    l' = { l with cell := some (CellWork.begin c.walk.cell.1 c.walk.cell.2), work := .markRead }
  excluded : hasMarkPlane e.header.kind e.body = false → excludes e.body c.walk.cell.1 c.walk.cell.2 = true →
    l' = { l with
      cell := some { CellWork.begin c.walk.cell.1 c.walk.cell.2 with cls := .excluded }, work := .boundary }
  source : hasMarkPlane e.header.kind e.body = false → excludes e.body c.walk.cell.1 c.walk.cell.2 = false →
    e.header.kind ≠ .pattern →
    l' = { l with cell := some (CellWork.begin c.walk.cell.1 c.walk.cell.2), work := .sourceARead }
  pattern : e.header.kind = .pattern → excludes e.body c.walk.cell.1 c.walk.cell.2 = false →
    ∃ w, w.row = c.walk.cell.1 ∧ w.col = c.walk.cell.2 ∧ w.cls = .contributed ∧
      (∃ x : Converted,
        x = patternValue (gridC e.body).format (generatedValue e.body c.ramp c.walk.cell.1 c.walk.cell.2) ∧
        w.working = some x.output ∧ w.saturated = x.saturated ∧ (w.nonzero = true ↔ x.output ≠ 0) ∧
        w.exceptions = (if x.saturated then [⟨.saturated, 0, (clampTotal x.before).1⟩] else [])) ∧
      (readsDestination .pattern e.body = true → l' = { l with cell := some w, work := .destinationRead }) ∧
      (readsDestination .pattern e.body = false →
        l' = { l with
          cell := some w
          work := .destinationWrite (BitVec.ofNat 32 ((gridC e.body).cellAddr w.row w.col))
            ((gridC e.body).format.encode (w.working.getD 0)) false })

/-- The next step of a housekeeping order begun on a lane, by its kind and the steps it has completed (R63, R81, R84,
R128, R130, R132). The check of a BANDSET's image is made on the way: a valid image counts one step more and has its
load claim presented. -/
structure StepBegun (e : Entry) (l l' : Lane) : Prop where
  image : e.header.kind = .bandset → l.steps = 1 → l' = { l with image := [], work := .imageRead }
  check : e.header.kind = .bandset → l.steps = 2 →
    bandsValid (byteAt l.image 0).toNat ((List.range 8).map (imageBand l.image)) = true →
    l' = { l with steps := 3, work := .loadClaim }
  load : e.header.kind = .bandset → l.steps = 3 → l' = { l with work := .loadClaim }
  record : e.header.kind = .preset → l.steps < lastAccum e.body - firstAccum e.body + 1 →
    l' = { l with work := .recordRead }
  apply : e.header.kind = .preset → lastAccum e.body - firstAccum e.body + 1 ≤ l.steps →
    l' = { l with work := .applyClaim }
  write : e.header.kind = .snapshot → l.steps ≤ lastAccum e.body - firstAccum e.body + 1 →
    l' = { l with work := .recordWrite }
  clear : e.header.kind = .snapshot → lastAccum e.body - firstAccum e.body + 1 < l.steps →
    (byteAt e.body 8).getLsbD 0 = true → l' = { l with work := .clearClaim }

/-! ## What a worked cell begins -/

/-- The records of a cell begun on a lane (R91, R114): with none the cell comes to its boundary; with room the first is
written; without room each is counted raised and lost. -/
structure RecordsBegun (e : Entry) (c : WalkContext) (w : CellWork) (l l' : Lane) : Prop where
  done : w.exceptions = [] → l' = { l with context := some c, cell := some w, work := .boundary }
  room : w.exceptions ≠ [] → c.record.cursor < e.header.listCapacity →
    l' = { l with context := some c, cell := some w, work := .exceptionWrite }
  full : w.exceptions ≠ [] → e.header.listCapacity ≤ c.record.cursor →
    l' = { l with
      context := some { c with
        record := { c.record with
          raised := c.record.raised + w.exceptions.length
          lost := c.record.lost + w.exceptions.length } }
      cell := some { w with exceptions := [] }
      work := .boundary }

/-- Whether a worked cell has its destination written (R30, R98, R104, R110, R118, R124): a COMPARE writes its result bit
whatever the outcome; a DIFFERENCE, CONVERT or PATTERN writes C where the cell contributed. -/
def cellWrites (kind : OrderKind) (w : CellWork) : Prop :=
  kind = .compare ∨ (kind = .difference ∨ kind = .convert ∨ kind = .pattern) ∧ w.cls = .contributed

/-- The writes of a worked cell begun on a lane (R30, R31, R91): the destination is read first where `readsDestination`
says so and C is written whole otherwise; a cell without a destination write goes on to its records. -/
structure WritesBegun (e : Entry) (c : WalkContext) (w : CellWork) (l l' : Lane) : Prop where
  read : cellWrites e.header.kind w → readsDestination e.header.kind e.body = true →
    l' = { l with context := some c, cell := some w, work := .destinationRead }
  whole : cellWrites e.header.kind w → readsDestination e.header.kind e.body = false →
    l' = { l with
      context := some c
      cell := some w
      work := .destinationWrite (BitVec.ofNat 32 ((gridC e.body).cellAddr w.row w.col))
        ((gridC e.body).format.encode (w.working.getD 0)) false }
  skipped : ¬cellWrites e.header.kind w → RecordsBegun e c w l l'

/-! ## The outcome of a worked cell -/

/-- The cell of a TALLY, DIFFERENCE or CONVERT after the conversion stage: its working value is the output value, and it
carries SATURATED, then `raised`, then `classes` (R47, R48, R92, R98, R104, R118). -/
structure CellConverted (x : Converted) (raised classes : List CellException) (w w' : CellWork) : Prop where
  working : w'.working = some x.output
  saturated : w'.saturated = x.saturated
  exceptions : w'.exceptions = saturatedException x ++ raised ++ classes
  place : w'.row = w.row ∧ w'.col = w.col
  nonzero : w'.nonzero = true ↔ w'.cls = .contributed ∧ x.output ≠ 0
  verdict : w'.verdict = w.verdict

/-! ## Sweeps -/

/-- The Slate Reader before and after the end of a sweep, by the engine state (R140, R141, R148): the timer is at 0; in
RUNNING a sweep-again begins the next sweep at the cursor; a sweep that a PAUSE ended leaves sweep-again set, and one
that ends in STOPPING leaves it clear. -/
structure State.SweepEnded (s : State) (x y : SlateReader) : Prop where
  idle : s.engine.state = .running → x.again = false → x.ending = false →
    y = { x with timer := 0, visited := 0, step := .idle }
  again : s.engine.state = .running → (x.again = true ∨ x.ending = true) →
    y = { x with
      cursor := if x.cursor < s.engine.anchor.slotCount then x.cursor else 0
      again := false
      ending := false
      timer := 0
      visited := 0
      step := .headerRead (if x.cursor < s.engine.anchor.slotCount then x.cursor else 0) }
  pause : (s.engine.state = .pausing ∨ s.engine.state = .paused) →
    y = { x with again := x.again || x.ending, ending := false, timer := 0, visited := 0, step := .idle }
  stop : s.engine.state = .stopping →
    y = { x with again := false, ending := false, timer := 0, visited := 0, step := .idle }

/-- The Slate Reader before and after a slot is finished (R142, R148): the cursor is past the slot; the sweep goes on to
the next slot where the engine is RUNNING, fewer than slot-count slots are visited and no PAUSE marked the sweep, and
ends otherwise. -/
structure State.SlotFinished (s : State) (x y : SlateReader) (slot : Nat) : Prop where
  on : s.engine.state = .running → x.ending = false → x.visited + 1 < s.engine.anchor.slotCount →
    y = { x with
      cursor := if slot + 1 < s.engine.anchor.slotCount then slot + 1 else 0
      visited := x.visited + 1
      step := .headerRead (if slot + 1 < s.engine.anchor.slotCount then slot + 1 else 0) }
  ended : (s.engine.state ≠ .running ∨ x.ending = true ∨ s.engine.anchor.slotCount ≤ x.visited + 1) →
    s.SweepEnded { x with cursor := if slot + 1 < s.engine.anchor.slotCount then slot + 1 else 0 } y

/-! ## The values after a reset (R194, R195) -/

/-- The values that both resets give (R9, R41, R58, R88, R128, R134, R139, R150, R157, R159, R163, R168, R185,
R199). -/
structure State.ResetValues (s : State) : Prop where
  engine : s.engine.state = .off ∧ s.engine.access = .none ∧ s.engine.anchor = ⟨0, 0, 0, 0, 0⟩ ∧
    s.engine.fault = ⟨0, .none, 0, .off⟩ ∧ s.engine.flags = noStickyBits
  slate : s.slate.cursor = 0 ∧ s.slate.again = false ∧ s.slate.timer = 0 ∧ s.slate.nextSeq = 0 ∧
    s.slate.step = .idle
  table : s.table = []
  lanes : ∀ n, (s.lane n).state = .idle ∧ (s.lane n).order = none ∧ (s.lane n).context = none ∧
    (s.lane n).request = .none ∧ (s.lane n).runTimer = 0 ∧ (s.lane n).endMark = false ∧
    (s.lane n).staging = Staging.start ∧ (s.lane n).buffer = RecordBuffer.empty ∧ (s.lane n).work = .none ∧
    (s.lane n).cell = none ∧ (s.lane n).image = [] ∧ (s.lane n).steps = 0
  banks : ∀ b : Fin 4, s.banks[b] = .free
  parkOrder : s.parkOrder = []
  uses : ∀ i : Fin 8, s.bandSets[i].uses = 0
  writer : s.writer = ⟨0, 0, [], .idle⟩
  window : s.window.addr = 0 ∧ s.window.autoIncrement = false ∧ s.window.buffer = 0 ∧
    s.window.accumLatch = ⟨none, 0, 0, false⟩ ∧ s.window.bandLatch.holds = none

/-- The values that power-on reset gives besides (R58, R71, R196). -/
structure State.PowerOnValues (s : State) : Prop extends s.ResetValues where
  anchorReg : s.engine.anchorReg = 0
  irqEnables : s.engine.irqEnables = noStickyBits
  sets : ∀ i : Fin 8, s.bandSets[i].state = .empty ∧ s.bandSets[i].count = 0 ∧
    ∀ b : Fin 8, boundValue s.bandSets[i].bands[b].low = some 0 ∧ boundValue s.bandSets[i].bands[b].high = some 0 ∧
      s.bandSets[i].bands[b].accum = 0 ∧ s.bandSets[i].bands[b].alarm = false
  accums : ∀ i : Fin 64, s.accums[i] = ⟨0, 0, false⟩

/-! ## What a take checks (R143), field by field of R156 -/

/-- A signed field of 24 digits in 13 bytes whose first nibble is pad: every digit nibble holds 0 to 9, and the sign
nibble the plus or the minus code (R50, R108, R120). -/
def signedSound (body : List Byte) (i : Nat) : Prop :=
  let raw := beValue (slice body i 13)
  (∀ k, k < 24 → raw / 16 ^ (k + 1) % 16 ≤ 9) ∧ (raw % 16 = 0xC ∨ raw % 16 = 0xD)

/-- The header's urgency and exception list (R113). -/
structure HeaderSound (header : List Byte) : Prop where
  urgency : (byteAt header 3).toNat ≤ 1
  capacity : leField header 12 2 ≤ 4096
  list : 1 ≤ leField header 12 2 → leField header 8 4 + 32 * leField header 12 2 - 1 ≤ 0xFFFFFFFF

/-- The codes of window form, walk and exclusion selector (R22, R24, R28). -/
structure WalkSound (body : List Byte) : Prop where
  form : (byteAt body 80).toNat ≤ 1
  axis : (byteAt body 81).toNat ≤ 1
  colDir : (byteAt body 82).toNat ≤ 1
  rowDir : (byteAt body 83).toNat ≤ 1
  selector : (byteAt body 92).toNat ≤ 2

/-- Offset, scale and rounding mode (R50). -/
structure ConversionSound (body : List Byte) : Prop where
  offset : signedSound body 104
  scale : -8 ≤ (byteAt body 117).toInt ∧ (byteAt body 117).toInt ≤ 8
  rounding : (byteAt body 118).toNat ≤ 1

/-- The keep mask against destination C's format (R34). -/
structure KeepSound (body : List Byte) : Prop where
  decimal : ((byteAt body 60).toNat = 1 ∨ (byteAt body 60).toNat = 2) →
    ∀ k, (byteAt body 61).toNat ≤ k → (leField body 120 3).testBit k = false
  binary : (3 ≤ (byteAt body 60).toNat ∧ (byteAt body 60).toNat ≤ 5) → leField body 120 3 = 0

/-- The indices of a PRESET or SNAPSHOT (R129, R131). -/
structure RangeSound (body : List Byte) : Prop where
  first : (byteAt body 0).toNat ≤ 63
  last : (byteAt body 1).toNat ≤ 63
  order : (byteAt body 0).toNat ≤ (byteAt body 1).toNat

/-- The fields of a body that FIELD_RANGE guards, by kind (R22, R24, R28, R34, R50, R65, R101, R108, R120, R127, R129,
R131). -/
def FieldsSound (kind : OrderKind) (body : List Byte) : Prop :=
  match kind with
  | .tally =>
    WalkSound body ∧ ConversionSound body ∧ (1 ≤ (byteAt body 119).toNat ∧ (byteAt body 119).toNat ≤ 24) ∧
      (byteAt body 136).toNat ≤ 7
  | .difference =>
    WalkSound body ∧ ConversionSound body ∧ KeepSound body ∧ (byteAt body 123).toNat ≤ 24 ∧
      (∀ k, k < 24 → beValue (slice body 124 12) / 16 ^ k % 16 ≤ 9) ∧
      ((byteAt body 136).toNat ≤ 7 ∨ (byteAt body 136).toNat = 0xFF)
  | .compare =>
    WalkSound body ∧ (byteAt body 138).toNat ≤ 1 ∧ (byteAt body 139).toNat ≤ 5 ∧
      ((byteAt body 138).toNat = 1 → signedSound body 140)
  | .convert => WalkSound body ∧ ConversionSound body ∧ KeepSound body
  | .pattern =>
    WalkSound body ∧ KeepSound body ∧ (byteAt body 153).toNat ≤ 2 ∧ signedSound body 140 ∧
      ((byteAt body 153).toNat = 1 → signedSound body 164) ∧ ((byteAt body 153).toNat = 2 → signedSound body 177)
  | .bandset => (byteAt body 0).toNat ≤ 7 ∧ leField body 4 4 + 263 ≤ 0xFFFFFFFF
  | .preset | .snapshot =>
    RangeSound body →
      leField body 4 4 + 24 * ((byteAt body 1).toNat - (byteAt body 0).toNat + 1) - 1 ≤ 0xFFFFFFFF

/-- The cell size that a format code and count name: bytes, or bits for FIELD-w (R18). -/
def cellSize (code n : Nat) : Nat :=
  match code with
  | 1 => (n + 1) / 2
  | 2 => (n + 2) / 2
  | 3 => 2
  | 4 => 4
  | _ => n

/-- The grid descriptor at offset `i` of a body (R21). -/
structure GridSound (body : List Byte) (i : Nat) : Prop where
  format : 1 ≤ (byteAt body (i + 12)).toNat ∧ (byteAt body (i + 12)).toNat ≤ 5
  digits : ((byteAt body (i + 12)).toNat = 1 ∨ (byteAt body (i + 12)).toNat = 2) →
    1 ≤ (byteAt body (i + 13)).toNat ∧ (byteAt body (i + 13)).toNat ≤ 24
  bits : (byteAt body (i + 12)).toNat = 5 → 1 ≤ (byteAt body (i + 13)).toNat ∧ (byteAt body (i + 13)).toNat ≤ 32
  rows : 1 ≤ leField body (i + 4) 2 ∧ leField body (i + 4) 2 ≤ 4096
  cols : 1 ≤ leField body (i + 6) 2 ∧ leField body (i + 6) 2 ≤ 4096
  pitch : leField body (i + 6) 2 * cellSize (byteAt body (i + 12)).toNat (byteAt body (i + 13)).toNat ≤
    leField body (i + 8) 4
  lastByte : (byteAt body (i + 12)).toNat ≠ 5 →
    leField body i 4 + (leField body (i + 4) 2 - 1) * leField body (i + 8) 4 +
      leField body (i + 6) 2 * cellSize (byteAt body (i + 12)).toNat (byteAt body (i + 13)).toNat - 1 ≤ 0xFFFFFFFF
  lastBit : (byteAt body (i + 12)).toNat = 5 →
    leField body i 4 + ((leField body (i + 4) 2 - 1) * leField body (i + 8) 4 +
      leField body (i + 6) 2 * (byteAt body (i + 13)).toNat - 1) / 8 ≤ 0xFFFFFFFF

/-- Whether a kind names the descriptor of source A, source B or destination C, at offsets 0, 24 and 48 (R96, R100,
R107, R108, R117, R120). -/
def namesGrid (kind : OrderKind) (body : List Byte) (i : Nat) : Prop :=
  (i = 0 ∧ (kind = .tally ∨ kind = .difference ∨ kind = .compare ∨ kind = .convert)) ∨
    (i = 24 ∧ (kind = .difference ∨ kind = .compare ∧ (byteAt body 138).toNat ≠ 1)) ∨
    (i = 48 ∧ (kind = .difference ∨ kind = .convert ∨ kind = .pattern))

/-- The last row of a window, in END or SPAN form (R22). -/
def lastRow (body : List Byte) : Nat :=
  if (byteAt body 80).toNat = 1 then leField body 84 2 + leField body 88 2 else leField body 88 2

/-- The last column of a window, in END or SPAN form (R22). -/
def lastCol (body : List Byte) : Nat :=
  if (byteAt body 80).toNat = 1 then leField body 86 2 + leField body 90 2 else leField body 90 2

/-- A plane whose base and pitch stand at offsets `i` and `i + 4` holds the window (R23). -/
def planeSound (body : List Byte) (i : Nat) : Prop :=
  lastCol body / 8 + 1 ≤ leField body (i + 4) 4 ∧
    leField body i 4 + lastRow body * leField body (i + 4) 4 + lastCol body / 8 ≤ 0xFFFFFFFF

/-- Window, exclusion rectangle, grids and planes (R22, R23, R28). -/
structure WindowSound (kind : OrderKind) (body : List Byte) : Prop where
  fields : leField body 84 2 ≤ 4095 ∧ leField body 86 2 ≤ 4095 ∧ leField body 88 2 ≤ 4095 ∧ leField body 90 2 ≤ 4095
  ends : lastRow body ≤ 4095 ∧ lastCol body ≤ 4095
  order : leField body 84 2 ≤ lastRow body ∧ leField body 86 2 ≤ lastCol body
  excluded : (byteAt body 92).toNat ≠ 0 →
    leField body 94 2 ≤ 4095 ∧ leField body 96 2 ≤ 4095 ∧ leField body 98 2 ≤ 4095 ∧ leField body 100 2 ≤ 4095 ∧
      leField body 94 2 ≤ leField body 98 2 ∧ leField body 96 2 ≤ leField body 100 2
  grids : ∀ i, namesGrid kind body i → lastRow body < leField body (i + 4) 2 ∧ lastCol body < leField body (i + 6) 2
  mark : kind ≠ .pattern → leField body 72 4 ≠ 0 → planeSound body 72
  result : kind = .compare → planeSound body 156

/-- Residue accumulator and accumulator range (R65, R129, R131). -/
def AccumSound (kind : OrderKind) (body : List Byte) : Prop :=
  match kind with
  | .tally => (byteAt body 137).toNat = 0xFF ∨ (byteAt body 137).toNat ≤ 63
  | .difference =>
    (byteAt body 136).toNat ≠ 0xFF → (byteAt body 137).toNat = 0xFF ∨ (byteAt body 137).toNat ≤ 63
  | .preset | .snapshot => RangeSound body
  | .compare | .convert | .pattern | .bandset => True

/-! ## The inspection views (R203, R205) -/

/-- A word of the Order Table view at the position of an entry. -/
structure Entry.Shown (e : Entry) (k : Nat) (w : Word) : Prop where
  slot : k = 0 → w = BitVec.ofNat 32 (e.slot + 65536 * e.header.tag.toNat)
  flags : k = 1 → w = BitVec.ofNat 32 (e.phase.code + 4 * laneNumber e.lane + 16 * e.bank.val +
    64 * e.pendingCancel.toNat + 128 * e.header.urgent.toNat + 256 * e.header.hold.toNat +
    512 * e.header.notify.toNat + 65536 * e.header.kind.code + 16777216 * e.parkCount)
  seq : k = 2 → w = e.seq
  capacity : k = 3 → w = BitVec.ofNat 32 e.header.listCapacity

/-- Words 4 to 15 of a lane's or a bank's view. -/
structure OrderRecord.Shown (r : OrderRecord) (e : Option Entry) (k : Nat) (w : Word) : Prop where
  visited : k = 4 → w = BitVec.ofNat 32 r.visited
  contributed : k = 5 → w = BitVec.ofNat 32 r.contributed
  marked : k = 6 → w = BitVec.ofNat 32 r.marked
  excluded : k = 7 → w = BitVec.ofNat 32 r.excluded
  rejected : k = 8 → w = BitVec.ofNat 32 r.rejected
  raised : k = 9 → w = BitVec.ofNat 32 r.raised
  written : k = 10 → w = BitVec.ofNat 32 r.written
  lost : k = 11 → w = BitVec.ofNat 32 r.lost
  trueCount : k = 12 → w = BitVec.ofNat 32 r.trueCount
  falseCount : k = 13 → w = BitVec.ofNat 32 r.falseCount
  seq : k = 14 → ∀ x, e = some x → w = x.seq
  noSeq : k = 14 → e = none → w = 0
  last : k = 15 → w = 0

/-- A word of a lane's view; a lane without a context shows the counts of one that has worked nothing (log 26). -/
structure State.LaneShown (s : State) (n : LaneId) (k : Nat) (w : Word) : Prop where
  state : k = 0 → ∃ bank r, w = BitVec.ofNat 32 ((s.lane n).state.code + 4 * (s.lane n).request.rank + 32 * bank +
      256 * (s.lane n).endMark.toNat + 512 * r.nonzero.toNat + 1024 * r.saturated.toNat) ∧
    (∀ b, (s.lane n).work = .parkedWrite b → bank = b.val) ∧
    ((s.lane n).parkUnderWay = false → ∀ b, (s.lane n).request = .park b → bank = b.val) ∧
    ((s.lane n).parkUnderWay = false → (∀ b, (s.lane n).request ≠ .park b) → bank = 7) ∧
    (∀ c, (s.lane n).context = some c → r = c.record) ∧ ((s.lane n).context = none → r = OrderRecord.start)
  order : k = 1 → ∀ slot e, (s.lane n).order = some slot → s.entry? slot = some e →
    w = BitVec.ofNat 32 (slot + 65536 * e.header.tag.toNat)
  noOrder : k = 1 → (s.lane n).order = none → w = 0xFF
  walked : k = 2 → ∀ c, (s.lane n).context = some c → w = BitVec.ofNat 32 c.walk.next
  steps : k = 2 → (s.lane n).context = none → w = BitVec.ofNat 32 (s.lane n).steps
  timer : k = 3 → w = BitVec.ofNat 32 (s.lane n).runTimer
  counts : 4 ≤ k → ∀ c, (s.lane n).context = some c → c.record.Shown (s.laneEntry n) k w
  noCounts : 4 ≤ k → (s.lane n).context = none → OrderRecord.start.Shown (s.laneEntry n) k w

/-- A word of a park bank's view; the reserving lane bit of a HOLDING bank is open (log 14). -/
structure State.BankShown (s : State) (b : Fin 4) (k : Nat) (w : Word) : Prop where
  free : s.banks[b] = .free → w = 0
  reserved : ∀ n, s.banks[b] = .reserved n → k = 0 → w = BitVec.ofNat 32 (1 + 4 * laneNumber n)
  reservedRest : ∀ n, s.banks[b] = .reserved n → k ≠ 0 → w = 0
  state : ∀ c, s.banks[b] = .holding c → k = 0 → ∃ x : BitVec 1,
    w = BitVec.ofNat 32 (2 + 4 * x.toNat + 512 * c.record.nonzero.toNat + 1024 * c.record.saturated.toNat)
  order : ∀ c e, s.banks[b] = .holding c → k = 1 → s.entry? c.slot = some e →
    w = BitVec.ofNat 32 (c.slot + 65536 * e.header.tag.toNat)
  walked : ∀ c, s.banks[b] = .holding c → k = 2 → w = BitVec.ofNat 32 c.next
  timer : ∀ c, s.banks[b] = .holding c → k = 3 → w = BitVec.ofNat 32 c.runTime
  counts : ∀ c, s.banks[b] = .holding c → 4 ≤ k → c.record.Shown (s.entry? c.slot) k w

/-- A word of the fault record's view, with the access kind and the engine state by their codes (R185, R196). -/
structure FaultRecord.Shown (f : FaultRecord) (k : Nat) (w : Word) : Prop where
  address : k = 0 → w = f.address
  kind : k = 1 → w = BitVec.ofNat 32 f.kind.code
  slot : k = 2 → w = BitVec.ofNat 32 f.slot
  state : k = 3 → w = BitVec.ofNat 32 f.state.code

/-- A word that shows nibbles 8 × (3 − k) up of a decimal value of `n` digits over its sign nibble, the digits given as
a magnitude (R203). -/
def decimalShown (n : Nat) (v : Int) (k : Nat) (w : Word) : Prop :=
  ∀ j, j < 8 →
    let place := 8 * (3 - k) + j
    w.toNat / 16 ^ j % 16 =
      if place = 0 then (if v < 0 then 0xD else 0xC)
      else if place ≤ n then v.natAbs / 10 ^ (place - 1) % 10 else 0

/-! ## The halt (R174, R177) -/

/-- The engine is HALTED, no lane works or waits for anything, and no access of the part is outstanding. -/
structure State.Halted (s : State) : Prop where
  state : s.engine.state = .halted
  access : s.engine.access = .none
  lanes : ∀ n, (s.lane n).work = .none ∧ (s.lane n).request = .none ∧
    ((s.lane n).state = .idle ∨ (s.lane n).state = .frozen)
  slate : s.slate.step = .idle
  writer : s.writer.step = .idle ∧ s.writer.waiting = []

/-! ## Totals (R71, R73, R79, R88) -/

/-- A value of at most 28 digits (R71, R73). -/
def Total.inWidth (t : Total) : Prop := -Config.maxTotal ≤ t.value ∧ t.value ≤ Config.maxTotal

/-- A total that an accumulator can hold (R71). -/
def Total.inLimits (t : Total) : Prop := t.inWidth ∧ t.count ≤ Config.maxCount

/-- Every staging value has at most 28 digits (R73). -/
def stagingInWidth (x : Staging) : Prop := ∀ i : Fin 9, x[i].inWidth

/-- Every entry of a record buffer is one that an accumulator can hold (R79). -/
def RecordBuffer.inLimits (x : RecordBuffer) : Prop := ∀ i : Fin 64, x.entries[i].inLimits

/-- Every total the part holds lies within its limits: accumulators, staging sets on lanes and in banks, record
buffers, and the accumulator latch (R71, R73, R79, R88). -/
structure State.TotalsInLimits (s : State) : Prop where
  accums : ∀ i : Fin 64, s.accums[i].inLimits
  staging : ∀ n, stagingInWidth (s.lane n).staging
  buffers : ∀ n, (s.lane n).buffer.inLimits
  banks : ∀ (b : Fin 4) (c : ParkedContext), s.banks[b] = .holding c → stagingInWidth c.staging
  latch : s.window.accumLatch.total.inLimits

/-! ## Cell and exception accounting (R37, R94, R114) -/

/-- The equalities of R94: visited is the sum of the four classes, and written and lost together are raised; the
cursor stands at the records written (R90, R205). -/
structure OrderRecord.Balanced (r : OrderRecord) : Prop where
  cells : r.visited = r.contributed + r.marked + r.excluded + r.rejected
  exceptions : r.written + r.lost = r.raised
  cursor : r.cursor = r.written

/-- The hand-overs that the Completion Writer holds, the one in hand first (R150). -/
def CompletionWriter.held (w : CompletionWriter) : List HandOver :=
  match w.step with
  | .idle => w.waiting
  | .resultWrite h | .stateWrite h | .wordWrite h => h :: w.waiting

/-- Every record on a lane, in a bank and on its way to a result area balances (R37, R94). -/
structure State.RecordsBalanced (s : State) : Prop where
  lanes : ∀ n (c : WalkContext), (s.lane n).context = some c → c.record.Balanced
  banks : ∀ (b : Fin 4) (c : ParkedContext), s.banks[b] = .holding c → c.record.Balanced
  hands : ∀ h ∈ s.writer.held, h.record.Balanced

/-! ## The Order Table (R142, R157) -/

/-- The slot that the Slate Reader may yet enter into the Order Table (R143, R144). -/
def SlateStep.mayEnter : SlateStep → Option Nat
  | .bodyRead slot _ => some slot
  | .takenWrite slot _ _ => some slot
  | .idle | .headerRead _ | .failing _ | .handBackWrite _ => none

/-- The table holds at most 32 entries, no two of one slot, and has room for a slot being taken, which it does not
hold (R138, R142, R157). -/
structure State.TableSound (s : State) : Prop where
  size : s.table.length ≤ Config.tableEntries
  slots : (s.table.map (fun e => e.slot)).Nodup
  taking : ∀ k, s.slate.step.mayEnter = some k →
    k ∉ s.table.map (fun e => e.slot) ∧ s.table.length < Config.tableEntries

/-! ## Band sets (R57, R59) -/

/-- A stored bound whose digit nibbles hold 0 to 9 and whose sign nibble holds the plus or the minus code (R57). -/
def boundSound (b : BitVec 100) : Prop :=
  (∀ k, k < 24 → b.toNat / 16 ^ (k + 1) % 16 ≤ 9) ∧ (b.toNat % 16 = 0xC ∨ b.toNat % 16 = 0xD)

/-- A band count and bands that make a valid set (R57). -/
structure BandsSound (count : Nat) (bands : List Band) : Prop where
  size : 1 ≤ count ∧ count ≤ 8
  nibbles : ∀ i b, i < count → bands[i]? = some b → boundSound b.low ∧ boundSound b.high
  order : ∀ i b, i < count → bands[i]? = some b → b.lowValue ≤ b.highValue
  ascending : ∀ i a b, i + 1 < count → bands[i]? = some a → bands[i + 1]? = some b → a.highValue < b.lowValue
  accum : ∀ i b, i < count → bands[i]? = some b → b.accum.toNat ≤ 63

/-- A set whose use count is above 0 is LOADED (R59). -/
def State.SetsInUseLoaded (s : State) : Prop := ∀ i : Fin 8, 0 < s.bandSets[i].uses → s.bandSets[i].state = .loaded

/-! ## Counters that hold at a limit (R157, R172, R192) -/

/-- Notify-pending, park counts and run timers stay at or below where they hold. -/
structure State.CountersHold (s : State) : Prop where
  notify : s.writer.notifyPending ≤ Config.maxNotify
  parks : ∀ e ∈ s.table, e.parkCount ≤ 255
  limit : s.engine.anchor.timeLimit ≤ 65535
  timers : ∀ n, (s.lane n).runTimer ≤ Config.maxRunTime
  banks : ∀ (b : Fin 4) (c : ParkedContext), s.banks[b] = .holding c → c.runTime ≤ Config.maxRunTime

end Sys2Proof.Machine
end

