-- ==== Sys2Proof/Certificates/Slice0/Obligations.lean ====
section
/-! DEFINITION. The statements for the provers. -/

section

open Sys2Proof Sys2Proof.Machine

/-! ## The machine -/

/-- A step of a state with a command at the front of its queue is that command on the queue's rest (log 27). -/
def Obligations.FrontCommandRuns : Prop :=
  ∀ (s : State) (c : Instr) (rest : List Instr), s.pending = c :: rest → step s = exec c { s with pending := rest }

/-- A step on an empty queue is one µs of the timers that count (R141, R172; that the step is a µs is the model's
choice, log 4). The run timers of both lanes and the sweep timer may count in one step: each that counts is raised by 1,
held at 65,535,000, and each that does not stands. A run timer that comes to the limit posts TIME_LIMIT, which replaces a
PARK, whose bank is freed, and is dropped beneath a CANCEL or ENGINE_STOP (R170); a sweep timer that comes to the sweep
period starts again from 0 and requests a sweep (R140). -/
def Obligations.EmptyQueueCountsOneMicrosecond : Prop :=
  ∀ s : State, s.pending = [] →
    ((∀ n, s.runTimerCounts n = false) → s.sweepTimerCounts = false → step s = .next s) ∧
    ((∀ n, s.runTimerCounts n = false) → s.sweepTimerCounts = true →
      s.slate.timer + 1 < s.engine.anchor.sweepPeriod →
      step s = .next { s with slate := { s.slate with timer := s.slate.timer + 1 } }) ∧
    ((∀ n, s.runTimerCounts n = false) → s.sweepTimerCounts = true →
      s.engine.anchor.sweepPeriod ≤ s.slate.timer + 1 → step s = exec .sweepTimerExpiry s) ∧
    (∀ n, s.runTimerCounts n = true → s.runTimerCounts (otherLane n) = false → s.sweepTimerCounts = false →
      (s.engine.anchor.timeLimit = 0 ∨ (s.lane n).runTimer + 1 < s.limitMicros) →
      step s = .next (s.setLane n { s.lane n with runTimer := min ((s.lane n).runTimer + 1) 65535000 })) ∧
    (∀ n, s.runTimerCounts n = true → s.runTimerCounts (otherLane n) = false → s.sweepTimerCounts = false →
      s.engine.anchor.timeLimit ≠ 0 → s.engine.anchor.timeLimit ≤ 65535 →
      (s.lane n).runTimer + 1 = s.limitMicros → (s.lane n).request = .none →
      step s = .next (s.setLane n
        { s.lane n with runTimer := s.limitMicros, request := .timeLimit, state := .yielding })) ∧
    (s.engine.anchor.timeLimit ≤ 65535 →
      let reached (n : LaneId) : Prop :=
        s.runTimerCounts n = true ∧ s.engine.anchor.timeLimit ≠ 0 ∧ (s.lane n).runTimer + 1 = s.limitMicros
      ∃ t, step s = .next t ∧
        (∀ n, s.runTimerCounts n = false → t.lane n = s.lane n) ∧
        (∀ n, s.runTimerCounts n = true → ¬ reached n →
          t.lane n = { s.lane n with runTimer := min ((s.lane n).runTimer + 1) 65535000 }) ∧
        (∀ n, reached n → ((s.lane n).request = .none ∨ ∃ b, (s.lane n).request = .park b) →
          t.lane n = { s.lane n with runTimer := s.limitMicros, request := .timeLimit, state := .yielding }) ∧
        (∀ n, reached n →
          ((s.lane n).request = .timeLimit ∨ (s.lane n).request = .cancel ∨ (s.lane n).request = .engineStop) →
          t.lane n = { s.lane n with runTimer := s.limitMicros }) ∧
        (∀ (n : LaneId) (b : Fin 4), reached n → (s.lane n).request = .park b → t.banks[b] = .free) ∧
        (∀ b : Fin 4, (∀ n, reached n → (s.lane n).request ≠ .park b) → t.banks[b] = s.banks[b]) ∧
        (s.sweepTimerCounts = false → t.slate = s.slate) ∧
        (s.sweepTimerCounts = true → s.slate.timer + 1 < s.engine.anchor.sweepPeriod →
          t.slate = { s.slate with timer := s.slate.timer + 1 }) ∧
        (s.sweepTimerCounts = true → s.engine.anchor.sweepPeriod ≤ s.slate.timer + 1 → s.slate.sweeping = true →
          t.slate = { s.slate with again := true, timer := 0 }) ∧
        (s.sweepTimerCounts = true → s.engine.anchor.sweepPeriod ≤ s.slate.timer + 1 → s.slate.sweeping = false →
          t.slate =
            { s.slate with
              cursor := if s.slate.cursor < s.engine.anchor.slotCount then s.slate.cursor else 0
              ending := false
              visited := 0
              timer := 0
              step := .headerRead (if s.slate.cursor < s.engine.anchor.slotCount then s.slate.cursor else 0) }) ∧
        t.engine = s.engine ∧ t.table = s.table ∧ t.bandSets = s.bandSets ∧ t.writer = s.writer ∧
        t.parkOrder = s.parkOrder ∧ s.Kept t)

/-- The state after reset, which stands for the part after power-on reset (log 28, the model's reading), holds the values
that the rules give for power-on reset, its registers read the values of R196, and it has every property that the steps
keep (R58, R71, R139, R150, R159, R168, R185, R195, R196, R199). -/
def Obligations.ResetHoldsPowerOnValues : Prop :=
  State.reset.PowerOnValues ∧ State.reset.irq = false ∧ State.reset.readRegister 0x04 = 0 ∧
    State.reset.readRegister 0x08 = 0 ∧ State.reset.readRegister 0x0C = 0 ∧ State.reset.readRegister 0x1C = 0 ∧
    State.reset.readRegister 0x20 = 0 ∧
    State.reset.memoryCanonical ∧ State.reset.TotalsInLimits ∧ State.reset.RecordsBalanced ∧
    State.reset.TableSound ∧ State.reset.SetsInUseLoaded ∧ State.reset.CountersHold

/-- POWER_ON_RESET gives every block its power-on values and leaves memory (R195). -/
def Obligations.PowerOnResetClearsAllButMemory : Prop :=
  ∀ s : State, ∃ t, exec .powerOnReset s = .next t ∧ t.PowerOnValues ∧ t.irq = false ∧ t.mem = s.mem ∧
    t.part = s.part ∧ t.pending = s.pending

/-- SOFT_RESET gives every block its reset values, keeps accumulators, band set contents and ANCHOR, stores the IRQ
enables, lands the writes already issued, whole, and writes no other byte of memory (R31, R174, R175, R194; that they
land at once is the model's choice, log 7). -/
def Obligations.SoftResetKeepsTotalsAndSets : Prop :=
  ∀ (s : State) (irq : StickyBits), ∃ t, exec (.softReset irq) s = .next t ∧ t.ResetValues ∧ t.irq = false ∧
    t.accums = s.accums ∧ (∀ i : Fin 8, t.bandSets[i] = { s.bandSets[i] with uses := 0 }) ∧
    t.engine.anchorReg = s.engine.anchorReg ∧ t.engine.irqEnables = irq ∧ t.part = s.part ∧ t.pending = s.pending ∧
    (s.memoryCanonical → ∀ x, ¬ issuedCovers (s.laneWrite .lane0) x → ¬ issuedCovers (s.laneWrite .lane1) x →
      ¬ issuedCovers s.slateWrite x → ¬ issuedCovers s.writerWrite x → t.mem.read x = s.mem.read x) ∧
    (s.memoryCanonical → ∀ k, s.Landed t.mem k)

/-! ## CONTROL writes -/

/-- A CONTROL write with ENABLE 1 in OFF enters STARTING, with the anchor read issued and the take sequence number 0,
or fails at once where the anchor block runs past the top of the address space (R135, R178, R179, R185). -/
def Obligations.EnableStartsFromOff : Prop :=
  ∀ (s : State) (irq : StickyBits) (c : Instr), (c = .enable false irq ∨ c = .enable true irq ∨ c = .pause irq ∨
      c = .pauseRelease irq) → s.engine.state = .off →
    (s.engine.anchorReg.toNat + 31 ≤ 0xFFFFFFFF →
      exec c s = .next
        { s with
          engine :=
            { s.engine with state := .starting, abandoned := false, access := .anchorRead, irqEnables := irq }
          slate := { s.slate with nextSeq := 0 } }) ∧
    (0xFFFFFFFF < s.engine.anchorReg.toNat + 31 →
      exec c s = .next
        { s with
          engine :=
            { s.engine with
              state := .off
              abandoned := false
              access := .none
              anchor := ⟨0, 0, 0, 0, 0⟩
              flags := { s.engine.flags with anchorFault := true }
              fault := ⟨s.engine.anchorReg, .anchorContent, 0, .starting⟩
              irqEnables := irq }
          slate := { s.slate with nextSeq := 0 } })

/-- The CONTROL writes that R178 gives no effect store their IRQ enables and change nothing else. -/
def Obligations.ControlWritesOfNoEffect : Prop :=
  ∀ (s : State) (p : Bool) (irq : StickyBits),
    let stored : Host.Outcome State Fault Refusal := .next { s with engine := { s.engine with irqEnables := irq } }
    exec (.irqEnableWrite irq) s = stored ∧
    ((s.engine.state = .starting ∨ s.engine.state = .stopping ∨ s.engine.state = .halted) →
      exec (.enable p irq) s = stored ∧ exec (.pause irq) s = stored ∧ exec (.pauseRelease irq) s = stored) ∧
    (s.engine.state = .running → exec (.enable false irq) s = stored ∧ exec (.pauseRelease irq) s = stored) ∧
    ((s.engine.state = .pausing ∨ s.engine.state = .paused) →
      exec (.enable true irq) s = stored ∧ exec (.pause irq) s = stored) ∧
    ((s.engine.state = .off ∨ s.engine.state = .stopping ∨ s.engine.state = .halted) →
      exec (.engineStop p irq) s = stored)

/-- PAUSE in RUNNING enters PAUSING, or PAUSED at once where no lane is ACTIVE or YIELDING and no sweep is in progress;
a sweep in progress is marked to end after its slot in hand (R148, R180). -/
def Obligations.PauseEntersPausing : Prop :=
  ∀ (s : State) (irq : StickyBits) (c : Instr), (c = .pause irq ∨ c = .enable true irq) →
    s.engine.state = .running →
    exec c s = .next
      { s with
        engine :=
          { s.engine with
            state :=
              if s.lane0.busy = false ∧ s.lane1.busy = false ∧ s.slate.sweeping = false then .paused else .pausing
            irqEnables := irq }
        slate := { s.slate with ending := s.slate.sweeping } }

/-- PAUSE_RELEASE in PAUSING or PAUSED enters RUNNING: each FROZEN lane that runs an order is ACTIVE with its run timer
as it stood and works its next cell or step, the other lanes are as they were, and a sweep-again begins a sweep at the
cursor. A BANDSET whose image stands gathered has it checked on the way. A sweep still in progress stays as it is, with
sweep-again and its end mark kept, which is the model's reading of R140, R148 and R181 (log 15) (R57, R125, R128, R160,
R178, R181). -/
def Obligations.PauseReleaseResumesLanesAndSweeps : Prop :=
  (∀ (count : Nat) (bands : List Band), bandsValid count bands = true ↔ BandsSound count bands) ∧
  ∀ (s : State) (irq : StickyBits) (c : Instr), (c = .pauseRelease irq ∨ c = .enable false irq) →
    (s.engine.state = .pausing ∨ s.engine.state = .paused) →
    ∃ t, exec c s = .next t ∧ t.engine = { s.engine with state := .running, irqEnables := irq } ∧
      (∀ n, (s.lane n).state = .frozen → (s.laneEntry n).isSome →
        (t.lane n).state = .active ∧ (t.lane n).runTimer = (s.lane n).runTimer ∧
          (t.lane n).order = (s.lane n).order) ∧
      (∀ n e x, (s.lane n).state = .frozen → s.laneEntry n = some e → e.header.kind.housekeeping = false →
        (s.lane n).context = some x → CellBegun e x { s.lane n with state := .active } (t.lane n)) ∧
      (∀ n e, (s.lane n).state = .frozen → s.laneEntry n = some e → e.header.kind.housekeeping = true →
        StepBegun e { s.lane n with state := .active } (t.lane n)) ∧
      (∀ n e, (s.lane n).state = .frozen → s.laneEntry n = some e → e.header.kind = .bandset →
        (s.lane n).steps = 2 →
        bandsValid (byteAt (s.lane n).image 0).toNat ((List.range 8).map (imageBand (s.lane n).image)) = false →
        (t.lane n).endMark = true ∧ (t.lane n).work = .handedOver ∧
          ∃ h ∈ t.writer.waiting, h.slot = e.slot ∧ h.final = .failed ∧ h.reason = .bandSetInvalid ∧
            h.record = OrderRecord.start) ∧
      (∀ n, (s.lane n).state ≠ .frozen → t.lane n = s.lane n) ∧
      (s.slate.again = true → s.slate.sweeping = false →
        t.slate.again = false ∧
          t.slate.step = .headerRead (if s.slate.cursor < s.engine.anchor.slotCount then s.slate.cursor else 0) ∧
          t.slate.timer = s.slate.timer) ∧
      (s.slate.again = false ∨ s.slate.sweeping = true → t.slate = s.slate) ∧
      t.table = s.table ∧ t.bandSets = s.bandSets ∧ s.Kept t

/-- ENGINE_STOP abandons a start, and enters STOPPING from RUNNING, PAUSING and PAUSED, going on to OFF only where
nothing is held, which the model takes to include the Slate Reader's slot in hand (R183, log 19); sweep-again is
cleared. ENGINE_STOP is posted to a walking lane with end mark clear and no park under way: it replaces what is pending,
and a replaced PARK frees its bank; a FROZEN lane acts on it at once and its order is handed over CANCELLED with its
counts and its band set released. A FROZEN lane that runs a housekeeping order is ACTIVE with its next step begun (R62,
R125, R160, R161, R170, R171, R178, R179, R182). -/
def Obligations.EngineStopEntersStopping : Prop :=
  ∀ (s : State) (p : Bool) (irq : StickyBits),
    (s.engine.state = .starting →
      exec (.engineStop p irq) s = .next { s with engine := { s.engine with abandoned := true, irqEnables := irq } }) ∧
    ((s.engine.state = .running ∨ s.engine.state = .pausing ∨ s.engine.state = .paused) →
      ∃ t, exec (.engineStop p irq) s = .next t ∧ t.engine.irqEnables = irq ∧
        (t.engine.state = .stopping ∨ t.engine.state = .off) ∧
        (t.engine.state = .off ↔
          t.table = [] ∧ t.writer.waiting = [] ∧ t.writer.step = .idle ∧ t.slate.step = .idle) ∧
        t.slate = { s.slate with again := false } ∧ s.Kept t ∧
        (∀ (n : LaneId) (e : Entry), s.laneEntry n = some e → e.header.kind.housekeeping = false →
          ((s.lane n).state = .active ∨ (s.lane n).state = .yielding) → (s.lane n).endMark = false →
          (s.lane n).parkUnderWay = false → (s.lane n).request ≠ .engineStop →
          t.lane n = { s.lane n with request := .engineStop, state := .yielding } ∧
            (∀ b : Fin 4, (s.lane n).request = .park b → t.banks[b] = .free)) ∧
        (∀ (n : LaneId) (e : Entry) (c : WalkContext), s.laneEntry n = some e →
          e.header.kind.housekeeping = false → (s.lane n).state = .frozen → (s.lane n).endMark = false →
          (s.lane n).parkUnderWay = false → (s.lane n).request ≠ .engineStop → (s.lane n).context = some c →
          t.lane n =
              { s.lane n with
                state := .active
                endMark := true
                request := .none
                context := none
                staging := Staging.start
                buffer := RecordBuffer.empty
                image := []
                cell := none
                work := .handedOver } ∧
            (∃ h ∈ t.writer.waiting, h.slot = e.slot ∧ h.final = .cancelled ∧ h.reason = .engineStopped ∧
              h.record = c.record ∧ h.fault = none ∧ h.parkCount = e.parkCount ∧ h.tag = e.header.tag ∧
              h.notify = e.header.notify ∧ h.indicators = walkIndicators e.header.kind c.record false) ∧
            (∀ i : Fin 8, e.claimed = true → referencedSet e.header.kind e.body = some i →
              t.bandSets[i].uses ≤ s.bandSets[i].uses - 1 ∧
                ∀ x ∈ t.table, x.slot = e.slot → x.claimed = false)) ∧
        (∀ (n : LaneId) (e : Entry), s.laneEntry n = some e → e.header.kind.housekeeping = true →
          (s.lane n).state = .frozen →
          (t.lane n).state = .active ∧ StepBegun e { s.lane n with state := .active } (t.lane n)))

/-- Entry to STOPPING ends each PARKED order whose pending cancel is clear: its hand-over carries CANCELLED,
ENGINE_STOPPED, the record of its bank, the indicators of R93 and no fault, its band set is released, its entry is marked
ended and stays in the Order Table, and it leaves the park-order list (R62, R93, R163, R182). That it leaves the list at
the stop, which R190 says of a cancel and R182 does not say, is log 35. -/
def Obligations.EngineStopEndsParkedOrders : Prop :=
  ∀ (s : State) (p : Bool) (irq : StickyBits) (e : Entry) (c : ParkedContext),
    (s.engine.state = .running ∨ s.engine.state = .pausing ∨ s.engine.state = .paused) →
    (s.table.map (fun x => x.slot)).Nodup → e ∈ s.table → e.phase = .parked → e.pendingCancel = false →
    e.ended = false → s.banks[e.bank] = .holding c → (∀ n, (s.lane n).request ≠ .park e.bank) →
    ∃ t, exec (.engineStop p irq) s = .next t ∧
      (∃ h ∈ t.writer.waiting, h.slot = e.slot ∧ h.final = .cancelled ∧ h.reason = .engineStopped ∧
        h.record = c.record ∧ h.parkCount = e.parkCount ∧ h.tag = e.header.tag ∧ h.notify = e.header.notify ∧
        h.indicators = walkIndicators e.header.kind c.record false ∧ h.fault = none) ∧
      t.table.map (fun x => x.slot) = s.table.map (fun x => x.slot) ∧
      (∀ x ∈ t.table, x.slot = e.slot → x.ended = true) ∧ e.slot ∉ t.parkOrder ∧
      (∀ i : Fin 8, e.claimed = true → referencedSet e.header.kind e.body = some i →
        t.bandSets[i].uses ≤ s.bandSets[i].uses - 1 ∧ ∀ x ∈ t.table, x.slot = e.slot → x.claimed = false)

/-! ## Other register accesses -/

/-- STATUS_CLEAR clears the flags written 1; ANCHOR_WRITE is stored in OFF and refused with WINDOW_REFUSED elsewhere; ACK
subtracts the lesser of n and notify-pending; a write to IDENT, an unused offset or of fewer than four bytes does
nothing; none changes anything else (R191, R192, R196, R197, R198). -/
def Obligations.RegisterWritesStoreClearAndCount : Prop :=
  ∀ (s : State) (x : StickyBits) (v n : Word) (offset : BitVec 6) (strobe : BitVec 4),
    exec (.statusClear x) s = .next
      { s with
        engine :=
          { s.engine with
            flags :=
              ⟨s.engine.flags.anchorFault && !x.anchorFault, s.engine.flags.slateFault && !x.slateFault,
                s.engine.flags.cancelMiss && !x.cancelMiss, s.engine.flags.windowRefused && !x.windowRefused⟩ } } ∧
    (s.engine.state = .off → exec (.anchorWrite v) s = .next { s with engine := { s.engine with anchorReg := v } }) ∧
    (s.engine.state ≠ .off →
      exec (.anchorWrite v) s = .next
        { s with engine := { s.engine with flags := { s.engine.flags with windowRefused := true } } }) ∧
    exec (.ack n) s = .next
      { s with
        writer := { s.writer with notifyPending := s.writer.notifyPending - min n.toNat s.writer.notifyPending } } ∧
    exec (.registerWriteOther offset strobe v) s = .next s

/-- NUDGE and the sweep timer's expiry request a sweep: in RUNNING one begins at the cursor or sweep-again is set, in
PAUSING and PAUSED sweep-again is set, in the other states NUDGE does nothing. The expiry sets the sweep timer to 0
(R140, R141, R198). The expiry stands for the time until the sweep timer's end: that it acts whatever the timer holds
and moves no other timer is the model's choice (log 5). -/
def Obligations.SweepRequestsActByEngineState : Prop :=
  ∀ (s : State) (v : Word),
    (s.engine.state = .running → s.slate.sweeping = false →
      exec (.nudge v) s = .next
        { s with
          slate :=
            { s.slate with
              cursor := if s.slate.cursor < s.engine.anchor.slotCount then s.slate.cursor else 0
              ending := false
              visited := 0
              step := .headerRead (if s.slate.cursor < s.engine.anchor.slotCount then s.slate.cursor else 0) } }) ∧
    ((s.engine.state = .running ∧ s.slate.sweeping = true ∨ s.engine.state = .pausing ∨ s.engine.state = .paused) →
      exec (.nudge v) s = .next { s with slate := { s.slate with again := true } }) ∧
    ((s.engine.state = .off ∨ s.engine.state = .starting ∨ s.engine.state = .stopping ∨ s.engine.state = .halted) →
      exec (.nudge v) s = .next s) ∧
    (s.engine.state = .running → s.engine.anchor.sweepPeriod ≠ 0 → s.slate.sweeping = false →
      exec .sweepTimerExpiry s = .next
        { s with
          slate :=
            { s.slate with
              cursor := if s.slate.cursor < s.engine.anchor.slotCount then s.slate.cursor else 0
              ending := false
              visited := 0
              timer := 0
              step := .headerRead (if s.slate.cursor < s.engine.anchor.slotCount then s.slate.cursor else 0) } }) ∧
    (s.engine.state = .running → s.engine.anchor.sweepPeriod ≠ 0 → s.slate.sweeping = true →
      exec .sweepTimerExpiry s = .next { s with slate := { s.slate with again := true, timer := 0 } })

/-- A cancel that finds no order it can reach sets CANCEL_MISS and changes nothing else (R187, R188, R189, R190,
R198). -/
def Obligations.CancelMissesWhatItCannotReach : Prop :=
  ∀ (s : State) (v : Word),
    let index := v.toNat % 65536
    let missed : Host.Outcome State Fault Refusal :=
      .next { s with engine := { s.engine with flags := { s.engine.flags with cancelMiss := true } } }
    ((s.engine.state = .off ∨ s.engine.state = .starting ∨ s.engine.state = .halted) →
      exec (.cancel v) s = missed) ∧
    (s.engine.anchor.slotCount ≤ index → exec (.cancel v) s = missed) ∧
    (s.entry? index = none → exec (.cancel v) s = missed) ∧
    (∀ e, s.entry? index = some e → e.pendingCancel = false → e.phase = .waiting → e.handBack = true →
      exec (.cancel v) s = missed) ∧
    (∀ e, s.entry? index = some e → e.pendingCancel = false → e.phase = .running →
      (s.lane e.lane).parkUnderWay = false → (e.header.kind.housekeeping = true ∨ (s.lane e.lane).endMark = true) →
      exec (.cancel v) s = missed) ∧
    (∀ e, s.entry? index = some e → e.pendingCancel = false → e.phase = .parked → e.ended = true →
      exec (.cancel v) s = missed)

/-- A cancel that reaches its order sets the entry's pending cancel, and an order whose cancel is pending is left. A
WAITING or PARKED order is handed over CANCELLED with HOST_CANCEL; a PARKED one is ended, leaves the park-order list and
has its band set released. A walking lane that is ACTIVE or YIELDING is posted CANCEL, which replaces TIME_LIMIT and
PARK, whose bank is freed, and is dropped beneath CANCEL and ENGINE_STOP; a FROZEN one acts on it at once; an order
whose park is under way only has the cancel marked (R62, R160, R170, R171, R180, R187 to R190). -/
def Obligations.CancelReachesOrdersByPhase : Prop :=
  ∀ (s : State) (v : Word) (e : Entry),
    (s.engine.state = .running ∨ s.engine.state = .pausing ∨ s.engine.state = .paused ∨
      s.engine.state = .stopping) → v.toNat % 65536 < s.engine.anchor.slotCount →
    s.entry? (v.toNat % 65536) = some e →
    let marked := s.setPendingCancel e.slot
    (marked.entry? e.slot = some { e with pendingCancel := true }) ∧
    (e.pendingCancel = true → exec (.cancel v) s = .next s) ∧
    (e.pendingCancel = false → e.phase = .waiting → e.handBack = false →
      ∃ h, exec (.cancel v) s = .next (marked.handOver h) ∧ h.slot = e.slot ∧
        h.final = .cancelled ∧ h.reason = .hostCancel ∧ h.record = OrderRecord.start ∧ h.fault = none ∧
        h.indicators = Indicators.clear ∧ h.parkCount = e.parkCount ∧ h.tag = e.header.tag ∧
        h.notify = e.header.notify) ∧
    (e.pendingCancel = false → e.phase = .running → (s.lane e.lane).parkUnderWay = true →
      exec (.cancel v) s = .next marked) ∧
    (e.pendingCancel = false → e.phase = .running → (s.lane e.lane).parkUnderWay = false →
      e.header.kind.housekeeping = false → (s.lane e.lane).endMark = false →
      (((s.lane e.lane).state = .active ∨ (s.lane e.lane).state = .yielding) →
        ((s.lane e.lane).request = .none ∨ (s.lane e.lane).request = .timeLimit →
          exec (.cancel v) s = .next (marked.setLane e.lane
            { s.lane e.lane with request := .cancel, state := .yielding })) ∧
        (∀ b, (s.lane e.lane).request = .park b →
          exec (.cancel v) s = .next ((marked.setBank b .free).setLane e.lane
            { s.lane e.lane with request := .cancel, state := .yielding }))) ∧
      (((s.lane e.lane).request = .cancel ∨ (s.lane e.lane).request = .engineStop) →
        exec (.cancel v) s = .next marked) ∧
      (∀ c, (s.lane e.lane).state = .frozen → (s.lane e.lane).request ≠ .cancel →
        (s.lane e.lane).request ≠ .engineStop → (s.lane e.lane).order = some e.slot →
        (s.lane e.lane).context = some c →
        ∃ t h, exec (.cancel v) s = .next t ∧ marked.Ended t e.lane h ∧ marked.Released t e ∧ h.slot = e.slot ∧
          h.final = .cancelled ∧ h.reason = .hostCancel ∧ h.record = c.record ∧ h.fault = none ∧
          h.parkCount = e.parkCount ∧ h.tag = e.header.tag ∧ h.notify = e.header.notify ∧
          h.indicators = walkIndicators e.header.kind c.record false ∧
          (∀ b : Fin 4, (s.lane e.lane).request = .park b → t.banks = s.banks.set b .free) ∧
          ((∀ b, (s.lane e.lane).request ≠ .park b) → t.banks = s.banks))) ∧
    (∀ c, e.pendingCancel = false → e.phase = .parked → e.ended = false → s.banks[e.bank] = .holding c →
      ∃ t h, exec (.cancel v) s = .next t ∧ t.writer = { s.writer with waiting := s.writer.waiting ++ [h] } ∧
        h.slot = e.slot ∧ h.final = .cancelled ∧ h.reason = .hostCancel ∧ h.record = c.record ∧ h.fault = none ∧
        h.parkCount = e.parkCount ∧ h.tag = e.header.tag ∧ h.notify = e.header.notify ∧
        h.indicators = walkIndicators e.header.kind c.record false ∧
        (∃ held, t.entry? e.slot = some { e with pendingCancel := true, ended := true, claimed := held }) ∧
        (∀ k, k ≠ e.slot → t.entry? k = s.entry? k) ∧
        t.table.map (fun x => x.slot) = s.table.map (fun x => x.slot) ∧ s.Released t e ∧
        t.parkOrder = s.parkOrder.filter (fun k => k != e.slot) ∧ t.banks = s.banks ∧ t.engine = s.engine ∧
        t.slate = s.slate ∧ (∀ n, t.lane n = s.lane n) ∧ s.Kept t)

/-- WINDOW_ADDR_WRITE stores address and auto-increment flag and fetches nothing, the address advances after every
WINDOW_DATA access, and a WINDOW_ADDR read returns both (R200). -/
def Obligations.WindowAddressStoredAndAdvanced : Prop :=
  ∀ (s : State) (v : Word),
    (∃ t, exec (.windowAddrWrite v) s = .next t ∧
      t = { s with window := { s.window with addr := v.extractLsb' 0 11, autoIncrement := v.getLsbD 31 } } ∧
      ∃ u, exec .windowDataRead t = .next u ∧ u.readData = s.window.buffer) ∧
    (∃ t, exec .windowDataRead s = .next t ∧ t.window.autoIncrement = s.window.autoIncrement ∧
      t.window.addr = if s.window.autoIncrement then s.window.addr + 1 else s.window.addr) ∧
    (∃ t, exec (.windowDataWrite v) s = .next t ∧ t.window.autoIncrement = s.window.autoIncrement ∧
      t.window.addr = if s.window.autoIncrement then s.window.addr + 1 else s.window.addr) ∧
    (s.readRegister 0x1C).extractLsb' 0 11 = s.window.addr ∧
    (s.readRegister 0x1C).getLsbD 31 = s.window.autoIncrement

/-- WINDOW_DATA_READ returns the read buffer and fetches the word at the window address; accumulator and band words
come through their latches, refilled at the first word and where another entry is held, and every other word leaves the
latches alone. The Order Table, lane, park bank and fault record views show their owners' state word by word, by the
codes of R205 and R185, and pad words and unmapped words read 0 (R88, R185, R196, R201, R203, R204, R205; what a lane
shows after its hand-over is log 26, the reserving lane bit of a HOLDING bank log 14; that a band's low bound fills its
words 0 to 3 and the high bound words 4 to 7 is log 34, that a bound stored as minus zero is shown with its minus code
log 36, and that a bit which R203 and R205 assign to no item reads 0 log 37, the model's choices). -/
def Obligations.WindowDataReadIsOneBehind : Prop :=
  (∀ s : State, ∃ w, exec .windowDataRead s =
      .next { s with readData := s.window.buffer, window := w, free := s.free + 1 } ∧
    (∀ (i : Fin 64) (k : Nat), k < 6 → s.window.addr.toNat = 6 * i.val + k →
      (k = 0 ∨ s.window.accumLatch.holds ≠ some i →
        w.accumLatch = ⟨some i, s.accums[i]⟩ ∧ w.buffer = totalWord s.accums[i] k) ∧
      (k ≠ 0 → s.window.accumLatch.holds = some i →
        w.accumLatch = s.window.accumLatch ∧ w.buffer = totalWord s.window.accumLatch.total k)) ∧
    (∀ i : Fin 8, s.window.addr.toNat = 0x180 + 0x50 * i.val →
      w.buffer.toNat = s.bandSets[i].count.toNat + 256 * s.bandSets[i].state.code ∧
        w.bandLatch = s.window.bandLatch) ∧
    (∀ (i b : Fin 8) (k : Nat), k < 9 → s.window.addr.toNat = 0x180 + 0x50 * i.val + 1 + 9 * b.val + k →
      (k = 0 ∨ s.window.bandLatch.holds ≠ some (i, b) →
        w.bandLatch = ⟨some (i, b), s.bandSets[i].bands[b]⟩ ∧ w.buffer = bandWord s.bandSets[i].bands[b] k) ∧
      (k ≠ 0 → s.window.bandLatch.holds = some (i, b) →
        w.bandLatch = s.window.bandLatch ∧ w.buffer = bandWord s.window.bandLatch.band k)) ∧
    (∀ (i : Fin 8) (k : Nat), 73 ≤ k → k < 80 → s.window.addr.toNat = 0x180 + 0x50 * i.val + k →
      w.buffer = 0 ∧ w.bandLatch = s.window.bandLatch) ∧
    (∀ (p k : Nat), p < 32 → k < 4 → s.window.addr.toNat = 0x400 + 4 * p + k →
      (∀ e, s.table[p]? = some e → e.Shown k w.buffer) ∧ (s.table.length ≤ p → w.buffer = 0)) ∧
    (∀ (n : LaneId) (k : Nat), k < 16 → s.window.addr.toNat = 0x480 + 16 * laneNumber n + k →
      s.LaneShown n k w.buffer) ∧
    (∀ (b : Fin 4) (k : Nat), k < 16 → s.window.addr.toNat = 0x4A0 + 16 * b.val + k → s.BankShown b k w.buffer) ∧
    (∀ k : Nat, k < 4 → s.window.addr.toNat = 0x4E0 + k → s.engine.fault.Shown k w.buffer) ∧
    (0x4E4 ≤ s.window.addr.toNat → w.buffer = 0) ∧
    (0x180 ≤ s.window.addr.toNat → w.accumLatch = s.window.accumLatch) ∧
    (s.window.addr.toNat < 0x180 ∨ 0x400 ≤ s.window.addr.toNat → w.bandLatch = s.window.bandLatch)) ∧
  (∀ (t : Total) (k : Nat), (k < 4 → decimalShown 28 t.value k (totalWord t k)) ∧
    (k = 4 → totalWord t k = BitVec.ofNat 32 t.count) ∧ (k = 5 → totalWord t k = BitVec.ofNat 32 t.overflow.toNat)) ∧
  (∀ (b : Band) (k : Nat), (∀ j, k < 4 → j < 8 →
      (bandWord b k).toNat / 16 ^ j % 16 = b.low.toNat / 16 ^ (8 * (3 - k) + j) % 16 ∧
        (bandWord b (k + 4)).toNat / 16 ^ j % 16 = b.high.toNat / 16 ^ (8 * (3 - k) + j) % 16) ∧
    (k = 8 → bandWord b k = BitVec.ofNat 32 (b.accum.toNat + 256 * b.alarm.toNat))) ∧
  [Phase.waiting, .running, .parked].map Phase.code = [1, 2, 3] ∧
  [LaneState.idle, .active, .yielding, .frozen].map LaneState.code = [0, 1, 2, 3] ∧
  [StopRequest.none, .park 0, .timeLimit, .cancel, .engineStop].map StopRequest.rank = [0, 1, 2, 3, 4] ∧
  [BandSetState.empty, .loaded, .unchecked].map BandSetState.code = [0, 1, 2] ∧
  [OrderKind.tally, .difference, .compare, .convert, .pattern, .bandset, .preset, .snapshot].map OrderKind.code =
    [1, 2, 3, 4, 5, 6, 7, 8] ∧
  [EngineState.off, .starting, .running, .pausing, .paused, .stopping, .halted].map EngineState.code =
    [0, 1, 2, 3, 4, 5, 6] ∧
  [FaultKind.none, .anchorRead, .wordRead, .anchorContent, .headerRead, .takenWrite, .progressWrite, .resultWrite,
    .stateWrite, .wordWrite, .handBackWrite].map FaultKind.code = [0, 1, 2, 3, 4, 5, 6, 7, 8, 9, 10] ∧
  [LaneId.lane0, .lane1].map laneNumber = [0, 1]

/-- A WINDOW_DATA_WRITE that its owner refuses sets WINDOW_REFUSED and changes nothing else but the address. A value
word is permitted where its digit nibbles hold 0 to 9, its pad nibbles 0 and its sign nibble C or D; the accumulator
then shows it as that word and the old words elsewhere, a value of zero with a plus. A word of a band is stored but for
its pad bits, the other words of the band stand, and any write to a set leaves it UNCHECKED, a pad word with nothing
stored; a latch of what was written is marked none, and the other latch stands (R64, R89, R202, R203). Which of its nine
words a band's bounds fill, that a bound written as minus zero shows its minus code, and that bits 31 to 9 of the ninth
word are not stored and read 0, are the model's choices (logs 34, 36 and 37). -/
def Obligations.WindowDataWriteRefusedOrStored : Prop :=
  ∀ (s : State) (v : Word),
    let refused : Host.Outcome State Fault Refusal :=
      .next
        { s with
          engine := { s.engine with flags := { s.engine.flags with windowRefused := true } }
          window := { s.window with addr := if s.window.autoIncrement then s.window.addr + 1 else s.window.addr } }
    let accumDropped (i : Fin 64) (w : WindowPort) : Prop :=
      w.accumLatch.holds ≠ some i ∧
        (s.window.accumLatch.holds ≠ some i → w.accumLatch = s.window.accumLatch) ∧
        w.bandLatch = s.window.bandLatch ∧ w.buffer = s.window.buffer
    let setDropped (i : Fin 8) (w : WindowPort) : Prop :=
      (∀ b, w.bandLatch.holds ≠ some (i, b)) ∧
        ((∀ b, s.window.bandLatch.holds ≠ some (i, b)) → w.bandLatch = s.window.bandLatch) ∧
        w.accumLatch = s.window.accumLatch ∧ w.buffer = s.window.buffer
    (s.engine.state ≠ .off → s.engine.state ≠ .paused → exec (.windowDataWrite v) s = refused) ∧
    (0x400 ≤ s.window.addr.toNat → exec (.windowDataWrite v) s = refused) ∧
    (∀ i : Fin 8, 0x180 + 0x50 * i.val ≤ s.window.addr.toNat → s.window.addr.toNat < 0x1D0 + 0x50 * i.val →
      0 < s.bandSets[i].uses → exec (.windowDataWrite v) s = refused) ∧
    (∀ (i : Fin 64) (k : Nat), k < 4 → s.window.addr.toNat = 6 * i.val + k →
      (∃ j, j < 8 ∧ 9 < v.toNat / 16 ^ j % 16 ∧ ¬(k = 3 ∧ j = 0)) → exec (.windowDataWrite v) s = refused) ∧
    (∀ i : Fin 64, s.window.addr.toNat = 6 * i.val → 0x00100000 ≤ v.toNat →
      exec (.windowDataWrite v) s = refused) ∧
    (∀ i : Fin 64, s.window.addr.toNat = 6 * i.val + 3 → v.toNat % 16 ≠ 0xC → v.toNat % 16 ≠ 0xD →
      exec (.windowDataWrite v) s = refused) ∧
    ((s.engine.state = .off ∨ s.engine.state = .paused) →
        (∀ i : Fin 64, s.window.addr.toNat = 6 * i.val + 4 →
        ∃ w, exec (.windowDataWrite v) s = .next
            { s with accums := s.accums.set i { s.accums[i] with count := v.toNat }, window := w } ∧
          accumDropped i w) ∧
      (∀ i : Fin 64, s.window.addr.toNat = 6 * i.val + 5 →
        ∃ w, exec (.windowDataWrite v) s = .next
            { s with accums := s.accums.set i { s.accums[i] with overflow := v.getLsbD 0 }, window := w } ∧
          accumDropped i w) ∧
      (∀ i : Fin 8, s.window.addr.toNat = 0x180 + 0x50 * i.val → s.bandSets[i].uses = 0 →
        ∃ w, exec (.windowDataWrite v) s = .next
            { s with
              bandSets := s.bandSets.set i
                { s.bandSets[i] with state := .unchecked, count := BitVec.ofNat 8 v.toNat }
              window := w } ∧
          setDropped i w) ∧
      (∀ (i : Fin 64) (k : Nat), k < 4 → s.window.addr.toNat = 6 * i.val + k →
        (∀ j, j < 8 → ¬(k = 3 ∧ j = 0) → v.toNat / 16 ^ j % 16 ≤ 9) → (k = 0 → v.toNat < 0x00100000) →
        (k = 3 → v.toNat % 16 = 0xC ∨ v.toNat % 16 = 0xD) →
        let word (j : Nat) : Word := if j = k then v else totalWord s.accums[i] j
        ∃ w x, exec (.windowDataWrite v) s = .next
            { s with accums := s.accums.set i { s.accums[i] with value := x }, window := w } ∧
          -10 ^ 28 < x ∧ x < 10 ^ 28 ∧
          (∀ j, j < 3 → totalWord { s.accums[i] with value := x } j = word j) ∧
          (x ≠ 0 → totalWord { s.accums[i] with value := x } 3 = word 3) ∧
          (x = 0 → totalWord { s.accums[i] with value := x } 3 = 0xC ∧ (word 3).toNat / 16 = 0) ∧
          accumDropped i w) ∧
      (∀ (i b : Fin 8) (k : Nat), k < 9 → s.window.addr.toNat = 0x180 + 0x50 * i.val + 1 + 9 * b.val + k →
        s.bandSets[i].uses = 0 →
        let stored : Word := if k = 0 ∨ k = 4 then v &&& 0xF else if k = 8 then v &&& 0x1FF else v
        ∃ w band, exec (.windowDataWrite v) s = .next
            { s with
              bandSets := s.bandSets.set i
                { s.bandSets[i] with state := .unchecked, bands := s.bandSets[i].bands.set b band }
              window := w } ∧
          (∀ j, j < 9 → bandWord band j = if j = k then stored else bandWord s.bandSets[i].bands[b] j) ∧
          setDropped i w) ∧
      (∀ (i : Fin 8) (k : Nat), 73 ≤ k → k < 80 → s.window.addr.toNat = 0x180 + 0x50 * i.val + k →
        s.bandSets[i].uses = 0 →
        ∃ w, exec (.windowDataWrite v) s = .next
            { s with bandSets := s.bandSets.set i { s.bandSets[i] with state := .unchecked }, window := w } ∧
          setDropped i w))

/-- What IDENT, CONTROL with its IRQ enables, STATUS, ANCHOR, WINDOW_ADDR, WINDOW_DATA and the offsets without a
readable register read, bit by bit; a read of any width returns the bytes it addresses; and when IRQ is high (R193,
R196, R197, R198, R200, R201). -/
def Obligations.RegistersReadTheirFields : Prop :=
  ∀ s : State,
    (s.part = .azunel4420 → s.readRegister 0x00 = 0x11FFFFFF) ∧
    (s.part = .azunel4410 → s.readRegister 0x00 = 0x13FFFFEB) ∧
    ((s.readRegister 0x04).getLsbD 0 = true ↔ s.engine.state = .starting ∨ s.engine.state = .running ∨
      s.engine.state = .pausing ∨ s.engine.state = .paused) ∧
    ((s.readRegister 0x04).getLsbD 1 = true ↔ s.engine.state = .pausing ∨ s.engine.state = .paused) ∧
    (s.readRegister 0x04).getLsbD 2 = false ∧
    (s.readRegister 0x04).getLsbD 8 = s.engine.irqEnables.anchorFault ∧
    (s.readRegister 0x04).getLsbD 9 = s.engine.irqEnables.slateFault ∧
    (s.readRegister 0x04).getLsbD 10 = s.engine.irqEnables.cancelMiss ∧
    (s.readRegister 0x04).getLsbD 11 = s.engine.irqEnables.windowRefused ∧
    (∀ i, 2 ≤ i → i < 8 ∨ 12 ≤ i → (s.readRegister 0x04).getLsbD i = false) ∧
    ((s.readRegister 0x08).extractLsb' 0 3).toNat = s.engine.state.code ∧
    (s.readRegister 0x08).getLsbD 8 = s.engine.flags.anchorFault ∧
    (s.readRegister 0x08).getLsbD 9 = s.engine.flags.slateFault ∧
    (s.readRegister 0x08).getLsbD 10 = s.engine.flags.cancelMiss ∧
    (s.readRegister 0x08).getLsbD 11 = s.engine.flags.windowRefused ∧
    (∀ i, 3 ≤ i → i < 8 ∨ 12 ≤ i ∧ i < 16 → (s.readRegister 0x08).getLsbD i = false) ∧
    (s.writer.notifyPending ≤ 65535 → (s.readRegister 0x08).toNat / 65536 = s.writer.notifyPending) ∧
    s.readRegister 0x0C = s.engine.anchorReg ∧
    s.readRegister 0x10 = 0 ∧ s.readRegister 0x14 = 0 ∧ s.readRegister 0x18 = 0 ∧
    (s.readRegister 0x1C).extractLsb' 0 11 = s.window.addr ∧
    (s.readRegister 0x1C).getLsbD 31 = s.window.autoIncrement ∧
    (∀ i, 11 ≤ i → i < 31 → (s.readRegister 0x1C).getLsbD i = false) ∧
    s.readRegister 0x20 = s.window.buffer ∧ (∀ offset, 0x24 ≤ offset.toNat → s.readRegister offset = 0) ∧
    (∀ offset n, offset.toNat + n ≤ 64 →
      (s.readRegisterBytes offset n).length = n ∧
        ∀ i, i < n →
          let place := offset.toNat + i
          (s.readRegisterBytes offset n)[i]? =
            some ((s.readRegister (BitVec.ofNat 6 (place / 4 * 4))).extractLsb' (8 * (place % 4)) 8)) ∧
    (s.irq = true ↔ 0 < s.writer.notifyPending ∨
      (s.engine.flags.anchorFault = true ∧ s.engine.irqEnables.anchorFault = true) ∨
      (s.engine.flags.slateFault = true ∧ s.engine.irqEnables.slateFault = true) ∨
      (s.engine.flags.cancelMiss = true ∧ s.engine.irqEnables.cancelMiss = true) ∨
      (s.engine.flags.windowRefused = true ∧ s.engine.irqEnables.windowRefused = true))

/-! ## A start's reads -/

/-- ANCHOR_READ_DONE copies a sound anchor block and issues the completion-word read; COMPLETION_WORD_READ_DONE takes the
count from the completion word, enters RUNNING with the sweep timer at 0 and begins a sweep at the cursor. An unsound
anchor block or a bus error fails the start with ANCHOR_FAULT, and an abandoned start returns to OFF with no flag and no
record (R135, R151, R179, R185). The anchor block holds slate base, slot count, completion-word address, sweep period and
order time limit at offsets 0, 4, 8, 12 and 14 (R134, R156). That the fault record of a bus error holds the address of
the access's first byte is log 20. -/
def Obligations.StartReadsEndInRunningOrOff : Prop :=
  (∀ s : State,
    let block := s.mem.readBytes s.engine.anchorReg.toNat 32
    s.anchorBlock.slateBase.toNat = leField block 0 4 ∧ s.anchorBlock.slotCount = leField block 4 2 ∧
      s.anchorBlock.wordAddr.toNat = leField block 8 4 ∧ s.anchorBlock.sweepPeriod = leField block 12 2 ∧
      s.anchorBlock.timeLimit = leField block 14 2) ∧
  ∀ (s : State) (host : HostWrites),
    let dropped : Engine :=
      { s.engine with state := .off, abandoned := false, access := .none, anchor := ⟨0, 0, 0, 0, 0⟩ }
    (s.engine.access = .anchorRead →
      let a := (s.afterHost host).anchorBlock
      let failed (t : State) (kind : FaultKind) : Host.Outcome State Fault Refusal := .next
        { t with
          engine :=
            { s.engine with
              state := .off
              abandoned := false
              access := .none
              anchor := ⟨0, 0, 0, 0, 0⟩
              flags := { s.engine.flags with anchorFault := true }
              fault := ⟨s.engine.anchorReg, kind, 0, .starting⟩ } }
      (s.engine.abandoned = false → 8 ≤ a.slotCount → a.slotCount ≤ 256 → a.slateBase.toNat % 256 = 0 →
        a.slateBase.toNat + 256 * a.slotCount - 1 ≤ 0xFFFFFFFF → a.wordAddr.toNat % 4 = 0 →
        exec (.anchorReadDone (.data host)) s = .next
          { s.afterHost host with engine := { s.engine with anchor := a, access := .wordRead } }) ∧
      (s.engine.abandoned = false →
        (a.slotCount < 8 ∨ 256 < a.slotCount ∨ a.slateBase.toNat % 256 ≠ 0 ∨
          0xFFFFFFFF < a.slateBase.toNat + 256 * a.slotCount - 1 ∨ a.wordAddr.toNat % 4 ≠ 0) →
        exec (.anchorReadDone (.data host)) s = failed (s.afterHost host) .anchorContent) ∧
      (s.engine.abandoned = false → exec (.anchorReadDone .busError) s = failed s .anchorRead) ∧
      (s.engine.abandoned = true →
        exec (.anchorReadDone (.data host)) s = .next { s.afterHost host with engine := dropped } ∧
          exec (.anchorReadDone .busError) s = .next { s with engine := dropped })) ∧
    (s.engine.access = .wordRead →
      let cursor := if s.slate.cursor < s.engine.anchor.slotCount then s.slate.cursor else 0
      (s.engine.abandoned = false →
        exec (.completionWordReadDone (.data host)) s = .next
          { s.afterHost host with
            engine := { s.engine with state := .running, access := .none }
            slate :=
              { s.slate with timer := 0, cursor := cursor, ending := false, visited := 0, step := .headerRead cursor }
            writer :=
              { s.writer with
                count := BitVec.ofNat 32
                  (leValue ((s.afterHost host).mem.readBytes s.engine.anchor.wordAddr.toNat 4)) } }) ∧
      (s.engine.abandoned = false →
        exec (.completionWordReadDone .busError) s = .next
          { s with
            engine :=
              { dropped with
                flags := { s.engine.flags with anchorFault := true }
                fault := ⟨s.engine.anchor.wordAddr, .wordRead, 0, .starting⟩ } }) ∧
      (s.engine.abandoned = true →
        exec (.completionWordReadDone (.data host)) s = .next { s.afterHost host with engine := dropped } ∧
          exec (.completionWordReadDone .busError) s = .next { s with engine := dropped }))

/-! ## The sweep and takes -/

/-- HEADER_READ_DONE at a slot that is not POSTED, or that the Order Table holds while it has room, skips it: the cursor
advances, the sweep goes on or ends as `State.SlotFinished` says, and no order changes. At a POSTED slot a full table
ends the sweep with the cursor on it; where the table holds that slot too, two rows of R142's table fit and either may
apply (log 13). With room, a slot that is not held fails with KIND_ABSENT before its body is read where the part carries
out no kind of its code, and has its body read where it does, whatever the engine state (R136, R140, R141, R142, R143
step 1, R145, R148, R180, R183, R197; that OFF waits for the slot in hand is log 19, and that a sweep marked to end ends
in RUNNING too and the next begins at once is log 15). -/
def Obligations.HeaderReadDoneSkipsEndsOrReads : Prop :=
  (∀ (p : Part) (header : List Byte) (k : OrderKind),
    kindAtTake p header = some k ↔
      (byteAt header 2).toNat = k.code ∧ ¬(p = .azunel4410 ∧ (k = .compare ∨ k = .pattern))) ∧
  ∀ (s : State) (host : HostWrites) (slot : Nat), s.slate.step = .headerRead slot →
    let u := s.afterHost host
    let header := u.mem.readBytes (u.slotAddr slot) 16
    let unchanged (t : State) : Prop :=
      t.table = s.table ∧ t.writer = s.writer ∧ (∀ n, t.lane n = s.lane n) ∧ t.banks = s.banks ∧
        t.bandSets = s.bandSets ∧ t.parkOrder = s.parkOrder ∧ u.Kept t
    ((byteAt header 0 ≠ 1 ∨ s.table.length < 32 ∧ (s.entry? slot).isSome = true) →
      ∃ t, exec (.headerReadDone host) s = .next t ∧ s.SlotFinished s.slate t.slate slot ∧ s.EngineSettled t ∧
        t.slate.cursor = (if slot + 1 < s.engine.anchor.slotCount then slot + 1 else 0) ∧ unchanged t) ∧
    (byteAt header 0 = 1 → 32 ≤ s.table.length →
      ∃ t, exec (.headerReadDone host) s = .next t ∧
        (s.entry? slot = none → s.SweepEnded s.slate t.slate) ∧
        (s.SweepEnded s.slate t.slate ∨ s.SlotFinished s.slate t.slate slot) ∧ s.EngineSettled t ∧ unchanged t) ∧
    (byteAt header 0 = 1 → s.table.length < 32 → s.entry? slot = none →
      (kindAtTake s.part header = none →
        ∃ h, exec (.headerReadDone host) s =
            .next ((u.setSlate { s.slate with step := .failing slot }).handOver h) ∧
          h.slot = slot ∧ h.final = .failed ∧ h.reason = .kindAbsent ∧ h.record = OrderRecord.start ∧
          h.indicators = Indicators.clear ∧ h.fault = none ∧ h.parkCount = 0 ∧
          h.tag = BitVec.ofNat 16 (leField header 4 2) ∧ h.notify = (byteAt header 6).getLsbD 1 ∧ h.atTake = true) ∧
      ((kindAtTake s.part header).isSome = true →
        exec (.headerReadDone host) s = .next (u.setSlate { s.slate with step := .bodyRead slot header })))

/-- BODY_READ_DONE: a bus error fails the order with MEMORY_FAULT, the first check of R143 that fails gives its reason,
and an order that passes has its TAKEN write issued. The checks, in R143's sequence, are those of header and body fields,
of the grid descriptors that the kind names, of window, exclusion rectangle and planes, and of the accumulator indices,
each as its own rule gives it (R21 to R23, R28, R34, R50, R65, R101, R108, R113, R120, R127, R129, R131, R143, R145,
R147). -/
def Obligations.BodyReadDoneTakesOrFails : Prop :=
  (∀ (s : State) (host : HostWrites) (slot : Nat) (header : List Byte) (k : OrderKind),
    s.slate.step = .bodyRead slot header → kindAtTake s.part header = some k →
    let body := (s.afterHost host).mem.readBytes ((s.afterHost host).slotAddr slot + 64) 192
    (∃ h, exec (.bodyReadDone .busError) s = .next ((s.setSlate { s.slate with step := .failing slot }).handOver h) ∧
      h.slot = slot ∧ h.final = .failed ∧ h.reason = .memoryFault ∧ h.record = OrderRecord.start ∧
      h.indicators = Indicators.clear ∧ h.fault = none ∧ h.parkCount = 0 ∧
      h.tag = BitVec.ofNat 16 (leField header 4 2) ∧ h.notify = (byteAt header 6).getLsbD 1 ∧ h.atTake = true) ∧
    (∀ r, takeFailure k header body = some r →
      ∃ h, exec (.bodyReadDone (.data host)) s =
          .next (((s.afterHost host).setSlate { s.slate with step := .failing slot }).handOver h) ∧
        h.slot = slot ∧ h.final = .failed ∧ h.reason = r ∧ h.record = OrderRecord.start ∧
        h.indicators = Indicators.clear ∧ h.fault = none ∧ h.parkCount = 0 ∧
        h.tag = BitVec.ofNat 16 (leField header 4 2) ∧ h.notify = (byteAt header 6).getLsbD 1 ∧ h.atTake = true) ∧
    (takeFailure k header body = none →
      exec (.bodyReadDone (.data host)) s =
        .next ((s.afterHost host).setSlate { s.slate with step := .takenWrite slot header body }))) ∧
  (∀ (k : OrderKind) (header body : List Byte),
    let fields := HeaderSound header ∧ FieldsSound k body
    let grids := ∀ i, namesGrid k body i → GridSound body i
    let window := k.housekeeping = true ∨ WindowSound k body
    (¬fields → takeFailure k header body = some .fieldRange) ∧
    (fields → ¬grids → takeFailure k header body = some .gridRange) ∧
    (fields → grids → ¬window → takeFailure k header body = some .windowRange) ∧
    (fields → grids → window → ¬AccumSound k body → takeFailure k header body = some .accumRange) ∧
    (fields → grids → window → AccumSound k body → takeFailure k header body = none))

/-- TAKE: the TAKEN write lands with progress WAITING, and the order joins the tail of the Order Table WAITING under the
next take sequence number, with pending cancel clear and park count 0; no completion is counted, and the sweep goes on
or ends as `State.SlotFinished` says (R137, R140 to R142, R144, R148, R157, R180). That OFF waits for the slot in
hand is log 19, and that a sweep marked to end ends in RUNNING too and the next begins at once is log 15. -/
def Obligations.TakeEntersTheOrder : Prop :=
  ∀ (s : State) (slot : Nat) (header body : List Byte) (k : OrderKind),
    s.slate.step = .takenWrite slot header body → kindAtTake s.part header = some k →
    ∃ t e, exec .take s = .next t ∧ t.table = s.table ++ [e] ∧ e.slot = slot ∧ e.seq = s.slate.nextSeq ∧
      e.header = headerOf k header ∧ e.body = body ∧ e.phase = .waiting ∧ e.pendingCancel = false ∧
      e.parkCount = 0 ∧ t.slate.nextSeq = s.slate.nextSeq + 1 ∧
      t.slate.cursor = (if slot + 1 < s.engine.anchor.slotCount then slot + 1 else 0) ∧
      s.SlotFinished { s.slate with nextSeq := s.slate.nextSeq + 1 } t.slate slot ∧ s.EngineSettled t ∧
      (s.memoryCanonical → Memory.Written s.mem t.mem (s.slotAddr slot) [2, 1]) ∧
      t.writer = s.writer ∧ (∀ n, t.lane n = s.lane n) ∧ t.banks = s.banks ∧ t.bandSets = s.bandSets ∧
      t.parkOrder = s.parkOrder ∧ t.accums = s.accums ∧ t.window = s.window ∧ t.pending = s.pending

/-- HAND_BACK claims the first WAITING entry whose pending cancel is clear and issues its write; HAND_BACK_WRITE_ACCEPT
writes POSTED with progress NONE and removes the entry, and the engine is OFF once nothing is held (R153, R183). -/
def Obligations.HandBackReturnsWaitingOrders : Prop :=
  ∀ s : State,
    (∀ e, s.engine.state = .stopping → s.slate.step = .idle →
      s.table.find? (fun x => x.phase == .waiting && !x.pendingCancel && !x.handBack) = some e →
      exec .handBack s = .next ((s.updEntry e.slot (fun x => { x with handBack := true })).setSlate
        { s.slate with step := .handBackWrite e.slot })) ∧
    (∀ slot, s.slate.step = .handBackWrite slot →
      ∃ t, exec .handBackWriteAccept s = .next t ∧ t.table = s.table.filter (fun e => e.slot != slot) ∧
        (s.memoryCanonical → Memory.Written s.mem t.mem (s.slotAddr slot) [1, 0]) ∧
        t.slate = { s.slate with step := .idle } ∧ t.writer = s.writer ∧
        (s.engine.state = .stopping →
          (t.engine.state = .off ↔ t.table = [] ∧ s.writer.waiting = [] ∧ s.writer.step = .idle)) ∧
        (s.engine.state ≠ .stopping → t.engine = s.engine) ∧
        (∀ n, t.lane n = s.lane n) ∧ t.banks = s.banks ∧ t.bandSets = s.bandSets ∧ t.accums = s.accums ∧
        t.window = s.window ∧ t.pending = s.pending)

/-! ## Completions -/

/-- COMPLETION takes the first waiting hand-over, or any of those that came together with it, and issues its result area
write (R150, R152; the pick among those together is the world's, log 16). -/
def Obligations.CompletionTakesWaitingHandOver : Prop :=
  ∀ (s : State) (pick : Nat), s.writer.step = .idle →
    (∀ h rest, s.writer.waiting = h :: rest → (∀ x, rest.head? = some x → x.together = false) →
      exec (.completion pick) s = .next { s with writer := { s.writer with step := .resultWrite h, waiting := rest } }) ∧
    (∀ h, pick < togetherCount s.writer.waiting → s.writer.waiting[pick]? = some h →
      exec (.completion pick) s = .next
        { s with writer := { s.writer with step := .resultWrite h, waiting := s.writer.waiting.eraseIdx pick } })

/-- RESULT_AREA_WRITE_ACCEPT writes the 48 bytes of the result area at slot offset 16 and issues the state
write; the area holds final state, reason, indicators, park count, tag, fault cell or FFFFh, exceptions written and the
counts at the offsets of R156, final state and reason by their codes and each indicator at its bit (R94, R126, R136,
R152 steps 1 and 2). -/
def Obligations.ResultAreaWriteAcceptWritesResult : Prop :=
  ∀ (s : State) (h : HandOver), s.writer.step = .resultWrite h →
    (∃ m, exec .resultAreaWriteAccept s = .next { s with mem := m, writer := { s.writer with step := .stateWrite h } } ∧
      (s.memoryCanonical → Memory.Written s.mem m (s.slotAddr h.slot + 16) (resultArea h))) ∧
    (resultArea h).length = 48 ∧
    leField (resultArea h) 0 1 = h.final.code ∧ leField (resultArea h) 1 1 = h.reason.code ∧
    leField (resultArea h) 2 1 = h.indicators.code ∧ leField (resultArea h) 3 1 = h.parkCount % 256 ∧
    leField (resultArea h) 4 2 = h.tag.toNat ∧
    (h.fault = none → leField (resultArea h) 6 2 = 0xFFFF ∧ leField (resultArea h) 8 2 = 0xFFFF) ∧
    (∀ r c, h.fault = some (r, c) → r < 65536 → c < 65536 →
      leField (resultArea h) 6 2 = r ∧ leField (resultArea h) 8 2 = c) ∧
    leField (resultArea h) 10 2 = h.record.written % 65536 ∧
    leField (resultArea h) 12 4 = h.record.visited % 4294967296 ∧
    leField (resultArea h) 16 4 = h.record.contributed % 4294967296 ∧
    leField (resultArea h) 20 4 = h.record.marked % 4294967296 ∧
    leField (resultArea h) 24 4 = h.record.excluded % 4294967296 ∧
    leField (resultArea h) 28 4 = h.record.rejected % 4294967296 ∧
    leField (resultArea h) 32 4 = h.record.raised % 4294967296 ∧
    leField (resultArea h) 36 4 = h.record.lost % 4294967296 ∧
    leField (resultArea h) 40 4 = h.record.trueCount % 4294967296 ∧
    leField (resultArea h) 44 4 = h.record.falseCount % 4294967296 ∧
    [FinalState.done, .failed, .cancelled].map FinalState.code = [3, 4, 5] ∧
    [Reason.none, .kindAbsent, .fieldRange, .gridRange, .windowRange, .accumRange, .bandSetEmpty, .bandSetInvalid,
      .bandSetInUse, .memoryFault, .recordMalformed, .timeLimit, .hostCancel, .engineStopped].map Reason.code =
      [0x00, 0x01, 0x02, 0x03, 0x04, 0x05, 0x06, 0x07, 0x08, 0x09, 0x0A, 0x0B, 0x10, 0x11] ∧
    (let bits := leField (resultArea h) 2 1
     bits.testBit 0 = h.indicators.zero ∧ bits.testBit 1 = h.indicators.saturated ∧
      bits.testBit 2 = h.indicators.overflow ∧ bits.testBit 3 = h.indicators.lost ∧
      bits.testBit 4 = h.indicators.allTrue ∧ bits.testBit 5 = h.indicators.noneTrue ∧ bits < 64)

/-- STATE_WRITE_ACCEPT writes the final state and adds 1 to the completion count modulo 2^32. An order that ran leaves
the table, its lane IDLE and its bank FREE; a failure at take is written with progress NONE and lets the sweep go on or
end as `State.SlotFinished` says. PAUSING passes to PAUSED where nothing works any more (R137, R140 to R142, R145, R148,
R151, R152, R160, R168, R180). That OFF waits for the slot in hand is log 19, and that a sweep marked to end ends in
RUNNING too and the next begins at once is log 15. -/
def Obligations.StateWriteAcceptReleasesTheSlot : Prop :=
  ∀ (s : State) (h : HandOver), s.writer.step = .stateWrite h →
    (h.atTake = false →
      ∃ t, exec .stateWriteAccept s = .next t ∧
        t.writer = { s.writer with count := s.writer.count + 1, step := .wordWrite h } ∧
        t.table = s.table.filter (fun e => e.slot != h.slot) ∧
        (s.memoryCanonical → Memory.Written s.mem t.mem (s.slotAddr h.slot) [BitVec.ofNat 8 h.final.code]) ∧
        (∀ n, (s.lane n).order = some h.slot → t.lane n = Lane.reset) ∧
        (∀ n, (s.lane n).order ≠ some h.slot → t.lane n = s.lane n) ∧
        (∀ e, s.entry? h.slot = some e → e.phase = .parked → t.banks[e.bank] = .free) ∧
        (∀ e, s.entry? h.slot = some e → e.phase ≠ .parked → t.banks = s.banks) ∧
        s.EngineSettled t ∧ t.slate = s.slate ∧ t.bandSets = s.bandSets ∧ t.accums = s.accums ∧ t.window = s.window ∧
        t.pending = s.pending) ∧
    (h.atTake = true → ∀ slot, s.slate.step = .failing slot →
      ∃ t, exec .stateWriteAccept s = .next t ∧
        t.writer = { s.writer with count := s.writer.count + 1, step := .wordWrite h } ∧ t.table = s.table ∧
        (s.memoryCanonical → Memory.Written s.mem t.mem (s.slotAddr h.slot) [BitVec.ofNat 8 h.final.code, 0]) ∧
        t.slate.cursor = (if slot + 1 < s.engine.anchor.slotCount then slot + 1 else 0) ∧
        s.SlotFinished s.slate t.slate slot ∧ s.EngineSettled t ∧
        (∀ n, t.lane n = s.lane n) ∧ t.banks = s.banks ∧ t.bandSets = s.bandSets ∧ t.accums = s.accums ∧
        t.window = s.window ∧ t.pending = s.pending)

/-- COMPLETION_WORD_WRITE_ACCEPT writes the count to the completion word, counts a notification up to 65535 where NOTIFY
is set, and ends STOPPING in OFF once nothing is held; that OFF waits for the Slate Reader's slot in hand too is the
model's reading of R148, R177 and R183 (log 19) (R151, R152, R183, R192). -/
def Obligations.CompletionWordWriteAcceptNotifies : Prop :=
  ∀ (s : State) (h : HandOver), s.writer.step = .wordWrite h →
    ∃ t, exec .completionWordWriteAccept s = .next t ∧
      (s.memoryCanonical →
        Memory.Written s.mem t.mem s.engine.anchor.wordAddr.toNat (leBytes 4 s.writer.count.toNat)) ∧
      t.writer =
        { s.writer with
          step := .idle
          notifyPending := if h.notify then min (s.writer.notifyPending + 1) 65535 else s.writer.notifyPending } ∧
      (s.engine.state = .stopping →
        (t.engine.state = .off ↔ s.table = [] ∧ s.writer.waiting = [] ∧ s.slate.step = .idle)) ∧
      (s.engine.state ≠ .stopping → t.engine = s.engine) ∧ t.table = s.table ∧ t.slate = s.slate ∧
      (∀ n, t.lane n = s.lane n) ∧ t.banks = s.banks ∧ t.bandSets = s.bandSets ∧ t.accums = s.accums ∧
      t.window = s.window ∧ t.pending = s.pending

/-! ## The Dispatcher -/

/-- The eligible entries are those WAITING or PARKED, with pending cancel clear, that stand behind no WAITING entry with
HOLD and, with HOLD themselves, behind none at all. A start event chooses the first URGENT one in take order; with none,
the first of the park-order list; with none of those, the first WAITING ROUTINE one in take order (R162, R163). -/
def Obligations.StartChoiceObeysFenceAndRanking : Prop :=
  ∀ s : State,
    (∀ e : Entry, e ∈ s.eligible ↔
      ∃ ahead behind, s.table = ahead ++ e :: behind ∧ e.phase ≠ .running ∧ e.pendingCancel = false ∧
        (∀ x ∈ ahead, ¬(x.header.hold = true ∧ x.phase = .waiting)) ∧ (e.header.hold = true → ahead = [])) ∧
    (∀ e, s.eligible.find? (fun x => x.header.urgent) = some e → s.startChoice = some e) ∧
    (∀ slot rest e, (∀ x ∈ s.eligible, x.header.urgent = false) → s.parkOrder = slot :: rest →
      s.eligible.find? (fun x => x.slot == slot && x.phase == .parked) = some e → s.startChoice = some e) ∧
    ((∀ x ∈ s.eligible, x.header.urgent = false ∧ x.phase = .waiting) → s.startChoice = s.eligible.head?)

/-- START_EVENT, first start: lane 0 is served first where both lanes are IDLE. The chosen WAITING entry is RUNNING on
the IDLE lane, which is ACTIVE with a fresh context, run timer 0 and the RUNNING write issued; nothing else changes. With
the engine not RUNNING, no lane IDLE or no entry to choose, nothing starts (R25, R90, R123, R158, R163, R164). -/
def Obligations.StartEventFirstStart : Prop :=
  ∀ s : State,
    (∀ n, s.idleLane = some n ↔ (s.lane n).state = .idle ∧ (n = .lane1 → s.lane0.state ≠ .idle)) ∧
    ((s.engine.state ≠ .running ∨ (∀ n, (s.lane n).state ≠ .idle) ∨ s.startChoice = none) →
      exec .startEvent s = .next s) ∧
    ∀ (n : LaneId) (e : Entry), s.engine.state = .running → s.idleLane = some n →
      s.startChoice = some e → e.phase = .waiting →
      ∃ l, exec .startEvent s =
          .next ((s.setLane n l).updEntry e.slot (fun x => { x with phase := .running, lane := n })) ∧
        l.state = .active ∧ l.order = some e.slot ∧ l.request = .none ∧ l.runTimer = 0 ∧ l.endMark = false ∧
        l.staging = Staging.start ∧ l.buffer = RecordBuffer.empty ∧ l.steps = 0 ∧ l.work = .runningWrite false ∧
        (e.header.kind.housekeeping = true → l.context = none) ∧
        (e.header.kind.housekeeping = false → ∃ c, l.context = some c ∧ c.walk = walkOf e.body ∧ c.walk.next = 0 ∧
          c.record = OrderRecord.start ∧ (e.header.kind = .pattern → c.ramp = constantOf e.body))

/-- START_EVENT, resume: the lane takes the whole context of the entry's bank, the bank is FREE, the entry leaves the
park-order list and is RUNNING with its park count as it was; TIME_LIMIT is posted at once where the restored run time
stands at the limit (R61, R158, R165, R168, R172). -/
def Obligations.StartEventResumesFromTheBank : Prop :=
  ∀ (s : State) (n : LaneId) (e : Entry) (c : ParkedContext), s.engine.state = .running → s.idleLane = some n →
    s.startChoice = some e → e.phase = .parked → s.banks[e.bank] = .holding c →
    ∃ t, exec .startEvent s = .next t ∧ t.banks = s.banks.set e.bank .free ∧
      t.parkOrder = s.parkOrder.filter (fun k => k != e.slot) ∧
      t.table = s.table.map (fun x => if x.slot = e.slot then { x with phase := .running, lane := n } else x) ∧
      (t.lane n).order = some e.slot ∧ (t.lane n).runTimer = c.runTime ∧ (t.lane n).staging = c.staging ∧
      (t.lane n).work = .runningWrite true ∧ (t.lane n).endMark = false ∧
      (∃ w, (t.lane n).context = some w ∧ w.walk = { walkOf e.body with next := c.next } ∧ w.record = c.record ∧
        w.ramp = c.ramp) ∧
      (s.engine.anchor.timeLimit ≠ 0 ∧ s.engine.anchor.timeLimit * 1000 ≤ c.runTime →
        (t.lane n).state = .yielding ∧ (t.lane n).request = .timeLimit) ∧
      (s.engine.anchor.timeLimit = 0 ∨ c.runTime < s.engine.anchor.timeLimit * 1000 →
        (t.lane n).state = .active ∧ (t.lane n).request = .none) ∧
      t.lane (otherLane n) = s.lane (otherLane n) ∧ t.bandSets = s.bandSets ∧ t.engine = s.engine ∧
      t.slate = s.slate ∧ t.writer = s.writer ∧ s.Kept t

/-- The demand for parks is U − I − Y or 0, and a candidate lane is ACTIVE with end mark and request clear and runs a
ROUTINE walking order. PARK_REQUEST: with fewer PARKs pending than the demand, a candidate lane is YIELDING with PARK
pending and the lowest-numbered FREE bank is RESERVED for it; of two candidates the one with the younger order is chosen;
outside RUNNING, or with no demand, candidate or FREE bank, nothing is posted. PARK_WITHDRAW: with more pending than the
demand, a lane's PARK is withdrawn, its bank is FREE and the lane ACTIVE; of two the one with the older order (R166,
R167, R168, R176). -/
def Obligations.ParkRequestsAndWithdrawals : Prop :=
  ∀ s : State,
    let urgent := (s.eligible.filter (fun e => e.header.urgent)).length
    let count (p : Lane → Bool) : Nat := (if p s.lane0 then 1 else 0) + (if p s.lane1 then 1 else 0)
    let idle := count (fun l => decide (l.state = .idle))
    let yielding := count (fun l => decide (l.state = .yielding) && !l.parkPending)
    s.parkDemand = urgent - idle - yielding ∧
    s.parksPending = count Lane.parkPending ∧
    (∀ n, (s.lane n).parkPending = true ↔ ∃ b, (s.lane n).request = .park b) ∧
    (∀ n, s.parkCandidate n = true ↔
      (s.lane n).state = .active ∧ (s.lane n).endMark = false ∧ (s.lane n).request = .none ∧
        ∃ e, s.laneEntry n = some e ∧ e.header.urgent = false ∧ e.header.kind.housekeeping = false) ∧
    (∀ (n : LaneId) (i : Nat) (e : Entry), (s.table.map (fun x => x.slot)).Nodup → s.table[i]? = some e →
      (s.lane n).order = some e.slot → s.laneRank n = i) ∧
    ((s.engine.state ≠ .running ∨ s.parkDemand ≤ s.parksPending ∨ (∀ n, s.parkCandidate n = false) ∨
        (∀ b : Fin 4, s.banks[b] ≠ .free)) → exec .parkRequest s = .next s) ∧
    (s.parksPending ≤ s.parkDemand → exec .parkWithdraw s = .next s) ∧
    ∀ (n : LaneId) (b : Fin 4),
      (s.engine.state = .running → s.parksPending < s.parkDemand → s.parkCandidate n = true →
        (s.parkCandidate (otherLane n) = true → s.laneRank (otherLane n) < s.laneRank n) →
        s.banks[b] = .free → (∀ k : Fin 4, k < b → s.banks[k] ≠ .free) →
        exec .parkRequest s =
          .next ((s.setBank b (.reserved n)).setLane n { s.lane n with request := .park b, state := .yielding })) ∧
      (s.parkDemand < s.parksPending → (s.lane n).request = .park b →
        ((s.lane (otherLane n)).parkPending = true → s.laneRank n < s.laneRank (otherLane n)) →
        exec .parkWithdraw s =
          .next ((s.setBank b .free).setLane n { s.lane n with request := .none, state := .active }))

/-- PARK_COMPLETE: the PARKED write lands, the bank HOLDS the lane's context, the lane is IDLE at its reset values, and
the entry is PARKED in the bank with its park count raised, held at 255. An order with no cancel pending and no stop
under way joins the park-order list; with a cancel pending, or in STOPPING, the order is ended at once and handed over
CANCELLED with HOST_CANCEL or ENGINE_STOPPED and the raised park count, its band set released, and it joins no list
(R62, R137, R157, R168, R169, R180, R182, R189, R190). While the other lane's claim covers the progress byte the write is
not accepted and nothing changes (R33, log 10). That an order ended by the stop is in no list is log 35. -/
def Obligations.ParkCompleteKeepsTheContext : Prop :=
  (∀ (s : State) (n : LaneId), s.writeHeld n = true → exec (.parkComplete n) s = .next s) ∧
  ∀ (s : State) (n : LaneId) (b : Fin 4) (e : Entry) (c : WalkContext) (slot : Nat),
    (s.lane n).work = .parkedWrite b → (s.lane n).order = some slot → s.entry? slot = some e →
    (s.lane n).context = some c → s.writeHeld n = false →
    ∃ t, exec (.parkComplete n) s = .next t ∧
      t.banks = s.banks.set b (.holding ⟨slot, c.walk.next, c.ramp, c.record, (s.lane n).staging, (s.lane n).runTimer⟩) ∧
      t.lane n = Lane.reset ∧ t.lane (otherLane n) = s.lane (otherLane n) ∧
      (s.memoryCanonical → Memory.Written s.mem t.mem (s.slotAddr slot + 1) [3]) ∧
      s.EngineSettled t ∧ t.slate = s.slate ∧ t.accums = s.accums ∧ t.window = s.window ∧ t.pending = s.pending ∧
      (∀ k, k ≠ slot → t.entry? k = s.entry? k) ∧ t.table.map (fun x => x.slot) = s.table.map (fun x => x.slot) ∧
      (e.pendingCancel = false → s.engine.state ≠ .stopping →
        t.table = s.table.map (fun x => if x.slot = slot then
          { x with phase := .parked, bank := b, parkCount := min (x.parkCount + 1) 255 } else x) ∧
        t.parkOrder = s.parkOrder ++ [slot] ∧ t.bandSets = s.bandSets ∧ t.writer = s.writer) ∧
      (e.pendingCancel = true ∨ s.engine.state = .stopping →
        (∃ held, t.entry? slot = some
          { e with
            phase := .parked, bank := b, parkCount := min (e.parkCount + 1) 255, ended := true, claimed := held }) ∧
        t.parkOrder = s.parkOrder.filter (fun k => k != slot) ∧ s.Released t e ∧
        ∃ h, t.writer = { s.writer with waiting := s.writer.waiting ++ [h] } ∧ h.slot = slot ∧
          h.final = .cancelled ∧ h.reason = (if e.pendingCancel then .hostCancel else .engineStopped) ∧
          h.record = c.record ∧ h.fault = none ∧ h.parkCount = min (e.parkCount + 1) 255 ∧ h.tag = e.header.tag ∧
          h.notify = e.header.notify ∧ h.indicators = walkIndicators e.header.kind c.record false)

/-! ## Walking orders -/

/-- PROGRESS_RUNNING_ACCEPT: the RUNNING write lands, and the lane makes the order's first claim or access, or begins
the cell at its walk index as `CellBegun` says. The walk visits the window's cells in the order of R24 in either window
form; a cell is excluded inside or outside the rectangle by the selector; PATTERN alone has no mark plane, and base 0
means none; a generated value is V, the ramp position or the checker's value, taken modulo the range of an unsigned
destination and saturated into a signed one (R22, R24 to R28, R30, R121, R122, R124, R137, R164, R165). While the other
lane's claim covers the progress byte the write is not accepted and nothing changes (R33, log 10). -/
def Obligations.ProgressRunningAcceptBeginsTheOrder : Prop :=
  (∀ (s : State) (n : LaneId) (resume : Bool) (slot : Nat) (e : Entry),
    (s.lane n).work = .runningWrite resume → (s.lane n).order = some slot → s.entry? slot = some e →
    s.writeHeld n = false →
    ∃ m l, exec (.progressRunningAccept n) s = .next ((s.setMem m).setLane n l) ∧
      (s.memoryCanonical → Memory.Written s.mem m (s.slotAddr slot + 1) [2]) ∧
      (resume = false → e.header.kind = .bandset → l = { s.lane n with work := .startTest }) ∧
      (resume = false → e.header.kind = .snapshot → l = { s.lane n with work := .latchClaim }) ∧
      (resume = false → e.header.kind = .preset → l = { s.lane n with work := .recordRead }) ∧
      (resume = false → (referencedSet e.header.kind e.body).isSome = true →
        l = { s.lane n with work := .startClaim }) ∧
      (∀ c, (s.lane n).context = some c →
        (resume = true ∨ e.header.kind.housekeeping = false ∧ referencedSet e.header.kind e.body = none) →
        CellBegun e c (s.lane n) l)) ∧
  (∀ (body : List Byte) (k : Nat),
    let w := walkOf body
    let rows := lastRow body - leField body 84 2 + 1
    let cols := lastCol body - leField body 86 2 + 1
    w.next = 0 ∧ w.cells = rows * cols ∧ ({ w with next := k } : Walk).cell = w.cellAt k ∧
      ∀ i j, i < rows → j < cols →
        let r := if (byteAt body 83).toNat = 1 then lastRow body - i else leField body 84 2 + i
        let c := if (byteAt body 82).toNat = 1 then lastCol body - j else leField body 86 2 + j
        ((byteAt body 81).toNat ≠ 1 → w.cellAt (i * cols + j) = (r, c)) ∧
        ((byteAt body 81).toNat = 1 → w.cellAt (j * rows + i) = (r, c))) ∧
  (∀ (body : List Byte) (r c : Nat),
    let inside := leField body 94 2 ≤ r ∧ r ≤ leField body 98 2 ∧ leField body 96 2 ≤ c ∧ c ≤ leField body 100 2
    ((byteAt body 92).toNat = 0 → excludes body r c = false) ∧
    ((byteAt body 92).toNat = 1 → (excludes body r c = true ↔ inside)) ∧
    ((byteAt body 92).toNat = 2 → (excludes body r c = true ↔ ¬inside))) ∧
  (∀ (kind : OrderKind) (body : List Byte),
    hasMarkPlane kind body = true ↔ kind ≠ .pattern ∧ leField body 72 4 ≠ 0) ∧
  (∀ (body : List Byte) (ramp v : Int) (r c : Nat), signedField 24 body 140 13 = some v →
    ((byteAt body 153).toNat = 0 → generatedValue body ramp r c = v) ∧
    ((byteAt body 153).toNat = 1 → generatedValue body ramp r c = ramp) ∧
    (∀ x, (byteAt body 153).toNat = 2 → signedField 24 body 177 13 = some x →
      generatedValue body ramp r c = if (r + c) % 2 = 0 then v else x)) ∧
  (∀ g : Int,
    (∀ n, patternValue (.dec n) g = ⟨g % 10 ^ n, false, g⟩) ∧
    patternValue .bin16 g = ⟨g % 2 ^ 16, false, g⟩ ∧ patternValue .bin32 g = ⟨g % 2 ^ 32, false, g⟩ ∧
    (∀ w, patternValue (.field w) g = ⟨g % 2 ^ w, false, g⟩) ∧
    (∀ n, patternValue (.sdec n) g =
      ⟨((OutputClass.signed n).saturate g).1, ((OutputClass.signed n).saturate g).2, g⟩)) ∧
  (∀ (s : State) (n : LaneId), s.writeHeld n = true → exec (.progressRunningAccept n) s = .next s)

/-- START_CLAIM: a LOADED set, or an UNCHECKED one that passes its check, is LOADED with one more use and the first cell
begins; an EMPTY set fails the order with BAND_SET_EMPTY and an UNCHECKED one that fails with BAND_SET_INVALID, before
any cell and with the set as it was (R57, R60, R164). That a stop request pending when the claim fails is dropped, a
PARK with its bank, so that the order ends FAILED, is log 17. A TALLY references the set that byte 136 of its body
numbers, a DIFFERENCE that set too unless the byte is FFh, and no other kind references one (R65, R96, R100, R156). -/
def Obligations.StartClaimCountsTheUse : Prop :=
  (∀ set : BandSet, set.valid = true ↔ BandsSound set.count.toNat set.bands.toList) ∧
  (∀ (kind : OrderKind) (body : List Byte),
    ((kind = .tally ∨ kind = .difference) → ∀ i : Fin 8, (byteAt body 136).toNat = i.val →
      referencedSet kind body = some i) ∧
    (kind = .difference → (byteAt body 136).toNat = 0xFF → referencedSet kind body = none) ∧
    (kind ≠ .tally → kind ≠ .difference → referencedSet kind body = none)) ∧
  ∀ (s : State) (n : LaneId) (slot : Nat) (e : Entry) (i : Fin 8) (c : WalkContext),
    (s.lane n).work = .startClaim → (s.lane n).order = some slot → s.entry? slot = some e →
    referencedSet e.header.kind e.body = some i → (s.lane n).context = some c →
    let failed (reason : Reason) : Prop :=
      ∃ t h, exec (.startClaim n) s = .next t ∧ s.Ended t n h ∧ t.bandSets = s.bandSets ∧ t.table = s.table ∧
        (∀ b : Fin 4, (s.lane n).request = .park b → t.banks[b] = .free) ∧
        h.slot = slot ∧ h.final = .failed ∧ h.reason = reason ∧ h.record = OrderRecord.start ∧ h.fault = none ∧
        h.indicators = Indicators.clear ∧ h.parkCount = e.parkCount ∧ h.tag = e.header.tag ∧
        h.notify = e.header.notify
    ((s.bandSets[i].state = .loaded ∨ s.bandSets[i].state = .unchecked ∧ s.bandSets[i].valid = true) →
      ∃ l, exec (.startClaim n) s = .next (((s.setBandSet i
          { s.bandSets[i] with state := .loaded, uses := s.bandSets[i].uses + 1 }).updEntry slot
            (fun x => { x with claimed := true })).setLane n l) ∧ CellBegun e c (s.lane n) l) ∧
    (s.bandSets[i].state = .empty → failed .bandSetEmpty) ∧
    (s.bandSets[i].state = .unchecked → s.bandSets[i].valid = false → failed .bandSetInvalid)

/-- MARK_READ_DONE: the mark bit of cell (r, c) is bit c mod 8 of the byte at plane base + r × pitch + c div 8. A marked
cell comes to its boundary unworked, an excluded one too, and any other has source A read (R26, R27, R28, R30). -/
def Obligations.MarkReadDoneSortsTheCell : Prop :=
  ∀ (s : State) (n : LaneId) (host : HostWrites) (slot : Nat) (e : Entry) (w : CellWork) (c : WalkContext),
    (s.lane n).work = .markRead → (s.lane n).order = some slot → s.entry? slot = some e →
    (s.lane n).cell = some w → (s.lane n).context = some c → e.header.kind ≠ .pattern →
    let plane := leField e.body 72 4
    let pitch := leField e.body 76 4
    let byte := (s.afterHost host).mem.read ((plane + w.row * pitch + w.col / 8) % 4294967296)
    (byte.getLsbD (w.col % 8) = true →
      exec (.markReadDone n host) s = .next ((s.afterHost host).setLane n
        { s.lane n with cell := some { w with cls := .marked }, work := .boundary })) ∧
    (byte.getLsbD (w.col % 8) = false → excludes e.body w.row w.col = true →
      exec (.markReadDone n host) s = .next ((s.afterHost host).setLane n
        { s.lane n with cell := some { w with cls := .excluded }, work := .boundary })) ∧
    (byte.getLsbD (w.col % 8) = false → excludes e.body w.row w.col = false →
      exec (.markReadDone n host) s = .next ((s.afterHost host).setLane n { s.lane n with work := .sourceARead }))

/-- SOURCE_READ_DONE: after source A, source B is read where the order has one; after the last operand the cell has the
outcome that `workCell` gives, a contribution adds to its staging entry and to no other, the cell's writes or records
begin, and nothing else of the state changes but memory by the host's writes. The outcomes are those of R42, R98, R102
to R104, R110 and R118, by the conversion steps of R40, the classification of R66 to R69 and the contribution of R74; a
REVERSAL rejected into an unsigned C keeps the value formed for it as working value (R9).
The tally width stands at body offset 119, the rollover digits at 123 and the 24 digits of the rollover limit at 124
(R14, R19, R20, R30, R31, R38, R40, R42 to R48, R66 to R69, R74, R91 to R93, R98, R102 to R104, R109, R110, R118). -/
def Obligations.SourceReadDoneWorksTheCell : Prop :=
  (∀ (s : State) (n : LaneId) (host : HostWrites) (slot : Nat) (e : Entry) (w : CellWork) (c : WalkContext),
    (s.lane n).order = some slot → s.entry? slot = some e → (s.lane n).cell = some w →
    (s.lane n).context = some c →
    let t := s.afterHost host
    let bytesA := t.mem.readBytes ((gridA e.body).cellAddr w.row w.col) ((gridA e.body).cellLen w.row w.col)
    let bytesB := t.mem.readBytes ((gridB e.body).cellAddr w.row w.col) ((gridB e.body).cellLen w.row w.col)
    let worked (r : CellWork × Option (Fin 9)) : Prop := ∃ (l : Lane) (staging : Staging),
      exec (.sourceReadDone n host) s = .next (t.setLane n l) ∧
        (∀ i : Fin 9, r.2 = some i → staging[i] = (s.lane n).staging[i].contribute (r.1.working.getD 0)) ∧
        (∀ i : Fin 9, r.2 ≠ some i → staging[i] = (s.lane n).staging[i]) ∧
        WritesBegun e c r.1 { s.lane n with staging := staging } l
    ((s.lane n).work = .sourceARead → readsB e.header.kind e.body = true →
      exec (.sourceReadDone n host) s = .next (t.setLane n
        { s.lane n with cell := some { w with operandA := bytesA }, work := .sourceBRead })) ∧
    ((s.lane n).work = .sourceARead → readsB e.header.kind e.body = false →
      worked (workCell e.header.kind e.body (s.setOfEntry e) w bytesA [])) ∧
    ((s.lane n).work = .sourceBRead →
      worked (workCell e.header.kind e.body (s.setOfEntry e) w w.operandA bytesB))) ∧
  (∀ (kind : OrderKind) (body : List Byte),
    (readsB kind body = true ↔ kind = .difference ∨ kind = .compare ∧ (byteAt body 138).toNat ≠ 1) ∧
    (kind ≠ .compare →
      (readsDestination kind body = true ↔ (byteAt body 60).toNat = 5 ∨
        ((byteAt body 60).toNat = 1 ∨ (byteAt body 60).toNat = 2) ∧ leField body 120 3 ≠ 0)) ∧
    (kind = .compare → readsDestination kind body = true)) ∧
  (∀ (body : List Byte) (i r c : Nat),
    let code := (byteAt body (i + 12)).toNat
    let count := (byteAt body (i + 13)).toNat
    let base := leField body i 4
    let pitch := leField body (i + 8) 4
    let g := gridAt body i
    (1 ≤ code → code ≤ 4 →
      g.cellAddr r c = base + r * pitch + c * cellSize code count ∧ g.cellLen r c = cellSize code count) ∧
    (code = 5 →
      g.cellAddr r c = base + (r * pitch + c * count) / 8 ∧ g.cellBit r c = (r * pitch + c * count) % 8 ∧
        g.cellLen r c = ((r * pitch + c * count) % 8 + count + 7) / 8)) ∧
  (∀ (kind : OrderKind) (body : List Byte) (set : Option BandSet) (w : CellWork) (bytesA bytesB : List Byte),
    let a := (gridA body).decodeCell w.row w.col bytesA
    let b := (gridB body).decodeCell w.row w.col bytesB
    let r := workCell kind body set w bytesA bytesB
    ((a = none ∨ readsB kind body = true ∧ b = none) →
      r = ({ w with malformed := true, exceptions := [⟨.malformed, 0, 0⟩], cls := .rejected }, none)) ∧
    (∀ x z, kind = .tally → a = some x → set = some z →
      let v := convertValue body (.signed (tallyWidth body)) x
      let k := classify z v.output
      r.2 = stagingEntry (residueOf body) k ∧ CellConverted v [] (classException z v.output k) w r.1 ∧
        r.1.cls = (if (stagingEntry (residueOf body) k).isSome then .contributed else .rejected)) ∧
    (∀ x y, kind = .difference → a = some x → b = some y →
      let d := formDifference (rolloverDigits body) (rolloverLimit body) x y
      let v := convertValue body (gridC body).format.outputClass d.1
      ((∃ k, d.2 = some k ∧ k.kind = .reversal) → (byteAt body 60).toNat ≠ 2 →
        r = ({ w with working := some d.1, exceptions := d.2.toList, cls := .rejected }, none)) ∧
      ((∀ k, d.2 = some k → k.kind = .rollover) ∨ (byteAt body 60).toNat = 2 →
        r.1.cls = .contributed ∧
        (set = none → r.2 = none ∧ CellConverted v d.2.toList [] w r.1) ∧
        (∀ z, set = some z → r.2 = stagingEntry (residueOf body) (classify z v.output) ∧
          CellConverted v d.2.toList (classException z v.output (classify z v.output)) w r.1))) ∧
    (∀ x, kind = .convert → a = some x →
      r.2 = none ∧ r.1.cls = .contributed ∧
        CellConverted (convertValue body (gridC body).format.outputClass x) [] [] w r.1) ∧
    (∀ x y, kind = .compare → a = some x →
      (if (byteAt body 138).toNat = 1 then signedField 24 body 140 13 = some y else b = some y) →
      r = ({ w with
        cls := .contributed, verdict := some (relationHolds (byteAt body 139).toNat x y) }, none))) ∧
  (∀ body : List Byte,
    tallyWidth body = (byteAt body 119).toNat ∧ rolloverDigits body = (byteAt body 123).toNat ∧
    ((∀ k, k < 24 → beValue (slice body 124 12) / 16 ^ k % 16 ≤ 9) →
      rolloverLimit body < 10 ^ 24 ∧
        ∀ k, k < 24 → rolloverLimit body / 10 ^ k % 10 = beValue (slice body 124 12) / 16 ^ k % 16)) ∧
  (∀ (body : List Byte) (cls : OutputClass) (v offset : Int), signedField 24 body 104 13 = some offset →
    let u := scaleValue (byteAt body 117).toInt (byteAt body 118 == 1) (v + offset)
    convertValue body cls v = ⟨(cls.saturate u.1).1, u.2 || (cls.saturate u.1).2, u.1⟩) ∧
  ((∀ n, (CellFormat.dec n).outputClass = .unsigned n) ∧ (∀ n, (CellFormat.sdec n).outputClass = .signed n) ∧
    CellFormat.bin16.outputClass = .binary 16 ∧ CellFormat.bin32.outputClass = .binary 32 ∧
    (∀ w, (CellFormat.field w).outputClass = .binary w)) ∧
  (∀ x : Converted,
    (x.saturated = false → saturatedException x = []) ∧
    (x.saturated = true → ∃ v, saturatedException x = [⟨.saturated, 0, v⟩] ∧
      (-(10 ^ 28 - 1) ≤ x.before → x.before ≤ 10 ^ 28 - 1 → v = x.before) ∧
      (10 ^ 28 - 1 < x.before → v = 10 ^ 28 - 1) ∧ (x.before < -(10 ^ 28 - 1) → v = -(10 ^ 28 - 1)))) ∧
  (∀ (z : BandSet) (v : Int), BandsSound z.count.toNat z.bands.toList →
    (∀ i, classify z v = .band i ↔ i < z.count.toNat ∧
      ∃ b, z.bands.toList[i]? = some b ∧ b.lowValue ≤ v ∧ v ≤ b.highValue) ∧
    (classify z v = .below ↔ v < z.bands[(0 : Fin 8)].lowValue) ∧
    (classify z v = .gap ↔ ∃ i a b, i + 1 < z.count.toNat ∧ z.bands.toList[i]? = some a ∧
      z.bands.toList[i + 1]? = some b ∧ a.highValue < v ∧ v < b.lowValue) ∧
    (classify z v = .above ↔ ∃ b, z.bands.toList[z.count.toNat - 1]? = some b ∧ b.highValue < v) ∧
    (∀ i : Fin 8, classException z v (.band i.val) = if z.bands[i].alarm then [⟨.alarmBand, i.val, v⟩] else []) ∧
    classException z v .gap = [⟨.unbanded, 1, v⟩] ∧ classException z v .below = [⟨.unbanded, 2, v⟩] ∧
    classException z v .above = [⟨.unbanded, 3, v⟩]) ∧
  (∀ body : List Byte,
    (∀ i : Fin 8, stagingEntry (residueOf body) (.band i.val) = some i.castSucc) ∧
    (∀ k, (k = .gap ∨ k = .below ∨ k = .above) →
      ((byteAt body 137).toNat = 0xFF → stagingEntry (residueOf body) k = none) ∧
      ((byteAt body 137).toNat ≠ 0xFF → stagingEntry (residueOf body) k = some 8))) ∧
  (∀ (t : Total) (v : Int),
    let r := t.contribute v
    r.count = t.count + 1 ∧
    (-(10 ^ 28 - 1) ≤ t.value + v → t.value + v ≤ 10 ^ 28 - 1 →
      r.value = t.value + v ∧ r.overflow = t.overflow) ∧
    (10 ^ 28 - 1 < t.value + v → r.value = 10 ^ 28 - 1 ∧ r.overflow = true) ∧
    (t.value + v < -(10 ^ 28 - 1) → r.value = -(10 ^ 28 - 1) ∧ r.overflow = true))

/-- DESTINATION_READ_DONE: unless the other lane's claim covers a byte of it, the old bytes are read and the write of
the read-modify-write is issued as one claim; that a read which meets the other lane's claim leaves the state unchanged
is log 10, since R33 does not say how the claim is kept. A result bit leaves the other seven bits of its byte; a kept
digit is the old cell's nibble and every other digit, the pad and the sign are those of the new value (R26, R29, R32,
R33, R35). -/
def Obligations.DestinationReadDoneIssuesTheClaim : Prop :=
  (∀ (s : State) (n : LaneId) (host : HostWrites) (slot : Nat) (e : Entry) (w : CellWork),
    (s.lane n).work = .destinationRead → (s.lane n).order = some slot → s.entry? slot = some e →
    (s.lane n).cell = some w →
    let a := destinationAddr e w.row w.col
    let len := destinationLen e w.row w.col
    let old := (s.afterHost host).mem.readBytes a len
    (e.header.kind = .compare →
      a = leField e.body 156 4 + w.row * leField e.body 160 4 + w.col / 8 ∧ len = 1) ∧
    (e.header.kind ≠ .compare →
      a = (gridC e.body).cellAddr w.row w.col ∧ len = (gridC e.body).cellLen w.row w.col ∧
        mergedBytes e w old = (gridC e.body).format.merge ((gridC e.body).cellBit w.row w.col) (leField e.body 120 3) old
          (w.working.getD 0)) ∧
    (s.claimed n a len = true ↔ ∃ b held, (s.lane (otherLane n)).work = .destinationWrite b held true ∧
      a < b.toNat + held.length ∧ b.toNat < a + len) ∧
    (s.claimed n a len = false →
      exec (.destinationReadDone n host) s = .next ((s.afterHost host).setLane n
        { s.lane n with work := .destinationWrite (BitVec.ofNat 32 a) (mergedBytes e w old) true })) ∧
    (s.claimed n a len = true → exec (.destinationReadDone n host) s = .next s) ∧
    (e.header.kind = .compare → ∃ b, mergedBytes e w old = [b] ∧
      b.getLsbD (w.col % 8) = (w.verdict == some true) ∧
      ∀ k, k < 8 → k ≠ w.col % 8 → b.getLsbD k = (byteAt old 0).getLsbD k)) ∧
  (∀ (n mask : Nat) (old : List Byte) (v : Int), 1 ≤ n → n ≤ 24 →
    let dec := (CellFormat.dec n).merge 0 mask old v
    let sdec := (CellFormat.sdec n).merge 0 mask old v
    dec.length = (n + 1) / 2 ∧ sdec.length = (n + 2) / 2 ∧
    (0 ≤ v → v < 10 ^ n → ∀ k,
      (k < n → mask.testBit k = true → beValue dec / 16 ^ k % 16 = beValue old / 16 ^ k % 16) ∧
      (k < n → mask.testBit k = false → beValue dec / 16 ^ k % 16 = v.natAbs / 10 ^ k % 10) ∧
      (n ≤ k → beValue dec / 16 ^ k % 16 = 0)) ∧
    (-10 ^ n < v → v < 10 ^ n →
      beValue sdec % 16 = (if v < 0 then 0xD else 0xC) ∧ ∀ k,
      (k < n → mask.testBit k = true → beValue sdec / 16 ^ (k + 1) % 16 = beValue old / 16 ^ (k + 1) % 16) ∧
      (k < n → mask.testBit k = false → beValue sdec / 16 ^ (k + 1) % 16 = v.natAbs / 10 ^ k % 10) ∧
      (n ≤ k → beValue sdec / 16 ^ (k + 1) % 16 = 0)))

/-- DESTINATION_WRITE_ACCEPT and EXCEPTION_RECORD_WRITE_ACCEPT land the write the lane has issued, whole and nothing
else; while the other lane's claim covers a byte of it, the write is not accepted and nothing changes (R33, log 10). An
accepted record is counted raised and written and moves the cursor, exceptions without room are counted raised and lost,
and with none left the cell comes to its boundary. A record holds row, column, kind by its code, subclass or band index,
tag and value at the offsets of R156 (R31, R33, R91, R114, R156). -/
def Obligations.LaneWritesLandWhole : Prop :=
  (∀ (s : State) (n : LaneId) (slot : Nat) (e : Entry) (c : WalkContext) (w : CellWork),
    (s.lane n).order = some slot → s.entry? slot = some e → (s.lane n).context = some c →
    (s.lane n).cell = some w → s.writeHeld n = false →
    (∀ a bytes claim, (s.lane n).work = .destinationWrite a bytes claim →
      ∃ m l, exec (.destinationWriteAccept n) s = .next ((s.setMem m).setLane n l) ∧
        (s.memoryCanonical → Memory.Written s.mem m a.toNat bytes) ∧ RecordsBegun e c w (s.lane n) l) ∧
    (∀ x rest, (s.lane n).work = .exceptionWrite → w.exceptions = x :: rest →
      ∃ m l, exec (.exceptionRecordWriteAccept n) s = .next ((s.setMem m).setLane n l) ∧
        (s.memoryCanonical → Memory.Written s.mem m (e.header.listAddr.toNat + 32 * c.record.cursor)
          (exceptionRecord e.header.tag w.row w.col x)) ∧
        RecordsBegun e
          { c with record := { c.record with
              raised := c.record.raised + 1, written := c.record.written + 1, cursor := c.record.cursor + 1 } }
          { w with exceptions := rest } (s.lane n) l)) ∧
  (∀ (s : State) (n : LaneId), s.writeHeld n = true →
    exec (.destinationWriteAccept n) s = .next s ∧ exec (.exceptionRecordWriteAccept n) s = .next s) ∧
  (∀ (s : State) (n : LaneId), s.writeHeld n = true ↔
    ∃ a bytes b held, s.laneWrite n = some (a, bytes) ∧
      (s.lane (otherLane n)).work = .destinationWrite b held true ∧ a < b.toNat + held.length ∧
        b.toNat < a + bytes.length) ∧
  (∀ (tag : BitVec 16) (row col : Nat) (x : CellException),
    let record := exceptionRecord tag row col x
    record.length = 32 ∧ leField record 0 2 = row % 65536 ∧ leField record 2 2 = col % 65536 ∧
      leField record 4 1 = x.kind.code ∧ leField record 5 1 = x.sub % 256 ∧ leField record 6 2 = tag.toNat ∧
      (-10 ^ 28 < x.value → x.value < 10 ^ 28 → signedField 28 record 8 15 = some x.value) ∧
      leField record 23 9 = 0) ∧
  [ExceptionKind.malformed, .saturated, .rollover, .reversal, .unbanded, .alarmBand].map ExceptionKind.code =
    [1, 2, 3, 4, 5, 6]

/-- CELL_BOUNDARY that is not the last: the cell is counted once in its class, the walk index and the ramp position
advance, the latter by the step S at body offset 164; then a pending PARK begins, or with no request the lane freezes in
PAUSING and PAUSED, or begins the next cell as `CellBegun` says, of a PATTERN too (R25, R37, R110, R123, R124, R160,
R169, R171, R180). -/
def Obligations.CellBoundaryCountsAndGoesOn : Prop :=
  (∀ (body : List Byte) (x : Int), signedField 24 body 164 13 = some x → stepOf body = x) ∧
  ∀ (s : State) (n : LaneId) (slot : Nat) (e : Entry) (c : WalkContext) (w : CellWork),
    (s.lane n).work = .boundary → (s.lane n).order = some slot → s.entry? slot = some e →
    (s.lane n).context = some c → (s.lane n).cell = some w → c.walk.next + 1 < c.walk.cells →
    ∃ c' : WalkContext,
      c'.walk = { c.walk with next := c.walk.next + 1 } ∧ c'.record.visited = c.record.visited + 1 ∧
      c'.record.contributed = c.record.contributed + (if w.cls = .contributed then 1 else 0) ∧
      c'.record.marked = c.record.marked + (if w.cls = .marked then 1 else 0) ∧
      c'.record.excluded = c.record.excluded + (if w.cls = .excluded then 1 else 0) ∧
      c'.record.rejected = c.record.rejected + (if w.cls = .rejected then 1 else 0) ∧
      c'.record.trueCount = c.record.trueCount + (if w.verdict = some true then 1 else 0) ∧
      c'.record.falseCount = c.record.falseCount + (if w.verdict = some false then 1 else 0) ∧
      (c'.record.nonzero = true ↔ c.record.nonzero = true ∨ w.nonzero = true) ∧
      (c'.record.saturated = true ↔ c.record.saturated = true ∨ w.saturated = true) ∧
      c'.record.cursor = c.record.cursor ∧ c'.record.raised = c.record.raised ∧
      c'.record.written = c.record.written ∧ c'.record.lost = c.record.lost ∧
      (e.header.kind = .pattern → c'.ramp = c.ramp + stepOf e.body) ∧
      c'.commitOverflow = c.commitOverflow ∧
      (∀ b, (s.lane n).request = .park b →
        exec (.cellBoundary n) s = .next (s.setLane n
          { s.lane n with
            context := some c', cell := none, state := .yielding, request := .none, work := .parkedWrite b })) ∧
      ((s.lane n).request = .none → (s.engine.state = .pausing ∨ s.engine.state = .paused) →
        ∃ t, exec (.cellBoundary n) s = .next t ∧
          s.FrozenAt t n { s.lane n with context := some c', cell := none }) ∧
      ((s.lane n).request = .none → s.engine.state ≠ .pausing → s.engine.state ≠ .paused →
        ∃ l, exec (.cellBoundary n) s = .next (s.setLane n l) ∧
          CellBegun e c' { s.lane n with context := some c', cell := none } l)

/-- CELL_BOUNDARY that ends the order: a TIME_LIMIT, CANCEL or ENGINE_STOP pending at any boundary ends it with the cell
counted; at the last boundary with none of them, a PARK is dropped and its bank freed, and a tallying order presents its
commit claim under the end mark, while any other ends DONE. The band set of an order that has ended is released, a bank
that its lane had reserved is FREE, and its indicators are those of R93 for its kind (R37, R62, R76, R93, R95, R99,
R105, R112, R119, R124, R161, R168, R171). -/
def Obligations.CellBoundaryEndsTheOrder : Prop :=
  (∀ (s : State) (n : LaneId) (slot : Nat) (e : Entry) (c : WalkContext) (w : CellWork),
    (s.lane n).work = .boundary → (s.lane n).order = some slot → s.entry? slot = some e →
    (s.lane n).context = some c → (s.lane n).cell = some w →
    let freed (t : State) : Prop :=
      (∀ b : Fin 4, (s.lane n).request = .park b → t.banks = s.banks.set b .free) ∧
        ((∀ b, (s.lane n).request ≠ .park b) → t.banks = s.banks)
    let ended (final : FinalState) (reason : Reason) (overflow : Bool) : Prop :=
      ∃ t h, exec (.cellBoundary n) s = .next t ∧ s.Ended t n h ∧ s.Released t e ∧ freed t ∧ h.slot = slot ∧
        h.final = final ∧ h.reason = reason ∧ h.fault = none ∧ h.record = c.record.countCell w ∧
        h.indicators = walkIndicators e.header.kind (c.record.countCell w) overflow ∧
        h.parkCount = e.parkCount ∧ h.tag = e.header.tag ∧ h.notify = e.header.notify
    ((s.lane n).request = .timeLimit → ended .failed .timeLimit false) ∧
    ((s.lane n).request = .cancel → ended .cancelled .hostCancel false) ∧
    ((s.lane n).request = .engineStop → ended .cancelled .engineStopped false) ∧
    (c.walk.cells ≤ c.walk.next + 1 → ((s.lane n).request = .none ∨ ∃ b, (s.lane n).request = .park b) →
      ((referencedSet e.header.kind e.body).isSome = true →
        ∃ t, exec (.cellBoundary n) s = .next t ∧ (t.lane n).work = .commitClaim ∧ (t.lane n).endMark = true ∧
          (t.lane n).state = .active ∧ (t.lane n).request = .none ∧ (t.lane n).staging = (s.lane n).staging ∧
          (∃ c', (t.lane n).context = some c' ∧ c'.record = c.record.countCell w) ∧ freed t ∧
          t.writer = s.writer ∧ t.bandSets = s.bandSets ∧ t.table = s.table ∧ s.Kept t) ∧
      (referencedSet e.header.kind e.body = none → ended .done .none c.commitOverflow))) ∧
  (∀ (r : OrderRecord) (w : CellWork), r.countCell w =
    { r with
      visited := r.visited + 1
      contributed := r.contributed + (if w.cls = .contributed then 1 else 0)
      marked := r.marked + (if w.cls = .marked then 1 else 0)
      excluded := r.excluded + (if w.cls = .excluded then 1 else 0)
      rejected := r.rejected + (if w.cls = .rejected then 1 else 0)
      nonzero := r.nonzero || w.nonzero
      saturated := r.saturated || w.saturated
      trueCount := r.trueCount + (if w.verdict = some true then 1 else 0)
      falseCount := r.falseCount + (if w.verdict = some false then 1 else 0) }) ∧
  (∀ (kind : OrderKind) (r : OrderRecord) (overflow : Bool), kind.housekeeping = false →
    let x := walkIndicators kind r overflow
    (x.zero = true ↔ kind ≠ .compare ∧ r.nonzero = false) ∧
    (x.saturated = true ↔ kind ≠ .compare ∧ r.saturated = true) ∧
    (x.overflow = true ↔ (kind = .tally ∨ kind = .difference) ∧ overflow = true) ∧
    (x.lost = true ↔ 0 < r.lost) ∧
    (x.allTrue = true ↔ kind = .compare ∧ r.falseCount = 0 ∧ 0 < r.trueCount) ∧
    (x.noneTrue = true ↔ kind = .compare ∧ r.trueCount = 0))

/-- COMMIT: the staging entries with count above 0 are added in ascending number, each to the accumulator that its band,
or the residue field for entry 8, names, one after another where several name one; the others stand. The order is
handed over DONE with the Bank's report as OVERFLOW, which says that an addition saturated or an applied entry carried
its flag, and the band set's use is released (R62, R72, R76, R77, R93, R95, R99). -/
def Obligations.CommitAddsStagingOnce : Prop :=
  (∀ (s : State) (n : LaneId) (slot : Nat) (e : Entry) (c : WalkContext) (i : Fin 8),
    (s.lane n).work = .commitClaim → (s.lane n).order = some slot → s.entry? slot = some e →
    (s.lane n).context = some c → referencedSet e.header.kind e.body = some i →
    let name := namedAccum s.bandSets[i] e.body
    let staging := (s.lane n).staging
    let result := commitStaging name staging s.accums
    (∃ t h, exec (.commit n) s = .next t ∧ (s.setAccums result.1).Ended t n h ∧ s.Released t e ∧ h.slot = slot ∧
      h.final = .done ∧ h.reason = .none ∧ h.record = c.record ∧ h.indicators.overflow = result.2 ∧
      h.indicators = walkIndicators e.header.kind c.record result.2 ∧ h.fault = none ∧ h.parkCount = e.parkCount ∧
      h.tag = e.header.tag ∧ h.notify = e.header.notify ∧
      (e.claimed = true → t.bandSets = s.bandSets.set i { s.bandSets[i] with uses := s.bandSets[i].uses - 1 } ∧
        t.table = s.table.map (fun x => if x.slot = slot then { x with claimed := false } else x))) ∧
    (∀ k : Fin 8, name k.castSucc = Fin.ofNat 64 s.bandSets[i].bands[k].accum.toNat) ∧
    ((byteAt e.body 137).toNat ≤ 63 → (name 8).val = (byteAt e.body 137).toNat) ∧
    (∀ a : Fin 64, (∀ k : Fin 9, 0 < staging[k].count → name k ≠ a) → result.1[a] = s.accums[a]) ∧
    (∀ k : Fin 9, 0 < staging[k].count → (∀ j : Fin 9, 0 < staging[j].count → name j = name k → j = k) →
      result.1[name k] = (s.accums[name k].applyEntry staging[k]).1) ∧
    ((∀ k : Fin 9, staging[k].count = 0) → result = (s.accums, false))) ∧
  (∀ (name : Fin 9 → Fin 64) (staging : Staging) (accums : Vector Total 64),
    let applied (a : Fin 64) (t : Total) (k : Fin 9) : Total :=
      if 0 < staging[k].count ∧ name k = a then (t.applyEntry staging[k]).1 else t
    let upTo (j : Nat) (a : Fin 64) : Total := ((List.finRange 9).take j).foldl (applied a) accums[a]
    let result := commitStaging name staging accums
    (∀ a : Fin 64, result.1[a] = upTo 9 a) ∧
    (result.2 = true ↔ ∃ k : Fin 9, 0 < staging[k].count ∧
      ((upTo k.val (name k)).applyEntry staging[k]).2 = true)) ∧
  (∀ a x : Total,
    let v := a.value + x.value
    let r := a.applyEntry x
    let saturates := 10 ^ 28 - 1 < v ∨ v < -(10 ^ 28 - 1) ∨ 4294967295 < a.count + x.count
    r.1.value = (a.add x.value x.count).1.value ∧ r.1.count = (a.add x.value x.count).1.count ∧
    (r.1.overflow = true ↔ a.overflow = true ∨ x.overflow = true ∨ saturates) ∧
    (r.2 = true ↔ x.overflow = true ∨ saturates))

/-- TIME_LIMIT: the run timer reaches the limit and the lane posts TIME_LIMIT to itself, which replaces a PARK, whose
bank is freed, and is dropped beneath a CANCEL or ENGINE_STOP (R170, R172; the event stands for the time that passes,
log 5). -/
def Obligations.TimeLimitPostsToItsLane : Prop :=
  ∀ (s : State) (n : LaneId), s.runTimerCounts n = true → s.engine.anchor.timeLimit ≠ 0 →
    (s.lane n).runTimer < s.engine.anchor.timeLimit * 1000 →
    ((s.lane n).request = .none →
      exec (.timeLimit n) s = .next (s.setLane n
        { s.lane n with
          runTimer := s.engine.anchor.timeLimit * 1000, request := .timeLimit, state := .yielding })) ∧
    (∀ b, (s.lane n).request = .park b →
      exec (.timeLimit n) s = .next ((s.setBank b .free).setLane n
        { s.lane n with
          runTimer := s.engine.anchor.timeLimit * 1000, request := .timeLimit, state := .yielding })) ∧
    ((s.lane n).request = .cancel ∨ (s.lane n).request = .engineStop →
      exec (.timeLimit n) s = .next (s.setLane n
        { s.lane n with runTimer := s.engine.anchor.timeLimit * 1000 }))

/-- MEMORY_FAULT ends the order FAILED with MEMORY_FAULT: a walking order with its counts as they stand, the fault's
cell, its staging dropped and its band set released; a housekeeping order with every count 0 and no indicator but the
OVERFLOW of a SNAPSHOT that latched a flag. A pending request is dropped, a PARK with its bank. A read changes no
memory, a destination write lands whole or not at all, and a record write changes no byte outside its record (R31, R39,
R62, R93, R115, R126, R132, R168, R173; which bytes a record write leaves is the world's, log 9). An access that waits
for the other lane's claim has not been made, so it faults nothing and nothing changes (R33, log 10). -/
def Obligations.MemoryFaultEndsTheOrder : Prop :=
  (∀ (s : State) (n : LaneId) (took : BitVec 32), (s.writeHeld n = true ∨ s.readHeld n = true) →
    exec (.memoryFault n took) s = .next s) ∧
  (∀ (s : State) (n : LaneId),
    ((s.lane n).work ≠ .destinationRead → s.readHeld n = false) ∧
    (∀ (slot : Nat) (e : Entry) (w : CellWork), (s.lane n).work = .destinationRead → (s.lane n).order = some slot →
      s.entry? slot = some e → (s.lane n).cell = some w →
      s.readHeld n = s.claimed n (destinationAddr e w.row w.col) (destinationLen e w.row w.col))) ∧
  ∀ (s : State) (n : LaneId) (took : BitVec 32) (slot : Nat) (e : Entry), (s.lane n).order = some slot →
    s.entry? slot = some e → (s.lane n).work.faults = true → s.writeHeld n = false → s.readHeld n = false →
    ∃ m,
      (e.header.kind.housekeeping = true →
        ∃ t h, exec (.memoryFault n took) s = .next t ∧ (s.setMem m).Ended t n h ∧ t.table = s.table ∧
          t.bandSets = s.bandSets ∧ h.slot = slot ∧ h.final = .failed ∧ h.reason = .memoryFault ∧
          h.record = OrderRecord.start ∧ h.fault = none ∧ h.parkCount = e.parkCount ∧ h.tag = e.header.tag ∧
          h.notify = e.header.notify ∧ h.indicators = { Indicators.clear with overflow := h.indicators.overflow } ∧
          (h.indicators.overflow = true ↔ e.header.kind = .snapshot ∧
            ∃ k : Fin 64, (s.lane n).buffer.entries[k].overflow = true) ∧
          (∀ b : Fin 4, (s.lane n).request = .park b → t.banks = s.banks.set b .free) ∧
          ((∀ b, (s.lane n).request ≠ .park b) → t.banks = s.banks)) ∧
      (∀ c w, e.header.kind.housekeeping = false → (s.lane n).context = some c → (s.lane n).cell = some w →
        ∃ t h, exec (.memoryFault n took) s = .next t ∧ (s.setMem m).Ended t n h ∧ s.Released t e ∧ h.slot = slot ∧
          h.final = .failed ∧ h.reason = .memoryFault ∧ h.record = c.record ∧ h.fault = some (w.row, w.col) ∧
          h.indicators = walkIndicators e.header.kind c.record false ∧ h.parkCount = e.parkCount ∧
          h.tag = e.header.tag ∧ h.notify = e.header.notify ∧
          (∀ b : Fin 4, (s.lane n).request = .park b → t.banks = s.banks.set b .free) ∧
          ((∀ b, (s.lane n).request ≠ .park b) → t.banks = s.banks) ∧
          (∀ i : Fin 8, e.claimed = true → referencedSet e.header.kind e.body = some i →
            t.bandSets = s.bandSets.set i { s.bandSets[i] with uses := s.bandSets[i].uses - 1 })) ∧
      (s.laneWrite n = none → m = s.mem) ∧
      (∀ a bytes claim, (s.lane n).work = .destinationWrite a bytes claim →
        m = s.mem ∨ m = s.mem.writeBytes a.toNat bytes) ∧
      (s.memoryCanonical → ∀ x, ¬ issuedCovers (s.laneWrite n) x → m.read x = s.mem.read x)

/-- SLATE_FAULT halts the engine: SLATE_FAULT set, the record written with address, kind, slot and state, every busy lane
FROZEN with its order and context, its request and staging dropped, RESERVED banks FREE, hand-overs discarded;
totals and counters are kept. Every issued write but the faulting one lands whole, and no byte changes but those of
issued writes; a faulting state, completion-word or hand-back write leaves no byte, a result area is partly or wholly
old, and any byte of a faulting write is old or new. An access that is no slate access faults nothing (R31, R147, R154,
R150, R168, R174, R184, R185). That issued writes land at once is log 7, that a lane's context is kept while its staging
set and a start's outstanding read are dropped is log 25, that the completion and the slot in hand are dropped with none
of what follows the acceptance of their landed writes is log 38, the model's choice, and the addresses recorded are
log 20. -/
def Obligations.SlateFaultHaltsTheEngine : Prop :=
  (∀ (s : State) (r : Requester) (took : BitVec 48) (f : SlateFaultAt), s.faultOf r = some f →
    ∃ t, exec (.slateFault r took) s = .next t ∧ t.Halted ∧
      t.engine.state = .halted ∧ t.engine.flags = { s.engine.flags with slateFault := true } ∧
      t.engine.fault = ⟨BitVec.ofNat 32 f.address, f.kind, f.slot, s.engine.state⟩ ∧
      t.engine.anchor = s.engine.anchor ∧ t.table = s.table ∧ t.parkOrder = s.parkOrder ∧
      t.bandSets = s.bandSets ∧ t.accums = s.accums ∧ t.window = s.window ∧ t.pending = s.pending ∧
      t.writer.count = s.writer.count ∧ t.writer.notifyPending = s.writer.notifyPending ∧
      t.slate.cursor = s.slate.cursor ∧ t.slate.nextSeq = s.slate.nextSeq ∧ t.slate.again = false ∧
      (∀ n, (s.lane n).state = .idle → (t.lane n).state = .idle) ∧
      (∀ n, (s.lane n).state ≠ .idle → (t.lane n).state = .frozen ∧ (t.lane n).order = (s.lane n).order ∧
        (t.lane n).context = (s.lane n).context ∧ (t.lane n).request = .none ∧
        (t.lane n).staging = Staging.start) ∧
      (∀ (b : Fin 4) (c : ParkedContext), s.banks[b] = .holding c → t.banks[b] = .holding c) ∧
      (∀ (b : Fin 4) (n : LaneId), s.banks[b] = .reserved n → t.banks[b] = .free) ∧
      (s.memoryCanonical → ∀ x, ¬ issuedCovers (s.laneWrite .lane0) x → ¬ issuedCovers (s.laneWrite .lane1) x →
        ¬ issuedCovers s.slateWrite x → ¬ issuedCovers s.writerWrite x → t.mem.read x = s.mem.read x) ∧
      (s.memoryCanonical → ∀ k, k ≠ issuerOf r → s.Landed t.mem k) ∧
      (s.memoryCanonical → (f.kind = .stateWrite ∨ f.kind = .wordWrite ∨ f.kind = .handBackWrite) →
        ∀ x, (∀ j, j ≠ issuerOf r → ¬ issuedCovers (s.issued j) x) → t.mem.read x = s.mem.read x) ∧
      (s.memoryCanonical → ∀ a bytes, s.issued (issuerOf r) = some (a, bytes) →
        a + bytes.length ≤ Config.topAddress + 1 → ∀ i (h : i < bytes.length),
        (∀ j, j ≠ issuerOf r → ¬ issuedCovers (s.issued j) (a + i)) →
        t.mem.read (a + i) = s.mem.read (a + i) ∨ t.mem.read (a + i) = bytes[i]) ∧
      (s.memoryCanonical → f.kind = .resultWrite → f.address + 48 ≤ Config.topAddress + 1 →
        ∃ i, i < 48 ∧ ((∀ j, j ≠ issuerOf r → ¬ issuedCovers (s.issued j) (f.address + i)) →
          t.mem.read (f.address + i) = s.mem.read (f.address + i)))) ∧
  (∀ (s : State) (r : Requester) (took : BitVec 48), s.faultOf r = none → exec (.slateFault r took) s = .next s) ∧
  (∀ s : State,
    (∀ slot, s.slate.step = .headerRead slot →
      s.faultOf .slateReader = some ⟨.headerRead, slot, s.engine.anchor.slateBase.toNat + 256 * slot⟩) ∧
    (∀ slot header body, s.slate.step = .takenWrite slot header body →
      s.faultOf .slateReader = some ⟨.takenWrite, slot, s.engine.anchor.slateBase.toNat + 256 * slot⟩) ∧
    (∀ slot, s.slate.step = .handBackWrite slot →
      s.faultOf .slateReader = some ⟨.handBackWrite, slot, s.engine.anchor.slateBase.toNat + 256 * slot⟩) ∧
    (∀ slot header, (s.slate.step = .idle ∨ s.slate.step = .bodyRead slot header ∨ s.slate.step = .failing slot) →
      s.faultOf .slateReader = none) ∧
    (∀ n slot, ((∃ resume, (s.lane n).work = .runningWrite resume) ∨ ∃ b, (s.lane n).work = .parkedWrite b) →
      (s.lane n).order = some slot → s.writeHeld n = false →
      s.faultOf (.lane n) = some ⟨.progressWrite, slot, s.engine.anchor.slateBase.toNat + 256 * slot + 1⟩) ∧
    (∀ n, (∀ resume, (s.lane n).work ≠ .runningWrite resume) → (∀ b, (s.lane n).work ≠ .parkedWrite b) →
      s.faultOf (.lane n) = none) ∧
    (∀ h, s.writer.step = .resultWrite h →
      s.faultOf .completionWriter =
        some ⟨.resultWrite, h.slot, s.engine.anchor.slateBase.toNat + 256 * h.slot + 16⟩) ∧
    (∀ h, s.writer.step = .stateWrite h →
      s.faultOf .completionWriter = some ⟨.stateWrite, h.slot, s.engine.anchor.slateBase.toNat + 256 * h.slot⟩) ∧
    (∀ h, s.writer.step = .wordWrite h →
      s.faultOf .completionWriter = some ⟨.wordWrite, h.slot, s.engine.anchor.wordAddr.toNat⟩) ∧
    (s.writer.step = .idle → s.faultOf .completionWriter = none)) ∧
  (FaultKind.code .none = 0 ∧ FaultKind.code .anchorRead = 1 ∧ FaultKind.code .wordRead = 2 ∧
    FaultKind.code .anchorContent = 3 ∧ FaultKind.code .headerRead = 4 ∧ FaultKind.code .takenWrite = 5 ∧
    FaultKind.code .progressWrite = 6 ∧ FaultKind.code .resultWrite = 7 ∧ FaultKind.code .stateWrite = 8 ∧
    FaultKind.code .wordWrite = 9 ∧ FaultKind.code .handBackWrite = 10)

/-! ## Housekeeping orders -/

/-- START_TEST fails a BANDSET whose set is in use and issues the image read of any other; IMAGE_READ_DONE gathers the
image, and with its last byte checks it by R57: a valid image has its load claim presented, an invalid one fails the
order with BAND_SET_INVALID. While the engine is PAUSING or PAUSED the lane freezes between two steps, before the check
as well, with its buffer and step count kept (R57, R63, R125, R126, R128, R160). That the image comes in pieces of any
length, and a piece no longer than what the image lacks, is log 11; that the check, which makes no access, falls with
the step boundary after the read is log 12, and that a failed step is not counted is log 32. -/
def Obligations.BandsetTestsReadsAndChecks : Prop :=
  (∀ (s : State) (n : LaneId) (slot : Nat) (e : Entry), (s.lane n).order = some slot → s.entry? slot = some e →
    e.header.kind = .bandset →
    let paused := s.engine.state = .pausing ∨ s.engine.state = .paused
    let fails (command : Instr) (u : State) (reason : Reason) : Prop :=
      ∃ t h, exec command s = .next t ∧ u.Ended t n h ∧ t.bandSets = s.bandSets ∧ t.table = s.table ∧ h.slot = slot ∧
        h.final = .failed ∧ h.reason = reason ∧ h.record = OrderRecord.start ∧ h.indicators = Indicators.clear ∧
        h.fault = none ∧ h.parkCount = e.parkCount ∧ h.tag = e.header.tag ∧ h.notify = e.header.notify
    ((s.lane n).work = .startTest → (s.lane n).steps = 0 →
      (0 < s.bandSets[bandsetNumber e.body].uses → fails (.startTest n) s .bandSetInUse) ∧
      (s.bandSets[bandsetNumber e.body].uses = 0 →
        (¬ paused → exec (.startTest n) s =
          .next (s.setLane n { s.lane n with steps := 1, image := [], work := .imageRead })) ∧
        (paused → ∃ t, exec (.startTest n) s = .next t ∧ s.FrozenAt t n { s.lane n with steps := 1 }))) ∧
    (∀ (k : Nat) (host : HostWrites), (s.lane n).work = .imageRead → (s.lane n).steps = 1 →
      let u := s.afterHost host
      let lacks := 264 - (s.lane n).image.length
      let more := u.mem.readBytes (leField e.body 4 4 + (s.lane n).image.length) (min k lacks)
      let image := (s.lane n).image ++ more
      let sound := BandsSound (byteAt image 0).toNat ((List.range 8).map (imageBand image))
      (k < lacks → exec (.imageReadDone n k host) s = .next (u.setLane n { s.lane n with image := image })) ∧
      (lacks ≤ k → ¬ paused → sound →
        exec (.imageReadDone n k host) s = .next (u.setLane n
          { s.lane n with image := image, steps := 3, work := .loadClaim })) ∧
      (lacks ≤ k → ¬ paused → ¬ sound → fails (.imageReadDone n k host) u .bandSetInvalid) ∧
      (lacks ≤ k → paused → ∃ t, exec (.imageReadDone n k host) s = .next t ∧
        u.FrozenAt t n { s.lane n with image := image, steps := 2 }))) ∧
  (∀ (image : List Byte) (i : Nat),
    let band := imageBand image i
    band.low = BitVec.ofNat 100 (beValue (slice image (8 + 32 * i) 13)) ∧
    band.high = BitVec.ofNat 100 (beValue (slice image (21 + 32 * i) 13)) ∧
    band.accum = byteAt image (34 + 32 * i) ∧ band.alarm = (byteAt image (35 + 32 * i)).getLsbD 0)

/-- LOAD_CLAIM replaces the whole set with the image, LOADED, bands past the count at their power-on values, and ends
the order DONE; a set that is in use by then fails it with BAND_SET_IN_USE and stands. Either hand-over carries every
count 0, no fault, no indicator, and the order's tag, NOTIFY and park count (R63, R126, R128). -/
def Obligations.LoadClaimReplacesTheSet : Prop :=
  ∀ (s : State) (n : LaneId) (slot : Nat) (e : Entry), (s.lane n).order = some slot → s.entry? slot = some e →
    (s.lane n).work = .loadClaim →
    let i := bandsetNumber e.body
    let image := (s.lane n).image
    let carried (h : HandOver) : Prop :=
      h.slot = slot ∧ h.record = OrderRecord.start ∧ h.fault = none ∧ h.parkCount = e.parkCount ∧
        h.tag = e.header.tag ∧ h.notify = e.header.notify ∧
        (e.header.kind = .bandset → h.indicators = Indicators.clear)
    (s.bandSets[i].uses = 0 →
      ∃ t h, exec (.loadClaim n) s = .next t ∧ s.Ended t n h ∧ carried h ∧ h.final = .done ∧ h.reason = .none ∧
        t.bandSets[i].state = .loaded ∧ t.bandSets[i].count = byteAt image 0 ∧
        t.bandSets[i].uses = 0 ∧
        (∀ b : Fin 8, b.val < (byteAt image 0).toNat → t.bandSets[i].bands[b] = imageBand image b.val) ∧
        (∀ b : Fin 8, (byteAt image 0).toNat ≤ b.val → t.bandSets[i].bands[b] = Band.powerOn) ∧
        (∀ j : Fin 8, j ≠ i → t.bandSets[j] = s.bandSets[j])) ∧
    (0 < s.bandSets[i].uses →
      ∃ t h, exec (.loadClaim n) s = .next t ∧ s.Ended t n h ∧ carried h ∧ t.bandSets = s.bandSets ∧
        h.final = .failed ∧ h.reason = .bandSetInUse)

/-- PRESET: a record that is well formed is buffered and the next is read, or the apply claim presented after the last; a
malformed one ends the order with RECORD_MALFORMED and no accumulator changed. While the engine is PAUSING or PAUSED the
lane freezes after a record read, its buffer and step count kept; that each record read ends a step at which it may
freeze, the last one before the apply claim too, is log 12. APPLY replaces the accumulators of the range and no other. No
indicator is set (R84, R85, R125, R126, R130, R160). -/
def Obligations.PresetBuffersThenApplies : Prop :=
  ∀ (s : State) (n : LaneId) (slot : Nat) (e : Entry), (s.lane n).order = some slot → s.entry? slot = some e →
    e.header.kind = .preset →
    let paused := s.engine.state = .pausing ∨ s.engine.state = .paused
    let first := firstAccum e.body
    let last := lastAccum e.body
    first ≤ last → last ≤ 63 →
    (∀ host : HostWrites, (s.lane n).work = .recordRead →
      let i := first + (s.lane n).steps
      let bytes := (s.afterHost host).mem.readBytes (leField e.body 4 4 + 24 * (s.lane n).steps) 24
      (∀ v, i ≤ last → signedField 28 bytes 8 15 = some v → (byteAt bytes 0).toNat = i →
        ∃ l, (¬ paused → exec (.presetRecordReadDone n host) s = .next ((s.afterHost host).setLane n
            { l with work := if i < last then .recordRead else .applyClaim })) ∧
          (paused → ∃ t, exec (.presetRecordReadDone n host) s = .next t ∧ (s.afterHost host).FrozenAt t n l) ∧
          l = { s.lane n with buffer := l.buffer, steps := (s.lane n).steps + 1 } ∧
          l.buffer.range = some (first, last) ∧
          (∀ k : Fin 64, k.val = i →
            l.buffer.entries[k] = ⟨v, leField bytes 4 4, (byteAt bytes 1).getLsbD 0⟩) ∧
          (∀ k : Fin 64, k.val ≠ i → l.buffer.entries[k] = (s.lane n).buffer.entries[k])) ∧
      (signedField 28 bytes 8 15 = none ∨ (byteAt bytes 0).toNat ≠ i →
        ∃ t h, exec (.presetRecordReadDone n host) s = .next t ∧ (s.afterHost host).Ended t n h ∧ h.slot = slot ∧
          h.final = .failed ∧ h.reason = .recordMalformed ∧ h.record = OrderRecord.start ∧
          h.indicators = Indicators.clear ∧ h.fault = none ∧ h.parkCount = e.parkCount ∧ h.tag = e.header.tag ∧
          h.notify = e.header.notify)) ∧
    ((s.lane n).work = .applyClaim →
      ∃ t h accums, exec (.apply n) s = .next t ∧ (s.setAccums accums).Ended t n h ∧ h.slot = slot ∧
        h.final = .done ∧ h.reason = .none ∧ h.record = OrderRecord.start ∧ h.indicators = Indicators.clear ∧
        h.fault = none ∧ h.parkCount = e.parkCount ∧ h.tag = e.header.tag ∧ h.notify = e.header.notify ∧
        (∀ i : Fin 64, first ≤ i.val → i.val ≤ last → accums[i] = (s.lane n).buffer.entries[i]) ∧
        (∀ i : Fin 64, i.val < first ∨ last < i.val → accums[i] = s.accums[i]))

/-- SNAPSHOT: LATCH copies every accumulator of the range into the buffer and changes none; each accepted record write
leaves the latched contents of its accumulator, in the record layout, at record address + 24 × (i − first), and after
the last the clear claim follows with CLEAR, and DONE without, with OVERFLOW, and no other indicator, where a latched
flag is set. While the engine is PAUSING or PAUSED the lane freezes after each step but the last (log 12). A record
write that meets the other lane's claim waits and changes nothing (log 10); that bits 7 to 1 of a record's flags byte
are written 0 is the model's choice (log 39) (R33, R80, R81, R125, R126, R132, R156, R160). -/
def Obligations.SnapshotLatchesThenWrites : Prop :=
  (∀ (s : State) (n : LaneId) (slot : Nat) (e : Entry), (s.lane n).order = some slot → s.entry? slot = some e →
    e.header.kind = .snapshot →
    let paused := s.engine.state = .pausing ∨ s.engine.state = .paused
    let first := firstAccum e.body
    let last := lastAccum e.body
    first ≤ last → last ≤ 63 →
    ((s.lane n).work = .latchClaim → (s.lane n).steps = 0 →
      ∃ l, (¬ paused → exec (.latch n) s = .next (s.setLane n { l with work := .recordWrite })) ∧
        (paused → ∃ t, exec (.latch n) s = .next t ∧ s.FrozenAt t n l) ∧
        l = { s.lane n with buffer := l.buffer, steps := 1 } ∧ l.buffer.range = some (first, last) ∧
        (∀ i : Fin 64, first ≤ i.val → i.val ≤ last → l.buffer.entries[i] = s.accums[i])) ∧
    ((s.lane n).work = .recordWrite → s.writeHeld n = true → exec (.snapshotRecordWriteAccept n) s = .next s) ∧
    (∀ i : Fin 64, (s.lane n).work = .recordWrite → first + (s.lane n).steps = i.val + 1 →
      1 ≤ (s.lane n).steps → i.val ≤ last → s.writeHeld n = false →
      let finished := { s.lane n with steps := (s.lane n).steps + 1 }
      let clears := (byteAt e.body 8).getLsbD 0 = true
      ∃ m,
        (s.memoryCanonical → Memory.Written s.mem m (leField e.body 4 4 + 24 * (i.val - first))
          (totalRecord i.val (s.lane n).buffer.entries[i])) ∧
        (i.val < last → ¬ paused → exec (.snapshotRecordWriteAccept n) s = .next ((s.setMem m).setLane n
          { finished with work := .recordWrite })) ∧
        (i.val = last → clears → ¬ paused →
          exec (.snapshotRecordWriteAccept n) s = .next ((s.setMem m).setLane n
            { finished with work := .clearClaim })) ∧
        (i.val < last ∨ clears → paused →
          ∃ t, exec (.snapshotRecordWriteAccept n) s = .next t ∧ (s.setMem m).FrozenAt t n finished) ∧
        (i.val = last → ¬ clears →
          ∃ t h, exec (.snapshotRecordWriteAccept n) s = .next t ∧ (s.setMem m).Ended t n h ∧ h.slot = slot ∧
            h.final = .done ∧ h.reason = .none ∧ h.record = OrderRecord.start ∧ h.fault = none ∧
            h.parkCount = e.parkCount ∧ h.tag = e.header.tag ∧ h.notify = e.header.notify ∧
            h.indicators = { Indicators.clear with overflow := h.indicators.overflow } ∧
            (h.indicators.overflow = true ↔ ∃ k : Fin 64, (s.lane n).buffer.entries[k].overflow = true)))) ∧
  (∀ (i : Fin 64) (x : Total), x.inLimits →
    let record := totalRecord i.val x
    record.length = 24 ∧ leField record 0 1 = i.val ∧ leField record 1 1 = x.overflow.toNat ∧
      leField record 2 2 = 0 ∧ leField record 4 4 = x.count ∧ signedField 28 record 8 15 = some x.value ∧
      leField record 23 1 = 0)

/-- CLEAR takes the latched amounts out of the accumulators of the range and of no other: zero where the latched flag is
set; else the differences, held at their limits, with the flag set where they do not fit or it was set. The order ends
DONE, a SNAPSHOT with OVERFLOW where it latched a flag and with no other indicator (R82, R93, R126, R132). -/
def Obligations.ClearSubtractsTheLatchedAmounts : Prop :=
  ∀ (s : State) (n : LaneId) (slot : Nat) (e : Entry), (s.lane n).order = some slot → s.entry? slot = some e →
    (s.lane n).work = .clearClaim →
    ∃ t h accums, exec (.clear n) s = .next t ∧ (s.setAccums accums).Ended t n h ∧ h.slot = slot ∧ h.final = .done ∧
      h.reason = .none ∧ h.record = OrderRecord.start ∧ h.fault = none ∧ h.parkCount = e.parkCount ∧
      h.tag = e.header.tag ∧ h.notify = e.header.notify ∧
      h.indicators = { Indicators.clear with overflow := h.indicators.overflow } ∧
      (h.indicators.overflow = true ↔ e.header.kind = .snapshot ∧
        ∃ k : Fin 64, (s.lane n).buffer.entries[k].overflow = true) ∧
      (∀ i : Fin 64, i.val < firstAccum e.body ∨ lastAccum e.body < i.val → accums[i] = s.accums[i]) ∧
      (∀ i : Fin 64, firstAccum e.body ≤ i.val → i.val ≤ lastAccum e.body →
        let latched := (s.lane n).buffer.entries[i]
        let held := s.accums[i]
        let d := held.value - latched.value
        (latched.overflow = true → accums[i] = ⟨0, 0, false⟩) ∧
        (latched.overflow = false →
          (-(10 ^ 28 - 1) ≤ d → d ≤ 10 ^ 28 - 1 → accums[i].value = d) ∧
          (10 ^ 28 - 1 < d → accums[i].value = 10 ^ 28 - 1) ∧
          (d < -(10 ^ 28 - 1) → accums[i].value = -(10 ^ 28 - 1)) ∧
          (latched.count ≤ held.count → accums[i].count = held.count - latched.count) ∧
          (held.count < latched.count → accums[i].count = 0) ∧
          (accums[i].overflow = true ↔ held.overflow = true ∨ 10 ^ 28 - 1 < d ∨ d < -(10 ^ 28 - 1) ∨
            held.count < latched.count)))

/-! ## Arithmetic -/

/-- Scaling by s and the two decimal and the binary saturations, by the tables of R12, R13, R15, R16 and R17. -/
def Obligations.ScalingAndSaturationFollowTheTables : Prop :=
  (∀ (half : Bool) (v : Int), -(10 ^ 32 - 1) ≤ v → v ≤ 10 ^ 32 - 1 → scaleValue 0 half v = (v, false)) ∧
  (∀ (k : Nat) (half : Bool) (v : Int), 1 ≤ k → k ≤ 8 →
    ((v * 10 ^ k).natAbs ≤ 10 ^ 32 - 1 → scaleValue k half v = (v * 10 ^ k, false)) ∧
    (10 ^ 32 - 1 < v * 10 ^ k → scaleValue k half v = (10 ^ 32 - 1, true)) ∧
    (v * 10 ^ k < -(10 ^ 32 - 1) → scaleValue k half v = (-(10 ^ 32 - 1), true))) ∧
  (∀ (k : Nat) (v : Int), 1 ≤ k → k ≤ 8 →
    let q := v.natAbs / 10 ^ k
    let d := v.natAbs % 10 ^ k
    let sign : Int := if v < 0 then -1 else 1
    scaleValue (-(k : Int)) false v = (sign * q, false) ∧
    (d < 5 * 10 ^ (k - 1) → scaleValue (-(k : Int)) true v = (sign * q, false)) ∧
    (5 * 10 ^ (k - 1) ≤ d → scaleValue (-(k : Int)) true v = (sign * (q + 1), false))) ∧
  (∀ (n : Nat) (v : Int), 1 ≤ n →
    (v ≤ -10 ^ n → (OutputClass.signed n).saturate v = (-(10 ^ n - 1), true)) ∧
    (-(10 ^ n - 1) ≤ v → v ≤ 10 ^ n - 1 → (OutputClass.signed n).saturate v = (v, false)) ∧
    (10 ^ n ≤ v → (OutputClass.signed n).saturate v = (10 ^ n - 1, true))) ∧
  (∀ (n : Nat) (v : Int), 1 ≤ n →
    (v ≤ -1 → (OutputClass.unsigned n).saturate v = (0, true)) ∧
    (0 ≤ v → v ≤ 10 ^ n - 1 → (OutputClass.unsigned n).saturate v = (v, false)) ∧
    (10 ^ n ≤ v → (OutputClass.unsigned n).saturate v = (10 ^ n - 1, true))) ∧
  (∀ (b : Nat) (v : Int), 1 ≤ b →
    (v ≤ -1 → (OutputClass.binary b).saturate v = (0, true)) ∧
    (0 ≤ v → v ≤ 2 ^ b - 1 → (OutputClass.binary b).saturate v = (v, false)) ∧
    (2 ^ b ≤ v → (OutputClass.binary b).saturate v = (2 ^ b - 1, true)))

/-- The Bank's saturating addition, by the table of R72. -/
def Obligations.SaturatingAdditionFollowsTheTable : Prop :=
  ∀ (a : Total) (x : Int) (n : Nat),
    let r := (a.add x n).1
    let v := a.value + x
    (-(10 ^ 28 - 1) ≤ v → v ≤ 10 ^ 28 - 1 → r.value = v) ∧
    (10 ^ 28 - 1 < v → r.value = 10 ^ 28 - 1) ∧
    (v < -(10 ^ 28 - 1) → r.value = -(10 ^ 28 - 1)) ∧
    (a.count + n ≤ 4294967295 → r.count = a.count + n) ∧
    (4294967295 < a.count + n → r.count = 4294967295) ∧
    (r.overflow = true ↔ a.overflow = true ∨ 10 ^ 28 - 1 < v ∨ v < -(10 ^ 28 - 1) ∨ 4294967295 < a.count + n)

/-- The DIFFERENCE value with its exception, by the table of R102, and COMPARE's relations, by the table of R109. -/
def Obligations.DifferenceAndRelationsFollowTheTables : Prop :=
  (∀ (m limit : Nat) (a b : Int),
    let w := a + 10 ^ m - b
    (b ≤ a → formDifference m limit a b = (a - b, none)) ∧
    (a < b → 1 ≤ m → 1 ≤ w → w ≤ limit → formDifference m limit a b = (w, some ⟨.rollover, 0, w⟩)) ∧
    (a < b → m = 0 → formDifference m limit a b = (a - b, some ⟨.reversal, 0, a - b⟩)) ∧
    (a < b → 1 ≤ m → (w ≤ 0 ∨ limit < w) → formDifference m limit a b = (a - b, some ⟨.reversal, 0, a - b⟩))) ∧
  (∀ a b : Int,
    (relationHolds 0 a b = true ↔ a = b) ∧ (relationHolds 1 a b = true ↔ a ≠ b) ∧
    (relationHolds 2 a b = true ↔ b < a) ∧ (relationHolds 3 a b = true ↔ b ≤ a) ∧
    (relationHolds 4 a b = true ↔ a < b) ∧ (relationHolds 5 a b = true ↔ a ≤ b))

/-- A value in range that is written as a cell of a byte format is read back from it, and a FIELD cell's write leaves
every other bit of its bytes. The bytes of a DEC-n or SDEC-n cell hold no value where a digit nibble is above 9, the
sign nibble is neither C nor D, or the pad nibble is not 0; otherwise they hold the value of their digits, minus zero as
0. The bytes of every other format hold a value (R2, R3, R4, R5, R6, R7, R8, R32). -/
def Obligations.WrittenCellsReadBack : Prop :=
  (∀ (n : Nat) (v : Int), 1 ≤ n → n ≤ 24 → 0 ≤ v → v < 10 ^ n →
    (CellFormat.dec n).decode 0 ((CellFormat.dec n).encode v) = some v) ∧
  (∀ (n : Nat) (v : Int), 1 ≤ n → n ≤ 24 → -10 ^ n < v → v < 10 ^ n →
    (CellFormat.sdec n).decode 0 ((CellFormat.sdec n).encode v) = some v) ∧
  (∀ v : Int, 0 ≤ v → v < 2 ^ 16 → CellFormat.bin16.decode 0 (CellFormat.bin16.encode v) = some v) ∧
  (∀ v : Int, 0 ≤ v → v < 2 ^ 32 → CellFormat.bin32.decode 0 (CellFormat.bin32.encode v) = some v) ∧
  (∀ (w bit : Nat) (old : List Byte) (v : Int), 1 ≤ w → w ≤ 32 → bit + w ≤ 8 * old.length → 0 ≤ v → v < 2 ^ w →
    let new := (CellFormat.field w).merge bit 0 old v
    (CellFormat.field w).decode bit new = some v ∧
      ∀ k, k < bit ∨ bit + w ≤ k → (leValue new).testBit k = (leValue old).testBit k) ∧
  (∀ (n bit : Nat) (bytes : List Byte),
    let raw := beValue bytes
    ((CellFormat.dec n).decode bit bytes = none ↔ (∃ k, k < n ∧ 9 < raw / 16 ^ k % 16) ∨ raw / 16 ^ n ≠ 0) ∧
    (∀ v, (CellFormat.dec n).decode bit bytes = some v →
      0 ≤ v ∧ v < 10 ^ n ∧ ∀ k, k < n → v.natAbs / 10 ^ k % 10 = raw / 16 ^ k % 16) ∧
    ((CellFormat.sdec n).decode bit bytes = none ↔ (∃ k, k < n ∧ 9 < raw / 16 ^ (k + 1) % 16) ∨
      (raw % 16 ≠ 0xC ∧ raw % 16 ≠ 0xD) ∨ raw / 16 ^ (n + 1) ≠ 0) ∧
    (∀ v, (CellFormat.sdec n).decode bit bytes = some v →
      v.natAbs < 10 ^ n ∧ (∀ k, k < n → v.natAbs / 10 ^ k % 10 = raw / 16 ^ (k + 1) % 16) ∧
        (v ≠ 0 → (v < 0 ↔ raw % 16 = 0xD))) ∧
    CellFormat.bin16.decode bit bytes = some ((leValue bytes : Nat) : Int) ∧
    CellFormat.bin32.decode bit bytes = some ((leValue bytes : Nat) : Int) ∧
    (CellFormat.field n).decode bit bytes = some ((leValue bytes / 2 ^ bit % 2 ^ n : Nat) : Int))

/-! ## What every step keeps -/

/-- Every step keeps memory in its canonical form (log 1). -/
def Obligations.StepKeepsMemoryCanonical : Prop :=
  ∀ s t : State, s.memoryCanonical → step s = .next t → t.memoryCanonical

/-- Every step keeps the value and the count of every accumulator, record buffer entry and latched total within their
limits, and the value of every staging entry, on lanes and in banks, within 28 digits (R71, R79, R88). The limit that R73
sets a staging entry's count is not claimed here. -/
def Obligations.StepKeepsTotalsInLimits : Prop :=
  ∀ s t : State, s.TotalsInLimits → step s = .next t → t.TotalsInLimits

/-- Every step keeps the cell and exception counts in balance, on lanes, in banks and on their way to result areas
(R37, R94, R114). -/
def Obligations.StepKeepsRecordsBalanced : Prop :=
  ∀ s t : State, s.RecordsBalanced → step s = .next t → t.RecordsBalanced

/-- Every step keeps the Order Table at 32 entries at most, no two of one slot, with room for a slot being taken
(R138, R142, R157). -/
def Obligations.StepKeepsTheTableSound : Prop :=
  ∀ s t : State, s.TableSound → step s = .next t → t.TableSound

/-- Every step keeps a set that is in use LOADED, and notify-pending, park counts and run timers at or below where they
hold (R59, R157, R172, R192). -/
def Obligations.StepKeepsSetsAndCounters : Prop :=
  ∀ s t : State, s.SetsInUseLoaded → s.CountersHold → step s = .next t → t.SetsInUseLoaded ∧ t.CountersHold

/-- Only a reset leaves HALTED, and while the engine is HALTED no step writes a byte of memory (R174, R177). -/
def Obligations.HaltedEndsOnlyAtAReset : Prop :=
  ∀ s t : State, s.Halted → s.pending.head? ≠ some .powerOnReset →
    (∀ irq, s.pending.head? ≠ some (.softReset irq)) → step s = .next t → t.Halted ∧ t.mem = s.mem

end
end

