-- ==== Sys2Proof/Laws/Memory.lean ====
section
/-! SUPPORT. The shared memory: what a read finds after a write, and that every memory operation keeps the canonical
form. -/

namespace Sys2Proof.Machine

/-! ## Reads of canonical memory -/

theorem Memory.read_of_lt {low : Int} {m : Memory} (h : m.canonicalAbove low = true) {a : Nat} (ha : (a : Int) ≤ low) :
    m.read a = unlistedByte := by
  induction m generalizing low with
  | nil => rfl
  | cons c rest ih =>
    obtain ⟨k, b⟩ := c
    simp only [Memory.canonicalAbove, Bool.and_eq_true, decide_eq_true_eq] at h
    have hk : k ≠ a := by omega
    simp only [Memory.read, hk, if_false]
    exact ih h.2 (by omega)

theorem Memory.read_write_above {low : Int} {m : Memory} (h : m.canonicalAbove low = true) (a x : Nat) (b : Byte) :
    (m.write a b).read x = if x = a then b else m.read x := by
  induction m generalizing low with
  | nil =>
    by_cases hb : b = unlistedByte
    · subst hb; simp [Memory.write, Memory.read]
    · by_cases hx : x = a
      · simp [Memory.write, Memory.read, hb, hx]
      · simp [Memory.write, Memory.read, hb, hx, Ne.symm hx]
  | cons c rest ih =>
    obtain ⟨k, c⟩ := c
    have hr := h
    simp only [Memory.canonicalAbove, Bool.and_eq_true, decide_eq_true_eq] at hr
    have below : ∀ y : Nat, y ≤ k → Memory.read rest y = unlistedByte :=
      fun y hy => Memory.read_of_lt hr.2 (by exact_mod_cast hy)
    simp only [Memory.write]
    split
    next hlt =>
      split
      next hb =>
        by_cases hx : x = a
        · subst hx
          have hk : k ≠ x := by omega
          simp [Memory.read, hk, below x (by omega), hb]
        · simp [hx]
      next hb =>
        by_cases hx : x = a
        · simp [Memory.read, hx]
        · simp [Memory.read, hx, Ne.symm hx]
    next hlt =>
      split
      next heq =>
        subst heq
        split
        next hb =>
          by_cases hx : x = a
          · subst hx; simp [below x (Nat.le_refl x), hb]
          · simp [Memory.read, hx, Ne.symm hx]
        next hb =>
          by_cases hx : x = a
          · simp [Memory.read, hx]
          · simp [Memory.read, hx, Ne.symm hx]
      next heq =>
        by_cases hxk : k = x
        · have hx : x ≠ a := by omega
          simp [Memory.read, hxk, hx]
        · simp only [Memory.read, hxk, if_false]
          exact ih hr.2

/-- What a read finds after a write of one byte. -/
theorem Memory.read_write {m : Memory} (h : m.wf = true) (a x : Nat) (b : Byte) :
    (m.write a b).read x = if x = a then b else m.read x :=
  Memory.read_write_above h a x b

/-! ## The canonical form is kept -/

theorem Memory.canonicalAbove_mono {low low' : Int} {m : Memory} (hl : low' ≤ low)
    (h : m.canonicalAbove low = true) : m.canonicalAbove low' = true := by
  cases m with
  | nil => rfl
  | cons c rest =>
    obtain ⟨k, b⟩ := c
    simp only [Memory.canonicalAbove, Bool.and_eq_true, decide_eq_true_eq] at h ⊢
    exact ⟨⟨⟨by omega, h.1.1.2⟩, h.1.2⟩, h.2⟩

theorem Memory.canonicalAbove_write {low : Int} {m : Memory} (h : m.canonicalAbove low = true) {a : Nat}
    (ha : low < (a : Int)) (ht : a ≤ Config.topAddress) (b : Byte) :
    (m.write a b).canonicalAbove low = true := by
  induction m generalizing low with
  | nil =>
    by_cases hb : b = unlistedByte
    · simp [Memory.write, hb, Memory.canonicalAbove]
    · simp [Memory.write, hb, Memory.canonicalAbove, ha, ht]
  | cons c rest ih =>
    obtain ⟨k, c⟩ := c
    have hr := h
    simp only [Memory.canonicalAbove, Bool.and_eq_true, decide_eq_true_eq] at hr
    simp only [Memory.write]
    split
    next hlt =>
      split
      next hb => exact h
      next hb =>
        simp only [Memory.canonicalAbove, Bool.and_eq_true, decide_eq_true_eq]
        exact ⟨⟨⟨ha, ht⟩, hb⟩, ⟨⟨by exact_mod_cast hlt, hr.1.1.2⟩, hr.1.2⟩, hr.2⟩
    next hlt =>
      split
      next heq =>
        split
        next hb => exact Memory.canonicalAbove_mono (by omega) hr.2
        next hb =>
          subst heq
          simp only [Memory.canonicalAbove, Bool.and_eq_true, decide_eq_true_eq]
          exact ⟨⟨⟨ha, ht⟩, hb⟩, hr.2⟩
      next heq =>
        simp only [Memory.canonicalAbove, Bool.and_eq_true, decide_eq_true_eq]
        exact ⟨⟨⟨hr.1.1.1, hr.1.1.2⟩, hr.1.2⟩, ih hr.2 (by omega)⟩

/-- A write inside the address space keeps the canonical form. -/
theorem Memory.wf_write {m : Memory} (h : m.wf = true) {a : Nat} (ht : a ≤ Config.topAddress) (b : Byte) :
    (m.write a b).wf = true :=
  Memory.canonicalAbove_write h (by omega) ht b

theorem wrapAddr_le (a : Nat) : wrapAddr a ≤ Config.topAddress := by
  unfold wrapAddr Config.topAddress; omega

theorem wrapAddr_of_le {a : Nat} (h : a ≤ Config.topAddress) : wrapAddr a = a := by
  unfold wrapAddr Config.topAddress at *; omega

/-- A write of several bytes keeps the canonical form. -/
theorem Memory.wf_writeBytes {m : Memory} (h : m.wf = true) (a : Nat) (bs : List Byte) :
    (m.writeBytes a bs).wf = true := by
  induction bs generalizing m a with
  | nil => exact h
  | cons b rest ih => exact ih (Memory.wf_write h (wrapAddr_le a) b) (a + 1)

/-- A write of some of several bytes keeps the canonical form. -/
theorem Memory.wf_writeTaken (took : Nat → Bool) {m : Memory} (h : m.wf = true) (a i : Nat) (bs : List Byte) :
    (m.writeTaken took a i bs).wf = true := by
  induction bs generalizing m a i with
  | nil => exact h
  | cons b rest ih =>
    simp only [Memory.writeTaken]
    split
    · exact ih (Memory.wf_write h (wrapAddr_le a) b) (a + 1) (i + 1)
    · exact ih h (a + 1) (i + 1)

/-- The host's writes keep the canonical form. -/
theorem Memory.wf_hostWrites {m : Memory} (h : m.wf = true) (host : HostWrites) : (m.hostWrites host).wf = true := by
  induction host generalizing m with
  | nil => exact h
  | cons c rest ih =>
    obtain ⟨a, b⟩ := c
    exact ih (Memory.wf_write h (by have := a.isLt; unfold Config.topAddress; omega) b)

/-- A landed write keeps the canonical form. -/
theorem Memory.wf_land {m : Memory} (h : m.wf = true) (w : Option (Nat × List Byte)) : (m.land w).wf = true := by
  cases w with
  | none => exact h
  | some w => exact Memory.wf_writeBytes h w.1 w.2

/-- A partly landed write keeps the canonical form. -/
theorem Memory.wf_landTaken {m : Memory} (h : m.wf = true) (took : Nat → Bool) (w : Option (Nat × List Byte)) :
    (m.landTaken took w).wf = true := by
  cases w with
  | none => exact h
  | some w => exact Memory.wf_writeTaken took h w.1 0 w.2

/-- A result area that faults lands nothing, or the bytes marked (R154). -/
theorem Memory.landPartly_cases (m : Memory) (took : Nat → Bool) (w : Option (Nat × List Byte)) :
    m.landPartly took w = m ∨ m.landPartly took w = m.landTaken took w := by
  cases w with
  | none => exact Or.inl rfl
  | some w =>
    unfold Memory.landPartly
    dsimp only
    split
    · exact Or.inl rfl
    · exact Or.inr rfl

/-- A faulting result area keeps the canonical form. -/
theorem Memory.wf_landPartly {m : Memory} (h : m.wf = true) (took : Nat → Bool) (w : Option (Nat × List Byte)) :
    (m.landPartly took w).wf = true := by
  rcases m.landPartly_cases took w with e | e <;> rw [e]
  · exact h
  · exact Memory.wf_landTaken h took w

/-! ## What a write of several bytes leaves -/

/-- A write of several bytes leaves every byte outside them. -/
theorem Memory.read_writeBytes_outside {m : Memory} (h : m.wf = true) (a x : Nat) (bs : List Byte)
    (hx : ∀ i, i < bs.length → wrapAddr (a + i) ≠ x) : (m.writeBytes a bs).read x = m.read x := by
  induction bs generalizing m a with
  | nil => rfl
  | cons b rest ih =>
    have h0 : x ≠ wrapAddr a := fun e => hx 0 (by simp) (by simpa using e.symm)
    simp only [Memory.writeBytes]
    rw [ih (Memory.wf_write h (wrapAddr_le a) b) (a + 1), Memory.read_write h, if_neg h0]
    intro i hi
    have := hx (i + 1) (by simpa using hi)
    rwa [show a + (i + 1) = a + 1 + i by omega] at this

/-- Bytes written are read back, where the run lies inside the address space. -/
theorem Memory.read_writeBytes_inside {m : Memory} (h : m.wf = true) (a : Nat) (bs : List Byte)
    (ht : a + bs.length ≤ Config.topAddress + 1) (i : Nat) (hi : i < bs.length) :
    (m.writeBytes a bs).read (a + i) = bs[i] := by
  induction bs generalizing m a i with
  | nil => exact absurd hi (by simp)
  | cons b rest ih =>
    simp only [List.length_cons] at ht hi
    have ha : wrapAddr a = a := wrapAddr_of_le (by omega)
    simp only [Memory.writeBytes]
    cases i with
    | zero =>
      rw [Memory.read_writeBytes_outside (Memory.wf_write h (wrapAddr_le a) b), Memory.read_write h]
      · simp [ha]
      · intro j hj
        rw [wrapAddr_of_le (by omega)]
        omega
    | succ j =>
      have := ih (Memory.wf_write h (wrapAddr_le a) b) (a + 1) (by omega) j (by omega)
      rw [show a + (j + 1) = a + 1 + j by omega]
      simpa using this

end Sys2Proof.Machine
end

