-- ==== Sys2Proof/Laws/Numbers.lean ====
section
/-! SUPPORT. Digits, bytes and fields: what packing writes, unpacking reads, and the limits of both. -/

namespace Sys2Proof.Machine

theorem digitsOk_packDigits (n v : Nat) : digitsOk n (packDigits n v) = true := by
  induction n generalizing v with
  | zero => rfl
  | succ n ih =>
    simp only [digitsOk, packDigits, Bool.and_eq_true]
    have h : (v % 10 + 16 * packDigits n (v / 10)) / 16 = packDigits n (v / 10) := by omega
    rw [h]; exact ⟨decide_eq_true (by omega), ih _⟩

theorem digitsValue_packDigits (n v : Nat) : digitsValue n (packDigits n v) = v % 10 ^ n := by
  induction n generalizing v with
  | zero => simp [digitsValue, Nat.mod_one]
  | succ n ih =>
    simp only [digitsValue, packDigits]
    have h : (v % 10 + 16 * packDigits n (v / 10)) / 16 = packDigits n (v / 10) := by omega
    have h2 : (v % 10 + 16 * packDigits n (v / 10)) % 16 = v % 10 := by omega
    rw [h, h2, ih, Nat.pow_succ', Nat.mod_mul]

theorem packDigits_lt (k v : Nat) : packDigits k v < 16 ^ k := by
  induction k generalizing v with
  | zero => simp [packDigits]
  | succ k ih => simp only [packDigits]; have := ih (v / 10); rw [Nat.pow_succ]; omega

theorem packSigned_lt (k : Nat) (v : Int) : packSigned k v < 16 ^ (k + 1) := by
  unfold packSigned plusCode minusCode; have := packDigits_lt k v.natAbs; rw [Nat.pow_succ]; split <;> omega

/-- Digits are valid when every nibble is at most 9 (R3). -/
theorem digitsOk_iff (k raw : Nat) : digitsOk k raw = true ↔ ∀ j, j < k → raw / 16 ^ j % 16 ≤ 9 := by
  induction k generalizing raw with
  | zero => simp [digitsOk]
  | succ k ih =>
    simp only [digitsOk, Bool.and_eq_true, decide_eq_true_eq, ih]
    constructor
    · rintro ⟨h0, h⟩ j hj
      cases j with
      | zero => simpa using h0
      | succ j => have := h j (by omega); rwa [Nat.div_div_eq_div_mul, ← Nat.pow_succ'] at this
    · intro h
      refine ⟨by simpa using h 0 (by omega), fun j hj => ?_⟩
      have := h (j + 1) (by omega)
      rwa [Nat.div_div_eq_div_mul, ← Nat.pow_succ']

theorem digitsValue_lt (k raw : Nat) (h : digitsOk k raw = true) : digitsValue k raw < 10 ^ k := by
  induction k generalizing raw with
  | zero => simp [digitsValue]
  | succ k ih =>
    simp only [digitsOk, Bool.and_eq_true, decide_eq_true_eq] at h
    have := ih _ h.2
    simp only [digitsValue]; rw [Nat.pow_succ]; have := h.1; omega

theorem unpackSigned_none_digit {k raw : Nat} (j : Nat) (hj : j < k) (h : 9 < raw / 16 ^
    (j + 1) % 16) : unpackSigned k raw = none := by
  unfold unpackSigned
  rw [if_neg]
  rw [digitsOk_iff]
  intro hh
  have := hh j hj
  rw [Nat.div_div_eq_div_mul, ← Nat.pow_succ'] at this
  simp only [Nat.succ_eq_add_one] at this
  omega

theorem unpackSigned_none_sign {k raw : Nat} (h1 : raw % 16 ≠ 0xC)
    (h2 : raw % 16 ≠ 0xD) : unpackSigned k raw = none := by
  unfold unpackSigned plusCode minusCode
  split
  · simp [h1, h2]
  · rfl

/-- A signed field of 28 digits holds a total within the limits (R71). -/
theorem unpackSigned_bounds {raw : Nat} {v : Int} (h : unpackSigned 28 raw = some v) : -Config.maxTotal ≤ v ∧
    v ≤ Config.maxTotal := by
  unfold unpackSigned at h
  split at h
  next ho =>
    have hl := digitsValue_lt 28 _ ho
    have hM : Config.maxTotal = ((10 ^ 28 : Nat) : Int) - 1 := by decide
    rw [hM]
    generalize digitsValue 28 (raw / 16) = d at *
    generalize 10 ^ 28 = M at *
    split at h
    · injection h with h; subst h; omega
    · split at h
      · injection h with h; subst h; omega
      · cases h
  · cases h

/-- The nibbles of a word put into a 28-digit field are that word's (R203). -/
theorem replaceWord_nibble (raw k v j : Nat) (hk : k < 4) (hj : j < 8) (hv : v < 2 ^ 32) :
   (raw / 2 ^ (32 * (4 - k)) * 2 ^ (32 * (4 - k)) + v * 2 ^ (32 * (3 - k)) + raw % 2 ^ (32 * (3 - k))) / 16 ^ (8 *
       (3 - k) + j) % 16 = v / 16 ^ j % 16 := by
  have h16 : ∀ n, (16:Nat) ^ (8 * n) = 2 ^ (32 * n) := by
    intro n
    rw [show (16:Nat) = 2 ^ 4 by rfl, ← Nat.pow_mul]
    congr 1
    omega
  rw [Nat.pow_add, h16, ← Nat.div_div_eq_div_mul]
  set a := raw / 2 ^ (32 * (4 - k)) with ha
  have e1 : 2 ^ (32 * (4 - k)) = 2 ^ 32 * 2 ^ (32 * (3 - k)) := by rw [← Nat.pow_add]; congr 1; omega
  rw [e1]
  set p := 2 ^ (32 * (3 - k)) with hp
  have hpos : 0 < p := Nat.pow_pos (by decide)
  have : (a * (2 ^ 32 * p) + v * p + raw % p) / p = a * 2 ^ 32 + v := by
    rw [show a * (2 ^ 32 * p) + v * p + raw % p = raw % p + p *
        (a * 2 ^ 32 + v) by ring, Nat.add_mul_div_left _ _ hpos, Nat.div_eq_of_lt (Nat.mod_lt _ hpos)]
    omega
  rw [this]
  interval_cases j <;> omega

theorem leValue_leBytes (n v : Nat) : leValue (leBytes n v) = v % 256 ^ n := by
  induction n generalizing v with
  | zero => simp [leBytes, leValue, Nat.mod_one]
  | succ n ih =>
    show (BitVec.ofNat 8 v).toNat + 256 * leValue (leBytes n (v / 256)) = _
    rw [ih, Nat.pow_succ', Nat.mod_mul, BitVec.toNat_ofNat]

theorem leBytes_length (n v : Nat) : (leBytes n v).length = n := by
  induction n generalizing v with
  | zero => rfl
  | succ n ih => exact congrArg (· + 1) (ih _)

theorem leValue_lt (bs : List Byte) : leValue bs < 256 ^ bs.length := by
  induction bs with
  | nil => decide
  | cons b bs ih => simp only [leValue, List.length_cons]; rw [Nat.pow_succ]; have := b.isLt; omega

theorem beValue_beBytes (n v : Nat) : beValue (beBytes n v) = v % 256 ^ n := by
  unfold beValue beBytes; rw [List.reverse_reverse, leValue_leBytes]

theorem leField_at (pre post : List Byte) (k n v : Nat) (h : pre.length = k) : leField (pre ++
    (leBytes n v ++ post)) k n = v % 256 ^ n := by
  unfold leField slice
  rw [List.drop_left' h, List.take_left' (leBytes_length n v), leValue_leBytes]

theorem leField_lt (bs : List Byte) (i n : Nat) : leField bs i n < 256 ^ n := by
  unfold leField slice
  refine Nat.lt_of_lt_of_le (leValue_lt _) (Nat.pow_le_pow_right (by decide) ?_)
  rw [List.length_take]; exact Nat.min_le_left _ _

theorem Memory.readBytes_length (m : Memory) (a k : Nat) : (m.readBytes a k).length = k := by
  induction k generalizing a with
  | zero => rfl
  | succ k ih => exact congrArg (· + 1) (ih _)

/-- A result bit is written beside the other seven of its byte (R35). -/
theorem resultByte_bits (o : Byte) (c : Nat) (v : Bool) : (resultByte o c v).getLsbD (c % 8) = v ∧
    ∀ k, k < 8 → k ≠ c % 8 → (resultByte o c v).getLsbD k = o.getLsbD k := by
  have h8 : c % 8 < 8 := Nat.mod_lt _ (by decide)
  unfold resultByte
  generalize c % 8 = b at *
  have bit : ∀ k, k < 8 → ((1 : Byte) <<< b).getLsbD k = decide (k = b) := by
    intro k hk
    have : ∀ b' k' : Fin 8, ((1 : Byte) <<< b'.val).getLsbD k'.val = decide (k'.val = b'.val) := by decide
    exact this ⟨b, h8⟩ ⟨k, hk⟩
  refine ⟨?_, fun k hk hne => ?_⟩
  · cases v
    · simp only [Bool.false_eq_true, if_false, BitVec.getLsbD_and, BitVec.getLsbD_not, bit b h8]; simp
    · simp only [if_true, BitVec.getLsbD_or, bit b h8]; simp
  · cases v
    · simp only [Bool.false_eq_true, if_false, BitVec.getLsbD_and, BitVec.getLsbD_not, bit k hk]; simp [hne, hk]
    · simp only [if_true, BitVec.getLsbD_or, bit k hk]; simp [hne]

/-- The saturation to a largest magnitude, by cases. -/
theorem clampTo_table (M v : Int) (h : 0 ≤ M) : (-M ≤ v → v ≤ M → clampTo M v = (v, false)) ∧
    (M < v → clampTo M v = (M, true)) ∧ (v < -M → clampTo M v = (-M, true)) := by
  unfold clampTo
  refine ⟨fun h1 h2 => ?_, fun h1 => ?_, fun h1 => ?_⟩
  · rw [if_neg (by omega), if_neg (by omega)]
  · rw [if_pos h1]
  · rw [if_neg (by omega), if_pos h1]

theorem vector_get_replicate {α} (n : Nat) (a : α) (i : Fin n) : (Vector.replicate n a)[i] = a := by simp

theorem vector_get_set_ne {α} {n : Nat} (v : Vector α n) (i k : Fin n) (x : α) (h : i.val ≠ k.val) :
    (v.set i x)[k] = v[k] := by simp [h]

theorem vector_get_set_self {α} {n : Nat} (v : Vector α n) (i : Fin n) (x : α) : (v.set i x)[i] = x := by simp

theorem vector_forall_get_set {α} {n : Nat} (P : α →
    Prop) (v : Vector α n) (i : Fin n) (x : α) (hx : P x) (h : ∀ j : Fin n, P v[j]) : ∀ j : Fin n,
    P (v.set i x)[j] := by
  intro j
  by_cases q : i = j
  · subst q; rw [vector_get_set_self]; exact hx
  · rw [vector_get_set_ne _ _ _ _ (fun r => q (Fin.ext r))]; exact h j

/-- The digits of a value read from digit nibbles are those nibbles (R2). -/
theorem digitsValue_digit (k raw : Nat) (h : digitsOk k raw = true) : ∀ j, j < k →
    digitsValue k raw / 10 ^ j % 10 = raw / 16 ^ j % 16 := by
  induction k generalizing raw with
  | zero => intro j hj; omega
  | succ k ih =>
    simp only [digitsOk, Bool.and_eq_true, decide_eq_true_eq] at h
    intro j hj
    simp only [digitsValue]
    cases j with
    | zero => simp; omega
    | succ j =>
      rw [Nat.pow_succ', ← Nat.div_div_eq_div_mul, Nat.pow_succ', ← Nat.div_div_eq_div_mul]
      have : (raw % 16 + 10 * digitsValue k (raw / 16)) / 10 = digitsValue k (raw / 16) := by omega
      rw [this]; exact ih _ h.2 j (by omega)

/-- When a signed field has no value (R6). -/
theorem unpackSigned_eq_none (k raw : Nat) : unpackSigned k raw = none ↔
    (∃ j, j < k ∧ 9 < raw / 16 ^ (j + 1) % 16) ∨ (raw % 16 ≠ 0xC ∧ raw % 16 ≠ 0xD) := by
  constructor
  · intro h
    by_cases hd : digitsOk k (raw / 16) = true
    · right
      unfold unpackSigned plusCode minusCode at h
      rw [if_pos hd] at h
      constructor
      · intro hc; rw [if_pos hc] at h; cases h
      · intro hc
        by_cases hp : raw % 16 = 12
        · rw [if_pos hp] at h; cases h
        · rw [if_neg hp, if_pos hc] at h; cases h
    · left
      rw [digitsOk_iff] at hd
      by_contra hn
      exact hd fun j hj => by
        rw [Nat.div_div_eq_div_mul, ← Nat.pow_succ']
        by_contra hb
        exact hn ⟨j, hj, Nat.not_le.1 hb⟩
  · rintro (⟨j, hj, h⟩ | ⟨h1, h2⟩)
    · exact unpackSigned_none_digit j hj h
    · exact unpackSigned_none_sign h1 h2

/-- The value of a signed field: its digits and its sign (R3, R7). -/
theorem unpackSigned_value {k raw : Nat} {v : Int} (h : unpackSigned k raw = some v) :
    v.natAbs < 10 ^ k ∧ (∀ j, j < k → v.natAbs / 10 ^ j % 10 = raw / 16 ^ (j + 1) % 16) ∧
      (v ≠ 0 → (v < 0 ↔ raw % 16 = 0xD)) := by
  unfold unpackSigned plusCode minusCode at h
  split at h
  next hd =>
    have hl := digitsValue_lt k _ hd
    have hg := digitsValue_digit k _ hd
    have hg' : ∀ j, j < k → digitsValue k (raw / 16) / 10 ^ j % 10 = raw / 16 ^ (j + 1) % 16 := by
      intro j hj; rw [hg j hj, Nat.div_div_eq_div_mul, ← Nat.pow_succ']
    split at h
    next hs =>
      injection h with h; subst h
      refine ⟨by simpa using hl, by simpa using hg', fun _ => ?_⟩
      constructor
      · intro hh; omega
      · intro hh; rw [hs] at hh; cases hh
    next hs =>
      split at h
      next hm =>
        injection h with h; subst h
        refine ⟨by simpa using hl, by simpa using hg', fun h0 => ?_⟩
        constructor
        · intro _; exact hm
        · intro _; omega
      next => cases h
  next => cases h

/-- Digits packed again (R2, R8). -/
theorem packDigits_digitsValue (k raw : Nat) (h : digitsOk k raw = true) :
    packDigits k (digitsValue k raw) = raw % 16 ^ k := by
  induction k generalizing raw with
  | zero => simp [packDigits, Nat.mod_one]
  | succ k ih =>
    simp only [digitsOk, Bool.and_eq_true, decide_eq_true_eq] at h
    simp only [digitsValue, packDigits]
    have h1 : (raw % 16 + 10 * digitsValue k (raw / 16)) / 10 = digitsValue k (raw / 16) := by omega
    have h2 : (raw % 16 + 10 * digitsValue k (raw / 16)) % 10 = raw % 16 := by omega
    rw [h1, h2, ih _ h.2, Nat.pow_succ', Nat.mod_mul]

/-- A signed field that has a value is the packed form of that value, but for minus zero (R7, R8). -/
theorem packSigned_of_unpackSigned {k raw : Nat} {v : Int} (h : unpackSigned k raw = some v) (hr : raw < 16 ^ (k + 1)) :
    (v ≠ 0 → packSigned k v = raw) ∧ (v = 0 → raw / 16 = 0) := by
  unfold unpackSigned at h
  split at h
  next hd =>
    have hp := packDigits_digitsValue k _ hd
    have hlt : raw / 16 < 16 ^ k := by rw [Nat.pow_succ] at hr; omega
    rw [Nat.mod_eq_of_lt hlt] at hp
    have hz : digitsValue k (raw / 16) = 0 → raw / 16 = 0 := by
      intro hz; rw [← hp, hz]
      clear * -
      induction k with
      | zero => rfl
      | succ k ih => simp [packDigits, ih]
    unfold packSigned
    split at h
    next hs =>
      injection h with h; subst h
      refine ⟨fun _ => ?_, fun h0 => hz (by omega)⟩
      rw [Int.natAbs_natCast, hp, if_neg (by omega), ← hs]; omega
    next hs =>
      split at h
      next hm =>
        injection h with h; subst h
        refine ⟨fun h0 => ?_, fun h0 => hz (by omega)⟩
        rw [Int.natAbs_neg, Int.natAbs_natCast, hp, if_pos (by omega), ← hm]; omega
      next => cases h
  next => cases h

/-- A signed field of 28 digits with good nibbles has a value within the limits (R6, R71). -/
theorem unpackSigned_good {raw : Nat} (hd : ∀ j, j < 28 → raw / 16 ^ (j + 1) % 16 ≤ 9)
    (hs : raw % 16 = 0xC ∨ raw % 16 = 0xD) :
    ∃ x, unpackSigned 28 raw = some x ∧ -10 ^ 28 < x ∧ x < 10 ^ 28 := by
  cases hu : unpackSigned 28 raw with
  | none =>
    rcases (unpackSigned_eq_none 28 raw).1 hu with ⟨j, hj, h⟩ | ⟨h1, h2⟩
    · exact absurd h (Nat.not_lt.2 (hd j hj))
    · rcases hs with h | h
      · exact absurd h h1
      · exact absurd h h2
  | some x =>
    have hb := unpackSigned_bounds hu
    have hM : Config.maxTotal = 10 ^ 28 - 1 := by decide
    rw [hM] at hb
    exact ⟨x, rfl, by omega, by omega⟩

end Sys2Proof.Machine
end

