-- ==== Sys2Proof/Laws/Bands.lean ====
section
/-! SUPPORT. Band sets: which stored sets are valid, and where a valid set classifies a value. -/

namespace Sys2Proof.Machine

/-- When a signed field of 24 digits has a value. -/
theorem unpack_isSome (raw : Nat) : (unpackSigned 24 raw).isSome = true ↔ (∀ k, k < 24 →
    raw / 16 ^ (k + 1) % 16 ≤ 9) ∧ (raw % 16 = 0xC ∨ raw % 16 = 0xD) := by
  unfold unpackSigned plusCode minusCode
  have hd : digitsOk 24 (raw / 16) = true ↔ ∀ k, k < 24 → raw / 16 ^ (k + 1) % 16 ≤ 9 := by
    rw [digitsOk_iff]
    constructor
    · intro h k hk; rw [Nat.pow_succ', ← Nat.div_div_eq_div_mul]; exact h k hk
    · intro h k hk; have := h k hk; rw [Nat.pow_succ', ← Nat.div_div_eq_div_mul] at this; exact this
  split
  next h =>
    split
    next h1 => simp only [Option.isSome_some, true_iff]; exact ⟨hd.1 h, .inl h1⟩
    next h1 =>
      split
      next h2 => simp only [Option.isSome_some, true_iff]; exact ⟨hd.1 h, .inr h2⟩
      next h2 => simp only [Option.isSome_none, Bool.false_eq_true, false_iff]; rintro ⟨_,
          q | q⟩; exact h1 q; exact h2 q
  next h => simp only [Option.isSome_none, Bool.false_eq_true, false_iff]; rintro ⟨q, _⟩; exact h (hd.2 q)

/-- When a stored bound has a value (R57). -/
theorem boundValue_isSome (b : BitVec 100) : (boundValue b).isSome = true ↔ boundSound b := unpack_isSome b.toNat

/-- One band that passes its own checks (R57). -/
def bandOk (b : Band) : Prop := (boundSound b.low ∧ boundSound b.high) ∧ b.lowValue ≤ b.highValue ∧ b.accum.toNat ≤ 63

/-- Bands that pass their checks one by one (R57). -/
theorem bandsAscend_iff (l : List Band) : ∀ prev, bandsAscend prev l = true ↔ (∀ b ∈ l, bandOk b) ∧ (∀ p b,
    prev = some p → l[0]? = some b → p < b.lowValue) ∧
    ∀ i a b, l[i]? = some a → l[i + 1]? = some b → a.highValue < b.lowValue := by
  induction l with
  | nil => intro prev; simp [bandsAscend]
  | cons x rest ih =>
    intro prev
    unfold bandsAscend
    have ok : bandOk x ↔ ((boundValue x.low).isSome = true ∧ (boundValue x.high).isSome = true) ∧
        x.lowValue ≤ x.highValue ∧ x.accum.toNat ≤ 63 := by
      unfold bandOk; rw [boundValue_isSome, boundValue_isSome]
    cases hl : boundValue x.low with
    | none =>
      simp only [Bool.false_eq_true, false_iff]
      rintro ⟨h, _⟩
      have := (ok.1 (h x (List.mem_cons_self ..))).1.1; rw [hl] at this; cases this
    | some lo =>
      cases hh : boundValue x.high with
      | none =>
        simp only [Bool.false_eq_true, false_iff]
        rintro ⟨h, _⟩
        have := (ok.1 (h x (List.mem_cons_self ..))).1.2; rw [hh] at this; cases this
      | some hi =>
        have lv : x.lowValue = lo := by unfold Band.lowValue; rw [hl]; rfl
        have hv : x.highValue = hi := by unfold Band.highValue; rw [hh]; rfl
        dsimp only
        rw [Bool.and_eq_true, Bool.and_eq_true, Bool.and_eq_true, decide_eq_true_eq, decide_eq_true_eq, ih]
        rw [← lv, ← hv]
        constructor
        · rintro ⟨⟨⟨h1, h2⟩, h3⟩, h4, h5, h6⟩
          refine ⟨fun b hb => ?_, fun p b hp' hb => ?_, fun i a b ha hb => ?_⟩
          · rcases List.mem_cons.1 hb with rfl | hb
            · exact ok.2 ⟨⟨by rw [hl]; rfl, by rw [hh]; rfl⟩, h1, h3⟩
            · exact h4 b hb
          · simp at hb; subst hb; subst hp'; exact of_decide_eq_true h2
          · cases i with
            | zero =>
              simp at ha; subst ha
              exact h5 _ b rfl (by simpa using hb)
            | succ j => exact h6 j a b (by simpa using ha) (by simpa using hb)
        · rintro ⟨h1, h2, h3⟩
          have hx := h1 x (List.mem_cons_self ..)
          refine ⟨⟨⟨hx.2.1, (by cases prev with | none => rfl | some p => exact decide_eq_true (h2 p x rfl rfl))⟩,
              hx.2.2⟩, fun b hb => h1 b (List.mem_cons_of_mem _ hb), fun p b hp' hb => ?_,
              fun i a b ha hb => h3 (i + 1) a b (by simpa using ha) (by simpa using hb)⟩
          injection hp' with hp'; subst hp'
          exact h3 0 x b rfl (by simpa using hb)

/-- The check of a set is the property of R57. -/
theorem bandsValid_iff (count : Nat) (bands : List Band) : bandsValid count bands = true ↔ BandsSound count bands := by
  unfold bandsValid
  rw [Bool.and_eq_true, Bool.and_eq_true, decide_eq_true_eq, decide_eq_true_eq, bandsAscend_iff]
  have tk : ∀ i, (bands.take count)[i]? = if i < count then bands[i]? else none := fun i => List.getElem?_take
  have mem : ∀ b, b ∈ bands.take count ↔ ∃ i, i < count ∧ bands[i]? = some b := by
    intro b
    rw [List.mem_iff_getElem?]
    constructor
    · rintro ⟨i, hi⟩; rw [tk] at hi
      split at hi
      next h => exact ⟨i, h, hi⟩
      · cases hi
    · rintro ⟨i, h, hi⟩; exact ⟨i, by rw [tk, if_pos h]; exact hi⟩
  constructor
  · rintro ⟨⟨h1, h2⟩, h3, _, h5⟩
    exact ⟨⟨h1, h2⟩, fun i b hi hb => (h3 b ((mem b).2 ⟨i, hi, hb⟩)).1, fun i b hi hb => (h3 b ((mem b).2 ⟨i, hi,
        hb⟩)).2.1,
      fun i a b hi ha hb => h5 i a b (by rw [tk, if_pos (by omega)]; exact ha) (by rw [tk, if_pos hi]; exact hb),
      fun i b hi hb => (h3 b ((mem b).2 ⟨i, hi, hb⟩)).2.2⟩
  · rintro ⟨h1, h2, h3, h4, h5⟩
    refine ⟨h1, fun b hb => ?_, fun p b hp _ => (by cases hp), fun i a b ha hb => ?_⟩
    · obtain ⟨i, hi, hb⟩ := (mem b).1 hb
      exact ⟨h2 i b hi hb, h3 i b hi hb, h5 i b hi hb⟩
    · rw [tk] at ha hb
      split at hb
      next hi => rw [if_pos (by omega)] at ha; exact h4 i a b hi ha hb
      · cases hb

/-- In a valid set every band lies below every later one. -/
theorem sorted_of {l : List Band} (h3 : ∀ b ∈ l, b.lowValue ≤ b.highValue)
    (h4 : ∀ i a b, l[i]? = some a → l[i + 1]? = some b → a.highValue < b.lowValue) :
    l.Pairwise (fun a b => a.highValue < b.lowValue) := by
  rw [List.pairwise_iff_getElem]
  intro i j hi hj hij
  obtain ⟨d, rfl⟩ : ∃ d, j = i + 1 + d := ⟨j - (i + 1), by omega⟩
  induction d with
  | zero => exact h4 i _ _ (List.getElem?_eq_getElem hi) (List.getElem?_eq_getElem hj)
  | succ d ih =>
    have hk : i + 1 + d < l.length := by omega
    have q1 := ih hk (by omega)
    have q2 := h4 (i + 1 + d) _ _ (List.getElem?_eq_getElem hk) (List.getElem?_eq_getElem hj)
    have q3 := h3 _ (List.getElem_mem hk)
    omega

/-- Where a value falls among ascending bands. -/
theorem classifyIn_spec (v : Int) (l : List Band) (h3 : ∀ b ∈ l, b.lowValue ≤ b.highValue)
    (hs : l.Pairwise (fun a b => a.highValue < b.lowValue)) : ∀ passed i,
    (∀ j, classifyIn v passed i l = .band j ↔ ∃ d b, j = i + d ∧ l[d]? = some b ∧ b.lowValue ≤ v ∧ v ≤ b.highValue) ∧
    (classifyIn v passed i l = .below ↔ passed = false ∧ ∃ b, l[0]? = some b ∧ v < b.lowValue) ∧
    (classifyIn v passed i l = .gap ↔ (passed = true ∧ ∃ b, l[0]? = some b ∧ v < b.lowValue) ∨
      ∃ k a b, l[k]? = some a ∧ l[k + 1]? = some b ∧ a.highValue < v ∧ v < b.lowValue) ∧
    (classifyIn v passed i l = .above ↔ ∀ b ∈ l, b.highValue < v) := by
  induction l with
  | nil => intro passed i; simp [classifyIn]
  | cons x rest ih =>
    intro passed i
    rw [List.pairwise_cons] at hs
    have hx := h3 x (List.mem_cons_self ..)
    have hr : ∀ (d : Nat) (b : Band), rest[d]? = some b → x.highValue < b.lowValue ∧ b.lowValue ≤ b.highValue :=
        fun d b hb =>
      ⟨hs.1 b (List.mem_of_getElem? hb), h3 b (List.mem_cons_of_mem _ (List.mem_of_getElem? hb))⟩
    have key := ih (fun b hb => h3 b (List.mem_cons_of_mem _ hb)) hs.2
    unfold classifyIn
    by_cases c1 : v < x.lowValue
    · rw [if_pos c1]
      have nb : ∀ (d : Nat) (b : Band), (x :: rest)[d]? = some b → v < b.lowValue := by
        intro d b hb
        cases d with
        | zero => simp at hb; subst hb; exact c1
        | succ d => have := hr d b (by simpa using hb); omega
      have na : ∀ (k : Nat) (a b : Band), (x :: rest)[k]? = some a → (x :: rest)[k + 1]? = some b →
          ¬ a.highValue < v := by
        intro k a b ha _ h
        have := nb k a ha
        have := h3 a (List.mem_of_getElem? ha); omega
      refine ⟨fun j => ?_, ?_, ?_, ?_⟩
      · constructor
        · intro h; cases passed <;> cases h
        · rintro ⟨d, b, _, hb, h1, _⟩; have := nb d b hb; omega
      · cases passed
        · simp [c1]
        · simp
      · cases passed
        · simp only [Bool.false_eq_true, if_false, false_and, false_or]
          constructor
          · intro h; cases h
          · rintro ⟨k, a, b, ha, hb, h1, _⟩; exact absurd h1 (na k a b ha hb)
        · simp [c1]
      · constructor
        · intro h; cases passed <;> cases h
        · intro h; have := h x (List.mem_cons_self ..); omega
    · rw [if_neg c1]
      by_cases c2 : v ≤ x.highValue
      · rw [if_pos c2]
        refine ⟨fun j => ?_, ?_, ?_, ?_⟩
        · constructor
          · intro h; injection h with h; subst h; exact ⟨0, x, rfl, rfl, by omega, c2⟩
          · rintro ⟨d, b, hj, hb, h1, h2⟩
            cases d with
            | zero => subst hj; rfl
            | succ d => have := hr d b (by simpa using hb); omega
        · constructor
          · intro h; cases h
          · rintro ⟨_, b, hb, h⟩; simp at hb; subst hb; exact absurd h c1
        · constructor
          · intro h; cases h
          · rintro (⟨_, b, hb, h⟩ | ⟨k, a, b, ha, hb, h1, h2⟩)
            · simp at hb; subst hb; exact absurd h c1
            · cases k with
              | zero => simp at ha; subst ha; omega
              | succ k => have := hr k a (by simpa using ha); omega
        · constructor
          · intro h; cases h
          · intro h; have := h x (List.mem_cons_self ..); omega
      · rw [if_neg c2]
        obtain ⟨k1, k2, k3, k4⟩ := key true (i + 1)
        refine ⟨fun j => ?_, ?_, ?_, ?_⟩
        · rw [k1]
          constructor
          · rintro ⟨d, b, hj, hb, h⟩; exact ⟨d + 1, b, by omega, by simpa using hb, h⟩
          · rintro ⟨d, b, hj, hb, h⟩
            cases d with
            | zero => simp at hb; subst hb; omega
            | succ d => exact ⟨d, b, by omega, by simpa using hb, h⟩
        · rw [k2]
          constructor
          · rintro ⟨h, _⟩; cases h
          · rintro ⟨_, b, hb, h⟩; simp at hb; subst hb; exact absurd h c1
        · rw [k3]
          constructor
          · rintro (⟨_, b, hb, h⟩ | ⟨k, a, b, ha, hb, h⟩)
            · exact .inr ⟨0, x, b, rfl, by simpa using hb, by omega, h⟩
            · exact .inr ⟨k + 1, a, b, by simpa using ha, by simpa using hb, h⟩
          · rintro (⟨_, b, hb, h⟩ | ⟨k, a, b, ha, hb, h⟩)
            · simp at hb; subst hb; exact absurd h c1
            · cases k with
              | zero => simp at ha; subst ha; exact .inl ⟨rfl, b, by simpa using hb, h.2⟩
              | succ k => exact .inr ⟨k, a, b, by simpa using ha, by simpa using hb, h⟩
        · rw [k4]
          constructor
          · intro h b hb
            rcases List.mem_cons.1 hb with rfl | hb
            · omega
            · exact h b hb
          · intro h b hb; exact h b (List.mem_cons_of_mem _ hb)

/-- Where a valid set classifies a value (R66). -/
theorem classify_spec (z : BandSet) (v : Int) (hz : BandsSound z.count.toNat z.bands.toList) :
    (∀ i, classify z v = .band i ↔ i < z.count.toNat ∧
      ∃ b, z.bands.toList[i]? = some b ∧ b.lowValue ≤ v ∧ v ≤ b.highValue) ∧
    (classify z v = .below ↔ v < z.bands[(0 : Fin 8)].lowValue) ∧
    (classify z v = .gap ↔ ∃ i a b, i + 1 < z.count.toNat ∧ z.bands.toList[i]? = some a ∧
      z.bands.toList[i + 1]? = some b ∧ a.highValue < v ∧ v < b.lowValue) ∧
    (classify z v = .above ↔ ∃ b, z.bands.toList[z.count.toNat - 1]? = some b ∧ b.highValue < v) := by
  have tk : ∀ i, z.inUse[i]? = if i < z.count.toNat then z.bands.toList[i]? else none := fun i => List.getElem?_take
  have c1 := hz.size.1
  have c8 := hz.size.2
  have len : z.bands.toList.length = 8 := by simp
  have h3 : ∀ b ∈ z.inUse, b.lowValue ≤ b.highValue := by
    intro b hb
    obtain ⟨i, hi⟩ := List.mem_iff_getElem?.1 hb
    rw [tk] at hi; split at hi
    next h => exact hz.order i b h hi
    · cases hi
  have h4 : ∀ i a b, z.inUse[i]? = some a → z.inUse[i + 1]? = some b → a.highValue < b.lowValue := by
    intro i a b ha hb
    rw [tk] at ha hb; split at hb
    next h => rw [if_pos (by omega)] at ha; exact hz.ascending i a b h ha hb
    · cases hb
  have hp := sorted_of h3 h4
  obtain ⟨k1, k2, k3, k4⟩ := classifyIn_spec v z.inUse h3 hp false 0
  unfold classify
  refine ⟨fun i => ?_, ?_, ?_, ?_⟩
  · rw [k1]
    constructor
    · rintro ⟨d, b, rfl, hb, h⟩
      rw [tk] at hb; split at hb
      next hd => exact ⟨by omega, b, by simpa using hb, h⟩
      · cases hb
    · rintro ⟨hi, b, hb, h⟩
      exact ⟨i, b, by omega, by rw [tk, if_pos hi]; exact hb, h⟩
  · rw [k2]
    have e0 : z.inUse[0]? = some z.bands[(0 : Fin 8)] := by
      rw [tk, if_pos (by omega), List.getElem?_eq_getElem (by omega)]; rfl
    rw [e0]; simp
  · rw [k3]
    simp only [Bool.false_eq_true, false_and, false_or]
    constructor
    · rintro ⟨i, a, b, ha, hb, h⟩
      rw [tk] at ha hb; split at hb
      next hi => rw [if_pos (by omega)] at ha; exact ⟨i, a, b, hi, ha, hb, h⟩
      · cases hb
    · rintro ⟨i, a, b, hi, ha, hb, h⟩
      exact ⟨i, a, b, by rw [tk, if_pos (by omega)]; exact ha, by rw [tk, if_pos hi]; exact hb, h⟩
  · rw [k4]
    have el : z.inUse[z.count.toNat - 1]? = z.bands.toList[z.count.toNat - 1]? := by rw [tk, if_pos (by omega)]
    have hlt : z.count.toNat - 1 < z.bands.toList.length := by omega
    constructor
    · intro h
      refine ⟨_, List.getElem?_eq_getElem hlt, ?_⟩
      apply h
      apply List.mem_iff_getElem?.2
      exact ⟨_, by rw [el]; exact List.getElem?_eq_getElem hlt⟩
    · rintro ⟨b, hb, h⟩ x hx
      obtain ⟨i, hi⟩ := List.mem_iff_getElem?.1 hx
      have hi' := hi
      rw [tk] at hi'; split at hi'
      next hic =>
        by_cases q : i = z.count.toNat - 1
        · subst q; rw [hb] at hi'; injection hi' with hi'; subst hi'; exact h
        · rw [List.pairwise_iff_getElem] at hp
          have hl : z.inUse.length = z.count.toNat := by unfold BandSet.inUse; rw [List.length_take, len]; omega
          have := hp i (z.count.toNat - 1) (by omega) (by omega) (by omega)
          have e1 : z.inUse[i]'(by omega) = x := by
            have := List.getElem?_eq_getElem (l := z.inUse) (i := i) (by omega)
            rw [this] at hi; injection hi
          have e2 : z.inUse[z.count.toNat - 1]'(by omega) = b := by
            have := List.getElem?_eq_getElem (l := z.inUse) (i := z.count.toNat - 1) (by omega)
            rw [el, hb] at this; injection this with this; exact this.symm
          rw [e1, e2] at this
          have := h3 b (by rw [← e2]; exact List.getElem_mem _)
          omega
      · cases hi'

end Sys2Proof.Machine
end

