-- ==== Sys2Proof/Laws/State.lean ====
section
/-! SUPPORT. One lemma per field per update of the state, true by definition, so that no later proof unfolds a record
update. -/

namespace Sys2Proof.Machine

/-! ## setBank -/

@[simp] theorem State.setBank_part (s : State) (b : Fin 4) (x : ParkBank) :
    (s.setBank b x).part = s.part := rfl

@[simp] theorem State.setBank_mem (s : State) (b : Fin 4) (x : ParkBank) :
    (s.setBank b x).mem = s.mem := rfl

@[simp] theorem State.setBank_engine (s : State) (b : Fin 4) (x : ParkBank) :
    (s.setBank b x).engine = s.engine := rfl

@[simp] theorem State.setBank_slate (s : State) (b : Fin 4) (x : ParkBank) :
    (s.setBank b x).slate = s.slate := rfl

@[simp] theorem State.setBank_table (s : State) (b : Fin 4) (x : ParkBank) :
    (s.setBank b x).table = s.table := rfl

@[simp] theorem State.setBank_lane0 (s : State) (b : Fin 4) (x : ParkBank) :
    (s.setBank b x).lane0 = s.lane0 := rfl

@[simp] theorem State.setBank_lane1 (s : State) (b : Fin 4) (x : ParkBank) :
    (s.setBank b x).lane1 = s.lane1 := rfl

@[simp] theorem State.setBank_banks (s : State) (b : Fin 4) (x : ParkBank) :
    (s.setBank b x).banks = s.banks.set b x := rfl

@[simp] theorem State.setBank_parkOrder (s : State) (b : Fin 4) (x : ParkBank) :
    (s.setBank b x).parkOrder = s.parkOrder := rfl

@[simp] theorem State.setBank_bandSets (s : State) (b : Fin 4) (x : ParkBank) :
    (s.setBank b x).bandSets = s.bandSets := rfl

@[simp] theorem State.setBank_accums (s : State) (b : Fin 4) (x : ParkBank) :
    (s.setBank b x).accums = s.accums := rfl

@[simp] theorem State.setBank_writer (s : State) (b : Fin 4) (x : ParkBank) :
    (s.setBank b x).writer = s.writer := rfl

@[simp] theorem State.setBank_window (s : State) (b : Fin 4) (x : ParkBank) :
    (s.setBank b x).window = s.window := rfl

@[simp] theorem State.setBank_readData (s : State) (b : Fin 4) (x : ParkBank) :
    (s.setBank b x).readData = s.readData := rfl

@[simp] theorem State.setBank_free (s : State) (b : Fin 4) (x : ParkBank) :
    (s.setBank b x).free = s.free := rfl

@[simp] theorem State.setBank_pending (s : State) (b : Fin 4) (x : ParkBank) :
    (s.setBank b x).pending = s.pending := rfl

/-! ## setBandSet -/

@[simp] theorem State.setBandSet_part (s : State) (i : Fin 8) (x : BandSet) :
    (s.setBandSet i x).part = s.part := rfl

@[simp] theorem State.setBandSet_mem (s : State) (i : Fin 8) (x : BandSet) :
    (s.setBandSet i x).mem = s.mem := rfl

@[simp] theorem State.setBandSet_engine (s : State) (i : Fin 8) (x : BandSet) :
    (s.setBandSet i x).engine = s.engine := rfl

@[simp] theorem State.setBandSet_slate (s : State) (i : Fin 8) (x : BandSet) :
    (s.setBandSet i x).slate = s.slate := rfl

@[simp] theorem State.setBandSet_table (s : State) (i : Fin 8) (x : BandSet) :
    (s.setBandSet i x).table = s.table := rfl

@[simp] theorem State.setBandSet_lane0 (s : State) (i : Fin 8) (x : BandSet) :
    (s.setBandSet i x).lane0 = s.lane0 := rfl

@[simp] theorem State.setBandSet_lane1 (s : State) (i : Fin 8) (x : BandSet) :
    (s.setBandSet i x).lane1 = s.lane1 := rfl

@[simp] theorem State.setBandSet_banks (s : State) (i : Fin 8) (x : BandSet) :
    (s.setBandSet i x).banks = s.banks := rfl

@[simp] theorem State.setBandSet_parkOrder (s : State) (i : Fin 8) (x : BandSet) :
    (s.setBandSet i x).parkOrder = s.parkOrder := rfl

@[simp] theorem State.setBandSet_bandSets (s : State) (i : Fin 8) (x : BandSet) :
    (s.setBandSet i x).bandSets = s.bandSets.set i x := rfl

@[simp] theorem State.setBandSet_accums (s : State) (i : Fin 8) (x : BandSet) :
    (s.setBandSet i x).accums = s.accums := rfl

@[simp] theorem State.setBandSet_writer (s : State) (i : Fin 8) (x : BandSet) :
    (s.setBandSet i x).writer = s.writer := rfl

@[simp] theorem State.setBandSet_window (s : State) (i : Fin 8) (x : BandSet) :
    (s.setBandSet i x).window = s.window := rfl

@[simp] theorem State.setBandSet_readData (s : State) (i : Fin 8) (x : BandSet) :
    (s.setBandSet i x).readData = s.readData := rfl

@[simp] theorem State.setBandSet_free (s : State) (i : Fin 8) (x : BandSet) :
    (s.setBandSet i x).free = s.free := rfl

@[simp] theorem State.setBandSet_pending (s : State) (i : Fin 8) (x : BandSet) :
    (s.setBandSet i x).pending = s.pending := rfl

/-! ## updEntry -/

@[simp] theorem State.updEntry_part (s : State) (k : Nat) (f : Entry → Entry) :
    (s.updEntry k f).part = s.part := rfl

@[simp] theorem State.updEntry_mem (s : State) (k : Nat) (f : Entry → Entry) :
    (s.updEntry k f).mem = s.mem := rfl

@[simp] theorem State.updEntry_engine (s : State) (k : Nat) (f : Entry → Entry) :
    (s.updEntry k f).engine = s.engine := rfl

@[simp] theorem State.updEntry_slate (s : State) (k : Nat) (f : Entry → Entry) :
    (s.updEntry k f).slate = s.slate := rfl

@[simp] theorem State.updEntry_table (s : State) (k : Nat) (f : Entry → Entry) :
    (s.updEntry k f).table = s.table.map (fun e => if e.slot = k then f e else e) := rfl

@[simp] theorem State.updEntry_lane0 (s : State) (k : Nat) (f : Entry → Entry) :
    (s.updEntry k f).lane0 = s.lane0 := rfl

@[simp] theorem State.updEntry_lane1 (s : State) (k : Nat) (f : Entry → Entry) :
    (s.updEntry k f).lane1 = s.lane1 := rfl

@[simp] theorem State.updEntry_banks (s : State) (k : Nat) (f : Entry → Entry) :
    (s.updEntry k f).banks = s.banks := rfl

@[simp] theorem State.updEntry_parkOrder (s : State) (k : Nat) (f : Entry → Entry) :
    (s.updEntry k f).parkOrder = s.parkOrder := rfl

@[simp] theorem State.updEntry_bandSets (s : State) (k : Nat) (f : Entry → Entry) :
    (s.updEntry k f).bandSets = s.bandSets := rfl

@[simp] theorem State.updEntry_accums (s : State) (k : Nat) (f : Entry → Entry) :
    (s.updEntry k f).accums = s.accums := rfl

@[simp] theorem State.updEntry_writer (s : State) (k : Nat) (f : Entry → Entry) :
    (s.updEntry k f).writer = s.writer := rfl

@[simp] theorem State.updEntry_window (s : State) (k : Nat) (f : Entry → Entry) :
    (s.updEntry k f).window = s.window := rfl

@[simp] theorem State.updEntry_readData (s : State) (k : Nat) (f : Entry → Entry) :
    (s.updEntry k f).readData = s.readData := rfl

@[simp] theorem State.updEntry_free (s : State) (k : Nat) (f : Entry → Entry) :
    (s.updEntry k f).free = s.free := rfl

@[simp] theorem State.updEntry_pending (s : State) (k : Nat) (f : Entry → Entry) :
    (s.updEntry k f).pending = s.pending := rfl

/-! ## removeEntry -/

@[simp] theorem State.removeEntry_part (s : State) (k : Nat) :
    (s.removeEntry k).part = s.part := rfl

@[simp] theorem State.removeEntry_mem (s : State) (k : Nat) :
    (s.removeEntry k).mem = s.mem := rfl

@[simp] theorem State.removeEntry_engine (s : State) (k : Nat) :
    (s.removeEntry k).engine = s.engine := rfl

@[simp] theorem State.removeEntry_slate (s : State) (k : Nat) :
    (s.removeEntry k).slate = s.slate := rfl

@[simp] theorem State.removeEntry_table (s : State) (k : Nat) :
    (s.removeEntry k).table = s.table.filter (fun e => e.slot != k) := rfl

@[simp] theorem State.removeEntry_lane0 (s : State) (k : Nat) :
    (s.removeEntry k).lane0 = s.lane0 := rfl

@[simp] theorem State.removeEntry_lane1 (s : State) (k : Nat) :
    (s.removeEntry k).lane1 = s.lane1 := rfl

@[simp] theorem State.removeEntry_banks (s : State) (k : Nat) :
    (s.removeEntry k).banks = s.banks := rfl

@[simp] theorem State.removeEntry_parkOrder (s : State) (k : Nat) :
    (s.removeEntry k).parkOrder = s.parkOrder := rfl

@[simp] theorem State.removeEntry_bandSets (s : State) (k : Nat) :
    (s.removeEntry k).bandSets = s.bandSets := rfl

@[simp] theorem State.removeEntry_accums (s : State) (k : Nat) :
    (s.removeEntry k).accums = s.accums := rfl

@[simp] theorem State.removeEntry_writer (s : State) (k : Nat) :
    (s.removeEntry k).writer = s.writer := rfl

@[simp] theorem State.removeEntry_window (s : State) (k : Nat) :
    (s.removeEntry k).window = s.window := rfl

@[simp] theorem State.removeEntry_readData (s : State) (k : Nat) :
    (s.removeEntry k).readData = s.readData := rfl

@[simp] theorem State.removeEntry_free (s : State) (k : Nat) :
    (s.removeEntry k).free = s.free := rfl

@[simp] theorem State.removeEntry_pending (s : State) (k : Nat) :
    (s.removeEntry k).pending = s.pending := rfl

/-! ## setEngineState -/

@[simp] theorem State.setEngineState_part (s : State) (x : EngineState) :
    (s.setEngineState x).part = s.part := rfl

@[simp] theorem State.setEngineState_mem (s : State) (x : EngineState) :
    (s.setEngineState x).mem = s.mem := rfl

@[simp] theorem State.setEngineState_engine (s : State) (x : EngineState) :
    (s.setEngineState x).engine = { s.engine with state := x } := rfl

@[simp] theorem State.setEngineState_slate (s : State) (x : EngineState) :
    (s.setEngineState x).slate = s.slate := rfl

@[simp] theorem State.setEngineState_table (s : State) (x : EngineState) :
    (s.setEngineState x).table = s.table := rfl

@[simp] theorem State.setEngineState_lane0 (s : State) (x : EngineState) :
    (s.setEngineState x).lane0 = s.lane0 := rfl

@[simp] theorem State.setEngineState_lane1 (s : State) (x : EngineState) :
    (s.setEngineState x).lane1 = s.lane1 := rfl

@[simp] theorem State.setEngineState_banks (s : State) (x : EngineState) :
    (s.setEngineState x).banks = s.banks := rfl

@[simp] theorem State.setEngineState_parkOrder (s : State) (x : EngineState) :
    (s.setEngineState x).parkOrder = s.parkOrder := rfl

@[simp] theorem State.setEngineState_bandSets (s : State) (x : EngineState) :
    (s.setEngineState x).bandSets = s.bandSets := rfl

@[simp] theorem State.setEngineState_accums (s : State) (x : EngineState) :
    (s.setEngineState x).accums = s.accums := rfl

@[simp] theorem State.setEngineState_writer (s : State) (x : EngineState) :
    (s.setEngineState x).writer = s.writer := rfl

@[simp] theorem State.setEngineState_window (s : State) (x : EngineState) :
    (s.setEngineState x).window = s.window := rfl

@[simp] theorem State.setEngineState_readData (s : State) (x : EngineState) :
    (s.setEngineState x).readData = s.readData := rfl

@[simp] theorem State.setEngineState_free (s : State) (x : EngineState) :
    (s.setEngineState x).free = s.free := rfl

@[simp] theorem State.setEngineState_pending (s : State) (x : EngineState) :
    (s.setEngineState x).pending = s.pending := rfl

/-! ## setFlags -/

@[simp] theorem State.setFlags_part (s : State) (f : StickyBits → StickyBits) :
    (s.setFlags f).part = s.part := rfl

@[simp] theorem State.setFlags_mem (s : State) (f : StickyBits → StickyBits) :
    (s.setFlags f).mem = s.mem := rfl

@[simp] theorem State.setFlags_engine (s : State) (f : StickyBits → StickyBits) :
    (s.setFlags f).engine = { s.engine with flags := f s.engine.flags } := rfl

@[simp] theorem State.setFlags_slate (s : State) (f : StickyBits → StickyBits) :
    (s.setFlags f).slate = s.slate := rfl

@[simp] theorem State.setFlags_table (s : State) (f : StickyBits → StickyBits) :
    (s.setFlags f).table = s.table := rfl

@[simp] theorem State.setFlags_lane0 (s : State) (f : StickyBits → StickyBits) :
    (s.setFlags f).lane0 = s.lane0 := rfl

@[simp] theorem State.setFlags_lane1 (s : State) (f : StickyBits → StickyBits) :
    (s.setFlags f).lane1 = s.lane1 := rfl

@[simp] theorem State.setFlags_banks (s : State) (f : StickyBits → StickyBits) :
    (s.setFlags f).banks = s.banks := rfl

@[simp] theorem State.setFlags_parkOrder (s : State) (f : StickyBits → StickyBits) :
    (s.setFlags f).parkOrder = s.parkOrder := rfl

@[simp] theorem State.setFlags_bandSets (s : State) (f : StickyBits → StickyBits) :
    (s.setFlags f).bandSets = s.bandSets := rfl

@[simp] theorem State.setFlags_accums (s : State) (f : StickyBits → StickyBits) :
    (s.setFlags f).accums = s.accums := rfl

@[simp] theorem State.setFlags_writer (s : State) (f : StickyBits → StickyBits) :
    (s.setFlags f).writer = s.writer := rfl

@[simp] theorem State.setFlags_window (s : State) (f : StickyBits → StickyBits) :
    (s.setFlags f).window = s.window := rfl

@[simp] theorem State.setFlags_readData (s : State) (f : StickyBits → StickyBits) :
    (s.setFlags f).readData = s.readData := rfl

@[simp] theorem State.setFlags_free (s : State) (f : StickyBits → StickyBits) :
    (s.setFlags f).free = s.free := rfl

@[simp] theorem State.setFlags_pending (s : State) (f : StickyBits → StickyBits) :
    (s.setFlags f).pending = s.pending := rfl

/-! ## setSlate -/

@[simp] theorem State.setSlate_part (s : State) (x : SlateReader) :
    (s.setSlate x).part = s.part := rfl

@[simp] theorem State.setSlate_mem (s : State) (x : SlateReader) :
    (s.setSlate x).mem = s.mem := rfl

@[simp] theorem State.setSlate_engine (s : State) (x : SlateReader) :
    (s.setSlate x).engine = s.engine := rfl

@[simp] theorem State.setSlate_slate (s : State) (x : SlateReader) :
    (s.setSlate x).slate = x := rfl

@[simp] theorem State.setSlate_table (s : State) (x : SlateReader) :
    (s.setSlate x).table = s.table := rfl

@[simp] theorem State.setSlate_lane0 (s : State) (x : SlateReader) :
    (s.setSlate x).lane0 = s.lane0 := rfl

@[simp] theorem State.setSlate_lane1 (s : State) (x : SlateReader) :
    (s.setSlate x).lane1 = s.lane1 := rfl

@[simp] theorem State.setSlate_banks (s : State) (x : SlateReader) :
    (s.setSlate x).banks = s.banks := rfl

@[simp] theorem State.setSlate_parkOrder (s : State) (x : SlateReader) :
    (s.setSlate x).parkOrder = s.parkOrder := rfl

@[simp] theorem State.setSlate_bandSets (s : State) (x : SlateReader) :
    (s.setSlate x).bandSets = s.bandSets := rfl

@[simp] theorem State.setSlate_accums (s : State) (x : SlateReader) :
    (s.setSlate x).accums = s.accums := rfl

@[simp] theorem State.setSlate_writer (s : State) (x : SlateReader) :
    (s.setSlate x).writer = s.writer := rfl

@[simp] theorem State.setSlate_window (s : State) (x : SlateReader) :
    (s.setSlate x).window = s.window := rfl

@[simp] theorem State.setSlate_readData (s : State) (x : SlateReader) :
    (s.setSlate x).readData = s.readData := rfl

@[simp] theorem State.setSlate_free (s : State) (x : SlateReader) :
    (s.setSlate x).free = s.free := rfl

@[simp] theorem State.setSlate_pending (s : State) (x : SlateReader) :
    (s.setSlate x).pending = s.pending := rfl

/-! ## setWriter -/

@[simp] theorem State.setWriter_part (s : State) (x : CompletionWriter) :
    (s.setWriter x).part = s.part := rfl

@[simp] theorem State.setWriter_mem (s : State) (x : CompletionWriter) :
    (s.setWriter x).mem = s.mem := rfl

@[simp] theorem State.setWriter_engine (s : State) (x : CompletionWriter) :
    (s.setWriter x).engine = s.engine := rfl

@[simp] theorem State.setWriter_slate (s : State) (x : CompletionWriter) :
    (s.setWriter x).slate = s.slate := rfl

@[simp] theorem State.setWriter_table (s : State) (x : CompletionWriter) :
    (s.setWriter x).table = s.table := rfl

@[simp] theorem State.setWriter_lane0 (s : State) (x : CompletionWriter) :
    (s.setWriter x).lane0 = s.lane0 := rfl

@[simp] theorem State.setWriter_lane1 (s : State) (x : CompletionWriter) :
    (s.setWriter x).lane1 = s.lane1 := rfl

@[simp] theorem State.setWriter_banks (s : State) (x : CompletionWriter) :
    (s.setWriter x).banks = s.banks := rfl

@[simp] theorem State.setWriter_parkOrder (s : State) (x : CompletionWriter) :
    (s.setWriter x).parkOrder = s.parkOrder := rfl

@[simp] theorem State.setWriter_bandSets (s : State) (x : CompletionWriter) :
    (s.setWriter x).bandSets = s.bandSets := rfl

@[simp] theorem State.setWriter_accums (s : State) (x : CompletionWriter) :
    (s.setWriter x).accums = s.accums := rfl

@[simp] theorem State.setWriter_writer (s : State) (x : CompletionWriter) :
    (s.setWriter x).writer = x := rfl

@[simp] theorem State.setWriter_window (s : State) (x : CompletionWriter) :
    (s.setWriter x).window = s.window := rfl

@[simp] theorem State.setWriter_readData (s : State) (x : CompletionWriter) :
    (s.setWriter x).readData = s.readData := rfl

@[simp] theorem State.setWriter_free (s : State) (x : CompletionWriter) :
    (s.setWriter x).free = s.free := rfl

@[simp] theorem State.setWriter_pending (s : State) (x : CompletionWriter) :
    (s.setWriter x).pending = s.pending := rfl

/-! ## setMem -/

@[simp] theorem State.setMem_part (s : State) (m : Memory) :
    (s.setMem m).part = s.part := rfl

@[simp] theorem State.setMem_mem (s : State) (m : Memory) :
    (s.setMem m).mem = m := rfl

@[simp] theorem State.setMem_engine (s : State) (m : Memory) :
    (s.setMem m).engine = s.engine := rfl

@[simp] theorem State.setMem_slate (s : State) (m : Memory) :
    (s.setMem m).slate = s.slate := rfl

@[simp] theorem State.setMem_table (s : State) (m : Memory) :
    (s.setMem m).table = s.table := rfl

@[simp] theorem State.setMem_lane0 (s : State) (m : Memory) :
    (s.setMem m).lane0 = s.lane0 := rfl

@[simp] theorem State.setMem_lane1 (s : State) (m : Memory) :
    (s.setMem m).lane1 = s.lane1 := rfl

@[simp] theorem State.setMem_banks (s : State) (m : Memory) :
    (s.setMem m).banks = s.banks := rfl

@[simp] theorem State.setMem_parkOrder (s : State) (m : Memory) :
    (s.setMem m).parkOrder = s.parkOrder := rfl

@[simp] theorem State.setMem_bandSets (s : State) (m : Memory) :
    (s.setMem m).bandSets = s.bandSets := rfl

@[simp] theorem State.setMem_accums (s : State) (m : Memory) :
    (s.setMem m).accums = s.accums := rfl

@[simp] theorem State.setMem_writer (s : State) (m : Memory) :
    (s.setMem m).writer = s.writer := rfl

@[simp] theorem State.setMem_window (s : State) (m : Memory) :
    (s.setMem m).window = s.window := rfl

@[simp] theorem State.setMem_readData (s : State) (m : Memory) :
    (s.setMem m).readData = s.readData := rfl

@[simp] theorem State.setMem_free (s : State) (m : Memory) :
    (s.setMem m).free = s.free := rfl

@[simp] theorem State.setMem_pending (s : State) (m : Memory) :
    (s.setMem m).pending = s.pending := rfl

/-! ## afterHost -/

@[simp] theorem State.afterHost_part (s : State) (h : HostWrites) :
    (s.afterHost h).part = s.part := rfl

@[simp] theorem State.afterHost_mem (s : State) (h : HostWrites) :
    (s.afterHost h).mem = s.mem.hostWrites h := rfl

@[simp] theorem State.afterHost_engine (s : State) (h : HostWrites) :
    (s.afterHost h).engine = s.engine := rfl

@[simp] theorem State.afterHost_slate (s : State) (h : HostWrites) :
    (s.afterHost h).slate = s.slate := rfl

@[simp] theorem State.afterHost_table (s : State) (h : HostWrites) :
    (s.afterHost h).table = s.table := rfl

@[simp] theorem State.afterHost_lane0 (s : State) (h : HostWrites) :
    (s.afterHost h).lane0 = s.lane0 := rfl

@[simp] theorem State.afterHost_lane1 (s : State) (h : HostWrites) :
    (s.afterHost h).lane1 = s.lane1 := rfl

@[simp] theorem State.afterHost_banks (s : State) (h : HostWrites) :
    (s.afterHost h).banks = s.banks := rfl

@[simp] theorem State.afterHost_parkOrder (s : State) (h : HostWrites) :
    (s.afterHost h).parkOrder = s.parkOrder := rfl

@[simp] theorem State.afterHost_bandSets (s : State) (h : HostWrites) :
    (s.afterHost h).bandSets = s.bandSets := rfl

@[simp] theorem State.afterHost_accums (s : State) (h : HostWrites) :
    (s.afterHost h).accums = s.accums := rfl

@[simp] theorem State.afterHost_writer (s : State) (h : HostWrites) :
    (s.afterHost h).writer = s.writer := rfl

@[simp] theorem State.afterHost_window (s : State) (h : HostWrites) :
    (s.afterHost h).window = s.window := rfl

@[simp] theorem State.afterHost_readData (s : State) (h : HostWrites) :
    (s.afterHost h).readData = s.readData := rfl

@[simp] theorem State.afterHost_free (s : State) (h : HostWrites) :
    (s.afterHost h).free = s.free := rfl

@[simp] theorem State.afterHost_pending (s : State) (h : HostWrites) :
    (s.afterHost h).pending = s.pending := rfl

/-! ## handOver -/

@[simp] theorem State.handOver_part (s : State) (h : HandOver) :
    (s.handOver h).part = s.part := rfl

@[simp] theorem State.handOver_mem (s : State) (h : HandOver) :
    (s.handOver h).mem = s.mem := rfl

@[simp] theorem State.handOver_engine (s : State) (h : HandOver) :
    (s.handOver h).engine = s.engine := rfl

@[simp] theorem State.handOver_slate (s : State) (h : HandOver) :
    (s.handOver h).slate = s.slate := rfl

@[simp] theorem State.handOver_table (s : State) (h : HandOver) :
    (s.handOver h).table = s.table := rfl

@[simp] theorem State.handOver_lane0 (s : State) (h : HandOver) :
    (s.handOver h).lane0 = s.lane0 := rfl

@[simp] theorem State.handOver_lane1 (s : State) (h : HandOver) :
    (s.handOver h).lane1 = s.lane1 := rfl

@[simp] theorem State.handOver_banks (s : State) (h : HandOver) :
    (s.handOver h).banks = s.banks := rfl

@[simp] theorem State.handOver_parkOrder (s : State) (h : HandOver) :
    (s.handOver h).parkOrder = s.parkOrder := rfl

@[simp] theorem State.handOver_bandSets (s : State) (h : HandOver) :
    (s.handOver h).bandSets = s.bandSets := rfl

@[simp] theorem State.handOver_accums (s : State) (h : HandOver) :
    (s.handOver h).accums = s.accums := rfl

@[simp] theorem State.handOver_writer (s : State) (h : HandOver) :
    (s.handOver h).writer = { s.writer with waiting := s.writer.waiting ++ [h] } := rfl

@[simp] theorem State.handOver_window (s : State) (h : HandOver) :
    (s.handOver h).window = s.window := rfl

@[simp] theorem State.handOver_readData (s : State) (h : HandOver) :
    (s.handOver h).readData = s.readData := rfl

@[simp] theorem State.handOver_free (s : State) (h : HandOver) :
    (s.handOver h).free = s.free := rfl

@[simp] theorem State.handOver_pending (s : State) (h : HandOver) :
    (s.handOver h).pending = s.pending := rfl

/-! ## setAccums -/

@[simp] theorem State.setAccums_part (s : State) (a : Vector Total 64) :
    (s.setAccums a).part = s.part := rfl

@[simp] theorem State.setAccums_mem (s : State) (a : Vector Total 64) :
    (s.setAccums a).mem = s.mem := rfl

@[simp] theorem State.setAccums_engine (s : State) (a : Vector Total 64) :
    (s.setAccums a).engine = s.engine := rfl

@[simp] theorem State.setAccums_slate (s : State) (a : Vector Total 64) :
    (s.setAccums a).slate = s.slate := rfl

@[simp] theorem State.setAccums_table (s : State) (a : Vector Total 64) :
    (s.setAccums a).table = s.table := rfl

@[simp] theorem State.setAccums_lane0 (s : State) (a : Vector Total 64) :
    (s.setAccums a).lane0 = s.lane0 := rfl

@[simp] theorem State.setAccums_lane1 (s : State) (a : Vector Total 64) :
    (s.setAccums a).lane1 = s.lane1 := rfl

@[simp] theorem State.setAccums_banks (s : State) (a : Vector Total 64) :
    (s.setAccums a).banks = s.banks := rfl

@[simp] theorem State.setAccums_parkOrder (s : State) (a : Vector Total 64) :
    (s.setAccums a).parkOrder = s.parkOrder := rfl

@[simp] theorem State.setAccums_bandSets (s : State) (a : Vector Total 64) :
    (s.setAccums a).bandSets = s.bandSets := rfl

@[simp] theorem State.setAccums_accums (s : State) (a : Vector Total 64) :
    (s.setAccums a).accums = a := rfl

@[simp] theorem State.setAccums_writer (s : State) (a : Vector Total 64) :
    (s.setAccums a).writer = s.writer := rfl

@[simp] theorem State.setAccums_window (s : State) (a : Vector Total 64) :
    (s.setAccums a).window = s.window := rfl

@[simp] theorem State.setAccums_readData (s : State) (a : Vector Total 64) :
    (s.setAccums a).readData = s.readData := rfl

@[simp] theorem State.setAccums_free (s : State) (a : Vector Total 64) :
    (s.setAccums a).free = s.free := rfl

@[simp] theorem State.setAccums_pending (s : State) (a : Vector Total 64) :
    (s.setAccums a).pending = s.pending := rfl

/-! ## setWindow -/

@[simp] theorem State.setWindow_part (s : State) (w : WindowPort) :
    (s.setWindow w).part = s.part := rfl

@[simp] theorem State.setWindow_mem (s : State) (w : WindowPort) :
    (s.setWindow w).mem = s.mem := rfl

@[simp] theorem State.setWindow_engine (s : State) (w : WindowPort) :
    (s.setWindow w).engine = s.engine := rfl

@[simp] theorem State.setWindow_slate (s : State) (w : WindowPort) :
    (s.setWindow w).slate = s.slate := rfl

@[simp] theorem State.setWindow_table (s : State) (w : WindowPort) :
    (s.setWindow w).table = s.table := rfl

@[simp] theorem State.setWindow_lane0 (s : State) (w : WindowPort) :
    (s.setWindow w).lane0 = s.lane0 := rfl

@[simp] theorem State.setWindow_lane1 (s : State) (w : WindowPort) :
    (s.setWindow w).lane1 = s.lane1 := rfl

@[simp] theorem State.setWindow_banks (s : State) (w : WindowPort) :
    (s.setWindow w).banks = s.banks := rfl

@[simp] theorem State.setWindow_parkOrder (s : State) (w : WindowPort) :
    (s.setWindow w).parkOrder = s.parkOrder := rfl

@[simp] theorem State.setWindow_bandSets (s : State) (w : WindowPort) :
    (s.setWindow w).bandSets = s.bandSets := rfl

@[simp] theorem State.setWindow_accums (s : State) (w : WindowPort) :
    (s.setWindow w).accums = s.accums := rfl

@[simp] theorem State.setWindow_writer (s : State) (w : WindowPort) :
    (s.setWindow w).writer = s.writer := rfl

@[simp] theorem State.setWindow_window (s : State) (w : WindowPort) :
    (s.setWindow w).window = w := rfl

@[simp] theorem State.setWindow_readData (s : State) (w : WindowPort) :
    (s.setWindow w).readData = s.readData := rfl

@[simp] theorem State.setWindow_free (s : State) (w : WindowPort) :
    (s.setWindow w).free = s.free := rfl

@[simp] theorem State.setWindow_pending (s : State) (w : WindowPort) :
    (s.setWindow w).pending = s.pending := rfl

/-! ## setLane and the lanes -/

@[simp] theorem State.setLane_part (s : State) (n : LaneId) (l : Lane) : (s.setLane n l).part = s.part := by
  cases n <;> rfl

@[simp] theorem State.setLane_mem (s : State) (n : LaneId) (l : Lane) : (s.setLane n l).mem = s.mem := by
  cases n <;> rfl

@[simp] theorem State.setLane_engine (s : State) (n : LaneId) (l : Lane) : (s.setLane n l).engine = s.engine := by
  cases n <;> rfl

@[simp] theorem State.setLane_slate (s : State) (n : LaneId) (l : Lane) : (s.setLane n l).slate = s.slate := by
  cases n <;> rfl

@[simp] theorem State.setLane_table (s : State) (n : LaneId) (l : Lane) : (s.setLane n l).table = s.table := by
  cases n <;> rfl

@[simp] theorem State.setLane_banks (s : State) (n : LaneId) (l : Lane) : (s.setLane n l).banks = s.banks := by
  cases n <;> rfl

@[simp] theorem State.setLane_parkOrder (s : State) (n : LaneId) (l : Lane) : (s.setLane n l).parkOrder = s.parkOrder := by
  cases n <;> rfl

@[simp] theorem State.setLane_bandSets (s : State) (n : LaneId) (l : Lane) : (s.setLane n l).bandSets = s.bandSets := by
  cases n <;> rfl

@[simp] theorem State.setLane_accums (s : State) (n : LaneId) (l : Lane) : (s.setLane n l).accums = s.accums := by
  cases n <;> rfl

@[simp] theorem State.setLane_writer (s : State) (n : LaneId) (l : Lane) : (s.setLane n l).writer = s.writer := by
  cases n <;> rfl

@[simp] theorem State.setLane_window (s : State) (n : LaneId) (l : Lane) : (s.setLane n l).window = s.window := by
  cases n <;> rfl

@[simp] theorem State.setLane_readData (s : State) (n : LaneId) (l : Lane) : (s.setLane n l).readData = s.readData := by
  cases n <;> rfl

@[simp] theorem State.setLane_free (s : State) (n : LaneId) (l : Lane) : (s.setLane n l).free = s.free := by
  cases n <;> rfl

@[simp] theorem State.setLane_pending (s : State) (n : LaneId) (l : Lane) : (s.setLane n l).pending = s.pending := by
  cases n <;> rfl

@[simp] theorem State.lane_setLane (s : State) (n : LaneId) (l : Lane) : (s.setLane n l).lane n = l := by
  cases n <;> rfl

@[simp] theorem State.lane_setLane_other (s : State) (n : LaneId) (l : Lane) :
    (s.setLane n l).lane (otherLane n) = s.lane (otherLane n) := by
  cases n <;> rfl

theorem State.lane_setLane_ne (s : State) {n k : LaneId} (l : Lane) (h : k ≠ n) :
    (s.setLane n l).lane k = s.lane k := by
  cases n <;> cases k <;> first | rfl | exact absurd rfl h

@[simp] theorem State.lane_lane0 (s : State) : s.lane .lane0 = s.lane0 := rfl

@[simp] theorem State.lane_lane1 (s : State) : s.lane .lane1 = s.lane1 := rfl

@[simp] theorem State.setLane_lane0_lane0 (s : State) (l : Lane) : (s.setLane .lane0 l).lane0 = l := rfl

@[simp] theorem State.setLane_lane0_lane1 (s : State) (l : Lane) : (s.setLane .lane0 l).lane1 = s.lane1 := rfl

@[simp] theorem State.setLane_lane1_lane0 (s : State) (l : Lane) : (s.setLane .lane1 l).lane0 = s.lane0 := rfl

@[simp] theorem State.setLane_lane1_lane1 (s : State) (l : Lane) : (s.setLane .lane1 l).lane1 = l := rfl

/-! ## A lane, seen through an update of something else -/

@[simp] theorem State.lane_setBank (s : State) (b : Fin 4) (x : ParkBank) (n : LaneId) :
    (s.setBank b x).lane n = s.lane n := rfl

@[simp] theorem State.lane_setBandSet (s : State) (i : Fin 8) (x : BandSet) (n : LaneId) :
    (s.setBandSet i x).lane n = s.lane n := rfl

@[simp] theorem State.lane_updEntry (s : State) (k : Nat) (f : Entry → Entry) (n : LaneId) :
    (s.updEntry k f).lane n = s.lane n := rfl

@[simp] theorem State.lane_removeEntry (s : State) (k : Nat) (n : LaneId) :
    (s.removeEntry k).lane n = s.lane n := rfl

@[simp] theorem State.lane_setEngineState (s : State) (x : EngineState) (n : LaneId) :
    (s.setEngineState x).lane n = s.lane n := rfl

@[simp] theorem State.lane_setFlags (s : State) (f : StickyBits → StickyBits) (n : LaneId) :
    (s.setFlags f).lane n = s.lane n := rfl

@[simp] theorem State.lane_setSlate (s : State) (x : SlateReader) (n : LaneId) :
    (s.setSlate x).lane n = s.lane n := rfl

@[simp] theorem State.lane_setWriter (s : State) (x : CompletionWriter) (n : LaneId) :
    (s.setWriter x).lane n = s.lane n := rfl

@[simp] theorem State.lane_setMem (s : State) (m : Memory) (n : LaneId) :
    (s.setMem m).lane n = s.lane n := rfl

@[simp] theorem State.lane_afterHost (s : State) (h : HostWrites) (n : LaneId) :
    (s.afterHost h).lane n = s.lane n := rfl

@[simp] theorem State.lane_handOver (s : State) (h : HandOver) (n : LaneId) :
    (s.handOver h).lane n = s.lane n := rfl

@[simp] theorem State.lane_setAccums (s : State) (a : Vector Total 64) (n : LaneId) :
    (s.setAccums a).lane n = s.lane n := rfl

@[simp] theorem State.lane_setWindow (s : State) (w : WindowPort) (n : LaneId) :
    (s.setWindow w).lane n = s.lane n := rfl

end Sys2Proof.Machine
end

