-- ==== Sys2Proof/Laws/Kept.lean ====
section
/-! SUPPORT. What the shared operations leave alone: the part fitted, memory, accumulators, Window Port, the word read
last, the free counter and the queue. -/

namespace Sys2Proof.Machine

theorem State.Kept.refl (s : State) : s.Kept s := ⟨rfl, rfl, rfl, rfl, rfl, rfl, rfl⟩

theorem State.Kept.trans {s t u : State} (h : s.Kept t) (k : t.Kept u) : s.Kept u :=
  ⟨k.part.trans h.part, k.mem.trans h.mem, k.accums.trans h.accums, k.window.trans h.window,
    k.readData.trans h.readData, k.free.trans h.free, k.pending.trans h.pending⟩

/-! ## Updates -/

theorem State.kept_setLane (s : State) (n : LaneId) (l : Lane) : s.Kept (s.setLane n l) := by
  cases n <;> exact ⟨rfl, rfl, rfl, rfl, rfl, rfl, rfl⟩

theorem State.kept_setBank (s : State) (b : Fin 4) (x : ParkBank) : s.Kept (s.setBank b x) :=
  ⟨rfl, rfl, rfl, rfl, rfl, rfl, rfl⟩

theorem State.kept_setBandSet (s : State) (i : Fin 8) (x : BandSet) : s.Kept (s.setBandSet i x) :=
  ⟨rfl, rfl, rfl, rfl, rfl, rfl, rfl⟩

theorem State.kept_updEntry (s : State) (k : Nat) (f : Entry → Entry) : s.Kept (s.updEntry k f) :=
  ⟨rfl, rfl, rfl, rfl, rfl, rfl, rfl⟩

theorem State.kept_removeEntry (s : State) (k : Nat) : s.Kept (s.removeEntry k) := ⟨rfl, rfl, rfl, rfl, rfl, rfl, rfl⟩

theorem State.kept_setEngineState (s : State) (x : EngineState) : s.Kept (s.setEngineState x) :=
  ⟨rfl, rfl, rfl, rfl, rfl, rfl, rfl⟩

theorem State.kept_setFlags (s : State) (f : StickyBits → StickyBits) : s.Kept (s.setFlags f) :=
  ⟨rfl, rfl, rfl, rfl, rfl, rfl, rfl⟩

theorem State.kept_setSlate (s : State) (x : SlateReader) : s.Kept (s.setSlate x) := ⟨rfl, rfl, rfl, rfl, rfl, rfl, rfl⟩

theorem State.kept_setWriter (s : State) (x : CompletionWriter) : s.Kept (s.setWriter x) :=
  ⟨rfl, rfl, rfl, rfl, rfl, rfl, rfl⟩

theorem State.kept_handOver (s : State) (h : HandOver) : s.Kept (s.handOver h) := ⟨rfl, rfl, rfl, rfl, rfl, rfl, rfl⟩

theorem State.kept_parkOrder (s : State) (x : List Nat) : s.Kept { s with parkOrder := x } :=
  ⟨rfl, rfl, rfl, rfl, rfl, rfl, rfl⟩

theorem State.kept_engine (s : State) (x : Engine) : s.Kept { s with engine := x } := ⟨rfl, rfl, rfl, rfl, rfl, rfl, rfl⟩

theorem State.kept_asOneEvent (s : State) (f : State → State) (h : s.Kept (f s)) : s.Kept (s.asOneEvent f) :=
  h.trans (State.kept_setWriter _ _)

/-! ## The ends of orders -/

theorem State.kept_freeRequestBank (s : State) (n : LaneId) : s.Kept (s.freeRequestBank n) := by
  unfold State.freeRequestBank
  split
  · exact s.kept_setBank _ _
  all_goals exact .refl s

theorem State.kept_releaseSet (s : State) (e : Entry) : s.Kept (s.releaseSet e) := by
  unfold State.releaseSet
  split
  · split
    · exact (s.kept_setBandSet _ _).trans (State.kept_updEntry _ _ _)
    · exact .refl s
  · exact .refl s

theorem State.kept_endWalk (s : State) (n : LaneId) (f : FinalState) (r : Reason) (x : Option (Nat × Nat)) :
    s.Kept (s.endWalk n f r x) := by
  unfold State.endWalk
  split
  · exact (((s.kept_freeRequestBank n).trans (State.kept_setLane _ _ _)).trans (State.kept_releaseSet _ _)).trans
      (State.kept_handOver _ _)
  · exact .refl s

theorem State.kept_endPlain (s : State) (n : LaneId) (f : FinalState) (r : Reason) : s.Kept (s.endPlain n f r) := by
  unfold State.endPlain
  split
  · exact ((s.kept_freeRequestBank n).trans (State.kept_setLane _ _ _)).trans (State.kept_handOver _ _)
  · exact .refl s

theorem State.kept_endParked (s : State) (k : Nat) (r : Reason) : s.Kept (s.endParked k r) := by
  unfold State.endParked
  split
  · split
    · exact (((s.kept_releaseSet _).trans (State.kept_updEntry _ _ _)).trans (State.kept_parkOrder _ _)).trans
        (State.kept_handOver _ _)
    all_goals exact .refl s
  · exact .refl s

theorem State.kept_actOn (s : State) (n : LaneId) (r : StopRequest) : s.Kept (s.actOn n r) := by
  unfold State.actOn
  split
  all_goals first | exact s.kept_endWalk _ _ _ _ | exact .refl s

theorem State.kept_post (s : State) (n : LaneId) (r : StopRequest) : s.Kept (s.post n r) := by
  unfold State.post
  have h := (s.kept_freeRequestBank n).trans
    (State.kept_setLane _ n { s.lane n with request := r, state := .yielding })
  dsimp only
  split
  · exact .refl s
  · split
    · split
      · exact h.trans (State.kept_actOn _ _ _)
      · exact h
    · exact .refl s

theorem State.kept_settlePause (s : State) : s.Kept s.settlePause := by
  unfold State.settlePause
  split
  · exact s.kept_setEngineState _
  · exact .refl s

theorem State.kept_settleStop (s : State) : s.Kept s.settleStop := by
  unfold State.settleStop
  split
  · exact s.kept_setEngineState _
  · exact .refl s

/-! ## Sweeps -/

theorem State.kept_beginSweep (s : State) (a : Bool) : s.Kept (s.beginSweep a) := s.kept_setSlate _

theorem State.kept_requestSweep (s : State) : s.Kept s.requestSweep := by
  unfold State.requestSweep
  split
  · split
    · exact s.kept_setSlate _
    · exact s.kept_beginSweep _
  all_goals first | exact .refl s | exact s.kept_setSlate _

theorem State.kept_endSweep (s : State) : s.Kept s.endSweep := by
  unfold State.endSweep
  dsimp only
  split
  · split
    · exact (s.kept_setSlate _).trans (State.kept_beginSweep _ _)
    · exact s.kept_setSlate _
  · exact (s.kept_setSlate _).trans (State.kept_setSlate _ _)
  all_goals exact s.kept_setSlate _

theorem State.kept_advanceSweep (s : State) (k : Nat) : s.Kept (s.advanceSweep k) := by
  unfold State.advanceSweep
  dsimp only
  split
  all_goals first
    | exact s.kept_setSlate _
    | exact (s.kept_setSlate _).trans (State.kept_endSweep _)

theorem State.kept_failAtTake (s : State) (k : Nat) (h : List Byte) (r : Reason) : s.Kept (s.failAtTake k h r) :=
  (s.kept_setSlate _).trans (State.kept_handOver _ _)

/-! ## Lanes -/

theorem State.kept_setWork (s : State) (n : LaneId) (w : LaneWork) : s.Kept (s.setWork n w) := s.kept_setLane _ _

theorem State.kept_beginCell (s : State) (n : LaneId) : s.Kept (s.beginCell n) := by
  unfold State.beginCell
  split
  · exact s.kept_setLane _ _
  · exact .refl s

theorem State.kept_workOperands (s : State) (n : LaneId) (e : Entry) (w : CellWork) (a b : List Byte) :
    s.Kept (s.workOperands n e w a b) :=
  s.kept_setLane _ _

theorem State.kept_freezeLane (s : State) (n : LaneId) : s.Kept (s.freezeLane n) :=
  (s.kept_setLane _ _).trans (State.kept_settlePause _)

theorem State.kept_nextHousekeepingStep (s : State) (n : LaneId) (e : Entry) :
    s.Kept (s.nextHousekeepingStep n e) := by
  unfold State.nextHousekeepingStep
  dsimp only
  repeat' split
  all_goals first
    | exact s.kept_setLane _ _
    | exact s.kept_setWork _ _
    | exact s.kept_endPlain _ _ _
    | exact .refl s

theorem State.kept_stepBoundary (s : State) (n : LaneId) (e : Entry) : s.Kept (s.stepBoundary n e) := by
  unfold State.stepBoundary
  split
  · exact s.kept_freezeLane _
  · exact s.kept_nextHousekeepingStep _ _

theorem State.kept_thaw (s : State) (n : LaneId) : s.Kept (s.thaw n) := by
  unfold State.thaw
  split
  · split
    · dsimp only
      split
      · exact (s.kept_setLane _ _).trans (State.kept_nextHousekeepingStep _ _ _)
      · exact (s.kept_setLane _ _).trans (State.kept_beginCell _ _)
    · exact .refl s
  · exact .refl s

/-! ## Engine Control -/

theorem State.kept_failStart (s : State) (k : FaultKind) (a : Addr) : s.Kept (s.failStart k a) := s.kept_engine _

theorem State.kept_dropStart (s : State) : s.Kept s.dropStart := s.kept_engine _

theorem State.kept_beginStart (s : State) : s.Kept s.beginStart := by
  unfold State.beginStart
  dsimp only
  split
  · exact (s.kept_setSlate _).trans (State.kept_failStart _ _ _)
  · exact (s.kept_setSlate _).trans (State.kept_engine _ _)

theorem State.kept_beginPause (s : State) : s.Kept s.beginPause :=
  ((s.kept_setSlate _).trans (State.kept_setEngineState _ _)).trans (State.kept_settlePause _)

theorem State.kept_releasePause (s : State) : s.Kept s.releasePause := by
  have h : s.Kept (((s.setEngineState .running).thaw .lane0).thaw .lane1) :=
    ((s.kept_setEngineState _).trans (State.kept_thaw _ _)).trans (State.kept_thaw _ _)
  unfold State.releasePause
  dsimp only
  split
  · exact h.trans (State.kept_beginSweep _ _)
  · exact h

theorem State.kept_stopLane (s : State) (n : LaneId) : s.Kept (s.stopLane n) := by
  unfold State.stopLane
  split
  · split
    · exact s.kept_thaw _
    · exact s.kept_post _ _
  · exact .refl s

theorem State.kept_foldl {α : Type} (f : State → α → State) (h : ∀ (s : State) (a : α), s.Kept (f s a)) (l : List α) (s : State) :
    s.Kept (l.foldl f s) := by
  induction l generalizing s with
  | nil => exact .refl s
  | cons a rest ih => exact (h s a).trans (ih _)

theorem State.kept_beginStop (s : State) : s.Kept s.beginStop :=
  ((((s.kept_setSlate _).trans (State.kept_setEngineState _ _)).trans
    ((State.kept_stopLane _ _).trans (State.kept_stopLane _ _))).trans
      (State.kept_foldl _ (fun x _ => x.kept_endParked _ _) _ _)).trans (State.kept_settleStop _)

theorem State.kept_controlFields (s : State) (a b : Bool) : s.Kept (s.controlFields a b) := by
  unfold State.controlFields
  split
  all_goals first
    | exact .refl s
    | exact s.kept_beginStart
    | exact s.kept_beginPause
    | exact s.kept_beginStop
    | exact s.kept_releasePause
    | exact s.kept_engine _

theorem State.kept_controlWrite (s : State) (a b : Bool) (irq : StickyBits) : s.Kept (s.controlWrite a b irq) :=
  (s.kept_engine _).trans (State.kept_asOneEvent _ _ (State.kept_controlFields _ _ _))

/-! ## Cancels, completions, scheduling -/

theorem State.kept_cancelSlot (s : State) (i : Nat) : s.Kept (s.cancelSlot i) := by
  have miss : s.Kept s.cancelMissed := s.kept_setFlags _
  unfold State.cancelSlot State.cancelEntry State.cancelWaiting State.cancelRunning State.cancelParked
  dsimp only
  repeat' split
  all_goals first
    | exact miss
    | exact .refl s
    | exact (s.kept_updEntry _ _).trans (State.kept_handOver _ _)
    | exact s.kept_updEntry _ _
    | exact (s.kept_updEntry _ _).trans (State.kept_post _ _ _)
    | exact (s.kept_updEntry _ _).trans (State.kept_endParked _ _ _)

theorem State.kept_leaveSlot (s : State) (h : HandOver) : s.Kept (s.leaveSlot h) := by
  have lane : ∀ (t : State) (n : LaneId), t.Kept (t.clearLaneOf h.slot n) := by
    intro t n
    unfold State.clearLaneOf
    split
    · exact t.kept_setLane _ _
    · exact .refl t
  have bank : ∀ t : State, t.Kept (t.clearBankOf h.slot) := by
    intro t
    unfold State.clearBankOf
    split
    · split
      · exact t.kept_setBank _ _
      · exact .refl t
    · exact .refl t
  unfold State.leaveSlot
  split
  · split
    · exact s.kept_advanceSweep _
    all_goals exact .refl s
  · exact (((lane s _).trans (lane _ _)).trans (bank _)).trans (State.kept_removeEntry _ _)

theorem State.kept_firstStart (s : State) (n : LaneId) (e : Entry) : s.Kept (s.firstStart n e) :=
  (s.kept_setLane _ _).trans (State.kept_updEntry _ _ _)

theorem State.kept_resume (s : State) (n : LaneId) (e : Entry) : s.Kept (s.resume n e) := by
  unfold State.resume
  split
  · dsimp only
    split
    · exact (((s.kept_setLane _ _).trans (State.kept_setBank _ _ _)).trans
        ((State.kept_updEntry _ _ _).trans (State.kept_parkOrder _ _))).trans (State.kept_post _ _ _)
    · exact ((s.kept_setLane _ _).trans (State.kept_setBank _ _ _)).trans
        ((State.kept_updEntry _ _ _).trans (State.kept_parkOrder _ _))
  all_goals exact .refl s

theorem State.kept_requestPark (s : State) (n : LaneId) (b : Fin 4) : s.Kept (s.requestPark n b) :=
  (s.kept_setBank _ _).trans (State.kept_setLane _ _ _)

theorem State.kept_withdrawPark (s : State) (n : LaneId) : s.Kept (s.withdrawPark n) :=
  (s.kept_freeRequestBank n).trans (State.kept_setLane _ _ _)

theorem State.kept_finishPark (s : State) (n : LaneId) (e : Entry) (c : WalkContext) (b : Fin 4) :
    s.Kept (s.finishPark n e c b) :=
  (((s.kept_setBank _ _).trans (State.kept_setLane _ _ _)).trans (State.kept_updEntry _ _ _)).trans
    (State.kept_parkOrder _ _)

theorem State.kept_afterPark (s : State) (e : Entry) : s.Kept (s.afterPark e) := by
  unfold State.afterPark
  repeat' split
  all_goals first | exact s.kept_endParked _ _ | exact .refl s

/-! ## Walking orders -/

theorem State.kept_firstAccess (s : State) (n : LaneId) (e : Entry) : s.Kept (s.firstAccess n e) := by
  unfold State.firstAccess
  repeat' split
  all_goals first | exact s.kept_setWork _ _ | exact s.kept_beginCell _

theorem State.kept_startClaim (s : State) (n : LaneId) (e : Entry) (i : Fin 8) : s.Kept (s.startClaim n e i) := by
  have grant : s.Kept (s.grantStart n e i) :=
    ((s.kept_setBandSet _ _).trans (State.kept_updEntry _ _ _)).trans (State.kept_beginCell _ _)
  unfold State.startClaim
  repeat' split
  all_goals first | exact grant | exact s.kept_endPlain _ _ _

theorem State.kept_takeSourceA (s : State) (n : LaneId) (e : Entry) (w : CellWork) : s.Kept (s.takeSourceA n e w) := by
  unfold State.takeSourceA
  dsimp only
  split
  · exact s.kept_setLane _ _
  · exact s.kept_workOperands _ _ _ _ _

theorem State.kept_takeDestination (s : State) (n : LaneId) (e : Entry) (w : CellWork) :
    s.Kept (s.takeDestination n e w) :=
  s.kept_setWork _ _

theorem State.kept_walkDone (s : State) (n : LaneId) (e : Entry) : s.Kept (s.walkDone n e) := by
  unfold State.walkDone
  split
  · exact s.kept_setLane _ _
  · exact s.kept_endWalk _ _ _ _

theorem State.kept_passBoundary (s : State) (n : LaneId) (e : Entry) (c : WalkContext) (w : CellWork) :
    s.Kept (s.passBoundary n e c w) := by
  have ends : ∀ t : State, t.Kept (t.endOfWalk n e) := by
    intro t
    unfold State.endOfWalk
    split
    all_goals first
      | exact (t.kept_freeRequestBank _).trans (State.kept_walkDone _ _ _)
      | exact t.kept_actOn _ _
  have mid : ∀ t : State, t.Kept (t.midBoundary n) := by
    intro t
    unfold State.midBoundary
    repeat' split
    all_goals first
      | exact t.kept_setLane _ _
      | exact t.kept_actOn _ _
      | exact t.kept_freezeLane _
      | exact t.kept_beginCell _
  unfold State.passBoundary
  dsimp only
  split
  · exact (s.kept_setLane _ _).trans (ends _)
  · exact (s.kept_setLane _ _).trans (mid _)

/-! ## Housekeeping orders -/

theorem State.kept_finishStep (s : State) (n : LaneId) (e : Entry) : s.Kept (s.finishStep n e) :=
  (s.kept_setLane _ _).trans (State.kept_stepBoundary _ _ _)

theorem State.kept_finishLast (s : State) (n : LaneId) : s.Kept (s.finishLast n) :=
  (s.kept_setLane _ _).trans (State.kept_endPlain _ _ _ _)

theorem State.kept_takeImage (s : State) (n : LaneId) (e : Entry) (k : Nat) : s.Kept (s.takeImage n e k) := by
  unfold State.takeImage
  dsimp only
  split
  · exact (s.kept_setLane _ _).trans (State.kept_finishStep _ _ _)
  · exact s.kept_setLane _ _

theorem State.kept_takePresetRecord (s : State) (n : LaneId) (e : Entry) : s.Kept (s.takePresetRecord n e) := by
  unfold State.takePresetRecord
  dsimp only
  split
  · exact (s.kept_setLane _ _).trans (State.kept_finishStep _ _ _)
  · exact s.kept_endPlain _ _ _

theorem State.kept_failOrder (s : State) (n : LaneId) (e : Entry) : s.Kept (s.failOrder n e) := by
  unfold State.failOrder
  split
  · exact s.kept_endPlain _ _ _
  · exact s.kept_endWalk _ _ _ _

/-! ## The slate -/

theorem State.kept_takeAnchor (s : State) : s.Kept s.takeAnchor := by
  unfold State.takeAnchor
  split
  · exact s.kept_engine _
  · exact s.kept_failStart _ _

theorem State.kept_completeStart (s : State) : s.Kept s.completeStart :=
  (((s.kept_setWriter _).trans (State.kept_engine _ _)).trans (State.kept_setSlate _ _)).trans
    (State.kept_beginSweep _ _)

theorem State.kept_meetHeader (s : State) (k : Nat) (h : List Byte) : s.Kept (s.meetHeader k h) := by
  unfold State.meetHeader State.meetPosted
  dsimp only
  repeat' split
  all_goals first
    | exact s.kept_advanceSweep _
    | exact s.kept_endSweep
    | exact s.kept_failAtTake _ _ _
    | exact s.kept_setSlate _

theorem State.kept_meetBody (s : State) (k : Nat) (h b : List Byte) : s.Kept (s.meetBody k h b) := by
  unfold State.meetBody
  repeat' split
  all_goals first
    | exact s.kept_failAtTake _ _ _
    | exact s.kept_setSlate _

end Sys2Proof.Machine
end

