-- ==== Sys2Proof/Laws/Lanes.lean ====
section
/-! SUPPORT. What the operations on lanes do,
field by field: entries found, cells begun and worked, requests posted, lanes frozen and thawed, parks and ends. -/

namespace Sys2Proof.Machine

/-! ## A lane under updates of other fields -/

@[simp] theorem State.lane_releaseSet (s : State) (e : Entry) (n : LaneId) : (s.releaseSet e).lane n = s.lane n := by
  unfold State.releaseSet; split
  · split <;> cases n <;> rfl
  · rfl

@[simp] theorem State.lane_freeRequestBank (s : State) (k n : LaneId) : (s.freeRequestBank k).lane n = s.lane n := by
  unfold State.freeRequestBank; split <;> cases n <;> rfl

@[simp] theorem State.lane_settlePause (s : State) (n : LaneId) : s.settlePause.lane n = s.lane n := by
  unfold State.settlePause; split <;> cases n <;> rfl

@[simp] theorem State.lane_settleStop (s : State) (n : LaneId) : s.settleStop.lane n = s.lane n := by
  unfold State.settleStop; split <;> cases n <;> rfl

theorem otherLane_ne (n : LaneId) : otherLane n ≠ n := by cases n <;> decide

theorem ne_otherLane {k n : LaneId} (h : k ≠ n) : k = otherLane n
    := by cases n <;> cases k <;> first | rfl | exact absurd rfl h

theorem State.setLane_setLane (s : State) (n : LaneId) (l l' : Lane) :
    (s.setLane n l).setLane n l' = s.setLane n l' := by cases n <;> rfl

theorem State.setLane_lane (s : State) (n : LaneId) (l : Lane) : (s.setLane n l).lane n = l := by cases n <;> rfl

theorem State.setWork_eq (s : State) (n w) : s.setWork n w = s.setLane n { s.lane n with work := w } := rfl

/-! ## Entries -/

theorem State.laneEntry_congr {s t : State} (n : LaneId) (hl : t.lane n = s.lane n)
    (ht : t.table = s.table) : t.laneEntry n = s.laneEntry n := by
  unfold State.laneEntry State.entry?; rw [hl, ht]

theorem State.entry_updEntry (s : State) (k slot : Nat) (f : Entry → Entry) (hf : ∀ e, (f e).slot = e.slot) :
    (s.updEntry k f).entry? slot = (s.entry? slot).map (fun e => if e.slot = k then f e else e) := by
  unfold State.entry? State.updEntry
  dsimp only
  rw [List.find?_map]
  congr 1
  congr 1
  funext e
  simp only [Function.comp]
  split
  · rw [hf]
  · rfl

theorem State.entry_of_mem {s : State} (hn : (s.table.map (fun x => x.slot)).Nodup) {e : Entry}
    (he : e ∈ s.table) : s.entry? e.slot = some e := by
  unfold State.entry?
  generalize s.table = tb at hn he
  induction tb with
  | nil => cases he
  | cons x rest ih =>
    rw [List.find?_cons]
    rw [List.map_cons, List.nodup_cons] at hn
    rcases List.mem_cons.1 he with rfl | h
    · simp
    · have : x.slot ≠ e.slot := fun q => hn.1 (q ▸ List.mem_map_of_mem h)
      have hb : (x.slot == e.slot) = false := by simpa using this
      rw [hb]
      exact ih hn.2 h

theorem State.laneEntry_of_order {s : State} {n : LaneId} {slot : Nat} {e : Entry} (h2 :
    (s.lane n).order = some slot) (h3 : s.entry? slot = some e) : s.laneEntry n = some e := by
  unfold State.laneEntry; rw [h2]; exact h3

theorem State.slot_of_entry {s : State} {slot : Nat} {e : Entry} (h3 : s.entry? slot = some e) : e.slot = slot := by
  have := List.find?_some h3; simpa using this

theorem State.laneEntry_setMem (s : State) (m : Memory) (n : LaneId) : (s.setMem m).laneEntry n = s.laneEntry n := by
  cases n <;> rfl

theorem State.laneEntry_setAccums (s : State) (a) (n : LaneId) :
    (s.setAccums a).laneEntry n = s.laneEntry n := by cases n <;> rfl

theorem State.laneEntry_setLane (s : State) (n : LaneId) (l : Lane) (h : l.order = (s.lane n).order) :
    (s.setLane n l).laneEntry n = s.laneEntry n := by
  unfold State.laneEntry; rw [State.setLane_lane, h]; cases n <;> rfl

/-! ## Hand-overs of one event -/

theorem joinAfter_length (hs : List HandOver) : joinAfter hs.length hs = hs := by
  unfold joinAfter
  rw [List.take_of_length_le (by omega), List.drop_of_length_le (by omega)]; simp

/-- An event that hands nothing over leaves its state as it is (log 16). -/
theorem State.asOneEvent_of_none_handed (s : State) (f : State →
    State) (h : (f s).writer.waiting = s.writer.waiting) : s.asOneEvent f = f s := by
  unfold State.asOneEvent
  dsimp only
  rw [h, joinAfter_length, ← h]
  rfl

/-! ## Ends -/

theorem State.endPlain_lane_ne (s : State) (n : LaneId) (f r) {k : LaneId} (h : k ≠ n) :
    (s.endPlain n f r).lane k = s.lane k := by
  unfold State.endPlain; split
  · simp only [State.lane_handOver]; rw [State.lane_setLane_ne _ _ h]; simp
  · rfl

theorem State.endWalk_lane_ne (s : State) (n : LaneId) (f r x) {k : LaneId} (h : k ≠ n) :
    (s.endWalk n f r x).lane k = s.lane k := by
  unfold State.endWalk; split
  · simp only [State.lane_handOver, State.lane_releaseSet]; rw [State.lane_setLane_ne _ _ h]; simp
  · rfl

theorem State.endPlain_lane (s : State) (n : LaneId) (f r) : (s.endPlain n f r).lane n = s.lane n ∨
    (s.endPlain n f r).lane n = (s.lane n).ending := by
  unfold State.endPlain; split
  · simp
  · left; rfl

theorem State.releaseSet_fields (s : State) (e : Entry) : (s.releaseSet e).engine = s.engine ∧
    (s.releaseSet e).slate = s.slate ∧ (s.releaseSet e).parkOrder = s.parkOrder ∧
    (s.releaseSet e).writer = s.writer ∧ (s.releaseSet e).banks = s.banks := by
  unfold State.releaseSet; split
  · split <;> exact ⟨rfl, rfl, rfl, rfl, rfl⟩
  · exact ⟨rfl, rfl, rfl, rfl, rfl⟩

/-- The release of a claimed use (R62). -/
theorem State.releaseSet_of_claimed (s : State) (e : Entry) (h : e.claimed = true) (i : Fin 8)
    (hi : referencedSet e.header.kind e.body = some i) :
   (s.releaseSet e).bandSets = s.bandSets.set i { s.bandSets[i] with uses := s.bandSets[i].uses - 1 } ∧
       (s.releaseSet e).table = s.table.map (fun x => if x.slot = e.slot then { x with claimed := false } else x) :=
       by
  unfold State.releaseSet; rw [if_pos h, hi]; exact ⟨rfl, rfl⟩

theorem State.freeRequestBank_fields (s : State) (n : LaneId) : (s.freeRequestBank n).engine = s.engine ∧
    (s.freeRequestBank n).slate = s.slate ∧ (s.freeRequestBank n).parkOrder = s.parkOrder ∧
    (s.freeRequestBank n).writer = s.writer ∧ (s.freeRequestBank n).bandSets = s.bandSets ∧
    (s.freeRequestBank n).table = s.table := by
  unfold State.freeRequestBank; split <;> exact ⟨rfl, rfl, rfl, rfl, rfl, rfl⟩

/-- An order ended from its lane: all that an ended lane holds follows from the lane at `Lane.ending`. -/
theorem State.Ended.of_lane {s t : State} {n : LaneId} {h : HandOver} (hl : t.lane n = (s.lane n).ending)
    (other : t.lane (otherLane n) = s.lane (otherLane n))
    (writer : t.writer = { s.writer with waiting := s.writer.waiting ++ [h] }) (engine : t.engine = s.engine)
    (slate : t.slate = s.slate) (parkOrder : t.parkOrder = s.parkOrder) (kept : s.Kept t) : s.Ended t n h := by
  constructor <;> first | assumption | (rw [hl]; rfl)

/-- The end of an order with every count 0 (R126). -/
theorem State.ended_endPlain (s : State) (n : LaneId) (e : Entry) (f r) (he : s.laneEntry n = some e) :
   ∃ h, s.Ended (s.endPlain n f r) n h ∧ h = plainHandOver e f r (housekeepingIndicators e.header.kind
       ((s.lane n).buffer.entries.toList.any (fun t => t.overflow))) ∧ (s.endPlain n f r).bandSets = s.bandSets ∧
       (s.endPlain n f r).table = s.table := by
  have hk := s.kept_endPlain n f r
  obtain ⟨q1, q2, q3, q4, q5, q6⟩ := State.freeRequestBank_fields s n
  have ee : s.endPlain n f r = ((s.freeRequestBank n).setLane n (s.lane n).ending).handOver (plainHandOver e f r
      (housekeepingIndicators e.header.kind ((s.lane n).buffer.entries.toList.any (fun t => t.overflow)))) := by
    unfold State.endPlain; rw [he]
  have l1 : (s.endPlain n f r).lane n = (s.lane n).ending := by rw [ee]; cases n <;> rfl
  refine ⟨_, State.Ended.of_lane l1 (State.endPlain_lane_ne s n f r (otherLane_ne n)) ?_ ?_ ?_ ?_ hk, rfl, ?_, ?_⟩
  · rw [ee, ← q4]; cases n <;> rfl
  · rw [ee, ← q1]; cases n <;> rfl
  · rw [ee, ← q2]; cases n <;> rfl
  · rw [ee, ← q3]; cases n <;> rfl
  · rw [ee, ← q5]; cases n <;> rfl
  · rw [ee, ← q6]; cases n <;> rfl

/-- The end of a walking order (R95, R161). -/
theorem State.ended_endWalk (s : State) (n : LaneId) (e : Entry) (c : WalkContext) (f r x)
    (he : s.laneEntry n = some e) (hc : (s.lane n).context = some c) :
   ∃ h, s.Ended (s.endWalk n f r x) n h ∧ h = walkHandOver e c.record f r (f == .done && c.commitOverflow) x ∧
    (∀ i, e.claimed = true → referencedSet e.header.kind e.body = some i →
        (s.endWalk n f r x).bandSets = s.bandSets.set i { s.bandSets[i] with uses := s.bandSets[i].uses - 1 } ∧
        (s.endWalk n f r x).table = s.table.map (fun x => if x.slot = e.slot then { x with claimed := false } else
        x)) := by
  have hk := s.kept_endWalk n f r x
  obtain ⟨q1, q2, q3, q4, q5, q6⟩ := State.freeRequestBank_fields s n
  set a := (s.freeRequestBank n).setLane n (s.lane n).ending with ha
  obtain ⟨p1, p2, p3, p4, p5⟩ := State.releaseSet_fields a e
  have ee : s.endWalk n f r x = (a.releaseSet e).handOver (walkHandOver e c.record f r
      (f == .done && c.commitOverflow) x) := by
    unfold State.endWalk; rw [he, hc]
  have l1 : (s.endWalk n f r x).lane n = (s.lane n).ending := by
    rw [ee, State.lane_handOver, State.lane_releaseSet]
    cases n <;> rfl
  refine ⟨_, State.Ended.of_lane l1 (State.endWalk_lane_ne s n f r x (otherLane_ne n)) ?_ ?_ ?_ ?_ hk, rfl, fun i hcl hi => ?_⟩
  · have : s.writer = (a.releaseSet e).writer := by rw [p4, ← q4]; cases n <;> rfl
    rw [ee, this]; rfl
  · rw [ee]; show (a.releaseSet e).engine = _; rw [p1, ← q1]; cases n <;> rfl
  · rw [ee]; show (a.releaseSet e).slate = _; rw [p2, ← q2]; cases n <;> rfl
  · rw [ee]; show (a.releaseSet e).parkOrder = _; rw [p3, ← q3]; cases n <;> rfl
  · obtain ⟨z1, z2⟩ := State.releaseSet_of_claimed a e hcl i hi
    have ab : a.bandSets = s.bandSets := by rw [← q5]; cases n <;> rfl
    have at' : a.table = s.table := by rw [← q6]; cases n <;> rfl
    rw [ee]
    refine ⟨?_, ?_⟩
    · show (a.releaseSet e).bandSets = _; rw [z1, ab]
    · show (a.releaseSet e).table = _; rw [z2, at']

theorem State.Ended.after {s t u : State} {n : LaneId} {h : HandOver} (hst : u.Ended t n h) (ho : u.lane
    (otherLane n) = s.lane (otherLane n)) (hr : (u.lane n).order = (s.lane n).order)
   (hw : u.writer = s.writer) (heng : u.engine = s.engine) (hsl : u.slate = s.slate)
       (hp : u.parkOrder = s.parkOrder) (hk : s.Kept u) : s.Ended t n h :=
  ⟨hst.endMark, hst.state, hst.request, hst.order.trans hr, hst.context, hst.staging, hst.buffer, hst.work,
      hst.other.trans ho, by rw [hst.writer, hw], hst.engine.trans heng, hst.slate.trans hsl, hst.parkOrder.trans hp, hk.trans hst.kept⟩

theorem State.Ended.after_setLane {s t : State} {n : LaneId} {h : HandOver} (l : Lane) (hst :
    (s.setLane n l).Ended t n h) (hr : l.order = (s.lane n).order) : s.Ended t n h :=
  State.Ended.after hst (by cases n <;> rfl) (by rw [State.setLane_lane]; exact hr) (by cases n <;> rfl)
      (by cases n <;> rfl) (by cases n <;> rfl) (by cases n <;> rfl) (s.kept_setLane _ _)

/-- The last step of a housekeeping order ends it DONE (R126). -/
theorem State.ended_finishLast (s : State) (n : LaneId) (e : Entry) (he : s.laneEntry n = some e) :
   ∃ h, s.Ended (s.finishLast n) n h ∧ h = plainHandOver e .done .none (housekeepingIndicators e.header.kind
       ((s.lane n).buffer.entries.toList.any (fun t => t.overflow))) ∧ (s.finishLast n).bandSets = s.bandSets ∧
       (s.finishLast n).table = s.table := by
  set t := s.setLane n { s.lane n with steps := (s.lane n).steps + 1 } with ht
  have te : t.laneEntry n = some e := (State.laneEntry_setLane s n { s.lane n with steps := (s.lane n).steps + 1 }
      rfl).trans he
  obtain ⟨h, k1, k2, k3, k4⟩ := State.ended_endPlain t n e .done .none te
  refine ⟨h, State.Ended.after_setLane _ k1 rfl, ?_, ?_, ?_⟩
  · rw [k2, ht, State.setLane_lane]
  · show (t.endPlain n .done .none).bandSets = _; rw [k3]; cases n <;> rfl
  · show (t.endPlain n .done .none).table = _; rw [k4]; cases n <;> rfl

theorem State.endParked_fields (s : State) (k r) : (s.endParked k r).slate = s.slate ∧
    (s.endParked k r).engine = s.engine ∧ (s.endParked k r).banks = s.banks ∧
    (∀ n, (s.endParked k r).lane n = s.lane n) := by
  unfold State.endParked State.releaseSet; dsimp only; repeat' split
  all_goals refine ⟨?_, ?_, ?_, fun n => ?_⟩ <;> first | (simp [State.handOver]; done) | (cases n <;> rfl) | rfl

/-- The end of a parked order (R182, R190). -/
theorem State.endParked_writer (s : State) (slot : Nat) (r) (e : Entry) (c) (he : s.entry? slot = some e)
    (hb : s.banks[e.bank] = .holding c) :
   (s.endParked slot r).writer = { s.writer with waiting := s.writer.waiting ++ [walkHandOver e c.record .cancelled r false none] } := by
  have rl : ∀ (s : State) e, (s.releaseSet e).writer = s.writer := by
    intro s e; unfold State.releaseSet; split
    · split <;> rfl
    · rfl
  unfold State.endParked; rw [he]; dsimp only; rw [hb]; dsimp only
  simp [State.handOver, State.setWriter, State.updEntry, rl]

/-! ## Cells -/

theorem Lane.beginCell_fields (e : Entry) (l : Lane) : (l.beginCell e).state = l.state ∧
    (l.beginCell e).runTimer = l.runTimer ∧ (l.beginCell e).order = l.order ∧ (l.beginCell e).staging = l.staging ∧
    (l.beginCell e).request = l.request ∧ (l.beginCell e).buffer = l.buffer ∧
    (l.beginCell e).endMark = l.endMark := by
  have tr : ∀ l : Lane, (l.toRecords e).state = l.state ∧ (l.toRecords e).runTimer = l.runTimer ∧
      (l.toRecords e).order = l.order ∧ (l.toRecords e).staging = l.staging ∧ (l.toRecords e).request = l.request ∧
      (l.toRecords e).buffer = l.buffer ∧ (l.toRecords e).endMark = l.endMark := by
    intro l; unfold Lane.toRecords; split <;> simp
  have sw : ∀ l : Lane, (l.startWrites e).state = l.state ∧ (l.startWrites e).runTimer = l.runTimer ∧
      (l.startWrites e).order = l.order ∧ (l.startWrites e).staging = l.staging ∧
      (l.startWrites e).request = l.request ∧ (l.startWrites e).buffer = l.buffer ∧
      (l.startWrites e).endMark = l.endMark := by
    intro l; unfold Lane.startWrites; split
    · split
      · split <;> simp
      · exact tr l
    · simp
  have am : ∀ l : Lane, (l.afterMark e).state = l.state ∧ (l.afterMark e).runTimer = l.runTimer ∧
      (l.afterMark e).order = l.order ∧ (l.afterMark e).staging = l.staging ∧ (l.afterMark e).request = l.request ∧
      (l.afterMark e).buffer = l.buffer ∧ (l.afterMark e).endMark = l.endMark := by
    intro l; unfold Lane.afterMark; split
    · split
      · simp
      · split
        · exact sw _
        · simp
    · simp
  unfold Lane.beginCell; split
  · dsimp only; split
    · simp
    · exact am _
  · simp

/-- The cell at the walk index, and its first access (R27, R30). -/
theorem Lane.beginCell_cell (e : Entry) (l : Lane) (c : WalkContext) (h : l.context = some c) : ∃ w c',
    (l.beginCell e).cell = some w ∧ (w.row, w.col) = c.walk.cell ∧ (l.beginCell e).context = some c' ∧
    c'.walk = c.walk ∧ c'.ramp = c.ramp ∧ (e.header.kind ≠ .pattern → c' = c ∧
    ((l.beginCell e).work = .markRead ∨ (l.beginCell e).work = .sourceARead ∨ (l.beginCell e).work = .boundary ∧
    w.cls = .excluded)) := by
  rcases l with ⟨a1, a2, a3, a4, a5, ctx, a6, a7, a8, a9, a10, a11⟩
  dsimp only at h; subst h
  unfold Lane.beginCell; dsimp only
  split
  · exact ⟨_, c, rfl, rfl, rfl, rfl, rfl, fun _ => ⟨rfl, .inl rfl⟩⟩
  · unfold Lane.afterMark; dsimp only
    split
    · exact ⟨_, c, rfl, rfl, rfl, rfl, rfl, fun _ => ⟨rfl, .inr (.inr ⟨rfl, rfl⟩)⟩⟩
    · split
      next hk =>
        unfold Lane.startWrites; dsimp only
        split
        · split
          · exact ⟨_, c, rfl, rfl, rfl, rfl, rfl, fun x => absurd hk x⟩
          · exact ⟨_, c, rfl, rfl, rfl, rfl, rfl, fun x => absurd hk x⟩
        · unfold Lane.toRecords; dsimp only
          refine ⟨_, _, rfl, rfl, rfl, rfl, rfl, fun x => absurd hk x⟩
      · exact ⟨_, c, rfl, rfl, rfl, rfl, rfl, fun _ => ⟨rfl, .inr (.inl rfl)⟩⟩

/-- Exceptions that find the list full (R114). -/
theorem OrderRecord.loseFull_fields (cap : Nat) (r : OrderRecord) (es : List CellException) :
    (r.loseFull cap es).1.visited = r.visited ∧ (r.loseFull cap es).1.written = r.written ∧
    (r.loseFull cap es).1.cursor = r.cursor ∧
    (r.cursor < cap → r.loseFull cap es = (r, es)) ∧ (cap ≤ r.cursor → (r.loseFull cap es).2 = [] ∧
        (r.loseFull cap es).1.lost = r.lost + es.length ∧ (r.loseFull cap es).1.raised = r.raised + es.length) := by
  induction es generalizing r with
  | nil => exact ⟨rfl, rfl, rfl, fun _ => rfl, fun _ => ⟨rfl, rfl, rfl⟩⟩
  | cons x es ih =>
    unfold OrderRecord.loseFull
    split
    next h => exact ⟨rfl, rfl, rfl, fun _ => rfl, fun hh => by omega⟩
    next h =>
      obtain ⟨i1, i2, i3, i4, i5⟩ := ih r.countLost
      refine ⟨i1, i2, i3, fun hh => absurd hh h, fun hh => ?_⟩
      obtain ⟨k1, k2, k3⟩ := i5 hh
      refine ⟨k1, k2.trans ?_, k3.trans ?_⟩
      · show r.lost + 1 + es.length = r.lost + (es.length + 1); omega
      · show r.raised + 1 + es.length = r.raised + (es.length + 1); omega

theorem Lane.toRecords_fields (e : Entry) (l : Lane) (c : WalkContext) (w : CellWork) (h1 : l.context = some c)
    (h2 : l.cell = some w) :
   ∃ c' w', (l.toRecords e).context = some c' ∧ (l.toRecords e).cell = some w' ∧
       c' = { c with record := (c.record.loseFull e.header.listCapacity w.exceptions).1 } ∧
       w' = { w with exceptions := (c.record.loseFull e.header.listCapacity w.exceptions).2 } ∧
     (l.toRecords e).work = (if (c.record.loseFull e.header.listCapacity w.exceptions).2.isEmpty then .boundary else
         .exceptionWrite) ∧ (l.toRecords e).staging = l.staging ∧ (l.toRecords e).state = l.state ∧
         (l.toRecords e).request = l.request ∧ (l.toRecords e).runTimer = l.runTimer := by
  unfold Lane.toRecords; rw [h1, h2]
  exact ⟨_, _, rfl, rfl, rfl, rfl, rfl, rfl, rfl, rfl, rfl⟩

theorem Lane.startWrites_fields (e : Entry) (l : Lane) (c : WalkContext) (w : CellWork) (h1 : l.context = some c)
    (h2 : l.cell = some w) :
   ∃ c' w', (l.startWrites e).context = some c' ∧ (l.startWrites e).cell = some w' ∧ c'.walk = c.walk ∧
       c'.ramp = c.ramp ∧ c'.record.visited = c.record.visited ∧ (∃ x, w' = { w with exceptions := x }) ∧
     (l.startWrites e).staging = l.staging ∧ (l.startWrites e).state = l.state ∧
         (l.startWrites e).request = l.request ∧ (l.startWrites e).runTimer = l.runTimer := by
  unfold Lane.startWrites; rw [h2]; dsimp only
  split
  · split
    · exact ⟨c, w, h1, rfl, rfl, rfl, rfl, ⟨_, rfl⟩, rfl, rfl, rfl, rfl⟩
    · exact ⟨c, w, h1, rfl, rfl, rfl, rfl, ⟨_, rfl⟩, rfl, rfl, rfl, rfl⟩
  · obtain ⟨c', w', k1, k2, k3, k4, k5, k6, k7, k8, k9⟩ := Lane.toRecords_fields e l c w h1 h2
    exact ⟨c', w', k1, k2, by rw [k3], by rw [k3], by rw [k3]; exact (OrderRecord.loseFull_fields _ _ _).1, ⟨_, k4⟩, k6, k7, k8, k9⟩

theorem workCell_place (k body set w a b) : (workCell k body set w a b).1.row = w.row ∧
    (workCell k body set w a b).1.col = w.col := by
  unfold workCell
  dsimp only
  split
  · cases k <;> dsimp only
    all_goals first
      | exact ⟨rfl, rfl⟩
      | (unfold tallyCell; dsimp only; constructor <;> (repeat' split) <;> rfl)
      | (unfold differenceCell; dsimp only; constructor <;> (repeat' split) <;> rfl)
  · exact ⟨rfl, rfl⟩

/-- A cell worked on its operands (R30, R43, R74). -/
theorem State.workOperands_fields (s : State) (n : LaneId) (e : Entry) (w : CellWork) (a b : List Byte)
    (c : WalkContext) (hc : (s.lane n).context = some c) :
   let r := workCell e.header.kind e.body (s.setOfEntry e) w a b
   ∃ l w' c', s.workOperands n e w a b = s.setLane n l ∧ l.cell = some w' ∧ w'.row = w.row ∧
        w'.col = w.col ∧ w'.working = r.1.working ∧ w'.cls = r.1.cls ∧ w'.nonzero = r.1.nonzero ∧
        w'.saturated = r.1.saturated ∧ w'.verdict = r.1.verdict ∧ w'.malformed = r.1.malformed ∧
        (∀ i : Fin 9, r.2 = some i → l.staging[i] = (s.lane n).staging[i].contribute (w'.working.getD 0)) ∧
        (∀ i : Fin 9, r.2 ≠ some i → l.staging[i] = (s.lane n).staging[i]) ∧
        l.context = some c' ∧ c'.walk = c.walk ∧ c'.ramp = c.ramp ∧ c'.record.visited = c.record.visited ∧
        l.state = (s.lane n).state ∧ l.request = (s.lane n).request ∧ l.runTimer = (s.lane n).runTimer := by
  intro r
  set st : Staging := match r.2 with
    | some i => (s.lane n).staging.set i ((s.lane n).staging[i].contribute (r.1.working.getD 0))
    | none => (s.lane n).staging with hst
  set l0 : Lane := { s.lane n with cell := some r.1, staging := st } with hl0
  have e0 : s.workOperands n e w a b = s.setLane n (l0.startWrites e) := rfl
  obtain ⟨c', w', k1, k2, k3, k4, k5, ⟨x, k6⟩, k7, k8, k9, k10⟩ := Lane.startWrites_fields e l0 c r.1 hc rfl
  obtain ⟨p1, p2⟩ := workCell_place e.header.kind e.body (s.setOfEntry e) w a b
  subst k6
  refine ⟨_, _, c', e0, k2, p1, p2, rfl, rfl, rfl, rfl, rfl, rfl, fun i hi => ?_, fun i hi => ?_, k1, k3, k4, k5, k8, k9, k10⟩
  · rw [k7]; show st[i] = _; rw [hst, hi]; simp
  · rw [k7]; show st[i] = _; rw [hst]
    cases hr : r.2 with
    | none => rfl
    | some j =>
      have : j ≠ i := fun q => hi (by rw [hr, q])
      have : j.val ≠ i.val := fun q => this (Fin.ext q)
      simp [Vector.getElem_set, this]

/-! ## Freeze, thaw and requests -/

theorem State.settlePause_fields (s : State) : s.settlePause.slate = s.slate ∧ s.settlePause.table = s.table ∧
    s.settlePause.writer = s.writer ∧ (∀ n, s.settlePause.lane n = s.lane n) ∧ s.settlePause.banks = s.banks ∧
    s.settlePause.bandSets = s.bandSets ∧ s.settlePause.parkOrder = s.parkOrder ∧
    (s.engine.state ≠ .pausing → s.settlePause = s) := by
  unfold State.settlePause
  split
  next h => exact ⟨rfl, rfl, rfl, fun n => State.lane_setEngineState _ _ _, rfl, rfl, rfl, fun h1 => absurd h.1 h1⟩
  next h => exact ⟨rfl, rfl, rfl, fun n => rfl, rfl, rfl, rfl, fun h1 => rfl⟩

/-- A lane that freezes, and PAUSED once no other is busy (R180). -/
theorem State.freezeLane_fields (s : State) (n : LaneId) :
    (s.freezeLane n).lane n = { s.lane n with state := .frozen, work := .none } ∧
    (∀ k, k ≠ n → (s.freezeLane n).lane k = s.lane k) ∧
   (s.freezeLane n).table = s.table ∧ (s.freezeLane n).banks = s.banks ∧ (s.freezeLane n).bandSets = s.bandSets ∧
       (s.freezeLane n).writer = s.writer ∧ (s.freezeLane n).slate = s.slate ∧ s.Kept (s.freezeLane n) ∧
   ((s.engine.state = .pausing ∨ s.engine.state = .paused) →
       ((s.freezeLane n).engine.state = .paused ↔ s.engine.state = .paused ∨ (s.lane (otherLane n)).busy = false ∧
       s.slate.sweeping = false)) := by
  set t := s.setLane n { s.lane n with state := .frozen, work := .none } with ht
  have e : s.freezeLane n = t.settlePause := rfl
  obtain ⟨g1, g2, g3, g4, g5, g6, g7, g8⟩ := State.settlePause_fields t
  rw [e]
  refine ⟨by rw [g4]; cases n <;> rfl, fun k hk => by rw [g4]; cases n <;> cases k <;> first | rfl | exact absurd rfl hk, by rw [g2]; cases n <;> rfl, by rw [g5]; cases n <;> rfl, by rw [g6]; cases n <;> rfl, by rw [g3]; cases n <;> rfl, by rw [g1]; cases n <;> rfl, (s.kept_setLane _ _).trans t.kept_settlePause, fun h => ?_⟩
  have te : t.engine = s.engine := by cases n <;> rfl
  have ts : t.slate = s.slate := by cases n <;> rfl
  have fz : ({ s.lane n with state := .frozen, work := .none } : Lane).busy = false := rfl
  unfold State.settlePause
  rcases h with h | h
  · by_cases q : (s.lane (otherLane n)).busy = false ∧ s.slate.sweeping = false
    · rw [if_pos]
      · exact ⟨fun _ => .inr q, fun _ => rfl⟩
      · refine ⟨by rw [te]; exact h, ?_, ?_, by rw [ts]; exact q.2⟩
        · cases n
          · exact fz
          · exact q.1
        · cases n
          · exact q.1
          · exact fz
    · rw [if_neg, te, h]
      · exact ⟨fun x => (by cases x), fun x => absurd (x.resolve_left (by decide)) q⟩
      · rintro ⟨_, q1, q2, q3⟩
        apply q; rw [ts] at q3; refine ⟨?_, q3⟩; cases n
        · exact q2
        · exact q1
  · rw [if_neg (by rw [te, h]; simp), te]
    exact ⟨fun x => .inl x, fun _ => h⟩

/-- What a thaw leaves (R181). -/
theorem State.thaw_fields (s : State) (n : LaneId) : (s.thaw n).engine = s.engine ∧ (s.thaw n).slate = s.slate ∧
    (s.thaw n).table = s.table ∧ (s.thaw n).bandSets = s.bandSets := by
  have ep : ∀ (s : State) f r, (s.endPlain n f r).engine = s.engine ∧ (s.endPlain n f r).slate = s.slate ∧
      (s.endPlain n f r).table = s.table ∧ (s.endPlain n f r).bandSets = s.bandSets := by
    intro s f r; unfold State.endPlain State.freeRequestBank; split
    · dsimp only; split <;> simp [State.handOver]
    · simp
  unfold State.thaw; split
  · split
    · dsimp only; split
      · unfold State.nextHousekeepingStep; dsimp only; repeat' split
        all_goals first | (have := ep; simp_all; done) | simp [State.setWork]
      · unfold State.beginCell; split <;> simp
    · simp
  · simp

theorem State.thaw_lane_ne (s : State) (n : LaneId) {k : LaneId} (h : k ≠ n) : (s.thaw n).lane k = s.lane k := by
  unfold State.thaw; split
  · split
    · dsimp only; split
      · unfold State.nextHousekeepingStep; dsimp only; repeat' split
        all_goals simp [State.endPlain_lane_ne, h, State.setWork, State.lane_setLane_ne]
      · unfold State.beginCell; split <;> simp [h, State.lane_setLane_ne]
    · rfl
  · rfl

theorem State.thaw_of_not_frozen (s : State) (n : LaneId) (h : (s.lane n).state ≠ .frozen) : s.thaw n = s := by
  unfold State.thaw; rw [if_neg h]

/-- A thawed lane is ACTIVE with its run timer as it stood (R181). -/
theorem State.thaw_lane (s : State) (n : LaneId) (h : (s.lane n).state = .frozen) (he : (s.laneEntry n).isSome) :
    ((s.thaw n).lane n).state = .active ∧ ((s.thaw n).lane n).runTimer = (s.lane n).runTimer ∧
        ((s.thaw n).lane n).order = (s.lane n).order := by
  have ep : ∀ (s : State) f r, (s.lane n).state = .active → ((s.endPlain n f r).lane n).state = .active ∧
      ((s.endPlain n f r).lane n).runTimer = (s.lane n).runTimer ∧
      ((s.endPlain n f r).lane n).order = (s.lane n).order := by
    intro s f r ha
    rcases State.endPlain_lane s n f r with h | h <;> rw [h]
    · exact ⟨ha, rfl, rfl⟩
    · exact ⟨rfl, rfl, rfl⟩
  unfold State.thaw; rw [if_pos h];
  cases hh : s.laneEntry n with
  | none => rw [hh] at he; cases he
  | some e =>
    dsimp only; split
    · unfold State.nextHousekeepingStep; dsimp only; repeat' split
      all_goals first
        | (simp [State.setWork]; done)
        | (have := ep (s.setLane n { s.lane n with state := .active }) ‹_› ‹_› (by simp); simpa using this)
        | (refine ⟨?_, ?_, ?_⟩ <;> first | (refine ((ep _ _ _ ?_).1).trans ?_ <;> simp; done) | (refine ((ep _ _ _ ?_).2.1).trans ?_ <;> simp; done) | (refine ((ep _ _ _ ?_).2.2).trans ?_ <;> simp; done))
    · unfold State.beginCell; split
      · simp [Lane.beginCell_fields]
      · simp

/-- A request of higher rank replaces the one pending (R170). -/
theorem State.post_replaces (s : State) (n : LaneId) (r) (hi : (s.lane n).state = .active ∨
    (s.lane n).state = .yielding) (he : (s.lane n).endMark = false) (hp : (s.lane n).parkUnderWay = false)
   (hr : (s.lane n).request.rank < r.rank) : s.post n r =
       (s.freeRequestBank n).setLane n { s.lane n with request := r, state := .yielding } := by
  unfold State.post
  dsimp only
  rw [if_neg, if_pos hr, if_neg]
  · rcases hi with h | h <;> simp [h]
  · rcases hi with h | h <;> simp [h, he, hp]

theorem State.post_lane_ne (s : State) (n : LaneId) (r) {k : LaneId} (h : k ≠ n) : (s.post n r).lane k = s.lane k :=
    by
  unfold State.post State.actOn; dsimp only; repeat' split
  all_goals simp [State.endWalk_lane_ne, h, State.lane_setLane_ne]

theorem State.post_fields (s : State) (n : LaneId) (r) : (s.post n r).slate = s.slate ∧
    (s.post n r).engine = s.engine := by
  have ew : ∀ (s : State) f r x, (s.endWalk n f r x).slate = s.slate ∧ (s.endWalk n f r x).engine = s.engine := by
    intro s f r x; unfold State.endWalk State.freeRequestBank State.releaseSet; dsimp only
    repeat' split
    all_goals simp [State.handOver]
  have fb : (s.freeRequestBank n).slate = s.slate ∧ (s.freeRequestBank n).engine = s.engine := by
    unfold State.freeRequestBank; split <;> simp
  unfold State.post State.actOn; dsimp only; repeat' split
  all_goals simp [ew, fb]

theorem exec_cellBoundary (s : State) (n : LaneId) (slot : Nat) (e : Entry) (c : WalkContext) (w : CellWork)
   (h1 : (s.lane n).work = .boundary) (he : s.laneEntry n = some e) (h4 : (s.lane n).context = some c) (h5 :
       (s.lane n).cell = some w) :
   exec (.cellBoundary n) s = .next (s.passBoundary n e c w) := by
  show execCellBoundary _ _ = _
  unfold execCellBoundary; rw [h1, he, h4, h5]

theorem State.stepBoundary_of_not_frozen (s : State) (n : LaneId) (e : Entry) (h1 : s.engine.state ≠ .pausing)
    (h2 : s.engine.state ≠ .paused) : s.stepBoundary n e = s.nextHousekeepingStep n e := by
  unfold State.stepBoundary; rw [if_neg]
  have : s.engine.state.freezes = false := by cases h : s.engine.state <;> first | rfl | exact absurd h h1 | exact absurd h h2
  rw [this]; simp

end Sys2Proof.Machine
end

