-- ==== Sys2Proof/Laws/Sweep.lean ====
section
/-! SUPPORT. Sweeps, hand-backs and completions: what advancing and ending a sweep do,
and when the engine settles PAUSED or OFF. -/

namespace Sys2Proof.Machine

theorem State.settleStop_fields (s : State) : s.settleStop.slate = s.slate ∧ s.settleStop.table = s.table ∧
    s.settleStop.writer = s.writer ∧ (∀ n, s.settleStop.lane n = s.lane n) ∧ s.settleStop.banks = s.banks ∧
    s.settleStop.bandSets = s.bandSets ∧ s.settleStop.parkOrder = s.parkOrder ∧
    (s.engine.state ≠ .stopping → s.settleStop = s) := by
  unfold State.settleStop
  split
  next h => exact ⟨rfl, rfl, rfl, fun n => State.lane_setEngineState _ _ _, rfl, rfl, rfl, fun h1 => absurd h.1 h1⟩
  next h => exact ⟨rfl, rfl, rfl, fun n => rfl, rfl, rfl, rfl, fun h1 => rfl⟩

theorem State.settle_fields (s : State) : let t := s.settlePause.settleStop
    t.slate = s.slate ∧ t.table = s.table ∧ t.writer = s.writer ∧ (∀ n, t.lane n = s.lane n) ∧ t.banks = s.banks ∧
        t.bandSets = s.bandSets ∧ t.parkOrder = s.parkOrder ∧ s.Kept t ∧ (s.engine.state = .running → t = s) := by
  intro t
  have a := State.settlePause_fields s
  have b := State.settleStop_fields s.settlePause
  refine ⟨b.1.trans a.1, b.2.1.trans a.2.1, b.2.2.1.trans a.2.2.1, fun n => (b.2.2.2.1 n).trans (a.2.2.2.1 n),
      b.2.2.2.2.1.trans a.2.2.2.2.1, b.2.2.2.2.2.1.trans a.2.2.2.2.2.1, b.2.2.2.2.2.2.1.trans a.2.2.2.2.2.2.1,
      s.kept_settlePause.trans (State.kept_settleStop _), fun h => ?_⟩
  have e : s.settlePause = s := a.2.2.2.2.2.2.2 (by rw [h]; decide)
  show s.settlePause.settleStop = s
  rw [e]; exact (State.settleStop_fields s).2.2.2.2.2.2.2 (by rw [h]; decide)

/-- STOPPING ends once nothing is held (R183). -/
theorem State.settleStop_off_iff (s : State) (h : s.engine.state = .stopping) : s.settleStop.engine.state = .off ↔
    s.table = [] ∧ s.writer.waiting = [] ∧ s.writer.step = .idle ∧ s.slate.step = .idle := by
  unfold State.settleStop
  split
  next c => exact ⟨fun _ => c.2, fun _ => rfl⟩
  next c => rw [h]; exact ⟨fun x => (by cases x), fun x => absurd ⟨h, x⟩ c⟩

/-- A sweep that ends (R142, R148). -/
theorem State.endSweep_fields (s : State) : s.endSweep.slate.cursor = (if s.engine.state = .running ∧
    (s.slate.again || s.slate.ending) = true then
    (if s.slate.cursor < s.engine.anchor.slotCount then s.slate.cursor else 0) else s.slate.cursor) ∧
    s.endSweep.table = s.table ∧ s.endSweep.writer = s.writer ∧ (∀ n, s.endSweep.lane n = s.lane n) ∧
        s.endSweep.banks = s.banks ∧ s.endSweep.bandSets = s.bandSets ∧ s.endSweep.engine = s.engine ∧
        s.Kept s.endSweep ∧ s.endSweep.parkOrder = s.parkOrder ∧ s.endSweep.slate.nextSeq = s.slate.nextSeq := by
  refine ⟨?_, ?_, ?_, ?_, ?_, ?_, ?_, s.kept_endSweep, ?_, ?_⟩
  · unfold State.endSweep; dsimp only
    cases h : s.engine.state <;> cases h2 : (s.slate.again || s.slate.ending) <;> simp [h2, State.beginSweep,
        State.setSlate] <;> (split <;> simp [*])
  all_goals (unfold State.endSweep; dsimp only; cases h : s.engine.state <;> cases h2 : (s.slate.again || s.slate.ending) <;> first | rfl | (intro n; cases n <;> rfl))

/-- A slot left behind (R142). -/
theorem State.advanceSweep_fields (s : State) (slot : Nat) : (s.advanceSweep slot).slate.cursor =
    (if slot + 1 < s.engine.anchor.slotCount then slot + 1 else 0) ∧
    (s.engine.state = .running → s.slate.ending = false → s.slate.visited + 1 < s.engine.anchor.slotCount →
      (s.advanceSweep slot).slate.step = .headerRead (if slot + 1 < s.engine.anchor.slotCount then slot + 1 else 0)) ∧
    (s.advanceSweep slot).table = s.table ∧ (s.advanceSweep slot).writer = s.writer ∧
        (∀ n, (s.advanceSweep slot).lane n = s.lane n) ∧ (s.advanceSweep slot).banks = s.banks ∧
        (s.advanceSweep slot).bandSets = s.bandSets ∧ (s.advanceSweep slot).engine = s.engine ∧
        s.Kept (s.advanceSweep slot) ∧ (s.advanceSweep slot).parkOrder = s.parkOrder ∧
        (s.advanceSweep slot).slate.nextSeq = s.slate.nextSeq := by
  set t := s.setSlate { s.slate with cursor := (if slot + 1 < s.engine.anchor.slotCount then slot + 1 else 0), visited := s.slate.visited + 1, step := .headerRead (if slot + 1 < s.engine.anchor.slotCount then slot + 1 else 0) } with ht
  have e : s.advanceSweep slot = if s.engine.anchor.slotCount ≤ s.slate.visited + 1 ∨ s.slate.ending ∨
      s.engine.state ≠ .running then t.endSweep else t := rfl
  have f := State.endSweep_fields t
  have g : ∀ n, t.lane n = s.lane n := by intro n; cases n <;> rfl
  rw [e]
  split
  next h =>
    refine ⟨?_, ?_, f.2.1, f.2.2.1, fun n => (f.2.2.2.1 n).trans (g n), f.2.2.2.2.1, f.2.2.2.2.2.1, f.2.2.2.2.2.2.1,
        (s.kept_setSlate _).trans f.2.2.2.2.2.2.2.1, f.2.2.2.2.2.2.2.2.1, f.2.2.2.2.2.2.2.2.2⟩
    · rw [f.1]
      have : t.slate.cursor = (if slot + 1 < s.engine.anchor.slotCount then slot + 1 else 0) := rfl
      rw [this]
      have : t.engine = s.engine := rfl
      rw [this]
      split
      · split
        · rfl
        · split <;> omega
      · rfl
    · intro h1 h2 h3; rw [h1, h2] at h; simp at h; omega
  next h => exact ⟨rfl, fun _ _ _ => rfl, rfl, rfl, g, rfl, rfl, rfl, s.kept_setSlate _, rfl, rfl⟩

/-- The lane of a completed order is at its reset values (R160). -/
theorem State.clearLaneOf_fields (s : State) (slot : Nat) (n k : LaneId) : (s.clearLaneOf slot n).lane k =
    (if k = n ∧ (s.lane n).order = some slot then Lane.reset else s.lane k) ∧
    (s.clearLaneOf slot n).table = s.table ∧ (s.clearLaneOf slot n).banks = s.banks ∧
    (s.clearLaneOf slot n).slate = s.slate ∧ (s.clearLaneOf slot n).bandSets = s.bandSets ∧
    (s.clearLaneOf slot n).writer = s.writer ∧ (s.clearLaneOf slot n).engine = s.engine := by
  unfold State.clearLaneOf
  split
  next h =>
    refine ⟨?_, ?_⟩
    swap
    · cases n <;> exact ⟨rfl, rfl, rfl, rfl, rfl, rfl⟩
    split
    next hk => rw [hk.1]; cases n <;> rfl
    next hk => have : k ≠ n := fun e => hk ⟨e, h⟩; cases n <;> cases k <;> first | rfl | exact absurd rfl this
  next h =>
    refine ⟨?_, rfl, rfl, rfl, rfl, rfl, rfl⟩
    rw [if_neg (fun x => h x.2)]

/-- The bank of a completed order is FREE (R168). -/
theorem State.clearBankOf_fields (s : State) (slot : Nat) : (∀ k, (s.clearBankOf slot).lane k = s.lane k) ∧
    (s.clearBankOf slot).table = s.table ∧ (s.clearBankOf slot).slate = s.slate ∧
    (s.clearBankOf slot).bandSets = s.bandSets ∧ (s.clearBankOf slot).writer = s.writer ∧
    (s.clearBankOf slot).engine = s.engine ∧
   (∀ e, s.entry? slot = some e → e.phase = .parked → (s.clearBankOf slot).banks = s.banks.set e.bank .free) ∧
       (∀ e, s.entry? slot = some e → e.phase ≠ .parked → (s.clearBankOf slot).banks = s.banks) := by
  unfold State.clearBankOf
  cases he : s.entry? slot with
  | none => exact ⟨fun _ => rfl, rfl, rfl, rfl, rfl, rfl, fun e h => (by cases h), fun e h => (by cases h)⟩
  | some e =>
    dsimp only
    split
    next hp => refine ⟨fun k => State.lane_setBank _ _ _ _, rfl, rfl, rfl, rfl, rfl,
        fun e' h _ => by injection h with h; subst h; rfl, fun e' h h2 => by injection h with h; subst h; exact absurd hp h2⟩
    next hp => refine ⟨fun _ => rfl, rfl, rfl, rfl, rfl, rfl,
        fun e' h h2 => by injection h with h; subst h; exact absurd h2 hp, fun e' h _ => rfl⟩

/-- The end of a sweep (R140, R141, R148). -/
theorem State.sweepEnded_endSweep (s t : State) (h : t.engine = s.engine) : s.SweepEnded t.slate t.endSweep.slate := by
  have key : ∀ st, t.engine.state = st → t.endSweep.slate = (match st with
    | .running => if t.slate.again || t.slate.ending then
        { t.slate with cursor := if t.slate.cursor < t.engine.anchor.slotCount then t.slate.cursor else 0, again := false, ending := false, timer := 0, visited := 0, step := .headerRead (if t.slate.cursor < t.engine.anchor.slotCount then t.slate.cursor else 0) }
        else { t.slate with timer := 0, ending := false, visited := 0, step := .idle, again := t.slate.again || t.slate.ending }
    | .stopping => { t.slate with timer := 0, ending := false, visited := 0, step := .idle, again := false }
    | _ => { t.slate with timer := 0, ending := false, visited := 0, step := .idle, again := t.slate.again || t.slate.ending }) := by
    intro st hs
    unfold State.endSweep
    cases st <;> dsimp only <;> rw [hs] <;> dsimp only [State.setSlate]
    split <;> rfl
  refine ⟨?_, ?_, ?_, ?_⟩
  · intro h1 h2 h3
    rw [key .running (by rw [h]; exact h1)]
    simp [h2, h3]
  · intro h1 h2
    rw [key .running (by rw [h]; exact h1), ← h]
    rcases h2 with h2 | h2 <;> simp [h2]
  · intro h1
    rcases h1 with h1 | h1
    · rw [key .pausing (by rw [h]; exact h1)]
    · rw [key .paused (by rw [h]; exact h1)]
  · intro h1
    rw [key .stopping (by rw [h]; exact h1)]

/-- A slot finished (R142, R148). -/
theorem State.slotFinished_advance (s t : State) (slot : Nat) (h : t.engine = s.engine) :
    s.SlotFinished t.slate (t.advanceSweep slot).slate slot := by
  refine ⟨?_, ?_⟩
  · intro h1 h2 h3
    unfold State.advanceSweep
    dsimp only
    rw [if_neg]
    · rw [← h]; rfl
    · rw [h, h1, h2]; simp; omega
  · intro h1
    set u := t.setSlate { t.slate with cursor := (if slot + 1 < t.engine.anchor.slotCount then slot + 1 else 0), visited := t.slate.visited + 1, step := .headerRead (if slot + 1 < t.engine.anchor.slotCount then slot + 1 else 0) } with hu
    have e : t.advanceSweep slot = if t.engine.anchor.slotCount ≤ t.slate.visited + 1 ∨ t.slate.ending ∨
        t.engine.state ≠ .running then u.endSweep else u := rfl
    have e' : t.advanceSweep slot = u.endSweep := by
      rw [e]; exact if_pos (by rw [h]; tauto)
    rw [e']
    have k := State.sweepEnded_endSweep s u (by rw [← h]; rfl)
    have uc : u.slate = { t.slate with cursor := (if slot + 1 < t.engine.anchor.slotCount then slot + 1 else 0), visited := t.slate.visited + 1, step := .headerRead (if slot + 1 < t.engine.anchor.slotCount then slot + 1 else 0) } := rfl
    rw [h] at uc
    refine ⟨fun a b c => ?_, fun a b => ?_, fun a => ?_, fun a => ?_⟩
    · rw [k.idle a (by rw [uc]; exact b) (by rw [uc]; exact c), uc]
    · rw [k.again a (by rw [uc]; exact b), uc]
    · rw [k.pause a, uc]
    · rw [k.stop a, uc]

/-- The passage from PAUSING to PAUSED (R180). -/
theorem State.engineSettled_settlePause (s t : State) (h : t.engine = s.engine)
    (hn : s.engine.state = .stopping → ¬(t.table = [] ∧ t.writer.waiting = [] ∧ t.writer.step = .idle ∧
        t.slate.step = .idle)) :
    s.EngineSettled t.settlePause := by
  unfold State.settlePause
  split
  next c =>
    obtain ⟨c1, c2⟩ := c
    have l0 : (t.setEngineState .paused).lane0 = t.lane0 := rfl
    refine ⟨by rw [← h]; rfl, fun _ => ?_, fun q => ?_, fun q _ => ?_⟩
    · rw [if_pos]; · rfl
      exact c2
    · rw [h, q] at c1; cases c1
    · rw [h] at c1; exact absurd c1 q
  next c =>
    refine ⟨by rw [h], fun q => ?_, fun q => ?_, fun _ _ => h⟩
    · rw [if_neg (fun x => c ⟨by rw [h]; exact q, x⟩), h]; exact q
    · rw [if_neg (hn q), h]; exact q

/-- The passage from STOPPING to OFF (R183). -/
theorem State.engineSettled_settleStop (s t : State) (h : t.engine = s.engine)
    (hn : s.engine.state = .pausing → ¬(t.lane0.busy = false ∧ t.lane1.busy = false ∧ t.slate.sweeping = false)) :
    s.EngineSettled t.settleStop := by
  unfold State.settleStop
  split
  next c =>
    obtain ⟨c1, c2⟩ := c
    refine ⟨by rw [← h]; rfl, fun q => ?_, fun q => ?_, fun _ q => ?_⟩
    · rw [h, q] at c1; cases c1
    · rw [if_pos]; · rfl
      exact c2
    · rw [h] at c1; exact absurd c1 q
  next c =>
    refine ⟨by rw [h], fun q => ?_, fun q => ?_, fun _ _ => h⟩
    · rw [if_neg (hn q), h]; exact q
    · rw [if_neg (fun x => c ⟨by rw [h]; exact q, x⟩), h]; exact q

/-- Both passages. -/
theorem State.engineSettled_settle (s t : State) (h : t.engine = s.engine) : s.EngineSettled t.settlePause.settleStop := by
  by_cases q : t.engine.state = .pausing
  · have e : t.settlePause.settleStop = t.settlePause := by
      unfold State.settleStop; rw [if_neg]
      rintro ⟨x, _⟩
      revert x; unfold State.settlePause; split
      · intro x; cases x
      · rw [q]; intro x; cases x
    rw [e]; exact State.engineSettled_settlePause s t h (fun x => by rw [← h, q] at x; cases x)
  · rw [(State.settlePause_fields t).2.2.2.2.2.2.2 q]
    exact State.engineSettled_settleStop s t h (fun x => absurd (by rw [h]; exact x) q)

end Sys2Proof.Machine
end

