-- ==== Sys2Proof/Laws/Begun.lean ====
section
/-! SUPPORT. What a lane begins at a boundary: its next cell, its next housekeeping step, or its freeze. -/

namespace Sys2Proof.Machine

/-- A PATTERN has no mark plane. -/
theorem hasMarkPlane_pattern {e : Entry} (h : e.header.kind = .pattern) (b : List Byte) :
    hasMarkPlane e.header.kind b = false := by rw [h]; rfl

/-- The writes of a PATTERN cell begun. -/
theorem Lane.startWrites_of (e : Entry) (l : Lane) (w : CellWork) (h : l.cell = some w)
    (hw : writesDestination e.header.kind w = true) :
    (readsDestination e.header.kind e.body = true → l.startWrites e = { l with work := .destinationRead }) ∧
    (readsDestination e.header.kind e.body = false → l.startWrites e = { l with
      work := .destinationWrite (BitVec.ofNat 32 (destinationAddr e w.row w.col))
        ((gridC e.body).format.encode (w.working.getD 0)) false }) := by
  unfold Lane.startWrites
  rw [h]; dsimp only; rw [if_pos hw]
  exact ⟨fun q => if_pos q, fun q => if_neg (by rw [q]; exact Bool.false_ne_true)⟩

/-- The cell at the walk index begun, by kind, mark plane and exclusion (R27, R28, R30, R124). -/
theorem Lane.cellBegun_beginCell (e : Entry) (l : Lane) (c : WalkContext) (h : l.context = some c) :
    CellBegun e c l (l.beginCell e) := by
  rcases l with ⟨a1, a2, a3, a4, a5, ctx, a6, a7, a8, a9, a10, a11⟩
  dsimp only at h; subst h
  unfold Lane.beginCell
  refine ⟨fun h => ?_, fun h1 h2 => ?_, fun h1 h2 h3 => ?_, fun h1 h2 => ?_⟩
  · dsimp only; rw [if_pos h]
  · dsimp only; rw [if_neg (by rw [h1]; exact Bool.false_ne_true)]
    unfold Lane.afterMark; dsimp only
    exact if_pos h2
  · dsimp only; rw [if_neg (by rw [h1]; exact Bool.false_ne_true)]
    unfold Lane.afterMark; dsimp only
    rw [if_neg (by rw [show excludes e.body (CellWork.begin c.walk.cell.1 c.walk.cell.2).row (CellWork.begin c.walk.cell.1 c.walk.cell.2).col = false from h2]; exact Bool.false_ne_true), if_neg h3]
  · dsimp only; rw [if_neg (by rw [hasMarkPlane_pattern h1]; exact Bool.false_ne_true)]
    unfold Lane.afterMark; dsimp only
    rw [if_neg (by rw [show excludes e.body (CellWork.begin c.walk.cell.1 c.walk.cell.2).row (CellWork.begin c.walk.cell.1 c.walk.cell.2).col = false from h2]; exact Bool.false_ne_true), if_pos h1]
    refine ⟨patternCell e.body c.ramp (CellWork.begin c.walk.cell.1 c.walk.cell.2), rfl, rfl, rfl, ⟨_, rfl, rfl, rfl,
        ?_, rfl⟩, ?_, ?_⟩
    · exact decide_eq_true_iff
    · intro q
      refine (Lane.startWrites_of e _ _ rfl (by rw [h1]; rfl)).1 (by rw [h1]; exact q)
    · intro q
      rw [(Lane.startWrites_of e _ (patternCell e.body c.ramp (CellWork.begin c.walk.cell.1 c.walk.cell.2)) rfl (by rw [h1]; rfl)).2 (by rw [h1]; exact q)]
      unfold destinationAddr; rw [h1]

/-- The next step of a housekeeping order begun, by its kind and the steps it has completed (R128, R130, R132). -/
theorem State.stepBegun_next (s : State) (n : LaneId) (e : Entry) :
    StepBegun e (s.lane n) ((s.nextHousekeepingStep n e).lane n) := by
  unfold State.nextHousekeepingStep
  dsimp only
  constructor <;> intro h1 h2 <;> rw [h1] <;> dsimp only
  · rw [if_pos h2, State.setLane_lane]
  · intro h3; rw [if_neg (by omega), if_pos h2, if_pos h3, State.setLane_lane]
  · rw [if_neg (by omega), if_neg (by omega)]; unfold State.setWork; rw [State.setLane_lane]
  · rw [if_pos (by unfold rangeSize; omega)]; unfold State.setWork; rw [State.setLane_lane]
  · rw [if_neg (by unfold rangeSize; omega)]; unfold State.setWork; rw [State.setLane_lane]
  · rw [if_pos (by unfold rangeSize; omega)]; unfold State.setWork; rw [State.setLane_lane]
  · intro h3; rw [if_neg (by unfold rangeSize; omega),
      if_pos (show clearFlag e.body = true from h3)]; unfold State.setWork; rw [State.setLane_lane]

/-- A thawed lane works its next cell, or has its next step begun (R160, R181). -/
theorem State.thaw_cell (s : State) (n : LaneId) (e : Entry) (c : WalkContext) (h : (s.lane n).state = .frozen)
    (he : s.laneEntry n = some e) (hk : e.header.kind.housekeeping = false) (hc : (s.lane n).context = some c) :
    CellBegun e c { s.lane n with state := .active } ((s.thaw n).lane n) := by
  unfold State.thaw; rw [if_pos h, he]; dsimp only
  rw [if_neg (by rw [hk]; exact Bool.false_ne_true)]
  unfold State.beginCell
  rw [State.laneEntry_setLane s n { s.lane n with state := .active } rfl, he]; dsimp only
  rw [State.setLane_lane, State.setLane_lane]
  exact Lane.cellBegun_beginCell e _ c hc

/-- A FROZEN lane takes its next step. -/
theorem State.thaw_step (s : State) (n : LaneId) (e : Entry) (h : (s.lane n).state = .frozen)
    (he : s.laneEntry n = some e) (hk : e.header.kind.housekeeping = true) :
    StepBegun e { s.lane n with state := .active } ((s.thaw n).lane n) := by
  unfold State.thaw; rw [if_pos h, he]; dsimp only
  rw [if_pos hk]
  have := State.stepBegun_next (s.setLane n { s.lane n with state := .active }) n e
  rw [State.setLane_lane] at this
  exact this

/-- A thawed BANDSET whose image fails its check is handed over FAILED (R57, R128). -/
theorem State.thaw_invalid (s : State) (n : LaneId) (e : Entry) (h : (s.lane n).state = .frozen)
    (he : s.laneEntry n = some e) (hk : e.header.kind = .bandset) (h2 : (s.lane n).steps = 2)
    (hv : bandsValid (byteAt (s.lane n).image 0).toNat ((List.range 8).map (imageBand (s.lane n).image)) = false) :
    ∃ h, s.Ended (s.thaw n) n h ∧ h = plainHandOver e .failed .bandSetInvalid Indicators.clear := by
  have te : (s.setLane n { s.lane n with state := .active }).laneEntry n = some e :=
    (State.laneEntry_setLane s n { s.lane n with state := .active } rfl).trans he
  have tt : s.thaw n = (s.setLane n { s.lane n with state := .active }).endPlain n .failed .bandSetInvalid := by
    unfold State.thaw; rw [if_pos h, he]; dsimp only
    rw [if_pos (by rw [hk]; rfl)]
    unfold State.nextHousekeepingStep; rw [hk]; dsimp only
    rw [State.setLane_lane, if_neg (by dsimp only; omega), if_pos h2,
        if_neg (by dsimp only; rw [hv]; exact Bool.false_ne_true)]
  obtain ⟨x, x1, x2, _⟩ := State.ended_endPlain _ n e .failed .bandSetInvalid te
  refine ⟨x, ?_, ?_⟩
  · rw [tt]; exact State.Ended.after_setLane _ x1 rfl
  · rw [x2, hk]; rfl

/-- A next step is a lane set or an end. -/
theorem State.next_cases (s : State) (n : LaneId) (e : Entry) :
    (∃ l, s.nextHousekeepingStep n e = s.setLane n l) ∨ (∃ f r, s.nextHousekeepingStep n e = s.endPlain n f r) ∨
      s.nextHousekeepingStep n e = s := by
  unfold State.nextHousekeepingStep State.setWork; dsimp only; repeat' split
  all_goals first | exact .inl ⟨_, rfl⟩ | exact .inr (.inl ⟨_, _, rfl⟩) | exact .inr (.inr rfl)

/-- The hand-overs after an end. -/
theorem State.endPlain_waiting (u : State) (n : LaneId) (f r) :
    ∃ l, (u.endPlain n f r).writer = { u.writer with waiting := u.writer.waiting ++ l } := by
  unfold State.endPlain; split
  · dsimp only
    have h : ∀ l, ((u.freeRequestBank n).setLane n l).writer = u.writer := by
      intro l; rw [← (State.freeRequestBank_fields u n).2.2.2.1]; cases n <;> rfl
    unfold State.handOver State.setWriter
    dsimp only
    rw [h]
    exact ⟨_, rfl⟩
  · exact ⟨[], by simp⟩

/-- What a thawed lane hands over, if it does: the rest of the waiting hand-overs stand (log 16). -/
theorem State.thaw_waiting (s : State) (n : LaneId) :
    ∃ l, (s.thaw n).writer = { s.writer with waiting := s.writer.waiting ++ l } := by
  have w : ∀ l, (s.setLane n l).writer = s.writer := fun l => by cases n <;> rfl
  unfold State.thaw; split
  · split
    · dsimp only; split
      · rcases State.next_cases (s.setLane n { s.lane n with state := .active }) n ‹_› with ⟨l, h⟩ | ⟨f, r, h⟩ | h <;> rw [h]
        · rw [State.setLane_setLane, w]; exact ⟨[], by simp⟩
        · obtain ⟨l, h2⟩ := State.endPlain_waiting (s.setLane n { s.lane n with state := .active }) n f r
          exact ⟨l, by rw [h2, w]⟩
        · rw [w]; exact ⟨[], by simp⟩
      · unfold State.beginCell; split
        · rw [State.setLane_setLane, w]; exact ⟨[], by simp⟩
        · rw [w]; exact ⟨[], by simp⟩
    · exact ⟨[], by simp⟩
  · exact ⟨[], by simp⟩

/-- A lane frozen, from a state that differs from `s` on that lane alone. -/
theorem State.frozenAt_freezeLane (s u : State) (n : LaneId) (hf : s.engine.state = .pausing ∨ s.engine.state = .paused)
    (h1 : u.lane (otherLane n) = s.lane (otherLane n)) (h2 : u.engine = s.engine) (h3 : u.table = s.table) (h4 : u.banks = s.banks)
    (h5 : u.bandSets = s.bandSets) (h6 : u.writer = s.writer) (h7 : u.slate = s.slate) (h8 : u.parkOrder = s.parkOrder) (h9 : s.Kept u) :
    s.FrozenAt (u.freezeLane n) n (u.lane n) := by
  obtain ⟨g1, g2, g3, g4, g5, g6, g7, g8, g9⟩ := State.freezeLane_fields u n
  rw [h2, h1, h7] at g9
  refine ⟨g1, by rw [g2 _ (by cases n <;> decide), h1], g9 hf, ?_, g3.trans h3, g4.trans h4, g5.trans h5, g6.trans h6,
      g7.trans h7, ?_, h9.trans g8⟩
  · have : ∀ v : State, v.settlePause.engine = { v.engine with state := v.settlePause.engine.state } := by
      intro v; unfold State.settlePause; split <;> rfl
    rw [← h2]
    show (State.settlePause _).engine = _
    rw [this]
    cases n <;> rfl
  · rw [← h8]
    have : ∀ v : State, v.settlePause.parkOrder = v.parkOrder := by
      intro v; unfold State.settlePause; split <;> rfl
    show (State.settlePause _).parkOrder = _
    rw [this]; cases n <;> rfl

/-- The engine states in which boundaries freeze lanes. -/
theorem freezes_iff (x : EngineState) : x.freezes = true ↔ x = .pausing ∨ x = .paused :=
    by cases x <;> simp [EngineState.freezes]

/-- A finished step at a PAUSING or PAUSED engine freezes the lane. -/
theorem State.finishStep_frozen (s u : State) (n : LaneId) (e : Entry) (hf : s.engine.state = .pausing ∨ s.engine.state = .paused)
    (h1 : u.lane (otherLane n) = s.lane (otherLane n)) (h2 : u.engine = s.engine) (h3 : u.table = s.table) (h4 : u.banks = s.banks)
    (h5 : u.bandSets = s.bandSets) (h6 : u.writer = s.writer) (h7 : u.slate = s.slate) (h8 : u.parkOrder = s.parkOrder) (h9 : s.Kept u)
    (hl : lastStepDone e ((u.lane n).steps + 1) = false) :
    s.FrozenAt (u.finishStep n e) n { u.lane n with steps := (u.lane n).steps + 1 } := by
  set v := u.setLane n { u.lane n with steps := (u.lane n).steps + 1 } with hv
  have vl : v.lane n = { u.lane n with steps := (u.lane n).steps + 1 } := State.setLane_lane _ _ _
  have e1 : u.finishStep n e = v.freezeLane n := by
    unfold State.finishStep State.stepBoundary
    rw [if_pos]
    have : v.engine = s.engine := by rw [← h2]; cases n <;> rfl
    show (v.engine.state.freezes && !lastStepDone e (v.lane n).steps) = true
    rw [this, vl]; simp [hl, (freezes_iff _).2 hf]
  rw [e1, ← vl]
  refine State.frozenAt_freezeLane s v n hf ?_ ?_ ?_ ?_ ?_ ?_ ?_ ?_ ?_
  · rw [← h1]; cases n <;> rfl
  · rw [← h2]; cases n <;> rfl
  · rw [← h3]; cases n <;> rfl
  · rw [← h4]; cases n <;> rfl
  · rw [← h5]; cases n <;> rfl
  · rw [← h6]; cases n <;> rfl
  · rw [← h7]; cases n <;> rfl
  · rw [← h8]; cases n <;> rfl
  · obtain ⟨a, b, c, d, e, f, g⟩ := h9
    exact ⟨by rw [← a]; cases n <;> rfl, by rw [← b]; cases n <;> rfl, by rw [← c]; cases n <;> rfl,
        by rw [← d]; cases n <;> rfl, by rw [← e]; cases n <;> rfl, by rw [← f]; cases n <;> rfl,
        by rw [← g]; cases n <;> rfl⟩

/-- Only a SNAPSHOT has a last step before its end. -/
theorem lastStep_other (e : Entry) (k : Nat) (h : e.header.kind ≠ .snapshot) : lastStepDone e k = false := by
  unfold lastStepDone; split
  · exact absurd (by assumption) h
  · rfl

/-- Only a SNAPSHOT sets an indicator. -/
theorem housekeeping_clear (k : OrderKind) (b : Bool) (h : k ≠ .snapshot) : housekeepingIndicators k b = Indicators.clear := by
  unfold housekeepingIndicators; split
  · exact absurd rfl h
  · rfl

end Sys2Proof.Machine
end

