-- ==== Sys2Proof/Laws/Checks.lean ====
section
/-! SUPPORT. The checks at take: each check is the field-by-field property that its rules give, and their sequence. -/

namespace Sys2Proof.Machine

/-- The kind that a code names. -/
theorem kindOfCode_iff (c : Nat) (k : OrderKind) : kindOfCode c = some k ↔ c = k.code := by
  constructor
  · intro h
    unfold kindOfCode at h
    split at h <;> first | (cases h; rfl) | cases h
  · rintro rfl; cases k <;> rfl

/-- The kind that a part carries out for a header (R136, R197). -/
theorem kindAtTake_iff (p : Part) (header : List Byte) (k : OrderKind) :
    kindAtTake p header = some k ↔
      (byteAt header 2).toNat = k.code ∧ ¬(p = .azunel4410 ∧ (k = .compare ∨ k = .pattern)) := by
  unfold kindAtTake
  rw [← kindOfCode_iff]
  cases h : kindOfCode (byteAt header 2).toNat with
  | none => simp
  | some x =>
    dsimp only
    split
    next hc =>
      constructor
      · intro e; injection e with e; subst e
        refine ⟨rfl, ?_⟩
        rintro ⟨rfl, rfl | rfl⟩ <;> cases hc
      · rintro ⟨e, _⟩; exact e
    next hc =>
      constructor
      · intro e; cases e
      · rintro ⟨e, hn⟩; injection e with e; subst e
        exfalso; apply hn
        cases p <;> cases x <;> simp [carriesOut] at hc ⊢

/-- The check of a signed field. -/
theorem signedFieldOk_iff (body : List Byte) (i : Nat) : signedFieldOk body i = true ↔ signedSound body i := by
  unfold signedFieldOk signedField signedSound unpackSigned plusCode minusCode
  dsimp only
  have hd : digitsOk 24 (beValue (slice body i 13) / 16) = true ↔ ∀ k, k < 24 →
      beValue (slice body i 13) / 16 ^ (k + 1) % 16 ≤ 9 := by
    rw [digitsOk_iff]
    constructor
    · intro h k hk; rw [Nat.pow_succ', ← Nat.div_div_eq_div_mul]; exact h k hk
    · intro h k hk; have := h k hk; rw [Nat.pow_succ', ← Nat.div_div_eq_div_mul] at this; exact this
  split
  next h =>
    split
    next h1 => simp only [Option.isSome_some, true_iff]; exact ⟨hd.1 h, .inl h1⟩
    next h1 =>
      split
      next h2 => simp only [Option.isSome_some, true_iff]; exact ⟨hd.1 h, .inr h2⟩
      next h2 => simp only [Option.isSome_none, Bool.false_eq_true, false_iff]; rintro ⟨_,
          q | q⟩; exact h1 q; exact h2 q
  next h => simp only [Option.isSome_none, Bool.false_eq_true, false_iff]; rintro ⟨q, _⟩; exact h (hd.2 q)

/-- The check of a header (R113). -/
theorem headerFieldsOk_iff (header : List Byte) : headerFieldsOk header = true ↔ HeaderSound header := by
  unfold headerFieldsOk listOk Config.topAddress
  simp only [Bool.and_eq_true, Bool.or_eq_true, decide_eq_true_eq]
  constructor
  · rintro ⟨h1, h2, h3⟩; exact ⟨h1, h2, fun q => by omega⟩
  · rintro ⟨h1, h2, h3⟩
    refine ⟨h1, h2, ?_⟩
    by_cases q : leField header 12 2 = 0
    · exact .inl q
    · exact .inr (h3 (by omega))

/-- The check of window form, walk and selector (R22, R24, R28). -/
theorem walkFieldsOk_iff (body : List Byte) : walkFieldsOk body = true ↔ WalkSound body := by
  unfold walkFieldsOk windowForm
  simp only [Bool.and_eq_true, decide_eq_true_eq]
  exact ⟨fun ⟨⟨⟨⟨a, b⟩, c⟩, d⟩, e⟩ => ⟨a, b, c, d, e⟩, fun ⟨a, b, c, d, e⟩ => ⟨⟨⟨⟨a, b⟩, c⟩, d⟩, e⟩⟩

/-- The check of the conversion fields (R50). -/
theorem conversionFieldsOk_iff (body : List Byte) : conversionFieldsOk body = true ↔ ConversionSound body := by
  unfold conversionFieldsOk scaleOf
  simp only [Bool.and_eq_true, decide_eq_true_eq, signedFieldOk_iff]
  exact ⟨fun ⟨⟨⟨a, b⟩, c⟩, d⟩ => ⟨a, ⟨b, c⟩, d⟩, fun ⟨a, ⟨b, c⟩, d⟩ => ⟨⟨⟨a, b⟩, c⟩, d⟩⟩

/-- A number below a power of two has no bit from it up. -/
theorem lt_two_pow_iff (m n : Nat) : m < 2 ^ n ↔ ∀ k, n ≤ k → m.testBit k = false := by
  constructor
  · intro h k hk; exact Nat.testBit_lt_two_pow (Nat.lt_of_lt_of_le h (Nat.pow_le_pow_right (by omega) hk))
  · intro h
    by_contra hn
    obtain ⟨k, hk, ht⟩ := Nat.exists_ge_and_testBit_of_ge_two_pow (Nat.le_of_not_lt hn)
    rw [h k hk] at ht; cases ht

/-- The five cell formats by code. -/
theorem format_cases (code n : Nat) : (code = 1 ∧ formatOfCode code n = some (.dec n)) ∨ (code = 2 ∧
    formatOfCode code n = some (.sdec n)) ∨
    (code = 3 ∧ formatOfCode code n = some .bin16) ∨ (code = 4 ∧ formatOfCode code n = some .bin32) ∨
    (code = 5 ∧ formatOfCode code n = some (.field n)) ∨ ((code = 0 ∨ 5 < code) ∧ formatOfCode code n = none) := by
  by_cases h : code = 0 ∨ 5 < code
  · right; right; right; right; right
    refine ⟨h, ?_⟩
    unfold formatOfCode; split <;> first | rfl | omega
  · have : code = 1 ∨ code = 2 ∨ code = 3 ∨ code = 4 ∨ code = 5 := by omega
    rcases this with rfl | rfl | rfl | rfl | rfl <;> simp [formatOfCode]

/-- The check of a keep mask (R34). -/
theorem keepMaskOk_iff (body : List Byte) : keepMaskOk body = true ↔ KeepSound body := by
  unfold keepMaskOk gridFormat keepMask
  have eq60 : 48 + 12 = 60 := rfl
  have eq61 : 48 + 13 = 61 := rfl
  rw [eq60, eq61]
  rcases format_cases (byteAt body 60).toNat (byteAt body 61).toNat with ⟨h, e⟩ | ⟨h, e⟩ | ⟨h, e⟩ | ⟨h, e⟩ | ⟨h,
      e⟩ | ⟨h, e⟩ <;> rw [e] <;> dsimp only
  · rw [decide_eq_true_iff, lt_two_pow_iff]
    exact ⟨fun q => ⟨fun _ => q, fun x => by omega⟩, fun q => q.decimal (.inl h)⟩
  · rw [decide_eq_true_iff, lt_two_pow_iff]
    exact ⟨fun q => ⟨fun _ => q, fun x => by omega⟩, fun q => q.decimal (.inr h)⟩
  · rw [decide_eq_true_iff]
    exact ⟨fun q => ⟨fun x => by omega, fun _ => q⟩, fun q => q.binary (by omega)⟩
  · rw [decide_eq_true_iff]
    exact ⟨fun q => ⟨fun x => by omega, fun _ => q⟩, fun q => q.binary (by omega)⟩
  · rw [decide_eq_true_iff]
    exact ⟨fun q => ⟨fun x => by omega, fun _ => q⟩, fun q => q.binary (by omega)⟩
  · exact ⟨fun _ => ⟨fun x => by omega, fun x => by omega⟩, fun _ => rfl⟩

/-- The check of an accumulator range (R129). -/
theorem accumRangeOk_iff (body : List Byte) : accumRangeOk body = true ↔ RangeSound body := by
  unfold accumRangeOk firstAccum lastAccum
  simp only [Bool.and_eq_true, decide_eq_true_eq]
  exact ⟨fun ⟨⟨a, b⟩, c⟩ => ⟨a, b, c⟩, fun ⟨a, b, c⟩ => ⟨⟨a, b⟩, c⟩⟩

/-- A byte equal to a number. -/
theorem byte_beq (b : Byte) (n : Nat) (hn : n < 256) : (b == BitVec.ofNat 8 n) = true ↔ b.toNat = n := by
  rw [beq_iff_eq]
  constructor
  · rintro rfl; rw [BitVec.toNat_ofNat]; omega
  · intro h; apply BitVec.eq_of_toNat_eq; rw [BitVec.toNat_ofNat, h]; omega

/-- A byte equal to FFh. -/
theorem ff_iff (b : Byte) : (b == 0xFF) = true ↔ b.toNat = 0xFF := byte_beq b 255 (by omega)

/-- A byte equal to 1. -/
theorem one_iff (b : Byte) : (b == 1) = true ↔ b.toNat = 1 := byte_beq b 1 (by omega)

/-- The checks that FIELD_RANGE names, by kind. -/
theorem bodyFieldsOk_iff (k : OrderKind) (body : List Byte) : bodyFieldsOk k body = true ↔ FieldsSound k body := by
  unfold bodyFieldsOk FieldsSound
  cases k <;> dsimp only
  · unfold tallyWidth
    simp only [Bool.and_eq_true, decide_eq_true_eq, walkFieldsOk_iff, conversionFieldsOk_iff]
    tauto
  · unfold rolloverFieldsOk rolloverDigits rolloverRaw
    simp only [Bool.and_eq_true, Bool.or_eq_true, decide_eq_true_eq, walkFieldsOk_iff, conversionFieldsOk_iff,
        keepMaskOk_iff, digitsOk_iff, ff_iff]
    tauto
  · unfold compareFieldsOk comparesConstant
    simp only [Bool.and_eq_true, Bool.or_eq_true, decide_eq_true_eq, walkFieldsOk_iff, signedFieldOk_iff,
        Bool.not_eq_true', Bool.eq_false_iff, ne_eq, one_iff]
    tauto
  · simp only [Bool.and_eq_true, walkFieldsOk_iff, conversionFieldsOk_iff, keepMaskOk_iff]
    tauto
  · unfold patternFieldsOk
    simp only [Bool.and_eq_true, Bool.or_eq_true, decide_eq_true_eq, walkFieldsOk_iff, signedFieldOk_iff,
        keepMaskOk_iff, bne_iff_ne]
    tauto
  · unfold dataAddr Config.topAddress
    simp only [Bool.and_eq_true, decide_eq_true_eq]
  all_goals
    unfold recordRangeOk dataAddr Config.topAddress rangeSize lastAccum firstAccum
    simp only [Bool.or_eq_true, decide_eq_true_eq, Bool.not_eq_true', Bool.eq_false_iff, ne_eq, accumRangeOk_iff]
    tauto

/-- The check of a grid descriptor (R21). -/
theorem gridOk_iff (body : List Byte) (i : Nat) : gridOk body i = true ↔ GridSound body i := by
  unfold gridOk
  dsimp only
  simp only [Bool.and_eq_true, decide_eq_true_eq]
  have e0 : gridFormat body i = formatOfCode (byteAt body (i + 12)).toNat (byteAt body (i + 13)).toNat := rfl
  have ef : (gridAt body i).format = (gridFormat body i).getD .bin16 := rfl
  have er : (gridAt body i).rows = leField body (i + 4) 2 := rfl
  have ec : (gridAt body i).cols = leField body (i + 6) 2 := rfl
  have ep : (gridAt body i).pitch = leField body (i + 8) 4 := rfl
  have eb : (gridAt body i).base = leField body i 4 := rfl
  unfold Grid.lastByte Grid.rowSize Config.topAddress
  rw [er, ec, ep, eb, ef, e0]
  rcases format_cases (byteAt body (i + 12)).toNat (byteAt body (i + 13)).toNat with ⟨h, e⟩ | ⟨h, e⟩ | ⟨h, e⟩ | ⟨h,
      e⟩ | ⟨h, e⟩ | ⟨h, e⟩ <;> rw [e]
  all_goals simp only [Option.isSome_some, Option.isSome_none, Option.getD_some, CellFormat.countOk,
      CellFormat.cellBytes, Bool.and_eq_true, decide_eq_true_eq, true_and, Bool.false_eq_true, false_and]
  case inl | inr.inl =>
    constructor
    · rintro ⟨⟨⟨⟨⟨⟨⟨a1, a2⟩, b⟩, c⟩, d⟩, f⟩, g⟩, j⟩
      exact ⟨by omega, fun _ => ⟨a1, a2⟩, fun q => by omega, ⟨b, c⟩, ⟨d, f⟩, by rw [h]; exact g,
          fun _ => by rw [h]; exact j, fun q => by omega⟩
    · rintro ⟨a, b, c, d, f, g, j, _⟩
      rw [h] at g j
      exact ⟨⟨⟨⟨⟨⟨b (by omega), d.1⟩, d.2⟩, f.1⟩, f.2⟩, g⟩, j (by omega)⟩
  case inr.inr.inl | inr.inr.inr.inl =>
    constructor
    · rintro ⟨⟨⟨⟨⟨b, c⟩, d⟩, f⟩, g⟩, j⟩
      exact ⟨by omega, fun q => by omega, fun q => by omega, ⟨b, c⟩, ⟨d, f⟩, by rw [h]; exact g,
          fun _ => by rw [h]; exact j, fun q => by omega⟩
    · rintro ⟨a, b, c, d, f, g, j, _⟩
      rw [h] at g j
      exact ⟨⟨⟨⟨⟨d.1, d.2⟩, f.1⟩, f.2⟩, g⟩, j (by omega)⟩
  case inr.inr.inr.inr.inl =>
    constructor
    · rintro ⟨⟨⟨⟨⟨⟨⟨a1, a2⟩, b⟩, c⟩, d⟩, f⟩, g⟩, j⟩
      exact ⟨by omega, fun q => by omega, fun _ => ⟨a1, a2⟩, ⟨b, c⟩, ⟨d, f⟩, by rw [h]; exact g, fun q => by omega,
          fun _ => j⟩
    · rintro ⟨a, b, c, d, f, g, _, j⟩
      rw [h] at g
      exact ⟨⟨⟨⟨⟨⟨c h, d.1⟩, d.2⟩, f.1⟩, f.2⟩, g⟩, j h⟩
  case inr.inr.inr.inr.inr =>
    constructor
    · rintro ⟨⟩
    · rintro ⟨a, _⟩; omega

/-- The descriptors that a kind names. -/
theorem namesGrid_iff (k : OrderKind) (body : List Byte) (i : Nat) : i ∈ gridsNamed k body ↔ namesGrid k body i := by
  unfold gridsNamed namesGrid comparesConstant
  cases k <;> simp
  by_cases h : byteAt body 138 = 1#8
  · simp [h]
  · have : (byteAt body 138).toNat ≠ 1 := fun q => h (by apply BitVec.eq_of_toNat_eq; rw [q]; rfl)
    simp [h, this]

/-- The check of a plane (R23). -/
theorem planeOk_iff (body : List Byte) (i : Nat) : planeOk body (leField body i 4,
    leField body (i + 4) 4) = true ↔ planeSound body i := by
  unfold planeOk planeSound planeAddr Config.topAddress
  simp only [Bool.and_eq_true, decide_eq_true_eq]
  rfl

/-- The checks that WINDOW_RANGE names (R22, R23, R28). -/
theorem windowOk_iff (k : OrderKind) (body : List Byte) : windowOk k body = true ↔ WindowSound k body := by
  unfold windowOk windowRangeOk exclusionRangeOk
  have er : (walkOf body).rowEnd = lastRow body := rfl
  have ec : (walkOf body).colEnd = lastCol body := rfl
  have es : (walkOf body).rowStart = leField body 84 2 := rfl
  have et : (walkOf body).colStart = leField body 86 2 := rfl
  have hm : (!hasMarkPlane k body || planeOk body (markPlane body)) = true ↔ (k ≠ .pattern → leField body 72 4 ≠ 0 →
      planeSound body 72) := by
    rw [show markPlane body = (leField body 72 4, leField body (72 + 4) 4) from rfl, Bool.or_eq_true, planeOk_iff]
    unfold hasMarkPlane markPlane
    cases k <;> simp <;> tauto
  have hr : (decide (k ≠ .compare) || planeOk body (resultPlane body)) = true ↔ (k = .compare →
      planeSound body 156) := by
    rw [show resultPlane body = (leField body 156 4, leField body (156 + 4) 4) from rfl, Bool.or_eq_true, planeOk_iff,
        decide_eq_true_iff]
    tauto
  have hg : (gridsNamed k body).all (fun i => decide (lastRow body < (gridAt body i).rows) && decide (lastCol body < (gridAt body i).cols)) = true ↔
      ∀ i, namesGrid k body i → lastRow body < leField body (i + 4) 2 ∧ lastCol body < leField body (i + 6) 2 := by
    rw [List.all_eq_true]
    simp only [Bool.and_eq_true, decide_eq_true_eq, namesGrid_iff]
    rfl
  dsimp only
  rw [er, ec, es, et, Bool.and_eq_true, Bool.and_eq_true, Bool.and_eq_true, Bool.and_eq_true, hm, hr, hg]
  simp only [Bool.and_eq_true, Bool.or_eq_true, decide_eq_true_eq]
  constructor
  · rintro ⟨⟨⟨⟨⟨⟨⟨⟨⟨⟨⟨a1, a2⟩, a3⟩, a4⟩, b1⟩, b2⟩, c1⟩, c2⟩, x⟩, g⟩, m⟩, r⟩
    refine ⟨⟨a1, a2, a3, a4⟩, ⟨b1, b2⟩, ⟨c1, c2⟩, fun q => ?_, g, m, r⟩
    rcases x with x | x
    · exact absurd x q
    · exact ⟨x.1.1.1.1.1, x.1.1.1.1.2, x.1.1.1.2, x.1.1.2, x.1.2, x.2⟩
  · rintro ⟨⟨a1, a2, a3, a4⟩, ⟨b1, b2⟩, ⟨c1, c2⟩, x, g, m, r⟩
    refine ⟨⟨⟨⟨⟨⟨⟨⟨⟨⟨⟨a1, a2⟩, a3⟩, a4⟩, b1⟩, b2⟩, c1⟩, c2⟩, ?_⟩, g⟩, m⟩, r⟩
    by_cases q : (byteAt body 92).toNat = 0
    · exact .inl q
    · obtain ⟨x1, x2, x3, x4, x5, x6⟩ := x q
      exact .inr ⟨⟨⟨⟨⟨x1, x2⟩, x3⟩, x4⟩, x5⟩, x6⟩

/-- The checks that ACCUM_RANGE names (R65, R129). -/
theorem accumOk_iff (k : OrderKind) (body : List Byte) : accumOk k body = true ↔ AccumSound k body := by
  unfold accumOk AccumSound residueOk
  cases k <;> simp only [Bool.or_eq_true, decide_eq_true_eq, ff_iff, accumRangeOk_iff]
  tauto

/-- The checks that GRID_RANGE names. -/
theorem all_gridOk_iff (k : OrderKind) (body : List Byte) : (gridsNamed k body).all (gridOk body) = true ↔ ∀ i,
    namesGrid k body i → GridSound body i := by
  rw [List.all_eq_true]
  simp only [namesGrid_iff, gridOk_iff]

/-- The checks at take in their sequence (R143). -/
theorem takeFailure_checks (k : OrderKind) (header body : List Byte) :
    let fields := HeaderSound header ∧ FieldsSound k body
    let grids := ∀ i, namesGrid k body i → GridSound body i
    let window := k.housekeeping = true ∨ WindowSound k body
    (¬fields → takeFailure k header body = some .fieldRange) ∧
    (fields → ¬grids → takeFailure k header body = some .gridRange) ∧
    (fields → grids → ¬window → takeFailure k header body = some .windowRange) ∧
    (fields → grids → window → ¬AccumSound k body → takeFailure k header body = some .accumRange) ∧
    (fields → grids → window → AccumSound k body → takeFailure k header body = none) := by
  dsimp only
  have f : (headerFieldsOk header && bodyFieldsOk k body) = true ↔ (HeaderSound header ∧ FieldsSound k body) := by
    rw [Bool.and_eq_true, headerFieldsOk_iff, bodyFieldsOk_iff]
  have w : (k.housekeeping || windowOk k body) = true ↔ (k.housekeeping = true ∨ WindowSound k body) := by
    rw [Bool.or_eq_true, windowOk_iff]
  rw [← f, ← w, ← all_gridOk_iff, ← accumOk_iff]
  unfold takeFailure
  generalize (headerFieldsOk header && bodyFieldsOk k body) = p
  generalize (gridsNamed k body).all (gridOk body) = q
  generalize (k.housekeeping || windowOk k body) = r
  generalize accumOk k body = t
  cases p <;> cases q <;> cases r <;> cases t <;> simp

end Sys2Proof.Machine
end

