-- ==== Sys2Proof/Laws/Totals.lean ====
section
/-! SUPPORT. Totals stay within their limits under every operation on them,
and what a commit does to each accumulator. -/

namespace Sys2Proof.Machine

theorem clampTotal_inWidth (v : Int) : -Config.maxTotal ≤ (clampTotal v).1 ∧ (clampTotal v).1 ≤ Config.maxTotal := by
  have hM : (0 : Int) ≤ Config.maxTotal := by decide
  unfold clampTotal clampTo
  generalize Config.maxTotal = M at *
  split
  · exact ⟨by dsimp only; omega, le_refl _⟩
  · split
    · exact ⟨le_refl _, by dsimp only; omega⟩
    · exact ⟨by dsimp only; omega, by dsimp only; omega⟩

theorem Total.zero_inLimits : Total.zero.inLimits := ⟨⟨by decide, by decide⟩, by decide⟩

theorem Total.zero_inWidth : Total.zero.inWidth := Total.zero_inLimits.1

theorem Staging.start_inWidth : stagingInWidth Staging.start := by
  intro i; unfold Staging.start; simp; exact Total.zero_inWidth

theorem RecordBuffer.empty_inLimits : RecordBuffer.empty.inLimits := by
  intro i; unfold RecordBuffer.empty; simp; exact Total.zero_inLimits

theorem recordTotal_inLimits {i : Nat} {bytes : List Byte} {t : Total}
    (h : recordTotal i bytes = some t) : t.inLimits := by
  unfold recordTotal at h
  split at h
  · cases h
  next v hv =>
    split at h
    · injection h with h; subst h
      refine ⟨unpackSigned_bounds hv, ?_⟩
      have := leField_lt bytes 4 4
      show leField bytes 4 4 ≤ 4294967295; omega
    · cases h

theorem Total.add_inLimits (a : Total) (x : Int) (n : Nat) : (a.add x n).1.inLimits := by
  refine ⟨clampTotal_inWidth _, ?_⟩
  show (if decide (Config.maxCount < a.count + n) = true then Config.maxCount else a.count + n) ≤ Config.maxCount
  split
  · exact le_refl _
  next h => simpa using h

theorem Total.applyEntry_inLimits (a e : Total) : (a.applyEntry e).1.inLimits := Total.add_inLimits a e.value e.count

theorem Total.clearBy_inLimits (l a : Total) (h : a.inLimits) : (l.clearBy a).inLimits := by
  unfold Total.clearBy
  split
  · exact Total.zero_inLimits
  · exact ⟨clampTotal_inWidth _, Nat.le_trans (Nat.sub_le _ _) h.2⟩

theorem Total.writeWord_inLimits {t t' : Total} {k : Nat} {w : Word} (h : t.inLimits)
    (hw : t.writeWord k w = some t') : t'.inLimits := by
  unfold Total.writeWord at hw
  split at hw
  · rw [Option.map_eq_some_iff] at hw
    obtain ⟨v, hv, rfl⟩ := hw
    refine ⟨?_, h.2⟩
    unfold writtenValue at hv; dsimp only at hv
    split at hv
    · exact unpackSigned_bounds hv
    · cases hv
  · split at hw
    · injection hw with hw; subst hw
      refine ⟨h.1, ?_⟩
      have := w.isLt; show w.toNat ≤ 4294967295; omega
    · injection hw with hw; subst hw; exact h

theorem mapRange_inLimits (body : List Byte) (f : Fin 64 → Total) (a : Vector Total 64) (hf : ∀ i,
    (f i).inLimits) (ha : ∀ i : Fin 64, a[i].inLimits) : ∀ i : Fin 64, (mapRange body f a)[i].inLimits := by
  intro i; unfold mapRange
  have : (Vector.ofFn (fun i : Fin 64 => if inRange body i.val then f i else a[i]))[i] = if inRange body i.val then
      f i else a[i] := by simp
  rw [this]; split
  · exact hf i
  · exact ha i

theorem applyStaged_inLimits (name : Fin 9 →
    Fin 64) (st : Staging) (l : List (Fin 9)) (x : Vector Total 64 × Bool) (h : ∀ i : Fin 64,
    x.1[i].inLimits) : ∀ i : Fin 64, (l.foldl (applyStaged name st) x).1[i].inLimits := by
  induction l generalizing x with
  | nil => exact h
  | cons k l ih =>
    rw [List.foldl_cons]
    refine ih _ ?_
    unfold applyStaged; split
    · exact vector_forall_get_set _ _ _ _ (Total.applyEntry_inLimits _ _) h
    · exact h

/-- An accumulator that no counted entry names stands (R77). -/
theorem applyStaged_unnamed (name : Fin 9 →
    Fin 64) (st : Staging) (l : List (Fin 9)) (x : Vector Total 64 × Bool) (a : Fin 64) (h : ∀ k ∈ l,
    0 < st[k].count → name k ≠ a) :
   (l.foldl (applyStaged name st) x).1[a] = x.1[a] := by
  induction l generalizing x with
  | nil => rfl
  | cons k l ih =>
    rw [List.foldl_cons, ih _ (fun j hj => h j (List.mem_cons_of_mem _ hj))]
    unfold applyStaged
    split
    next hk =>
      have := h k (List.mem_cons_self ..) hk
      have : (name k).val ≠ a.val := fun q => this (Fin.ext q)
      show (x.1.set (name k) _)[a] = _
      simp [this]
    next hk => rfl

/-- With every count 0 a commit changes nothing (R77). -/
theorem applyStaged_of_no_counts (name : Fin 9 →
    Fin 64) (st : Staging) (l : List (Fin 9)) (x : Vector Total 64 × Bool) (h : ∀ k ∈ l, st[k].count = 0) :
   l.foldl (applyStaged name st) x = x := by
  induction l generalizing x with
  | nil => rfl
  | cons k l ih =>
    rw [List.foldl_cons]
    have : applyStaged name st x k = x := by
      unfold applyStaged; rw [if_neg]; rw [h k (List.mem_cons_self ..)]; exact Nat.lt_irrefl 0
    rw [this]; exact ih _ (fun j hj => h j (List.mem_cons_of_mem _ hj))

/-- An accumulator that one counted entry names takes that entry (R77). -/
theorem applyStaged_named_once (name : Fin 9 →
    Fin 64) (st : Staging) (l : List (Fin 9)) (x : Vector Total 64 × Bool) (k : Fin 9) (hn : l.Nodup) (hk : k ∈ l)
    (h0 : 0 < st[k].count)
   (h : ∀ j : Fin 9, 0 < st[j].count → name j = name k → j = k) :
   (l.foldl (applyStaged name st) x).1[name k] = (x.1[name k].applyEntry st[k]).1 := by
  induction l generalizing x with
  | nil => cases hk
  | cons j l ih =>
    rw [List.foldl_cons]
    have hj : j ∉ l := (List.nodup_cons.1 hn).1
    by_cases q : j = k
    · subst q
      rw [applyStaged_unnamed name st l _ (name j) (fun i hi hc he => hj (by rw [← h i hc he]; exact hi))]
      unfold applyStaged; rw [if_pos h0]
      show (x.1.set (name j) _)[name j] = _
      simp
    · have hk' : k ∈ l := by rcases List.mem_cons.1 hk with r | r; exact absurd r.symm q; exact r
      rw [ih _ (List.nodup_cons.1 hn).2 hk']
      congr 2
      have := applyStaged_unnamed name st [j] x (name k)
          (fun i hi hc he => by rw [List.mem_singleton] at hi; subst hi; exact q (h i hc he))
      exact this

/-- A value held at the limits of a total. -/
theorem clampTotal_cases (v : Int) :
    (-(10 ^ 28 - 1) ≤ v → v ≤ 10 ^ 28 - 1 → clampTotal v = (v, false)) ∧
    (10 ^ 28 - 1 < v → clampTotal v = (10 ^ 28 - 1, true)) ∧ (v < -(10 ^ 28 - 1) → clampTotal v = (-(10 ^ 28 - 1),
        true)) := by
  have em : Config.maxTotal = 10 ^ 28 - 1 := rfl
  unfold clampTotal clampTo; rw [em]
  refine ⟨fun h1 h2 => ?_, fun h => ?_, fun h => ?_⟩
  · rw [if_neg (by omega), if_neg (by omega)]
  · rw [if_pos h]
  · rw [if_neg (by omega), if_pos h]

/-- One staging entry applied to an accumulator (R72, R77). -/
theorem applyEntry_spec (a x : Total) :
    let v := a.value + x.value
    let r := a.applyEntry x
    let saturates := 10 ^ 28 - 1 < v ∨ v < -(10 ^ 28 - 1) ∨ 4294967295 < a.count + x.count
    r.1.value = (a.add x.value x.count).1.value ∧ r.1.count = (a.add x.value x.count).1.count ∧
    (r.1.overflow = true ↔ a.overflow = true ∨ x.overflow = true ∨ saturates) ∧
    (r.2 = true ↔ x.overflow = true ∨ saturates) := by
  intro v r saturates
  have hs : (clampTotal v).2 = true ∨ decide (Config.maxCount < a.count + x.count) = true ↔ saturates := by
    obtain ⟨k1, k2, k3⟩ := clampTotal_cases v
    have ec : Config.maxCount = 4294967295 := rfl
    rw [decide_eq_true_iff, ec]
    by_cases p : 10 ^ 28 - 1 < v
    · rw [k2 p]; exact ⟨fun _ => .inl p, fun _ => .inl rfl⟩
    · by_cases q : v < -(10 ^ 28 - 1)
      · rw [k3 q]; exact ⟨fun _ => .inr (.inl q), fun _ => .inl rfl⟩
      · rw [k1 (Int.not_lt.1 q) (Int.not_lt.1 p)]
        constructor
        · rintro (z | z)
          · cases z
          · exact .inr (.inr z)
        · rintro (z | z | z)
          · exact absurd z p
          · exact absurd z q
          · exact .inr z
  refine ⟨rfl, rfl, ?_, ?_⟩
  · show ((a.overflow || (clampTotal v).2 || decide (Config.maxCount < a.count + x.count)) || x.overflow) = true ↔ _
    rw [← hs]; simp only [Bool.or_eq_true]; tauto
  · show (((clampTotal v).2 || decide (Config.maxCount < a.count + x.count)) || x.overflow) = true ↔ _
    rw [← hs]; simp only [Bool.or_eq_true]; tauto

/-- A staging entry applied to accumulator `a`, where it has a count and names it. -/
def appliedOf (name : Fin 9 → Fin 64) (staging : Staging) (a : Fin 64) (t : Total) (k : Fin 9) : Total :=
  if 0 < staging[k].count ∧ name k = a then (t.applyEntry staging[k]).1 else t

/-- One step of a commit, at one accumulator. -/
theorem applyStaged_get (name : Fin 9 → Fin 64) (st : Staging) (x : Vector Total 64 × Bool) (k : Fin 9) (a : Fin 64) :
    (applyStaged name st x k).1[a] = appliedOf name st a x.1[a] k := by
  unfold applyStaged appliedOf
  by_cases hk : 0 < st[k].count
  · rw [if_pos hk]
    show (x.1.set (name k) _)[a] = _
    by_cases q : name k = a
    · subst q; rw [if_pos ⟨hk, rfl⟩]; simp
    · rw [if_neg (fun h => q h.2)]
      have : (name k).val ≠ a.val := fun h => q (Fin.ext h)
      simp [this]
  · rw [if_neg hk, if_neg (fun h => hk h.1)]

/-- A commit up to an entry, at one accumulator. -/
theorem fold_get (name : Fin 9 →
    Fin 64) (st : Staging) (l : List (Fin 9)) : ∀ (x : Vector Total 64 × Bool) (a : Fin 64),
    (l.foldl (applyStaged name st) x).1[a] = l.foldl (appliedOf name st a) x.1[a] := by
  induction l with
  | nil => intro x a; rfl
  | cons k rest ih => intro x a; rw [List.foldl_cons, ih, applyStaged_get, List.foldl_cons]

/-- The report of a commit up to an entry. -/
theorem fold_report (name : Fin 9 → Fin 64) (st : Staging) (l : List (Fin 9)) : ∀ (x : Vector Total 64 × Bool),
    (l.foldl (applyStaged name st) x).2 = true ↔ x.2 = true ∨ ∃ i, ∃ h : i < l.length, 0 < st[l[i]].count ∧
      ((((l.take i).foldl (appliedOf name st (name l[i])) x.1[name l[i]])).applyEntry st[l[i]]).2 = true := by
  induction l with
  | nil => intro x; simp
  | cons k rest ih =>
    intro x
    rw [List.foldl_cons, ih]
    have h2 : (applyStaged name st x k).2 = true ↔ x.2 = true ∨ 0 < st[k].count ∧
        (x.1[name k].applyEntry st[k]).2 = true := by
      unfold applyStaged
      by_cases hk : 0 < st[k].count
      · rw [if_pos hk]; dsimp only; rw [Bool.or_eq_true]
        exact or_congr_right ⟨fun z => ⟨hk, z⟩, fun z => z.2⟩
      · rw [if_neg hk]
        exact ⟨fun z => .inl z, fun z => z.resolve_right (fun q => hk q.1)⟩
    rw [h2, or_assoc]
    apply or_congr_right
    constructor
    · rintro (h | ⟨i, hi, h, q⟩)
      · exact ⟨0, by simp, h⟩
      · refine ⟨i + 1, by simpa using hi, h, ?_⟩
        simp only [List.getElem_cons_succ, List.take_succ_cons, List.foldl_cons]
        rw [← applyStaged_get]; exact q
    · rintro ⟨i, hi, h, q⟩
      cases i with
      | zero => exact .inl ⟨h, q⟩
      | succ i =>
        refine .inr ⟨i, by simpa using hi, h, ?_⟩
        simp only [List.getElem_cons_succ, List.take_succ_cons, List.foldl_cons] at q
        rw [applyStaged_get]; exact q

/-- A commit, accumulator by accumulator, and its report (R76, R77). -/
theorem commit_spec (name : Fin 9 → Fin 64) (staging : Staging) (accums : Vector Total 64) :
    let applied (a : Fin 64) (t : Total) (k : Fin 9) : Total :=
      if 0 < staging[k].count ∧ name k = a then (t.applyEntry staging[k]).1 else t
    let upTo (j : Nat) (a : Fin 64) : Total := ((List.finRange 9).take j).foldl (applied a) accums[a]
    let result := commitStaging name staging accums
    (∀ a : Fin 64, result.1[a] = upTo 9 a) ∧
    (result.2 = true ↔ ∃ k : Fin 9, 0 < staging[k].count ∧
      ((upTo k.val (name k)).applyEntry staging[k]).2 = true) := by
  intro applied upTo result
  refine ⟨fun a => fold_get name staging _ (accums, false) a, ?_⟩
  have := fold_report name staging (List.finRange 9) (accums, false)
  show ((List.finRange 9).foldl (applyStaged name staging) (accums, false)).2 = true ↔ _
  rw [this]
  simp only [Bool.false_eq_true, false_or, List.length_finRange, List.getElem_finRange, Fin.cast_eq_self]
  constructor
  · rintro ⟨i, hi, h⟩; exact ⟨⟨i, hi⟩, h⟩
  · rintro ⟨k, h⟩; exact ⟨k.val, k.isLt, h⟩

end Sys2Proof.Machine
end

