-- ==== Sys2Proof/Laws/Cells.lean ====
section
/-! SUPPORT. Cells: the walk and the exclusion rectangle, the accesses of a cell, its outcome by order kind, and what
a worked cell begins. -/

namespace Sys2Proof.Machine

/-- The cells of a walk in their order (R24). -/
theorem cellAt_cells (body : List Byte) : 
    let w := walkOf body
    let rows := lastRow body - leField body 84 2 + 1
    let cols := lastCol body - leField body 86 2 + 1
    ∀ i j, i < rows → j < cols →
        let r := if (byteAt body 83).toNat = 1 then lastRow body - i else leField body 84 2 + i
        let c := if (byteAt body 82).toNat = 1 then lastCol body - j else leField body 86 2 + j
        ((byteAt body 81).toNat ≠ 1 → w.cellAt (i * cols + j) = (r, c)) ∧
        ((byteAt body 81).toNat = 1 → w.cellAt (j * rows + i) = (r, c)) := by
  intro w rows cols i j hi hj r c
  have wr : w.rows = rows := rfl
  have wc : w.cols = cols := rfl
  have d1 : (i * cols + j) / cols = i ∧ (i * cols + j) % cols = j := by
    constructor
    · rw [Nat.add_comm, Nat.mul_comm, Nat.add_mul_div_left _ _ (by omega), Nat.div_eq_of_lt hj]; omega
    · rw [Nat.add_comm, Nat.mul_comm, Nat.add_mul_mod_self_left, Nat.mod_eq_of_lt hj]
  have d2 : (j * rows + i) / rows = j ∧ (j * rows + i) % rows = i := by
    constructor
    · rw [Nat.add_comm, Nat.mul_comm, Nat.add_mul_div_left _ _ (by omega), Nat.div_eq_of_lt hi]; omega
    · rw [Nat.add_comm, Nat.mul_comm, Nat.add_mul_mod_self_left, Nat.mod_eq_of_lt hi]
  have ax : w.axis = axisOfCode (byteAt body 81).toNat := rfl
  have rd : w.rowDir = directionOfCode (byteAt body 83).toNat := rfl
  have cd : w.colDir = directionOfCode (byteAt body 82).toNat := rfl
  have fin : ∀ k, w.distances k = (i, j) → w.cellAt k = (r, c) := by
    intro k hk
    unfold Walk.cellAt; rw [hk]; dsimp only
    rw [rd, cd]; unfold directionOfCode
    apply Prod.ext
    · show (match (if _ then Direction.reverse else .forward) with | .forward => w.rowStart + i | .reverse => w.rowEnd - i) = if _ then _ else _
      by_cases q : (byteAt body 83).toNat = 1
      · rw [if_pos q, if_pos q]; rfl
      · rw [if_neg q, if_neg q]; rfl
    · show (match (if _ then Direction.reverse else .forward) with | .forward => w.colStart + j | .reverse => w.colEnd - j) = if _ then _ else _
      by_cases q : (byteAt body 82).toNat = 1
      · rw [if_pos q, if_pos q]; rfl
      · rw [if_neg q, if_neg q]; rfl
  refine ⟨fun h => fin _ ?_, fun h => fin _ ?_⟩
  · unfold Walk.distances; rw [ax]; unfold axisOfCode; rw [if_neg h, wc]
    exact Prod.ext d1.1 d1.2
  · unfold Walk.distances; rw [ax]; unfold axisOfCode; rw [if_pos h, wr]
    exact Prod.ext d2.2 d2.1

/-- The exclusion rectangle (R28). -/
theorem excludes_iff (body : List Byte) (r c : Nat) :
    let inside := leField body 94 2 ≤ r ∧ r ≤ leField body 98 2 ∧ leField body 96 2 ≤ c ∧ c ≤ leField body 100 2
    ((byteAt body 92).toNat = 0 → excludes body r c = false) ∧
    ((byteAt body 92).toNat = 1 → (excludes body r c = true ↔ inside)) ∧
    ((byteAt body 92).toNat = 2 → (excludes body r c = true ↔ ¬inside)) := by
  intro inside
  have hi : (decide (leField body 94 2 ≤ r) && decide (r ≤ leField body 98 2) && decide (leField body 96 2 ≤ c) && decide (c ≤ leField body 100 2)) = true ↔ inside := by
    simp only [Bool.and_eq_true, decide_eq_true_eq]
    exact ⟨fun ⟨⟨⟨a, b⟩, c⟩, d⟩ => ⟨a, b, c, d⟩, fun ⟨a, b, c, d⟩ => ⟨⟨⟨a, b⟩, c⟩, d⟩⟩
  unfold excludes
  refine ⟨fun h => by rw [h]; rfl, fun h => by rw [h]; exact hi, fun h => ?_⟩
  rw [h, ← hi]
  show (!(_ : Bool)) = true ↔ _
  rw [Bool.not_eq_true', Bool.not_eq_true]

/-- The orders with a second source. -/
theorem readsB_iff (k : OrderKind) (body : List Byte) : readsB k body = true ↔ k = .difference ∨ k = .compare ∧
    (byteAt body 138).toNat ≠ 1 := by
  unfold readsB comparesConstant; cases k <;> simp
  rw [← one_iff]; simp

/-- The destinations that are read before they are written (R31, R35). -/
theorem readsDestination_iff (k : OrderKind) (body : List Byte) (h : k ≠ .compare) :
    readsDestination k body = true ↔ (byteAt body 60).toNat = 5 ∨ ((byteAt body 60).toNat = 1 ∨ (byteAt body 60).toNat = 2) ∧ leField body 120 3 ≠ 0 := by
  have e0 : readsDestination k body = match (gridC body).format with | .field _ => true | .dec _ | .sdec _ => decide (keepMask body ≠ 0) | .bin16 | .bin32 => false := by
    unfold readsDestination; cases k <;> first | rfl | exact absurd rfl h
  have ef : (gridC body).format = (formatOfCode (byteAt body 60).toNat (byteAt body 61).toNat).getD .bin16 := rfl
  rw [e0, ef]
  rcases format_cases (byteAt body 60).toNat (byteAt body 61).toNat with ⟨q, e⟩ | ⟨q, e⟩ | ⟨q, e⟩ | ⟨q, e⟩ | ⟨q,
      e⟩ | ⟨q, e⟩ <;> rw [e]
  · rw [q]; dsimp only [Option.getD]; rw [decide_eq_true_iff]; unfold keepMask; simp
  · rw [q]; dsimp only [Option.getD]; rw [decide_eq_true_iff]; unfold keepMask; simp
  · rw [q]; simp
  · rw [q]; simp
  · rw [q]; simp
  · have h5 : (byteAt body 60).toNat ≠ 5 := by omega
    have h1 : (byteAt body 60).toNat ≠ 1 := by omega
    have h2 : (byteAt body 60).toNat ≠ 2 := by omega
    simp [h5, h1, h2]

/-- The address, length and bit of a cell (R18, R26). -/
theorem grid_cells (body : List Byte) (i r c : Nat) :
    let code := (byteAt body (i + 12)).toNat
    let count := (byteAt body (i + 13)).toNat
    let base := leField body i 4
    let pitch := leField body (i + 8) 4
    let g := gridAt body i
    (1 ≤ code → code ≤ 4 →
      g.cellAddr r c = base + r * pitch + c * cellSize code count ∧ g.cellLen r c = cellSize code count) ∧
    (code = 5 →
      g.cellAddr r c = base + (r * pitch + c * count) / 8 ∧ g.cellBit r c = (r * pitch + c * count) % 8 ∧
        g.cellLen r c = ((r * pitch + c * count) % 8 + count + 7) / 8) := by
  intro code count base pitch g
  have ef : g.format = (formatOfCode code count).getD .bin16 := rfl
  have eb : g.base = base := rfl
  have ep : g.pitch = pitch := rfl
  unfold Grid.cellAddr Grid.cellLen Grid.cellBit Grid.bitOffset
  rw [ef, eb, ep]
  rcases format_cases code count with ⟨q, e⟩ | ⟨q, e⟩ | ⟨q, e⟩ | ⟨q, e⟩ | ⟨q, e⟩ | ⟨q, e⟩ <;> rw [e]
  · exact ⟨fun _ _ => by rw [q]; exact ⟨rfl, rfl⟩, fun h => by omega⟩
  · exact ⟨fun _ _ => by rw [q]; exact ⟨rfl, rfl⟩, fun h => by omega⟩
  · exact ⟨fun _ _ => by rw [q]; exact ⟨rfl, rfl⟩, fun h => by omega⟩
  · exact ⟨fun _ _ => by rw [q]; exact ⟨rfl, rfl⟩, fun h => by omega⟩
  · exact ⟨fun _ h => by omega, fun _ => ⟨rfl, rfl, rfl⟩⟩
  · exact ⟨fun _ h => by omega, fun h => by omega⟩

/-- Whether destination C is signed. -/
theorem signed_iff (body : List Byte) : (gridC body).format.signed = true ↔ (byteAt body 60).toNat = 2 := by
  have ef : (gridC body).format = (formatOfCode (byteAt body 60).toNat (byteAt body 61).toNat).getD .bin16 := rfl
  rw [ef]
  rcases format_cases (byteAt body 60).toNat (byteAt body 61).toNat with ⟨q, e⟩ | ⟨q, e⟩ | ⟨q, e⟩ | ⟨q, e⟩ | ⟨q,
      e⟩ | ⟨q, e⟩ <;> rw [e]
  all_goals simp [CellFormat.signed]
  all_goals omega

/-- The exceptions of a DIFFERENCE value (R102). -/
theorem formDifference_kinds (m l : Nat) (a b : Int) (k : CellException) (h : (formDifference m l a b).2 = some k) : k.kind = .rollover ∨ k.kind = .reversal := by
  unfold formDifference at h
  split at h
  · cases h
  · dsimp only at h; split at h <;> (injection h with h; subst h; simp)

/-- The value of a decoded cell. -/
def decodedCell (k : OrderKind) (body : List Byte) (set : Option BandSet) (w : CellWork) (x y : Int) : CellWork × Option (Fin 9) :=
  match k with
    | .tally => tallyCell body (set.getD BandSet.powerOn) w x
    | .difference => differenceCell body set w x y
    | .compare => (compareCell body w x y, none)
    | .convert => (convertCell body w x, none)
    | .pattern | .bandset | .preset | .snapshot => (w, none)

/-- A worked cell whose operands decode. -/
theorem workCell_some (k : OrderKind) (body : List Byte) (set : Option BandSet) (w : CellWork) (p q : List Byte) (x y : Int)
    (ha : (gridA body).decodeCell w.row w.col p = some x)
    (hb : (if readsB k body = true then (gridB body).decodeCell w.row w.col q else some (constantOf body)) = some y) :
    workCell k body set w p q = decodedCell k body set w x y := by
  unfold workCell decodedCell; dsimp only
  rw [ha, hb]
  all_goals (cases k <;> rfl)

/-- The outcome of a worked cell by kind (R42, R98, R102 to R104, R110, R118). -/
theorem workCell_outcomes (kind : OrderKind) (body : List Byte) (set : Option BandSet) (w : CellWork) (bytesA bytesB : List Byte) :
    let a := (gridA body).decodeCell w.row w.col bytesA
    let b := (gridB body).decodeCell w.row w.col bytesB
    let r := workCell kind body set w bytesA bytesB
    ((a = none ∨ readsB kind body = true ∧ b = none) →
      r = ({ w with malformed := true, exceptions := [⟨.malformed, 0, 0⟩], cls := .rejected }, none)) ∧
    (∀ x z, kind = .tally → a = some x → set = some z →
      let v := convertValue body (.signed (tallyWidth body)) x
      let k := classify z v.output
      r.2 = stagingEntry (residueOf body) k ∧ CellConverted v [] (classException z v.output k) w r.1 ∧
        r.1.cls = (if (stagingEntry (residueOf body) k).isSome then .contributed else .rejected)) ∧
    (∀ x y, kind = .difference → a = some x → b = some y →
      let d := formDifference (rolloverDigits body) (rolloverLimit body) x y
      let v := convertValue body (gridC body).format.outputClass d.1
      ((∃ k, d.2 = some k ∧ k.kind = .reversal) → (byteAt body 60).toNat ≠ 2 →
        r = ({ w with working := some d.1, exceptions := d.2.toList, cls := .rejected }, none)) ∧
      ((∀ k, d.2 = some k → k.kind = .rollover) ∨ (byteAt body 60).toNat = 2 →
        r.1.cls = .contributed ∧
        (set = none → r.2 = none ∧ CellConverted v d.2.toList [] w r.1) ∧
        (∀ z, set = some z → r.2 = stagingEntry (residueOf body) (classify z v.output) ∧
          CellConverted v d.2.toList (classException z v.output (classify z v.output)) w r.1))) ∧
    (∀ x, kind = .convert → a = some x →
      r.2 = none ∧ r.1.cls = .contributed ∧
        CellConverted (convertValue body (gridC body).format.outputClass x) [] [] w r.1) ∧
    (∀ x y, kind = .compare → a = some x →
      (if (byteAt body 138).toNat = 1 then signedField 24 body 140 13 = some y else b = some y) →
      r = ({ w with
        cls := .contributed, verdict := some (relationHolds (byteAt body 139).toNat x y) }, none)) := by
  intro a b r
  refine ⟨fun h => ?_, fun x z hk hx hz => ?_, fun x y hk hx hy => ?_, fun x hk hx => ?_, fun x y hk hx hy => ?_⟩
  · show workCell _ _ _ _ _ _ = _
    unfold workCell CellWork.reject; dsimp only
    rcases h with h | ⟨h1, h2⟩
    · rw [show (gridA body).decodeCell w.row w.col bytesA = none from h]
    · rw [if_pos h1, show (gridB body).decodeCell w.row w.col bytesB = none from h2]
      cases (gridA body).decodeCell w.row w.col bytesA <;> rfl
  · have e : r = tallyCell body z w x := by
      subst hk hz
      exact workCell_some _ body _ w bytesA bytesB x (constantOf body) hx rfl
    rw [e]
    refine ⟨rfl, ⟨rfl, rfl, ?_, ⟨rfl, rfl⟩, ?_, rfl⟩, rfl⟩
    · show saturatedException _ ++ _ = saturatedException _ ++ [] ++ _; rw [List.append_nil]
    · unfold tallyCell; dsimp only
      rw [Bool.and_eq_true, decide_eq_true_iff]
      split
      next h => exact ⟨fun q => ⟨rfl, q.2⟩, fun q => ⟨h, q.2⟩⟩
      next h => exact ⟨fun q => absurd q.1 h, fun q => by cases q.1⟩
  · intro d v
    have e : r = differenceCell body set w x y := by
      subst hk
      exact workCell_some _ body set w bytesA bytesB x y hx hy
    have ev : (d.2.any (fun e => e.kind == .reversal)) = true ↔ ∃ k, d.2 = some k ∧ k.kind = .reversal := by
      rw [Option.any_eq_true]; simp
    rw [e]
    unfold differenceCell; dsimp only
    refine ⟨fun h1 h2 => ?_, fun h => ?_⟩
    · rw [if_pos]
      rw [Bool.and_eq_true, Bool.not_eq_true']
      refine ⟨ev.2 h1, ?_⟩
      rw [← Bool.not_eq_true, signed_iff]; exact h2
    · have hn : ¬ ((d.2.any (fun e => e.kind == .reversal)) && !(gridC body).format.signed) = true := by
        rw [Bool.and_eq_true, Bool.not_eq_true', ← Bool.not_eq_true, signed_iff, ev]
        rintro ⟨⟨k, hk1, hk2⟩, h3⟩
        rcases h with h | h
        · have := h k hk1; rw [hk2] at this; cases this
        · exact h3 h
      rw [if_neg hn]
      refine ⟨rfl, fun hz => ?_, fun z hz => ?_⟩
      · subst hz
        exact ⟨rfl, rfl, rfl, rfl, ⟨rfl, rfl⟩, by rw [decide_eq_true_iff]; exact ⟨fun q => ⟨rfl, q⟩, fun q => q.2⟩, rfl⟩
      · subst hz
        exact ⟨rfl, rfl, rfl, rfl, ⟨rfl, rfl⟩, by rw [decide_eq_true_iff]; exact ⟨fun q => ⟨rfl, q⟩, fun q => q.2⟩, rfl⟩
  · have e : r = (convertCell body w x, none) := by
      subst hk
      exact workCell_some _ body set w bytesA bytesB x (constantOf body) hx rfl
    rw [e]
    refine ⟨rfl, rfl, rfl, rfl, ?_, ⟨rfl, rfl⟩, ?_, rfl⟩
    · show saturatedException _ = saturatedException _ ++ [] ++ []; rw [List.append_nil, List.append_nil]
    · unfold convertCell; dsimp only; rw [decide_eq_true_iff]; exact ⟨fun q => ⟨rfl, q⟩, fun q => q.2⟩
  · have hb : (if readsB kind body = true then (gridB body).decodeCell w.row w.col bytesB else some (constantOf body)) = some y := by
      rw [hk]
      by_cases q : (byteAt body 138).toNat = 1
      · rw [if_pos q] at hy
        rw [if_neg (by rw [readsB_iff]; rintro (h | h); · cases h
                       · exact h.2 q)]
        unfold constantOf; rw [hy]; rfl
      · rw [if_neg q] at hy
        rw [if_pos ((readsB_iff _ _).2 (.inr ⟨rfl, q⟩))]; exact hy
    have e : r = (compareCell body w x y, none) := by
      subst hk
      exact workCell_some _ body set w bytesA bytesB x y hx hb
    rw [e]; rfl

/-- Exceptions without room (R114). -/
theorem loseFull_some (cap : Nat) (x : List CellException) : ∀ r : OrderRecord,
    (r.cursor < cap → r.loseFull cap x = (r, x)) ∧
    (cap ≤ r.cursor → r.loseFull cap x = ({ r with raised := r.raised + x.length, lost := r.lost + x.length }, [])) := by
  induction x with
  | nil => intro r; exact ⟨fun _ => rfl, fun _ => rfl⟩
  | cons a rest ih =>
    intro r
    refine ⟨fun h => ?_, fun h => ?_⟩
    · unfold OrderRecord.loseFull; rw [if_pos h]
    · unfold OrderRecord.loseFull; rw [if_neg (by omega), (ih r.countLost).2 h]
      unfold OrderRecord.countLost; dsimp only [List.length_cons]
      rw [Nat.add_right_comm, Nat.add_right_comm r.lost]; rfl

/-- The records of a cell begun. -/
theorem Lane.recordsBegun_toRecords (e : Entry) (l : Lane) (c : WalkContext) (w : CellWork) (hc : l.context = some c) (hw : l.cell = some w) :
    RecordsBegun e c w l (l.toRecords e) := by
  rcases l with ⟨a1, a2, a3, a4, a5, ctx, a6, a7, a8, a9, cell, a11⟩
  dsimp only at hc hw; subst hc hw
  unfold Lane.toRecords; dsimp only
  obtain ⟨k1, k2⟩ := loseFull_some e.header.listCapacity w.exceptions c.record
  refine ⟨fun h => ?_, fun h hcap => ?_, fun h hcap => ?_⟩
  · rw [h]; rcases w with ⟨_, _, _, _, _, _, ex, _, _, _⟩; dsimp only at h; subst h; rfl
  · rw [k1 hcap]; dsimp only; rw [if_neg]
    intro q; exact h (List.isEmpty_iff.1 q)
  · rw [k2 hcap]; rfl

/-- Which cells have their destination written. -/
theorem writesDestination_iff (k : OrderKind) (w : CellWork) : writesDestination k w = true ↔ cellWrites k w := by
  unfold writesDestination cellWrites; cases k <;> simp

/-- The destination of a cell outside COMPARE. -/
theorem destinationAddr_other (e : Entry) (r c : Nat) (h : e.header.kind ≠ .compare) : destinationAddr e r c = (gridC e.body).cellAddr r c := by
  unfold destinationAddr; split
  · exact absurd ‹_› h
  · rfl

/-- The writes of a cell begun. -/
theorem Lane.writesBegun_startWrites (e : Entry) (l : Lane) (c : WalkContext) (w : CellWork) (hc : l.context = some c) :
    WritesBegun e c w l (({ l with cell := some w } : Lane).startWrites e) := by
  have lc : ({ l with cell := some w } : Lane) = { l with context := some c, cell := some w } := by rw [← hc]
  refine ⟨fun h1 h2 => ?_, fun h1 h2 => ?_, fun h => ?_⟩
  · unfold Lane.startWrites; dsimp only
    rw [if_pos ((writesDestination_iff _ _).2 h1), if_pos h2, ← hc]
  · unfold Lane.startWrites; dsimp only
    rw [if_pos ((writesDestination_iff _ _).2 h1), if_neg (by rw [h2]; decide), ← hc, destinationAddr_other]
    intro q; rw [q] at h2; cases h2
  · have : ({ l with cell := some w } : Lane).startWrites e = ({ l with cell := some w } : Lane).toRecords e := by
      unfold Lane.startWrites; dsimp only
      rw [if_neg (fun q => h ((writesDestination_iff _ _).1 q))]
    rw [this]
    obtain ⟨a1, a2, a3⟩ := Lane.recordsBegun_toRecords e { l with cell := some w } c w hc rfl
    exact ⟨a1, a2, a3⟩

/-- A cell worked and its writes begun. -/
theorem State.workOperands_begins (s : State) (n : LaneId) (e : Entry) (w : CellWork) (a b : List Byte) (c : WalkContext) (hc : (s.lane n).context = some c) :
    let r := workCell e.header.kind e.body (s.setOfEntry e) w a b
    ∃ (l : Lane) (staging : Staging), s.workOperands n e w a b = s.setLane n l ∧
      (∀ i : Fin 9, r.2 = some i → staging[i] = (s.lane n).staging[i].contribute (r.1.working.getD 0)) ∧
      (∀ i : Fin 9, r.2 ≠ some i → staging[i] = (s.lane n).staging[i]) ∧
      WritesBegun e c r.1 { s.lane n with staging := staging } l := by
  intro r
  set st : Staging := match r.2 with
    | some i => (s.lane n).staging.set i ((s.lane n).staging[i].contribute (r.1.working.getD 0))
    | none => (s.lane n).staging with hst
  refine ⟨_, st, rfl, fun i hi => ?_, fun i hi => ?_, Lane.writesBegun_startWrites e { s.lane n with staging := st } c r.1 hc⟩
  · rw [hst, hi]; simp
  · rw [hst]
    cases hr : r.2 with
    | none => rfl
    | some j =>
      have : j ≠ i := fun q => hi (by rw [hr, q])
      have : j.val ≠ i.val := fun q => this (Fin.ext q)
      simp [Vector.getElem_set, this]

end Sys2Proof.Machine
end

