-- ==== Sys2Proof/Laws/Contexts.lean ====
section
/-! SUPPORT. What the shared operations do to the contexts of orders, on lanes, in park banks and in hand-overs: any
property that is closed under the ways a context changes holds after every shared operation. -/

namespace Sys2Proof.Machine

/-! ## How a per-order record changes -/

/-- The ways in which a per-order record comes from an earlier one (R37, R90, R114). -/
inductive OrderRecord.Grows : OrderRecord → OrderRecord → Prop where
  | refl (r : OrderRecord) : Grows r r
  | lost {r x : OrderRecord} : Grows r x → Grows r x.countLost
  | written {r x : OrderRecord} : Grows r x → Grows r x.countWritten
  | cell {r x : OrderRecord} (w : CellWork) : Grows r x → Grows r (x.countCell w)

theorem OrderRecord.grows_trans {r x y : OrderRecord} (h : r.Grows x) (k : x.Grows y) : r.Grows y := by
  induction k with
  | refl => exact h
  | lost _ ih => exact ih.lost
  | written _ ih => exact ih.written
  | cell w _ ih => exact ih.cell w

theorem OrderRecord.grows_loseFull (cap : Nat) (r : OrderRecord) (es : List CellException) :
    r.Grows (OrderRecord.loseFull cap r es).1 := by
  induction es generalizing r with
  | nil => exact .refl r
  | cons e rest ih =>
    unfold OrderRecord.loseFull
    split
    · exact .refl r
    · exact OrderRecord.grows_trans (.lost (.refl r)) (ih r.countLost)

/-- A record that balances still balances after it has grown. -/
theorem OrderRecord.balanced_grows {r x : OrderRecord} (h : r.Grows x) (hr : r.Balanced) : x.Balanced := by
  induction h with
  | refl => exact hr
  | lost _ ih => exact ⟨ih.cells, by have := ih.exceptions; simp only [OrderRecord.countLost]; omega, ih.cursor⟩
  | written _ ih =>
    exact ⟨ih.cells, by have := ih.exceptions; simp only [OrderRecord.countWritten]; omega,
      by have := ih.cursor; simp only [OrderRecord.countWritten]; omega⟩
  | cell w _ ih =>
    refine ⟨?_, ih.exceptions, ih.cursor⟩
    have := ih.cells
    simp only [OrderRecord.countCell]
    cases w.cls <;> simp <;> omega

/-! ## Properties of contexts -/

/-- Closure of a property of lanes `L`, of park banks `B` and of handed-over records `R` under the ways in which the
shared operations move and change contexts. -/
structure Closed (L : Lane → Prop) (B : ParkBank → Prop) (R : OrderRecord → Prop) : Prop where
  same : ∀ l l' : Lane, l'.staging = l.staging → l'.buffer = l.buffer → l'.context = l.context →
    l'.runTimer = l.runTimer → L l → L l'
  grow : ∀ (l l' : Lane) (c c' : WalkContext), l.context = some c → l'.context = some c' →
    c.record.Grows c'.record → l'.staging = l.staging → l'.buffer = l.buffer → l'.runTimer = l.runTimer → L l → L l'
  contribute : ∀ (l : Lane) (i : Fin 9) (v : Int), L l →
    L { l with staging := l.staging.set i (l.staging[i].contribute v) }
  ending : ∀ l : Lane, L l → L l.ending
  reset : L Lane.reset
  fresh : ∀ e : Entry, L (freshLane e)
  free : B .free
  reserved : ∀ n, B (.reserved n)
  resumed : ∀ (e : Entry) (c : ParkedContext), B (.holding c) → L (resumedLane e c)
  park : ∀ (l : Lane) (k : Nat) (c : WalkContext), l.context = some c → L l → B (.holding (l.parkedContext k c))
  start : R OrderRecord.start
  walk : ∀ (l : Lane) (c : WalkContext), l.context = some c → L l → R c.record
  banked : ∀ c : ParkedContext, B (.holding c) → R c.record

/-- The property holds of every lane, bank and hand-over of a state. -/
structure State.Contexts (L : Lane → Prop) (B : ParkBank → Prop) (R : OrderRecord → Prop) (s : State) : Prop where
  lanes : ∀ n, L (s.lane n)
  banks : ∀ b : Fin 4, B s.banks[b]
  hands : ∀ h ∈ s.writer.held, R h.record

section
variable {L : Lane → Prop} {B : ParkBank → Prop} {R : OrderRecord → Prop}

/-! ## Updates -/

/-- States that agree on lanes, banks and hand-overs share the property. -/
theorem State.Contexts.of_eq {s t : State} (h : s.Contexts L B R) (hl : ∀ n, t.lane n = s.lane n)
    (hb : t.banks = s.banks) (hw : t.writer = s.writer) : t.Contexts L B R :=
  ⟨fun n => by rw [hl]; exact h.lanes n, fun b => by rw [show t.banks[b] = s.banks[b] by rw [hb]]; exact h.banks b,
    fun x hx => h.hands x (by rwa [hw] at hx)⟩

theorem State.Contexts.setLane {s : State} (h : s.Contexts L B R) (n : LaneId) {l : Lane} (hl : L l) :
    (s.setLane n l).Contexts L B R := by
  refine ⟨fun k => ?_, fun b => ?_, fun x hx => ?_⟩
  · by_cases hk : k = n
    · subst hk; rw [State.lane_setLane]; exact hl
    · rw [State.lane_setLane_ne s l hk]; exact h.lanes k
  · have := h.banks b; cases n <;> exact this
  · refine h.hands x ?_; cases n <;> exact hx

theorem State.Contexts.relane (H : Closed L B R) {s : State} (h : s.Contexts L B R) (n : LaneId) {l : Lane}
    (hs : l.staging = (s.lane n).staging) (hb : l.buffer = (s.lane n).buffer)
    (hc : l.context = (s.lane n).context) (ht : l.runTimer = (s.lane n).runTimer) : (s.setLane n l).Contexts L B R :=
  h.setLane n (H.same _ _ hs hb hc ht (h.lanes n))

theorem State.Contexts.setBank {s : State} (h : s.Contexts L B R) (b : Fin 4) {x : ParkBank} (hx : B x) :
    (s.setBank b x).Contexts L B R := by
  refine ⟨h.lanes, fun k => ?_, h.hands⟩
  show B ((s.banks.set b x)[k])
  by_cases hk : b = k
  · subst hk; simpa using hx
  · have : (s.banks.set b x)[k] = s.banks[k] := by
      have : b.val ≠ k.val := fun e => hk (Fin.ext e)
      simp [Fin.getElem_fin, this]
    rw [this]; exact h.banks k

theorem CompletionWriter.held_waiting {w : CompletionWriter} {h : HandOver} (hm : h ∈ w.waiting) : h ∈ w.held := by
  unfold CompletionWriter.held
  split
  · exact hm
  all_goals exact List.mem_cons_of_mem _ hm

theorem State.Contexts.handOver {s : State} (h : s.Contexts L B R) {x : HandOver} (hx : R x.record) :
    (s.handOver x).Contexts L B R := by
  refine ⟨h.lanes, h.banks, fun y hy => ?_⟩
  have hh := h.hands
  unfold State.handOver State.setWriter CompletionWriter.held at hy
  unfold CompletionWriter.held at hh
  dsimp only at hy
  split at hy <;> rename_i hstep <;> rw [hstep] at hh <;> dsimp only at hh
  · rcases List.mem_append.1 hy with hy | hy
    · exact hh y hy
    · rw [List.mem_singleton.1 hy]; exact hx
  all_goals
    rcases List.mem_cons.1 hy with hy | hy
    · exact hh y (hy ▸ List.mem_cons_self)
    · rcases List.mem_append.1 hy with hy | hy
      · exact hh y (List.mem_cons_of_mem _ hy)
      · rw [List.mem_singleton.1 hy]; exact hx

/-! ## The ends of orders -/

theorem State.Contexts.freeRequestBank (H : Closed L B R) {s : State} (h : s.Contexts L B R) (n : LaneId) :
    (s.freeRequestBank n).Contexts L B R := by
  unfold State.freeRequestBank
  split
  · exact h.setBank _ H.free
  all_goals exact h

theorem State.Contexts.releaseSet {s : State} (h : s.Contexts L B R) (e : Entry) :
    (s.releaseSet e).Contexts L B R := by
  unfold State.releaseSet
  split
  · split
    · exact h.of_eq (fun _ => rfl) rfl rfl
    · exact h
  · exact h

theorem State.Contexts.endWalk (H : Closed L B R) {s : State} (h : s.Contexts L B R) (n : LaneId) (f : FinalState)
    (r : Reason) (x : Option (Nat × Nat)) : (s.endWalk n f r x).Contexts L B R := by
  unfold State.endWalk
  split
  next e c _ hc =>
    exact (((h.freeRequestBank H n).setLane n (H.ending _ (h.lanes n))).releaseSet e).handOver
      (H.walk _ c hc (h.lanes n))
  · exact h

theorem State.Contexts.endPlain (H : Closed L B R) {s : State} (h : s.Contexts L B R) (n : LaneId) (f : FinalState)
    (r : Reason) : (s.endPlain n f r).Contexts L B R := by
  unfold State.endPlain
  split
  · exact ((h.freeRequestBank H n).setLane n (H.ending _ (h.lanes n))).handOver H.start
  · exact h

theorem State.Contexts.endParked (H : Closed L B R) {s : State} (h : s.Contexts L B R) (k : Nat) (r : Reason) :
    (s.endParked k r).Contexts L B R := by
  unfold State.endParked
  split
  next e _ =>
    split
    next c hc =>
      refine State.Contexts.handOver ?_ (H.banked c (hc ▸ h.banks e.bank))
      exact (h.releaseSet e).of_eq (fun _ => rfl) rfl rfl
    all_goals exact h
  · exact h

theorem State.Contexts.actOn (H : Closed L B R) {s : State} (h : s.Contexts L B R) (n : LaneId) (r : StopRequest) :
    (s.actOn n r).Contexts L B R := by
  unfold State.actOn
  split
  all_goals first | exact h.endWalk H _ _ _ _ | exact h

theorem State.Contexts.post (H : Closed L B R) {s : State} (h : s.Contexts L B R) (n : LaneId) (r : StopRequest) :
    (s.post n r).Contexts L B R := by
  have k : ((s.freeRequestBank n).setLane n { s.lane n with request := r, state := .yielding }).Contexts L B R :=
    (h.freeRequestBank H n).setLane n (H.same (s.lane n) _ rfl rfl rfl rfl (h.lanes n))
  unfold State.post
  dsimp only
  split
  · exact h
  · split
    · split
      · exact k.actOn H _ _
      · exact k
    · exact h

theorem State.Contexts.settlePause {s : State} (h : s.Contexts L B R) : s.settlePause.Contexts L B R := by
  unfold State.settlePause
  split
  · exact h.of_eq (fun _ => rfl) rfl rfl
  · exact h

theorem State.Contexts.settleStop {s : State} (h : s.Contexts L B R) : s.settleStop.Contexts L B R := by
  unfold State.settleStop
  split
  · exact h.of_eq (fun _ => rfl) rfl rfl
  · exact h

theorem State.Contexts.asOneEvent {s : State} {f : State → State} (h : (f s).Contexts L B R) :
    (s.asOneEvent f).Contexts L B R := by
  refine ⟨h.lanes, h.banks, fun y hy => ?_⟩
  have hh := h.hands
  have join : ∀ (k : Nat) (hs : List HandOver), y ∈ joinAfter k hs → ∃ z ∈ hs, z.record = y.record := by
    intro k hs hm
    rcases List.mem_append.1 hm with hm | hm
    · exact ⟨y, List.mem_of_mem_take hm, rfl⟩
    · obtain ⟨z, hz, rfl⟩ := List.mem_map.1 hm
      exact ⟨z, List.mem_of_mem_drop hz, rfl⟩
  unfold State.asOneEvent State.setWriter CompletionWriter.held at hy
  unfold CompletionWriter.held at hh
  dsimp only at hy
  split at hy <;> rename_i hstep <;> rw [hstep] at hh <;> dsimp only at hh
  · obtain ⟨z, hz, hzr⟩ := join _ _ hy
    rw [← hzr]; exact hh z hz
  all_goals
    rcases List.mem_cons.1 hy with hy | hy
    · exact hh y (hy ▸ List.mem_cons_self)
    · obtain ⟨z, hz, hzr⟩ := join _ _ hy
      rw [← hzr]; exact hh z (List.mem_cons_of_mem _ hz)

/-! ## Sweeps touch no context -/

theorem State.Contexts.setSlate {s : State} (h : s.Contexts L B R) (x : SlateReader) :
    (s.setSlate x).Contexts L B R :=
  h.of_eq (fun _ => rfl) rfl rfl

theorem State.Contexts.requestSweep {s : State} (h : s.Contexts L B R) : s.requestSweep.Contexts L B R := by
  unfold State.requestSweep State.beginSweep
  split
  · split <;> exact h.setSlate _
  all_goals first | exact h | exact h.setSlate _

theorem State.Contexts.endSweep {s : State} (h : s.Contexts L B R) : s.endSweep.Contexts L B R := by
  unfold State.endSweep State.beginSweep
  dsimp only
  split
  · split
    · exact (h.setSlate _).setSlate _
    · exact h.setSlate _
  · exact (h.setSlate _).setSlate _
  all_goals exact h.setSlate _

theorem State.Contexts.advanceSweep {s : State} (h : s.Contexts L B R) (k : Nat) : (s.advanceSweep k).Contexts L B R := by
  unfold State.advanceSweep
  dsimp only
  split
  · exact (h.setSlate _).endSweep
  · exact h.setSlate _

theorem State.Contexts.failAtTake (H : Closed L B R) {s : State} (h : s.Contexts L B R) (k : Nat) (b : List Byte)
    (r : Reason) : (s.failAtTake k b r).Contexts L B R :=
  (h.setSlate _).handOver H.start

/-! ## Cells -/

theorem Closed.toRecords (H : Closed L B R) (e : Entry) {l : Lane} (h : L l) : L (l.toRecords e) := by
  unfold Lane.toRecords
  split
  next c w hc hw =>
    exact H.grow l _ c _ hc rfl (OrderRecord.grows_loseFull _ _ _) rfl rfl rfl h
  · exact h

theorem Closed.startWrites (H : Closed L B R) (e : Entry) {l : Lane} (h : L l) : L (l.startWrites e) := by
  unfold Lane.startWrites
  split
  · split
    · split
      · exact H.same l _ rfl rfl rfl rfl h
      · exact H.same l _ rfl rfl rfl rfl h
    · exact H.toRecords e h
  · exact h

theorem Closed.afterMark (H : Closed L B R) (e : Entry) {l : Lane} (h : L l) : L (l.afterMark e) := by
  unfold Lane.afterMark
  split
  · split
    · exact H.same l _ rfl rfl rfl rfl h
    · split
      · exact H.startWrites e (H.same l _ rfl rfl rfl rfl h)
      · exact H.same l _ rfl rfl rfl rfl h
  · exact h

theorem Closed.beginCell (H : Closed L B R) (e : Entry) {l : Lane} (h : L l) : L (l.beginCell e) := by
  unfold Lane.beginCell
  split
  · dsimp only
    split
    · exact H.same l _ rfl rfl rfl rfl h
    · exact H.afterMark e (H.same l _ rfl rfl rfl rfl h)
  · exact h

theorem Closed.takeMark (H : Closed L B R) (e : Entry) (w : CellWork) (b : Byte) {l : Lane} (h : L l) :
    L (l.takeMark e w b) := by
  unfold Lane.takeMark
  split
  · exact H.same l _ rfl rfl rfl rfl h
  · exact H.afterMark e h

theorem Closed.recordWritten (H : Closed L B R) {l : Lane} {c : WalkContext} (hc : l.context = some c) (w : CellWork)
    (h : L l) : L (l.recordWritten c w) :=
  H.grow l _ c _ hc rfl (.written (.refl _)) rfl rfl rfl h

theorem State.Contexts.beginCell (H : Closed L B R) {s : State} (h : s.Contexts L B R) (n : LaneId) :
    (s.beginCell n).Contexts L B R := by
  unfold State.beginCell
  split
  · exact h.setLane n (H.beginCell _ (h.lanes n))
  · exact h

theorem State.Contexts.workOperands (H : Closed L B R) {s : State} (h : s.Contexts L B R) (n : LaneId) (e : Entry)
    (w : CellWork) (a b : List Byte) : (s.workOperands n e w a b).Contexts L B R := by
  unfold State.workOperands
  dsimp only
  refine h.setLane n (H.startWrites e ?_)
  split
  next i _ =>
    have q := H.contribute (s.lane n) i
      ((workCell e.header.kind e.body (s.setOfEntry e) w a b).1.working.getD 0) (h.lanes n)
    refine H.same _ _ ?_ ?_ ?_ ?_ q <;> rfl
  · refine H.same (s.lane n) _ ?_ ?_ ?_ ?_ (h.lanes n) <;> rfl

/-! ## Steps and boundaries -/

theorem State.Contexts.setWork (H : Closed L B R) {s : State} (h : s.Contexts L B R) (n : LaneId) (w : LaneWork) :
    (s.setWork n w).Contexts L B R := by
  unfold State.setWork
  exact h.relane H n rfl rfl rfl rfl

theorem State.Contexts.freezeLane (H : Closed L B R) {s : State} (h : s.Contexts L B R) (n : LaneId) :
    (s.freezeLane n).Contexts L B R := by
  unfold State.freezeLane
  apply State.Contexts.settlePause
  exact h.relane H n rfl rfl rfl rfl

theorem State.Contexts.nextHousekeepingStep (H : Closed L B R) {s : State} (h : s.Contexts L B R) (n : LaneId)
    (e : Entry) : (s.nextHousekeepingStep n e).Contexts L B R := by
  unfold State.nextHousekeepingStep
  dsimp only
  repeat' split
  all_goals first
    | exact h
    | exact h.setWork H _ _
    | exact h.endPlain H _ _ _
    | exact h.relane H n rfl rfl rfl rfl

theorem State.Contexts.stepBoundary (H : Closed L B R) {s : State} (h : s.Contexts L B R) (n : LaneId) (e : Entry) :
    (s.stepBoundary n e).Contexts L B R := by
  unfold State.stepBoundary
  split
  · exact h.freezeLane H n
  · exact h.nextHousekeepingStep H n e

theorem State.Contexts.thaw (H : Closed L B R) {s : State} (h : s.Contexts L B R) (n : LaneId) :
    (s.thaw n).Contexts L B R := by
  unfold State.thaw
  split
  · split
    · dsimp only
      have k : (s.setLane n { s.lane n with state := .active }).Contexts L B R := h.relane H n rfl rfl rfl rfl
      split
      · exact k.nextHousekeepingStep H n _
      · exact k.beginCell H n
    · exact h
  · exact h

theorem State.Contexts.finishStep (H : Closed L B R) {s : State} (h : s.Contexts L B R) (n : LaneId) (e : Entry) :
    (s.finishStep n e).Contexts L B R := by
  unfold State.finishStep
  apply State.Contexts.stepBoundary H
  exact h.relane H n rfl rfl rfl rfl

theorem State.Contexts.finishLast (H : Closed L B R) {s : State} (h : s.Contexts L B R) (n : LaneId) :
    (s.finishLast n).Contexts L B R := by
  unfold State.finishLast
  apply State.Contexts.endPlain H
  exact h.relane H n rfl rfl rfl rfl

theorem State.Contexts.walkDone (H : Closed L B R) {s : State} (h : s.Contexts L B R) (n : LaneId) (e : Entry) :
    (s.walkDone n e).Contexts L B R := by
  unfold State.walkDone
  split
  · exact h.relane H n rfl rfl rfl rfl
  · exact h.endWalk H _ _ _ _

theorem State.Contexts.passBoundary (H : Closed L B R) {s : State} (h : s.Contexts L B R) (n : LaneId) (e : Entry)
    {c : WalkContext} (hc : (s.lane n).context = some c) (w : CellWork) :
    (s.passBoundary n e c w).Contexts L B R := by
  have k : (s.setLane n { s.lane n with context := some (c.pass e w), cell := none }).Contexts L B R :=
    h.setLane n (H.grow _ _ c _ hc rfl (.cell w (.refl _)) rfl rfl rfl (h.lanes n))
  unfold State.passBoundary
  dsimp only
  generalize s.setLane n { s.lane n with context := some (c.pass e w), cell := none } = t at k ⊢
  split
  · unfold State.endOfWalk
    split
    all_goals first
      | exact (k.freeRequestBank H n).walkDone H n e
      | exact k.actOn H _ _
  · unfold State.midBoundary
    repeat' split
    all_goals first
      | exact k.relane H n rfl rfl rfl rfl
      | exact k.actOn H _ _
      | exact k.freezeLane H n
      | exact k.beginCell H n

/-! ## Scheduling -/

theorem State.Contexts.firstStart (H : Closed L B R) {s : State} (h : s.Contexts L B R) (n : LaneId) (e : Entry) :
    (s.firstStart n e).Contexts L B R :=
  (h.setLane n (H.fresh e)).of_eq (fun _ => rfl) rfl rfl

theorem State.Contexts.resume (H : Closed L B R) {s : State} (h : s.Contexts L B R) (n : LaneId) (e : Entry) :
    (s.resume n e).Contexts L B R := by
  unfold State.resume
  split
  next c hc =>
    have k := (h.setLane n (H.resumed e c (hc ▸ h.banks e.bank))).setBank e.bank H.free
    dsimp only
    split
    · refine State.Contexts.post H ?_ n _
      exact k.of_eq (fun _ => rfl) rfl rfl
    · exact k.of_eq (fun _ => rfl) rfl rfl
  all_goals exact h

theorem State.Contexts.finishPark (H : Closed L B R) {s : State} (h : s.Contexts L B R) (n : LaneId) (e : Entry)
    {c : WalkContext} (hc : (s.lane n).context = some c) (b : Fin 4) : (s.finishPark n e c b).Contexts L B R := by
  have k := (h.setBank b (H.park _ e.slot c hc (h.lanes n))).setLane n H.reset
  exact k.of_eq (fun _ => rfl) rfl rfl

theorem State.Contexts.afterPark (H : Closed L B R) {s : State} (h : s.Contexts L B R) (e : Entry) :
    (s.afterPark e).Contexts L B R := by
  unfold State.afterPark
  repeat' split
  all_goals first | exact h.endParked H _ _ | exact h

theorem State.Contexts.leaveSlot (H : Closed L B R) {s : State} (h : s.Contexts L B R) (x : HandOver) :
    (s.leaveSlot x).Contexts L B R := by
  have lane : ∀ (t : State) (n : LaneId), t.Contexts L B R → (t.clearLaneOf x.slot n).Contexts L B R := by
    intro t n k
    unfold State.clearLaneOf
    split
    · exact k.setLane n H.reset
    · exact k
  have bank : ∀ t : State, t.Contexts L B R → (t.clearBankOf x.slot).Contexts L B R := by
    intro t k
    unfold State.clearBankOf
    split
    · split
      · exact k.setBank _ H.free
      · exact k
    · exact k
  unfold State.leaveSlot
  split
  · split
    · exact h.advanceSweep _
    all_goals exact h
  · exact (bank _ (lane _ .lane1 (lane _ .lane0 h))).of_eq (fun _ => rfl) rfl rfl

theorem State.Contexts.cancelSlot (H : Closed L B R) {s : State} (h : s.Contexts L B R) (i : Nat) :
    (s.cancelSlot i).Contexts L B R := by
  have miss : s.cancelMissed.Contexts L B R := h.of_eq (fun _ => rfl) rfl rfl
  have mark : ∀ k, (s.setPendingCancel k).Contexts L B R := fun k => h.of_eq (fun _ => rfl) rfl rfl
  unfold State.cancelSlot State.cancelEntry State.cancelWaiting State.cancelRunning State.cancelParked
  dsimp only
  repeat' split
  all_goals first
    | exact miss
    | exact h
    | exact (mark _).handOver H.start
    | exact (mark _).post H _ _
    | exact (mark _).endParked H _ _
    | exact mark _

/-! ## Engine Control -/

theorem State.Contexts.beginStop (H : Closed L B R) {s : State} (h : s.Contexts L B R) :
    s.beginStop.Contexts L B R := by
  have lane : ∀ (t : State) (n : LaneId), t.Contexts L B R → (t.stopLane n).Contexts L B R := by
    intro t n k
    unfold State.stopLane
    split
    · split
      · exact k.thaw H n
      · exact k.post H n _
    · exact k
  have ends : ∀ (l : List Nat) (t : State), t.Contexts L B R →
      (l.foldl (fun x slot => x.endParked slot .engineStopped) t).Contexts L B R := by
    intro l
    induction l with
    | nil => exact fun _ k => k
    | cons a rest ih => exact fun t k => ih _ (k.endParked H a _)
  have k : ((s.setSlate { s.slate with again := false }).setEngineState .stopping).Contexts L B R :=
    h.of_eq (fun _ => rfl) rfl rfl
  exact (ends _ _ (lane _ .lane1 (lane _ .lane0 k))).settleStop

theorem State.Contexts.controlWrite (H : Closed L B R) {s : State} (h : s.Contexts L B R) (a b : Bool)
    (irq : StickyBits) : (s.controlWrite a b irq).Contexts L B R := by
  have k : (s.storeIrq irq).Contexts L B R := h.of_eq (fun _ => rfl) rfl rfl
  unfold State.controlWrite
  apply State.Contexts.asOneEvent
  generalize s.storeIrq irq = t at k
  have start : t.beginStart.Contexts L B R := by
    unfold State.beginStart
    dsimp only
    split <;> exact k.of_eq (fun _ => rfl) rfl rfl
  have pause : t.beginPause.Contexts L B R :=
    State.Contexts.settlePause (k.of_eq (fun _ => rfl) rfl rfl)
  have release : t.releasePause.Contexts L B R := by
    have q : (t.setEngineState .running).Contexts L B R := k.of_eq (fun _ => rfl) rfl rfl
    have r := (q.thaw H .lane0).thaw H .lane1
    unfold State.releasePause State.beginSweep
    dsimp only
    split
    · exact r.setSlate _
    · exact r
  unfold State.controlFields
  split
  all_goals first
    | exact k
    | exact start
    | exact pause
    | exact k.beginStop H
    | exact release
    | exact k.of_eq (fun _ => rfl) rfl rfl

end

end Sys2Proof.Machine
end

