-- ==== Sys2Proof/Laws/Commands.lean ====
section
/-! SUPPORT. What a command does to the contexts of orders and to memory: every command keeps a closed property of
contexts, but for the four that put new content into a lane's buffer or timer, which say what they put. -/

namespace Sys2Proof.Machine

section
variable {L : Lane → Prop} {B : ParkBank → Prop} {R : OrderRecord → Prop}

/-! ## Contexts -/

theorem State.Contexts.setMem {s : State} (h : s.Contexts L B R) (m : Memory) : (s.setMem m).Contexts L B R :=
  h.of_eq (fun _ => rfl) rfl rfl

theorem State.Contexts.afterHost {s : State} (h : s.Contexts L B R) (x : HostWrites) :
    (s.afterHost x).Contexts L B R :=
  h.of_eq (fun _ => rfl) rfl rfl

theorem State.Contexts.setAccums {s : State} (h : s.Contexts L B R) (a : Vector Total 64) :
    (s.setAccums a).Contexts L B R :=
  h.of_eq (fun _ => rfl) rfl rfl

theorem State.Contexts.setBandSet {s : State} (h : s.Contexts L B R) (i : Fin 8) (x : BandSet) :
    (s.setBandSet i x).Contexts L B R :=
  h.of_eq (fun _ => rfl) rfl rfl

/-- The Completion Writer changed, with no hand-over that it did not hold. -/
theorem State.Contexts.setWriter {s : State} (h : s.Contexts L B R) {w : CompletionWriter}
    (hw : ∀ x ∈ w.held, x ∈ s.writer.held) : (s.setWriter w).Contexts L B R :=
  ⟨h.lanes, h.banks, fun x hx => h.hands x (hw x hx)⟩

theorem State.Contexts.failStart {s : State} (h : s.Contexts L B R) (k : FaultKind) (a : Addr) :
    (s.failStart k a).Contexts L B R :=
  h.of_eq (fun _ => rfl) rfl rfl

theorem State.Contexts.takeAnchor {s : State} (h : s.Contexts L B R) : s.takeAnchor.Contexts L B R := by
  unfold State.takeAnchor
  split
  · exact h.of_eq (fun _ => rfl) rfl rfl
  · exact h.failStart _ _

theorem State.Contexts.completeStart {s : State} (h : s.Contexts L B R) : s.completeStart.Contexts L B R :=
  ⟨h.lanes, h.banks, h.hands⟩

theorem State.Contexts.meetHeader (H : Closed L B R) {s : State} (h : s.Contexts L B R) (k : Nat) (b : List Byte) :
    (s.meetHeader k b).Contexts L B R := by
  unfold State.meetHeader State.meetPosted
  dsimp only
  repeat' split
  all_goals first
    | exact h.advanceSweep _
    | exact h.endSweep
    | exact h.failAtTake H _ _ _
    | exact h.setSlate _

theorem State.Contexts.meetBody (H : Closed L B R) {s : State} (h : s.Contexts L B R) (k : Nat) (b d : List Byte) :
    (s.meetBody k b d).Contexts L B R := by
  unfold State.meetBody
  repeat' split
  all_goals first
    | exact h.failAtTake H _ _ _
    | exact h.setSlate _

theorem State.Contexts.firstAccess (H : Closed L B R) {s : State} (h : s.Contexts L B R) (n : LaneId) (e : Entry) :
    (s.firstAccess n e).Contexts L B R := by
  unfold State.firstAccess
  repeat' split
  all_goals first | exact h.setWork H _ _ | exact h.beginCell H _

theorem State.Contexts.startClaim (H : Closed L B R) {s : State} (h : s.Contexts L B R) (n : LaneId) (e : Entry)
    (i : Fin 8) : (s.startClaim n e i).Contexts L B R := by
  have grant : (s.grantStart n e i).Contexts L B R := by
    unfold State.grantStart
    apply State.Contexts.beginCell H
    exact h.of_eq (fun _ => rfl) rfl rfl
  unfold State.startClaim
  repeat' split
  all_goals first | exact grant | exact h.endPlain H _ _ _

theorem State.Contexts.takeSourceA (H : Closed L B R) {s : State} (h : s.Contexts L B R) (n : LaneId) (e : Entry)
    (w : CellWork) : (s.takeSourceA n e w).Contexts L B R := by
  unfold State.takeSourceA
  dsimp only
  split
  · exact h.relane H n rfl rfl rfl rfl
  · exact h.workOperands H _ _ _ _ _

theorem State.Contexts.takeImage (H : Closed L B R) {s : State} (h : s.Contexts L B R) (n : LaneId) (e : Entry)
    (k : Nat) : (s.takeImage n e k).Contexts L B R := by
  have q : (s.setLane n ((s.lane n).imageWith
      (s.mem.readBytes (dataAddr e.body + (s.lane n).image.length) ((s.lane n).imageTake k)))).Contexts L B R :=
    h.relane H n rfl rfl rfl rfl
  unfold State.takeImage
  dsimp only
  split
  · exact q.finishStep H n e
  · exact q

/-- A preset record leaves contexts in a closed property where the buffer with the record does. -/
theorem State.Contexts.takePresetRecord (H : Closed L B R) {s : State} (h : s.Contexts L B R) (n : LaneId) (e : Entry)
    (hb : ∀ (i : Nat) (t : Total) (bytes : List Byte), recordTotal i bytes = some t →
      L ((s.lane n).bufferRecord e.body i t)) :
    (s.takePresetRecord n e).Contexts L B R := by
  unfold State.takePresetRecord
  dsimp only
  split
  next t ht => exact (h.setLane n (hb _ t _ ht)).finishStep H n e
  · exact h.endPlain H _ _ _

theorem State.Contexts.commitLane (H : Closed L B R) {s : State} (h : s.Contexts L B R) (n : LaneId) (e : Entry)
    {c : WalkContext} (hc : (s.lane n).context = some c) (set : BandSet) : (s.commitLane n e c set).Contexts L B R := by
  unfold State.commitLane
  dsimp only
  apply State.Contexts.endWalk H
  exact (h.setAccums _).setLane n (H.grow (s.lane n) _ c _ hc rfl (.refl _) rfl rfl rfl (h.lanes n))

theorem State.Contexts.failOrder (H : Closed L B R) {s : State} (h : s.Contexts L B R) (n : LaneId) (e : Entry) :
    (s.failOrder n e).Contexts L B R := by
  unfold State.failOrder
  split
  · exact h.endPlain H _ _ _
  · exact h.endWalk H _ _ _ _

theorem State.Contexts.requestPark (H : Closed L B R) {s : State} (h : s.Contexts L B R) (n : LaneId) (b : Fin 4) :
    (s.requestPark n b).Contexts L B R := by
  unfold State.requestPark
  exact (h.setBank b (H.reserved n)).relane H n rfl rfl rfl rfl

theorem State.Contexts.withdrawPark (H : Closed L B R) {s : State} (h : s.Contexts L B R) (n : LaneId) :
    (s.withdrawPark n).Contexts L B R := by
  unfold State.withdrawPark
  exact (h.freeRequestBank H n).setLane n (H.same (s.lane n) _ rfl rfl rfl rfl (h.lanes n))

theorem State.Contexts.writeWindow {s : State} (h : s.Contexts L B R) (w : Word) : (s.writeWindow w).Contexts L B R := by
  have refused : s.windowRefused.Contexts L B R := h.of_eq (fun _ => rfl) rfl rfl
  unfold State.writeWindow State.writeAccum State.writeSet
  dsimp only
  repeat' split
  all_goals first
    | exact refused
    | exact h.of_eq (fun _ => rfl) rfl rfl

/-- A halted lane has the property where a lane keeps it when its staging set and buffers are dropped. -/
theorem State.Contexts.halt (H : Closed L B R) (hd : ∀ l : Lane, L l → L l.halted) {s : State} (h : s.Contexts L B R)
    (f : SlateFaultAt) (x : Bool) : (s.halt f x).Contexts L B R := by
  have waiting : ∀ y ∈ (s.halt f x).writer.held, R y.record := by
    intro y hy
    exact absurd hy (by simp [State.halt, CompletionWriter.held])
  refine ⟨fun n => ?_, fun b => ?_, waiting⟩
  · cases n
    · exact hd _ (h.lanes .lane0)
    · exact hd _ (h.lanes .lane1)
  · have hb := h.banks b
    have : (s.halt f x).banks[b] = (s.banks[b]).halted := by
      show (s.banks.map ParkBank.halted)[b] = _
      simp
    rw [this]
    unfold ParkBank.halted
    split
    · exact H.free
    · exact H.free
    next c hc => rwa [hc] at hb

theorem State.Contexts.dropFaulting (H : Closed L B R) {s : State} (h : s.Contexts L B R) (r : Requester)
    (took : Nat → Bool) : (s.dropFaulting r took).Contexts L B R := by
  unfold State.dropFaulting
  split
  · exact h.of_eq (fun _ => rfl) rfl rfl
  · exact (h.setMem _).setWork H _ _
  · refine (h.setMem _).setWriter ?_
    intro x hx
    exact CompletionWriter.held_waiting hx

/-- What a command adds to the contexts beyond the closure of `Closed`: the latch of a SNAPSHOT and a preset record in
a lane's buffer, the run timer brought to the limit, and a halt's dropped buffers. -/
structure CommandsClosed (L : Lane → Prop) (s : State) : Prop where
  latch : ∀ n (e : Entry), L { s.lane n with buffer := latchedBuffer e.body s.accums }
  record : ∀ n (e : Entry) (i : Nat) (t : Total) (bytes : List Byte), recordTotal i bytes = some t →
    L ((s.lane n).bufferRecord e.body i t)
  limit : ∀ n, L { s.lane n with runTimer := s.limitMicros }
  halted : ∀ l : Lane, L l → L l.halted

/-- Every command keeps a closed property of contexts. -/
theorem State.Contexts.exec (H : Closed L B R) {s : State} (h : s.Contexts L B R) (C : CommandsClosed L s) (c : Instr)
    {t : State} (he : exec c s = .next t) : t.Contexts L B R := by
  cases c
  case powerOnReset =>
    obtain rfl := Host.Outcome.next.inj he
    refine ⟨fun n => ?_, fun b => ?_, fun x hx => absurd hx (by simp [State.reset, CompletionWriter.reset, CompletionWriter.held])⟩
    · cases n <;> exact H.reset
    · show B ((Vector.replicate 4 ParkBank.free)[b])
      simpa using H.free
  case softReset irq =>
    obtain rfl := Host.Outcome.next.inj he
    refine ⟨fun n => ?_, fun b => ?_, fun x hx => absurd hx (by simp [CompletionWriter.reset, CompletionWriter.held])⟩
    · cases n <;> exact H.reset
    · show B ((Vector.replicate 4 ParkBank.free)[b])
      simpa using H.free
  case enable | engineStop | pause | pauseRelease =>
    obtain rfl := Host.Outcome.next.inj he
    exact h.controlWrite H _ _ _
  case irqEnableWrite | statusClear | ack | windowAddrWrite | windowDataRead =>
    obtain rfl := Host.Outcome.next.inj he
    exact ⟨h.lanes, h.banks, h.hands⟩
  case registerWriteOther =>
    obtain rfl := Host.Outcome.next.inj he
    exact h
  case anchorWrite value =>
    obtain rfl := Host.Outcome.next.inj he
    split
    all_goals exact h.of_eq (fun _ => rfl) rfl rfl
  case nudge =>
    obtain rfl := Host.Outcome.next.inj he
    exact h.requestSweep
  case cancel =>
    obtain rfl := Host.Outcome.next.inj he
    exact h.cancelSlot H _
  case windowDataWrite value =>
    obtain rfl := Host.Outcome.next.inj he
    exact (h.writeWindow value).of_eq (fun _ => rfl) rfl rfl
  case sweepTimerExpiry =>
    obtain rfl := Host.Outcome.next.inj he
    split
    · exact (h.setSlate _).requestSweep
    · exact h
  case anchorReadDone reply =>
    obtain rfl := Host.Outcome.next.inj he
    repeat' split
    all_goals first
      | exact h
      | exact (h.afterHost _).takeAnchor
      | exact h.of_eq (fun _ => rfl) rfl rfl
  case completionWordReadDone reply =>
    obtain rfl := Host.Outcome.next.inj he
    repeat' split
    all_goals first
      | exact h
      | exact (h.afterHost _).completeStart
      | exact h.of_eq (fun _ => rfl) rfl rfl
  case headerReadDone host =>
    obtain rfl := Host.Outcome.next.inj he
    split
    · exact (((h.afterHost host).meetHeader H _ _).settlePause).settleStop
    all_goals exact h
  case bodyReadDone reply =>
    obtain rfl := Host.Outcome.next.inj he
    split
    · exact h.failAtTake H _ _ _
    · exact (h.afterHost _).meetBody H _ _ _
    all_goals exact h
  case take =>
    obtain rfl := Host.Outcome.next.inj he
    split
    · split
      · refine State.Contexts.settleStop (State.Contexts.settlePause (State.Contexts.advanceSweep ?_ _))
        exact h.of_eq (fun _ => rfl) rfl rfl
      · exact h
    all_goals exact h
  case handBack =>
    obtain rfl := Host.Outcome.next.inj he
    split
    · exact h.of_eq (fun _ => rfl) rfl rfl
    · exact h
  case handBackWriteAccept =>
    obtain rfl := Host.Outcome.next.inj he
    split
    · exact State.Contexts.settleStop (h.of_eq (fun _ => rfl) rfl rfl)
    all_goals exact h
  case completion pick =>
    obtain rfl := Host.Outcome.next.inj he
    split
    next x hs hx =>
      refine h.setWriter ?_
      intro y hy
      rcases List.mem_cons.1 hy with hy | hy
      · subst hy; exact CompletionWriter.held_waiting (List.mem_of_getElem? hx)
      · exact CompletionWriter.held_waiting (List.mem_of_mem_eraseIdx hy)
    · exact h
  case resultAreaWriteAccept =>
    obtain rfl := Host.Outcome.next.inj he
    split
    next x hs =>
      refine (h.setMem _).setWriter ?_
      intro y hy
      simpa [CompletionWriter.held, hs] using hy
    all_goals exact h
  case stateWriteAccept =>
    obtain rfl := Host.Outcome.next.inj he
    split
    next x hs =>
      have k := (h.setMem (s.mem.land s.writerWrite)).leaveSlot H x
      have hx : R x.record := h.hands x (by simp [CompletionWriter.held, hs])
      refine State.Contexts.settlePause ⟨k.lanes, k.banks, fun y hy => ?_⟩
      rcases List.mem_cons.1 hy with hy | hy
      · subst hy; exact hx
      · exact k.hands y (CompletionWriter.held_waiting hy)
    all_goals exact h
  case completionWordWriteAccept =>
    obtain rfl := Host.Outcome.next.inj he
    split
    next x hs =>
      refine State.Contexts.settleStop ((h.setMem _).setWriter ?_)
      intro y hy
      exact CompletionWriter.held_waiting hy
    all_goals exact h
  case startEvent =>
    obtain rfl := Host.Outcome.next.inj he
    split
    · split
      · exact h.resume H _ _
      · exact h.firstStart H _ _
    · exact h
  case progressRunningAccept n =>
    obtain rfl := Host.Outcome.next.inj he
    repeat' split
    all_goals first
      | exact h
      | exact (h.setMem _).beginCell H _
      | exact (h.setMem _).firstAccess H _ _
  case startClaim n =>
    obtain rfl := Host.Outcome.next.inj he
    repeat' split
    all_goals first
      | exact h
      | exact h.startClaim H _ _ _
  case startTest n =>
    obtain rfl := Host.Outcome.next.inj he
    repeat' split
    all_goals first
      | exact h
      | exact h.endPlain H _ _ _
      | exact h.finishStep H _ _
  case imageReadDone n bytes host =>
    obtain rfl := Host.Outcome.next.inj he
    split
    · exact (h.afterHost host).takeImage H _ _ _
    · exact h
  case loadClaim n =>
    obtain rfl := Host.Outcome.next.inj he
    repeat' split
    all_goals first
      | exact h
      | exact h.endPlain H _ _ _
      | exact (h.setBandSet _ _).finishLast H _
  case presetRecordReadDone n host =>
    obtain rfl := Host.Outcome.next.inj he
    split
    · exact (h.afterHost host).takePresetRecord H _ _ (fun i t b ht => C.record n _ i t b ht)
    · exact h
  case apply n | clear n =>
    obtain rfl := Host.Outcome.next.inj he
    split
    · exact (h.setAccums _).finishLast H _
    · exact h
  case latch n =>
    obtain rfl := Host.Outcome.next.inj he
    split
    · exact (h.setLane n (C.latch n _)).finishStep H _ _
    · exact h
  case snapshotRecordWriteAccept n =>
    obtain rfl := Host.Outcome.next.inj he
    repeat' split
    all_goals first
      | exact h
      | exact (h.setMem _).finishStep H _ _
  case markReadDone n host =>
    obtain rfl := Host.Outcome.next.inj he
    split
    · exact (h.afterHost host).setLane n (H.takeMark _ _ _ (h.lanes n))
    · exact h
  case sourceReadDone n host =>
    obtain rfl := Host.Outcome.next.inj he
    split
    · exact (h.afterHost host).takeSourceA H _ _ _
    · exact (h.afterHost host).workOperands H _ _ _ _ _
    · exact h
  case destinationReadDone n host =>
    obtain rfl := Host.Outcome.next.inj he
    repeat' split
    all_goals first
      | exact h
      | exact (h.afterHost host).setWork H _ _
  case destinationWriteAccept n =>
    obtain rfl := Host.Outcome.next.inj he
    repeat' split
    all_goals first
      | exact h
      | exact (h.setMem _).setLane n (H.toRecords _ (h.lanes n))
  case exceptionRecordWriteAccept n =>
    obtain rfl := Host.Outcome.next.inj he
    split
    next e c w _ _ hc hw =>
      split
      · exact h
      · exact (h.setMem _).setLane n (H.toRecords _ (H.recordWritten hc w (h.lanes n)))
    · exact h
  case cellBoundary n =>
    obtain rfl := Host.Outcome.next.inj he
    split
    next e c w _ _ hc hw => exact h.passBoundary H n e hc w
    · exact h
  case commit n =>
    obtain rfl := Host.Outcome.next.inj he
    split
    next e c _ _ hc =>
      split
      · exact h.commitLane H n e hc _
      · exact h
    · exact h
  case parkRequest =>
    obtain rfl := Host.Outcome.next.inj he
    repeat' split
    all_goals first
      | exact h
      | exact h.requestPark H _ _
  case parkWithdraw =>
    obtain rfl := Host.Outcome.next.inj he
    repeat' split
    all_goals first
      | exact h
      | exact h.withdrawPark H _
  case parkComplete n =>
    obtain rfl := Host.Outcome.next.inj he
    split
    next b e c _ _ hc =>
      split
      · exact h
      · have q := h.setMem (s.mem.land (s.laneWrite n))
        exact ((q.finishPark H n e hc b).afterPark H e).settlePause
    · exact h
  case timeLimit n =>
    obtain rfl := Host.Outcome.next.inj he
    split
    · exact (h.setLane n (C.limit n)).post H _ _
    · exact h
  case memoryFault n took =>
    obtain rfl := Host.Outcome.next.inj he
    repeat' split
    all_goals first
      | exact h
      | exact (h.setMem _).failOrder H _ _
  case slateFault r took =>
    obtain rfl := Host.Outcome.next.inj he
    split
    · exact (h.dropFaulting H r _).halt H C.halted _ _
    · exact h

end

end Sys2Proof.Machine
end

