-- ==== Sys2Proof/Laws/Landing.lean ====
section
/-! SUPPORT. Writes that land: they hold their bytes, and no byte outside an issued write changes. -/

namespace Sys2Proof.Machine

theorem Memory.read_land_outside {m : Memory} (h : m.wf = true) (w : Option (Nat × List Byte)) (x : Nat)
    (hx : ¬ issuedCovers w x) :
    (m.land w).read x = m.read x := by
  cases w with
  | none => rfl
  | some p =>
    obtain ⟨a, bs⟩ := p
    exact Memory.read_writeBytes_outside h a x bs (fun i hi e => hx ⟨a, bs, rfl, i, hi, e⟩)

theorem State.landIssued_outside {s : State} (h : s.memoryCanonical) (x : Nat) (h0 : ¬ issuedCovers
    (s.laneWrite .lane0) x)
    (h1 : ¬ issuedCovers (s.laneWrite .lane1) x) (h2 : ¬ issuedCovers s.slateWrite x)
        (h3 : ¬ issuedCovers s.writerWrite x) :
    s.landIssued.mem.read x = s.mem.read x := by
  unfold State.landIssued State.setMem
  dsimp only
  have hf : ∀ n, ¬ issuedCovers (s.laneWrite n) x := fun n => by cases n <;> assumption
  rw [Memory.read_land_outside _ _ _ h3, Memory.read_land_outside _ _ _ h2, Memory.read_land_outside _ _ _ (hf _),
      Memory.read_land_outside h _ _ (hf _)]
  · exact Memory.wf_land h _
  · exact Memory.wf_land (Memory.wf_land h _) _
  · exact Memory.wf_land (Memory.wf_land (Memory.wf_land h _) _) _

theorem Memory.written_land {m : Memory} (h : m.wf = true) (a : Nat) (bytes : List Byte) : Memory.Written m (m.land
    (some (a, bytes))) a bytes :=
  ⟨fun x hx => Memory.read_writeBytes_outside h a x bytes hx,
      fun ht i hi => Memory.read_writeBytes_inside h a bytes ht i hi⟩

theorem Memory.read_writeTaken_outside (took : Nat →
    Bool) {m : Memory} (h : m.wf = true) (a j x : Nat) (bs : List Byte)
    (hx : ∀ i, i < bs.length → wrapAddr (a + i) ≠ x) : (m.writeTaken took a j bs).read x = m.read x := by
  induction bs generalizing m a j with
  | nil => rfl
  | cons b rest ih =>
    have h0 : x ≠ wrapAddr a := fun e => hx 0 (by simp) (by simpa using e.symm)
    have hr : ∀ i, i < rest.length → wrapAddr (a + 1 + i) ≠ x := by
      intro i hi
      have := hx (i + 1) (by simpa using hi)
      rwa [show a + (i + 1) = a + 1 + i by omega] at this
    simp only [Memory.writeTaken]
    split
    · rw [ih (Memory.wf_write h (wrapAddr_le a) b) (a + 1) (j + 1) hr, Memory.read_write h, if_neg h0]
    · exact ih h (a + 1) (j + 1) hr

theorem Memory.read_landTaken_outside {m : Memory} (h : m.wf = true) (took : Nat →
    Bool) (w : Option (Nat × List Byte)) (x : Nat) (hx : ¬ issuedCovers w x) :
    (m.landTaken took w).read x = m.read x := by
  cases w with
  | none => rfl
  | some w =>
    exact Memory.read_writeTaken_outside took h w.1 0 x w.2 (fun i hi he => hx ⟨w.1, w.2, rfl, i, hi, he⟩)

theorem Memory.read_landPartly_outside {m : Memory} (h : m.wf = true) (took : Nat → Bool)
    (w : Option (Nat × List Byte)) (x : Nat) (hx : ¬ issuedCovers w x) :
    (m.landPartly took w).read x = m.read x := by
  rcases m.landPartly_cases took w with e | e <;> rw [e]
  exact Memory.read_landTaken_outside h took w x hx

theorem State.dropFaulting_fields (s : State) (r : Requester) (took : Nat → Bool) :
   (s.dropFaulting r took).table = s.table ∧ (s.dropFaulting r took).engine = s.engine ∧
       (s.dropFaulting r took).parkOrder = s.parkOrder ∧ (s.dropFaulting r took).bandSets = s.bandSets ∧
   (s.dropFaulting r took).accums = s.accums ∧ (s.dropFaulting r took).window = s.window ∧
       (s.dropFaulting r took).pending = s.pending ∧ (s.dropFaulting r took).banks = s.banks ∧
   (s.dropFaulting r took).writer.count = s.writer.count ∧
       (s.dropFaulting r took).writer.notifyPending = s.writer.notifyPending ∧
   (s.dropFaulting r took).slate.cursor = s.slate.cursor ∧ (s.dropFaulting r took).slate.nextSeq = s.slate.nextSeq ∧
   (∀ n, ∃ w, (s.dropFaulting r took).lane n = { s.lane n with work := w }) := by
  cases r with
  | slateReader => exact ⟨rfl, rfl, rfl, rfl, rfl, rfl, rfl, rfl, rfl, rfl, rfl, rfl, fun n => by cases n <;> exact ⟨_, rfl⟩⟩
  | lane k => cases k <;> exact ⟨rfl, rfl, rfl, rfl, rfl, rfl, rfl, rfl, rfl, rfl, rfl, rfl, fun n => by cases n <;> exact ⟨_, rfl⟩⟩
  | completionWriter => exact ⟨rfl, rfl, rfl, rfl, rfl, rfl, rfl, rfl, rfl, rfl, rfl, rfl, fun n => by cases n <;> exact ⟨_, rfl⟩⟩

/-- A faulting access is dropped: no byte outside an issued write changes, and no write is added (R184, log 9). -/
theorem State.dropFaulting_outside (s : State) (r : Requester) (took : Nat →
    Bool) (hm : s.memoryCanonical) (x : Nat) (h0 : ¬ issuedCovers (s.laneWrite .lane0) x) (h1 : ¬ issuedCovers
    (s.laneWrite .lane1) x) (h2 : ¬ issuedCovers s.slateWrite x) (h3 : ¬ issuedCovers s.writerWrite x) :
   let u := s.dropFaulting r took
   u.memoryCanonical ∧ u.mem.read x = s.mem.read x ∧ ¬ issuedCovers (u.laneWrite .lane0) x ∧
       ¬ issuedCovers (u.laneWrite .lane1) x ∧ ¬ issuedCovers u.slateWrite x ∧ ¬ issuedCovers u.writerWrite x := by
  have none_cov : ¬ issuedCovers none x := by rintro ⟨a, b, h, _⟩; cases h
  intro u
  cases r with
  | slateReader =>
    refine ⟨?_, ?_, h0, h1, ?_, h3⟩
    · show Memory.wf _ = true
      show Memory.wf (match s.slate.step with | .takenWrite _ _ _ => s.mem.landTaken took s.slateWrite | .idle | .headerRead _ | .bodyRead _ _ | .failing _ | .handBackWrite _ => s.mem) = true
      split
      · exact Memory.wf_landTaken hm _ _
      all_goals exact hm
    · show Memory.read (match s.slate.step with | .takenWrite _ _ _ => s.mem.landTaken took s.slateWrite | .idle | .headerRead _ | .bodyRead _ _ | .failing _ | .handBackWrite _ => s.mem) x = _
      split
      · exact Memory.read_landTaken_outside hm _ _ x h2
      all_goals rfl
    · exact none_cov
  | lane k =>
    have hk : ¬ issuedCovers (s.laneWrite k) x := by cases k <;> assumption
    have um : u.mem = s.mem.landTaken took (s.laneWrite k) := by cases k <;> rfl
    refine ⟨?_, ?_, ?_, ?_, ?_, ?_⟩
    · show u.mem.wf = true; rw [um]; exact Memory.wf_landTaken hm _ _
    · rw [um]; exact Memory.read_landTaken_outside hm _ _ x hk
    · cases k
      · exact none_cov
      · exact h0
    · cases k
      · exact h1
      · exact none_cov
    · cases k <;> exact h2
    · cases k <;> exact h3
  | completionWriter =>
    refine ⟨?_, ?_, h0, h1, h2, none_cov⟩
    · show Memory.wf (match s.writer.step with | .resultWrite _ => s.mem.landPartly took s.writerWrite | .idle | .stateWrite _ | .wordWrite _ => s.mem) = true
      split
      · exact Memory.wf_landPartly hm _ _
      all_goals exact hm
    · show Memory.read (match s.writer.step with | .resultWrite _ => s.mem.landPartly took s.writerWrite | .idle | .stateWrite _ | .wordWrite _ => s.mem) x = _
      split
      · exact Memory.read_landPartly_outside hm _ _ x h3
      all_goals rfl

/-- A landed write holds its bytes. -/
theorem Memory.read_land_inside {m : Memory} (h : m.wf = true) (a : Nat) (bytes : List Byte)
    (ht : a + bytes.length ≤ Config.topAddress + 1) (i : Nat) (hi : i < bytes.length) :
    (m.land (some (a, bytes))).read (a + i) = bytes[i] := Memory.read_writeBytes_inside h a bytes ht i hi

/-- Every issued write that no other covers is in memory (R31, R174, R175, R184, R194). -/
theorem State.landIssued_landed {s : State} (h : s.memoryCanonical) (k : Fin 4) : s.Landed s.landIssued.mem k := by
  intro a bytes hk ht i hi ho
  have w0 : ∀ n, (s.mem.land (s.laneWrite n)).wf = true := fun n => Memory.wf_land h _
  have w1 : ∀ n n', ((s.mem.land (s.laneWrite n)).land (s.laneWrite n')).wf = true :=
      fun n n' => Memory.wf_land (w0 n) _
  have w2 : ∀ n n', (((s.mem.land (s.laneWrite n)).land (s.laneWrite n')).land s.slateWrite).wf = true :=
    fun n n' => Memory.wf_land (w1 n n') _
  have e0 : s.issued 0 = s.laneWrite .lane0 := rfl
  have e1 : s.issued 1 = s.laneWrite .lane1 := rfl
  have e2 : s.issued 2 = s.slateWrite := rfl
  have e3 : s.issued 3 = s.writerWrite := rfl
  unfold State.landIssued State.setMem
  dsimp only
  have o : ∀ j : Fin 4, j ≠ k → ¬ issuedCovers (s.issued j) (a + i) := ho
  fin_cases k
  · have o1 := o 1 (by decide); have o2 := o 2 (by decide); have o3 := o 3 (by decide)
    rw [e1] at o1; rw [e2] at o2; rw [e3] at o3
    have hk' : s.laneWrite .lane0 = some (a, bytes) := hk
    rw [Memory.read_land_outside (w2 _ _) _ _ o3, Memory.read_land_outside (w1 _ _) _ _ o2]
    cases s.lane1.holdsClaim
    · simp only [if_neg, Bool.false_eq_true, if_false]
      rw [Memory.read_land_outside (w0 _) _ _ o1, hk']
      exact Memory.read_land_inside h a bytes ht i hi
    · simp only [if_true]
      rw [hk']
      exact Memory.read_land_inside (w0 _) a bytes ht i hi
  · have o0 := o 0 (by decide); have o2 := o 2 (by decide); have o3 := o 3 (by decide)
    rw [e0] at o0; rw [e2] at o2; rw [e3] at o3
    have hk' : s.laneWrite .lane1 = some (a, bytes) := hk
    rw [Memory.read_land_outside (w2 _ _) _ _ o3, Memory.read_land_outside (w1 _ _) _ _ o2]
    cases s.lane1.holdsClaim
    · simp only [if_neg, Bool.false_eq_true, if_false]
      rw [hk']
      exact Memory.read_land_inside (w0 _) a bytes ht i hi
    · simp only [if_true]
      rw [Memory.read_land_outside (w0 _) _ _ o0, hk']
      exact Memory.read_land_inside h a bytes ht i hi
  · have o3 := o 3 (by decide)
    rw [e3] at o3
    have hk' : s.slateWrite = some (a, bytes) := hk
    rw [Memory.read_land_outside (w2 _ _) _ _ o3, hk']
    exact Memory.read_land_inside (w1 _ _) a bytes ht i hi
  · have hk' : s.writerWrite = some (a, bytes) := hk
    rw [hk']
    exact Memory.read_land_inside (w2 _ _) a bytes ht i hi

/-- A byte of a write that memory took in part is the new one where it was taken and the old one elsewhere. -/
theorem Memory.read_writeTaken_inside (took : Nat → Bool) {m : Memory} (h : m.wf = true) (a j : Nat) (bs : List Byte)
    (ht : a + bs.length ≤ Config.topAddress + 1) (i : Nat) (hi : i < bs.length) :
    (m.writeTaken took a j bs).read (a + i) = if took (j + i) then bs[i] else m.read (a + i) := by
  induction bs generalizing m a j i with
  | nil => exact absurd hi (by simp)
  | cons b rest ih =>
    simp only [List.length_cons] at ht hi
    have ha : wrapAddr a = a := wrapAddr_of_le (by omega)
    have hw : (if took j then m.write (wrapAddr a) b else m).wf = true := by
      split
      · exact Memory.wf_write h (wrapAddr_le a) b
      · exact h
    simp only [Memory.writeTaken]
    cases i with
    | zero =>
      rw [Memory.read_writeTaken_outside took hw]
      · rw [ha]; split <;> simp_all [Memory.read_write h]
      · intro i' hi'; rw [wrapAddr_of_le (by omega)]; omega
    | succ k =>
      have e := ih hw (a + 1) (j + 1) (by omega) k (by omega)
      rw [show a + (k + 1) = a + 1 + k by omega, e, show j + 1 + k = j + (k + 1) by omega]
      have : (if took j then m.write (wrapAddr a) b else m).read (a + 1 + k) = m.read (a + 1 + k) := by
        split
        · rw [Memory.read_write h, if_neg (by omega)]
        · rfl
      rw [this]; rfl

/-- Of the issued writes a bus error takes the faulting one off the bus and no other (R184). -/
theorem State.dropFaulting_issued (s : State) (r : Requester) (took : Nat → Bool) :
    (s.dropFaulting r took).issued (issuerOf r) = none ∧
      ∀ k, k ≠ issuerOf r → (s.dropFaulting r took).issued k = s.issued k := by
  rcases r with _ | n | _
  · exact ⟨rfl, fun k hk => by fin_cases k <;> first | rfl | exact absurd rfl hk⟩
  · cases n <;> exact ⟨rfl, fun k hk => by fin_cases k <;> first | rfl | exact absurd rfl hk⟩
  · exact ⟨rfl, fun k hk => by fin_cases k <;> first | rfl | exact absurd rfl hk⟩

/-- A bus error leaves memory as it was, or with the marked bytes of the faulting write (R154, R184, log 9). -/
theorem State.dropFaulting_mem (s : State) (r : Requester) (took : Nat → Bool) :
    (s.dropFaulting r took).mem = s.mem ∨
      (s.dropFaulting r took).mem = s.mem.landTaken took (s.issued (issuerOf r)) := by
  rcases r with _ | n | _
  · show (match s.slate.step with | .takenWrite _ _ _ => s.mem.landTaken took s.slateWrite | .idle | .headerRead _ | .bodyRead _ _ | .failing _ | .handBackWrite _ => s.mem) = _ ∨ (match s.slate.step with | .takenWrite _ _ _ => s.mem.landTaken took s.slateWrite | .idle | .headerRead _ | .bodyRead _ _ | .failing _ | .handBackWrite _ => s.mem) = _
    split
    · exact Or.inr rfl
    all_goals exact Or.inl rfl
  · cases n <;> exact Or.inr rfl
  · show (match s.writer.step with | .resultWrite _ => s.mem.landPartly took s.writerWrite | .idle | .stateWrite _ | .wordWrite _ => s.mem) = _ ∨ (match s.writer.step with | .resultWrite _ => s.mem.landPartly took s.writerWrite | .idle | .stateWrite _ | .wordWrite _ => s.mem) = _
    split
    · exact Memory.landPartly_cases _ _ _
    all_goals exact Or.inl rfl

/-- A byte of a write taken in part. -/
theorem Memory.landTaken_byte {m : Memory} (hm : m.wf = true) (took : Nat → Bool) (a : Nat) (bytes : List Byte)
    (ht : a + bytes.length ≤ Config.topAddress + 1) (i : Nat) (h : i < bytes.length) :
    (m.landTaken took (some (a, bytes))).read (a + i) = if took i then bytes[i] else m.read (a + i) := by
  have := Memory.read_writeTaken_inside took hm a 0 bytes ht i h
  rwa [Nat.zero_add] at this

/-- A byte that no issued write covers stands when every issued write lands. -/
theorem landIssued_uncovered {u : State} (h : u.memoryCanonical) (x : Nat) (hx : ∀ j, ¬ issuedCovers (u.issued j) x) :
    u.landIssued.mem.read x = u.mem.read x :=
  State.landIssued_outside h x (hx 0) (hx 1) (hx 2) (hx 3)

end Sys2Proof.Machine
end

