-- ==== Sys2Proof/Laws/Released.lean ====
section
/-! SUPPORT. Band set claims released at the ends of orders, and park banks freed: what every operation that
ends an order does to the uses of the sets and to the banks. -/

namespace Sys2Proof.Machine

/-- The bank that a pending PARK reserves is freed and no other changes. -/
theorem freeRequestBank_banks (s : State) (n : LaneId) :
    (∀ b : Fin 4, (s.lane n).request = .park b → (s.freeRequestBank n).banks = s.banks.set b .free) ∧
      ((∀ b, (s.lane n).request ≠ .park b) → (s.freeRequestBank n).banks = s.banks) := by
  unfold State.freeRequestBank
  refine ⟨fun b h => by rw [h]; rfl, fun h => ?_⟩
  split
  · exact absurd ‹_› (h _)
  all_goals rfl

/-- The release of a claimed use, and nothing where none is held (R62). -/
theorem State.released_releaseSet (s : State) (e : Entry) : s.Released (s.releaseSet e) e := by
  refine ⟨fun i h hi => ?_, fun h => ?_⟩
  · obtain ⟨h1, h2⟩ := State.releaseSet_of_claimed s e h i hi
    refine ⟨h1, fun x hx hs => ?_⟩
    rw [h2] at hx
    obtain ⟨y, hy, rfl⟩ := List.mem_map.1 hx
    split at hs
    next q => rw [if_pos q]
    next q => exact absurd hs q
  · unfold State.releaseSet; rw [if_neg (by rw [h]; exact Bool.false_ne_true)]

/-- A release, seen from a state with the same sets and entries. -/
theorem State.Released.congr {s s' t u : State} {e : Entry} (h : s.Released u e) (hs : s'.bandSets = s.bandSets)
    (hb : t.bandSets = u.bandSets)
    (ht : ∀ x ∈ t.table, x.slot = e.slot → ∃ y ∈ u.table, y.slot = e.slot ∧ y.claimed = x.claimed) :
    s'.Released t e := by
  refine ⟨fun i hc hi => ?_, fun hc => ?_⟩
  · obtain ⟨h1, h2⟩ := h.held i hc hi
    refine ⟨by rw [hb, hs]; exact h1, fun x hx hxs => ?_⟩
    obtain ⟨y, hy, hys, hyc⟩ := ht x hx hxs
    rw [← hyc]; exact h2 y hy hys
  · rw [hb, hs]; exact h.free hc

/-- A walking order's end releases its band set (R62, R95). -/
theorem State.released_endWalk (s : State) (n : LaneId) (e : Entry) (c : WalkContext) (f r x)
    (he : s.laneEntry n = some e) (hc : (s.lane n).context = some c) : s.Released (s.endWalk n f r x) e := by
  obtain ⟨q1, q2, q3, q4, q5, q6⟩ := State.freeRequestBank_fields s n
  have ee : s.endWalk n f r x = (((s.freeRequestBank n).setLane n (s.lane n).ending).releaseSet e).handOver
      (walkHandOver e c.record f r (f == .done && c.commitOverflow) x) := by
    unfold State.endWalk; rw [he, hc]
  rw [ee]
  refine State.Released.congr (State.released_releaseSet ((s.freeRequestBank n).setLane n (s.lane n).ending) e) ?_ rfl
    (fun y hy hs => ⟨y, hy, hs, rfl⟩)
  rw [← q5]; cases n <;> rfl

/-- The bank that an ended order's dropped PARK reserved is free (R168). -/
theorem State.endWalk_banks (s : State) (n : LaneId) (e : Entry) (c : WalkContext) (f r x)
    (he : s.laneEntry n = some e) (hc : (s.lane n).context = some c) :
    (s.endWalk n f r x).banks = (s.freeRequestBank n).banks := by
  unfold State.endWalk; rw [he, hc]
  show (State.releaseSet _ _).banks = _
  rw [(State.releaseSet_fields _ _).2.2.2.2]; cases n <;> rfl

/-- The banks after an order that has worked nothing ends. -/
theorem State.endPlain_banks (s : State) (n : LaneId) (e : Entry) (f r) (he : s.laneEntry n = some e) :
    (s.endPlain n f r).banks = (s.freeRequestBank n).banks := by
  unfold State.endPlain; rw [he]
  cases n <;> rfl

/-- A pending PARK has its bank freed. -/
theorem State.freeRequestBank_park (s : State) (n : LaneId) (b : Fin 4) (h : (s.lane n).request = .park b) :
    (s.freeRequestBank n).banks[b] = .free := by
  unfold State.freeRequestBank; rw [h]; simp

/-- With no request no bank is freed. -/
theorem State.freeRequestBank_none (s : State) (n : LaneId) (h : (s.lane n).request = .none) :
    s.freeRequestBank n = s := by
  unfold State.freeRequestBank; rw [h]

/-- The use that slot `k` holds of set `i`: held as in `s`, where `P` allows it, or released. -/
def State.UseOf (P : Prop) (s u : State) (k : Nat) (i : Fin 8) : Prop :=
  (P ∧ u.bandSets[i].uses ≤ s.bandSets[i].uses ∧
    ∃ y, u.entry? k = some y ∧ y.claimed = true ∧ referencedSet y.header.kind y.body = some i) ∨
  (u.bandSets[i].uses ≤ s.bandSets[i].uses - 1 ∧ ∀ x ∈ u.table, x.slot = k → x.claimed = false)

/-- What `State.UseOf` says carries over to equal sets and entries. -/
theorem State.UseOf.of_eq {P : Prop} {s u v : State} {k i} (h : State.UseOf P s u k i) (hb : v.bandSets = u.bandSets)
    (ht : v.table = u.table) : State.UseOf P s v k i := by
  unfold State.UseOf State.entry? at *; rw [hb, ht]; exact h

/-- An entry updated. -/
theorem State.UseOf.updEntry {P : Prop} {s u : State} {k i} (h : State.UseOf P s u k i) (j : Nat) (f : Entry → Entry)
    (h1 : ∀ e, (f e).slot = e.slot) (h2 : ∀ e, (f e).claimed = e.claimed) (h3 : ∀ e, (f e).header = e.header)
    (h4 : ∀ e, (f e).body = e.body) : State.UseOf P s (u.updEntry j f) k i := by
  rcases h with ⟨p, a, y, b, c, d⟩ | ⟨a, b⟩
  · refine .inl ⟨p, a, ?_⟩
    rw [State.entry_updEntry u j k f h1, b]
    refine ⟨_, rfl, ?_⟩
    dsimp only
    split
    · rw [h2, h3, h4]; exact ⟨c, d⟩
    · exact ⟨c, d⟩
  · refine .inr ⟨a, fun x hx hs => ?_⟩
    obtain ⟨y, hy, rfl⟩ := List.mem_map.1 hx
    split at hs
    next q => rw [if_pos q, h2]; exact b y hy (by rw [h1] at hs; exact hs)
    next q => rw [if_neg q]; exact b y hy hs

/-- A claim released. -/
theorem State.UseOf.releaseSet {P : Prop} {s u : State} {k i} (h : State.UseOf P s u k i) (e : Entry) (he : u.entry? e.slot = some e) :
    State.UseOf P s (u.releaseSet e) k i := by
  unfold State.releaseSet
  split
  next hc =>
    split
    next j hj =>
      have low : ∀ i : Fin 8, (u.bandSets.set j { u.bandSets[j] with uses := u.bandSets[j].uses - 1 })[i].uses ≤ u.bandSets[i].uses := by
        intro i
        by_cases q : j = i
        · subst q; simp
        · have : j.val ≠ i.val := fun x => q (Fin.ext x)
          simp [Vector.getElem_set, this]
      rcases h with ⟨p, a, y, b, c, d⟩ | ⟨a, b⟩
      · by_cases q : e.slot = k
        · right
          have : y = e := by rw [q, b] at he; injection he
          subst this
          have hij : j = i := by rw [hj] at d; injection d
          subst hij
          refine ⟨?_, fun x hx hs => ?_⟩
          · show (u.bandSets.set j { u.bandSets[j] with uses := u.bandSets[j].uses - 1 })[j].uses ≤ _
            have : (u.bandSets.set j { u.bandSets[j] with uses := u.bandSets[j].uses - 1 })[j].uses = u.bandSets[j].uses - 1 := by simp
            rw [this]; omega
          · obtain ⟨z, hz, rfl⟩ := List.mem_map.1 hx
            split at hs
            next q => rw [if_pos q]
            next q' => exact absurd (hs.trans q.symm) q'
        · left
          refine ⟨p, Nat.le_trans (low i) a, y, ?_, c, d⟩
          rw [State.entry_updEntry _ e.slot k (fun x => { x with claimed := false }) (fun _ => rfl)]
          show (u.entry? k).map _ = _
          have ys : y.slot = k := State.slot_of_entry b
          rw [b]; simp only [Option.map_some]; rw [if_neg (by rw [ys]; exact fun x => q x.symm)]
      · right
        refine ⟨Nat.le_trans (low i) a, fun x hx hs => ?_⟩
        obtain ⟨z, hz, rfl⟩ := List.mem_map.1 hx
        split at hs
        next q => rw [if_pos q]
        next q => rw [if_neg q]; exact b z hz hs
    · exact h
  · exact h

/-- A claim released, for its own order. -/
theorem State.UseOf.released {P : Prop} {s u : State} {k : Nat} {i : Fin 8} (h : State.UseOf P s u k i) (e : Entry) (he : u.entry? e.slot = some e)
    (hk : e.slot = k) :
    (u.releaseSet e).bandSets[i].uses ≤ s.bandSets[i].uses - 1 ∧
      ∀ x ∈ (u.releaseSet e).table, x.slot = k → x.claimed = false := by
  rcases State.UseOf.releaseSet h e he with ⟨_, a, y, b, c, d⟩ | q
  · exfalso
    have hr := State.released_releaseSet u e
    by_cases hc : e.claimed = true
    · rcases h with ⟨_, a', y', b', c', d'⟩ | ⟨a', b'⟩
      · have : y' = e := by rw [hk, b'] at he; injection he
        subst this
        have := (hr.held i hc d').2 y (List.mem_of_find?_eq_some b) (by rw [State.slot_of_entry b, hk])
        rw [c] at this; cases this
      · have := b' e (List.mem_of_find?_eq_some he) hk
        rw [hc] at this; cases this
    · have e1 : u.releaseSet e = u := by unfold State.releaseSet; rw [if_neg hc]
      rw [e1] at b
      rw [hk, b] at he; injection he with he; subst he; exact hc c
  · exact q

/-- A walking order ended. -/
theorem State.UseOf.endWalk {P : Prop} {s u : State} {k i} (h : State.UseOf P s u k i) (n f r x) : State.UseOf P s (u.endWalk n f r x) k i := by
  unfold State.endWalk
  split
  next e c he hc =>
    obtain ⟨q1, q2, q3, q4, q5, q6⟩ := State.freeRequestBank_fields u n
    have h1 : State.UseOf P s ((u.freeRequestBank n).setLane n (u.lane n).ending) k i :=
      h.of_eq (by rw [← q5]; cases n <;> rfl) (by rw [← q6]; cases n <;> rfl)
    have h2 : ((u.freeRequestBank n).setLane n (u.lane n).ending).entry? e.slot = some e := by
      have : ((u.freeRequestBank n).setLane n (u.lane n).ending).table = u.table := by rw [← q6]; cases n <;> rfl
      have e2 : u.entry? e.slot = some e := by
        unfold State.laneEntry at he
        split at he
        · rw [State.slot_of_entry he]; exact he
        · cases he
      unfold State.entry? at *; rw [this]; exact e2
    exact (State.UseOf.releaseSet h1 e h2).of_eq rfl rfl
  · exact h

/-- A stop request posted. -/
theorem State.UseOf.post {P : Prop} {s u : State} {k i} (h : State.UseOf P s u k i) (n r) : State.UseOf P s (u.post n r) k i := by
  have h1 : ∀ l, State.UseOf P s ((u.freeRequestBank n).setLane n l) k i := by
    intro l
    obtain ⟨q1, q2, q3, q4, q5, q6⟩ := State.freeRequestBank_fields u n
    exact h.of_eq (by rw [← q5]; cases n <;> rfl) (by rw [← q6]; cases n <;> rfl)
  unfold State.post State.actOn; dsimp only; repeat' split
  all_goals first | exact h | exact h1 _ | exact (h1 _).endWalk _ _ _ _

/-- A lane met by an engine stop. -/
theorem State.UseOf.stopLane {P : Prop} {s u : State} {k i} (h : State.UseOf P s u k i) (n) : State.UseOf P s (u.stopLane n) k i := by
  unfold State.stopLane; split
  · split
    · exact h.of_eq (State.thaw_fields u n).2.2.2 (State.thaw_fields u n).2.2.1
    · exact h.post n _
  · exact h

/-- A PARKED order ended. -/
theorem State.UseOf.endParked {P : Prop} {s u : State} {k i} (h : State.UseOf P s u k i) (j r) : State.UseOf P s (u.endParked j r) k i := by
  unfold State.endParked
  split
  next e he =>
    split
    · have h2 : u.entry? e.slot = some e := by rw [State.slot_of_entry he]; exact he
      exact (State.UseOf.updEntry (State.UseOf.releaseSet h e h2) j (fun x => { x with ended := true }) (fun _ => rfl) (fun _ => rfl) (fun _ => rfl) (fun _ => rfl)).of_eq rfl rfl
    · exact h
    · exact h
  · exact h

/-- PARKED orders ended one by one. -/
theorem State.UseOf.foldParked {P : Prop} {s : State} {k i} (l : List Nat) (r) : ∀ {u : State}, State.UseOf P s u k i →
    State.UseOf P s (l.foldl (fun x slot => x.endParked slot r) u) k i := by
  induction l with
  | nil => exact fun h => h
  | cons a rest ih => exact fun h => ih (h.endParked a r)

end Sys2Proof.Machine
end

