-- ==== Sys2Proof/Laws/Parked.lean ====
section
/-! SUPPORT. Parked orders ended by an engine stop: their entries are marked ended, stay in the Order Table and leave
the park-order list. -/

namespace Sys2Proof.Machine

/-- The order of slot `k` has ended and stands in no park-order list (R182, R190). -/
structure ParkGone (k : Nat) (u : State) : Prop where
  ended : ∀ x ∈ u.table, x.slot = k → x.ended = true
  list : k ∉ u.parkOrder

/-- An entry changed, its slot and end kept. -/
theorem ParkGone.updEntry {k} {u : State} (h : ParkGone k u) (j) (f : Entry → Entry)
    (h1 : ∀ e, (f e).slot = e.slot) (h2 : ∀ e, e.ended = true → (f e).ended = true) :
    ParkGone k (u.updEntry j f) := by
  refine ⟨?_, h.list⟩
  intro x hx hk
  unfold State.updEntry at hx
  obtain ⟨y, hy, rfl⟩ := List.mem_map.1 hx
  split at hk <;> rename_i hs
  · rw [if_pos hs]; rw [h1] at hk; exact h2 _ (h.ended y hy hk)
  · rw [if_neg hs]; exact h.ended y hy hk

/-- Another state with the same table and list. -/
theorem ParkGone.of_eq {k} {u v : State} (h : ParkGone k u) (ht : v.table = u.table) (hp : v.parkOrder = u.parkOrder) :
    ParkGone k v :=
  ⟨by rw [ht]; exact h.ended, by rw [hp]; exact h.list⟩

/-- A band set claim released (R62). -/
theorem ParkGone.releaseSet {k} {u : State} (h : ParkGone k u) (e) : ParkGone k (u.releaseSet e) := by
  unfold State.releaseSet; split
  · split
    · next i _ =>
      exact ParkGone.updEntry (u := u.setBandSet i _) (ParkGone.of_eq h rfl rfl) e.slot
        (fun x => { x with claimed := false }) (fun _ => rfl) (fun _ h => h)
    · exact h
  · exact h

/-- The slots held stand where a claim is released. -/
theorem State.releaseSet_slots (u : State) (e) : (u.releaseSet e).table.map (fun x => x.slot) =
    u.table.map (fun x => x.slot) := by
  unfold State.releaseSet State.updEntry; repeat' split
  all_goals first
    | rfl
    | (simp only [List.map_map]; apply List.map_congr_left; intro a _; simp only [Function.comp]; split <;> rfl)

/-- Another parked order ended. -/
theorem ParkGone.endParked {k} {u : State} (h : ParkGone k u) (j r) : ParkGone k (u.endParked j r) := by
  unfold State.endParked; split
  · split
    · next e _ _ _ _ =>
      dsimp only
      have := ParkGone.updEntry (ParkGone.releaseSet h e) j (fun x => { x with ended := true }) (fun _ => rfl)
        (fun _ _ => rfl)
      refine ⟨this.ended, ?_⟩
      intro hm
      exact this.list (List.mem_filter.1 hm).1
    · exact h
    · exact h
  · exact h

/-- A parked order ended is marked ended and leaves the list (R182, R190). -/
theorem State.parkGone_endParked {k} {u : State} (r) (z : Entry) (c) (hz : u.entry? k = some z)
    (hb : u.banks[z.bank] = .holding c) : ParkGone k (u.endParked k r) := by
  unfold State.endParked; rw [hz]; dsimp only; rw [hb]; dsimp only
  refine ⟨?_, ?_⟩
  · intro x hx hk
    change x ∈ ((u.releaseSet z).table.map _) at hx
    obtain ⟨y, hy, rfl⟩ := List.mem_map.1 hx
    split at hk <;> rename_i hs
    · rw [if_pos hs]
    · exact absurd hk hs
  · intro hm
    have := (List.mem_filter.1 hm).2
    simp at this

/-- A parked order that ends stays in the Order Table. -/
theorem State.endParked_slots (u : State) (j r) : (u.endParked j r).table.map (fun x => x.slot) =
    u.table.map (fun x => x.slot) := by
  unfold State.endParked; split
  · split
    · dsimp only
      rename_i e _ _ c _
      rw [← State.releaseSet_slots u e]
      show (List.map _ (List.map _ _)) = _
      rw [List.map_map]; apply List.map_congr_left; intro a _; simp only [Function.comp]; split <;> rfl
    · rfl
    · rfl
  · rfl

/-- Parked orders ended one by one stay in the Order Table. -/
theorem State.foldParked_slots (l : List Nat) (r) : ∀ u : State,
    (l.foldl (fun x slot => x.endParked slot r) u).table.map (fun x => x.slot) =
    u.table.map (fun x => x.slot) := by
  induction l with
  | nil => intro u; rfl
  | cons a rest ih => intro u; exact (ih _).trans (State.endParked_slots u a r)

/-- Parked orders ended one by one. -/
theorem ParkGone.foldParked (l : List Nat) (r) {k} : ∀ u : State, ParkGone k u →
    ParkGone k (l.foldl (fun x slot => x.endParked slot r) u) := by
  induction l with
  | nil => intro u h; exact h
  | cons a rest ih => intro u h; exact ih _ (ParkGone.endParked h a r)

/-- A lane met by an engine stop holds its order. -/
theorem State.stopLane_slots (s : State) (n : LaneId) : (s.stopLane n).table.map (fun x => x.slot) =
    s.table.map (fun x => x.slot) := by
  have rs := State.releaseSet_slots
  have ew : ∀ (x : State) f r y, (x.endWalk n f r y).table.map (fun x => x.slot) = x.table.map (fun x => x.slot) := by
    intro x f r y
    unfold State.endWalk; dsimp only
    split
    · show (State.releaseSet _ _).table.map _ = _
      rw [rs]
      show ((x.freeRequestBank n).setLane n _).table.map _ = _
      rw [State.setLane_table, (State.freeRequestBank_fields x n).2.2.2.2.2]
    · rfl
  have ep : ∀ (x : State) f r, (x.endPlain n f r).table = x.table := by
    intro x f r
    unfold State.endPlain; dsimp only
    split
    · show ((x.freeRequestBank n).setLane n _).table = _
      rw [State.setLane_table, (State.freeRequestBank_fields x n).2.2.2.2.2]
    · rfl
  unfold State.stopLane; split
  · split
    · unfold State.thaw; split
      · split
        · dsimp only; split
          · unfold State.nextHousekeepingStep; dsimp only; repeat' split
            all_goals first
              | (rw [ep]; simp)
              | (simp [State.setWork])
          · unfold State.beginCell; split <;> simp
        · rfl
      · rfl
    · unfold State.post State.actOn; dsimp only; repeat' split
      all_goals first
        | rfl
        | (rw [ew]; simp [(State.freeRequestBank_fields s n).2.2.2.2.2])
        | (simp [(State.freeRequestBank_fields s n).2.2.2.2.2])
  · rfl

end Sys2Proof.Machine
end

