-- ==== Sys2Proof/Laws/Records.lean ====
section
/-! SUPPORT. The formats a lane writes, field by field, the digits a keep mask keeps, and when a claim holds an
access back. -/

namespace Sys2Proof.Machine

/-- A keep mask, digit by digit (R35). -/
theorem mergeDigits_nibble (n mask old new : Nat) : ∀ k, mergeDigits n mask old new / 16 ^ k % 16 =
    if k < n then (if mask.testBit k = true then old / 16 ^ k % 16 else new / 16 ^ k % 16) else 0 := by
  induction n generalizing mask old new with
  | zero => intro k; simp [mergeDigits]
  | succ n ih =>
    intro k
    unfold mergeDigits
    have ht : mask.testBit 0 = true ↔ mask % 2 = 1 := by rw [Nat.testBit_zero, decide_eq_true_iff]
    set d := (if mask % 2 = 1 then old % 16 else new % 16) with hd
    have hd16 : d < 16 := by rw [hd]; split <;> omega
    cases k with
    | zero =>
      simp only [Nat.pow_zero, Nat.div_one, Nat.zero_lt_succ, if_true, ht]
      omega
    | succ k =>
      have h1 : (d + 16 * mergeDigits n (mask / 2) (old / 16) (new / 16)) / 16 = mergeDigits n (mask / 2) (old / 16) (new / 16) := by omega
      rw [Nat.pow_succ', ← Nat.div_div_eq_div_mul, h1, ih, ← Nat.div_div_eq_div_mul, ← Nat.div_div_eq_div_mul,
          Nat.testBit_succ]
      simp only [Nat.add_lt_add_iff_right]

/-- Merged digits fit their digit count. -/
theorem mergeDigits_lt (n mask old new : Nat) : mergeDigits n mask old new < 16 ^ n := by
  induction n generalizing mask old new with
  | zero => simp [mergeDigits]
  | succ n ih =>
    unfold mergeDigits
    have := ih (mask / 2) (old / 16) (new / 16)
    rw [Nat.pow_succ]
    have : (if mask % 2 = 1 then old % 16 else new % 16) < 16 := by split <;> omega
    omega

/-- A value that fits its bytes is read back. -/
theorem beValue_beBytes_lt (m x p : Nat) (h : x < 16 ^ p) (hp : p ≤ 2 * m) : beValue (beBytes m x) = x := by
  rw [beValue_beBytes, Nat.mod_eq_of_lt]
  refine Nat.lt_of_lt_of_le h ?_
  rw [show (256 : Nat) = 16 ^ 2 by rfl, ← Nat.pow_mul]
  exact Nat.pow_le_pow_right (by decide) hp

/-- The length of big-endian bytes. -/
theorem beBytes_length' (n v : Nat) : (beBytes n v).length = n := by
  unfold beBytes; rw [List.length_reverse, leBytes_length]

/-- A packed signed value fits its digits. -/
theorem packSigned_lt' (n : Nat) (v : Int) : packSigned n v < 16 ^ (n + 1) := packSigned_lt n v

/-- When two runs of bytes meet. -/
theorem runsMeet_iff (a n b k : Nat) : runsMeet a n b k = true ↔ a < b + k ∧ b < a + n := by
  unfold runsMeet; rw [Bool.and_eq_true, decide_eq_true_eq, decide_eq_true_eq]

/-- When the other lane claims a byte of a run (R33, log 10). -/
theorem claimed_iff (s : State) (n : LaneId) (a len : Nat) : s.claimed n a len = true ↔ ∃ b held,
    (s.lane (otherLane n)).work = .destinationWrite b held true ∧
      a < b.toNat + held.length ∧ b.toNat < a + len := by
  unfold State.claimed
  split
  next b held h =>
    rw [runsMeet_iff, h]
    constructor
    · intro q; exact ⟨b, held, rfl, q⟩
    · rintro ⟨b', held', h', q⟩
      injection h' with h1 h2
      subst h1 h2; exact q
  next h =>
    constructor
    · intro q; cases q
    · rintro ⟨b, held, q, _⟩; exact absurd q (h b held)

/-- A signed field of 28 digits is read back. -/
theorem signedField28 (pre post : List Byte) (v : Int) (i : Nat) (h : pre.length = i) (hl : -10 ^ 28 < v) (hu : v < 10 ^ 28) :
    signedField 28 (pre ++ (beBytes 15 (packSigned 28 v) ++ post)) i 15 = some v := by
  have hs : slice (pre ++ (beBytes 15 (packSigned 28 v) ++ post)) i 15 = beBytes 15 (packSigned 28 v) := by
    unfold slice; rw [← h, List.drop_left, List.take_left' (beBytes_length' _ _)]
  unfold signedField; rw [hs, beValue_beBytes_lt 15 _ 29 (packSigned_lt' 28 v) (by omega)]
  have e1 : digitsOk 28 (packDigits 28 v.natAbs) = true := digitsOk_packDigits 28 _
  have e2 : digitsValue 28 (packDigits 28 v.natAbs) = v.natAbs := by rw [digitsValue_packDigits,
      Nat.mod_eq_of_lt (by omega)]
  unfold unpackSigned packSigned plusCode minusCode
  generalize packDigits 28 v.natAbs = d at *
  by_cases q : v < 0
  · rw [if_pos q]
    have h1 : (16 * d + 0xD) / 16 = d := by omega
    have h2 : (16 * d + 0xD) % 16 = 0xD := by omega
    rw [h1, h2, if_pos e1, if_neg (by decide), if_pos rfl, e2]
    exact congrArg some (by clear h1 h2 e1 e2 hl hu; omega)
  · rw [if_neg q]
    have h1 : (16 * d + 0xC) / 16 = d := by omega
    have h2 : (16 * d + 0xC) % 16 = 0xC := by omega
    rw [h1, h2, if_pos e1, if_pos rfl, e2]
    exact congrArg some (by clear h1 h2 e1 e2 hl hu; omega)

/-- The last field of a format. -/
theorem leField_end (pre : List Byte) (k n v : Nat) (h : pre.length = k) : leField (pre ++ leBytes n v) k n = v % 256 ^ n := by
  have := leField_at pre [] k n v h
  rwa [List.append_nil] at this

/-- An exception record, field by field (R156). -/
theorem exceptionRecord_fields (tag : BitVec 16) (row col : Nat) (x : CellException) :
    let record := exceptionRecord tag row col x
    record.length = 32 ∧ leField record 0 2 = row % 65536 ∧ leField record 2 2 = col % 65536 ∧
      leField record 4 1 = x.kind.code ∧ leField record 5 1 = x.sub % 256 ∧ leField record 6 2 = tag.toNat ∧
      (-10 ^ 28 < x.value → x.value < 10 ^ 28 → signedField 28 record 8 15 = some x.value) ∧
      leField record 23 9 = 0 := by
  intro record
  have hk : x.kind.code < 256 := by cases x.kind <;> decide
  have ht := tag.isLt
  have er : record = leBytes 2 row ++ leBytes 2 col ++ leBytes 1 x.kind.code ++ leBytes 1 x.sub ++ leBytes 2 tag.toNat ++
    beBytes 15 (packSigned 28 x.value) ++ leBytes 9 0 := rfl
  have l := leBytes_length
  have lb := beBytes_length'
  refine ⟨?_, ?_, ?_, ?_, ?_, ?_, fun hl hu => ?_, ?_⟩
  · rw [er]; simp only [List.length_append, l, lb]
  · rw [er]; simp only [List.append_assoc]
    have := leField_at [] (leBytes 2 col ++ (leBytes 1 x.kind.code ++ (leBytes 1 x.sub ++ (leBytes 2 tag.toNat ++ (beBytes 15 (packSigned 28 x.value) ++ leBytes 9 0))))) 0 2 row rfl
    exact this
  · rw [er]; simp only [List.append_assoc]
    exact leField_at (leBytes 2 row) _ 2 2 col (l _ _)
  · rw [er]; simp only [List.append_assoc]; rw [← List.append_assoc]
    exact (leField_at (leBytes 2 row ++ leBytes 2 col) _ 4 1 x.kind.code (by simp only [List.length_append,
        l])).trans (Nat.mod_eq_of_lt hk)
  · rw [er]; simp only [List.append_assoc]; rw [← List.append_assoc, ← List.append_assoc]
    exact leField_at (leBytes 2 row ++ leBytes 2 col ++ leBytes 1 x.kind.code) _ 5 1 x.sub (by simp only [List.length_append, l])
  · rw [er]; simp only [List.append_assoc]; rw [← List.append_assoc, ← List.append_assoc, ← List.append_assoc]
    exact (leField_at (leBytes 2 row ++ leBytes 2 col ++ leBytes 1 x.kind.code ++ leBytes 1 x.sub) _ 6 2 tag.toNat (by simp only [List.length_append, l])).trans (Nat.mod_eq_of_lt ht)
  · rw [er, List.append_assoc]
    exact signedField28 _ _ _ 8 (by simp only [List.length_append, l]) hl hu
  · rw [er]
    exact leField_end _ 23 9 0 (by simp only [List.length_append, l, lb])

/-- A total record, field by field (R156). -/
theorem totalRecord_fields (i : Nat) (t : Total) (hi : i < 256) (hl : t.inLimits) :
    let record := totalRecord i t
    record.length = 24 ∧ leField record 0 1 = i ∧ leField record 1 1 = t.overflow.toNat ∧ leField record 2 2 = 0 ∧
      leField record 4 4 = t.count ∧ signedField 28 record 8 15 = some t.value ∧ leField record 23 1 = 0 := by
  intro record
  have er : record = leBytes 1 i ++ leBytes 1 t.overflow.toNat ++ leBytes 2 0 ++ leBytes 4 t.count ++
    beBytes 15 (packSigned 28 t.value) ++ leBytes 1 0 := rfl
  have l := leBytes_length
  have lb := beBytes_length'
  obtain ⟨⟨hl, hu⟩, hc⟩ := hl
  have em : Config.maxTotal = 10 ^ 28 - 1 := rfl
  have ec : Config.maxCount = 4294967295 := rfl
  rw [em] at hl hu; rw [ec] at hc
  refine ⟨?_, ?_, ?_, ?_, ?_, ?_, ?_⟩
  · rw [er]; simp only [List.length_append, l, lb]
  · rw [er]; simp only [List.append_assoc]
    exact (leField_at [] _ 0 1 i rfl).trans (Nat.mod_eq_of_lt hi)
  · rw [er]; simp only [List.append_assoc]
    exact (leField_at (leBytes 1 i) _ 1 1 _ (l _ _)).trans (by cases t.overflow <;> rfl)
  · rw [er]; simp only [List.append_assoc]; rw [← List.append_assoc]
    exact leField_at (leBytes 1 i ++ leBytes 1 t.overflow.toNat) _ 2 2 0 (by simp only [List.length_append, l])
  · rw [er]; simp only [List.append_assoc]; rw [← List.append_assoc, ← List.append_assoc]
    exact (leField_at (leBytes 1 i ++ leBytes 1 t.overflow.toNat ++ leBytes 2 0) _ 4 4 t.count (by simp only [List.length_append, l])).trans (Nat.mod_eq_of_lt (by omega))
  · rw [er, List.append_assoc]
    exact signedField28 _ _ _ 8 (by simp only [List.length_append, l]) (by omega) (by omega)
  · rw [er]
    exact leField_end _ 23 1 0 (by simp only [List.length_append, l, lb])

/-- When a lane write waits for the other lane (R33, log 10). -/
theorem writeHeld_iff (s : State) (n : LaneId) : s.writeHeld n = true ↔
    ∃ a bytes b held, s.laneWrite n = some (a, bytes) ∧
      (s.lane (otherLane n)).work = .destinationWrite b held true ∧ a < b.toNat + held.length ∧
        b.toNat < a + bytes.length := by
  unfold State.writeHeld
  split
  next a bytes h =>
    rw [claimed_iff, h]
    constructor
    · rintro ⟨b, held, q⟩; exact ⟨a, bytes, b, held, rfl, q⟩
    · rintro ⟨a', bytes', b, held, h', q⟩
      injection h' with h'; injection h' with h1 h2; subst h1 h2; exact ⟨b, held, q⟩
  next h =>
    constructor
    · intro q; cases q
    · rintro ⟨a, bytes, b, held, q, _⟩; rw [h] at q; cases q

end Sys2Proof.Machine
end

