-- ==== Sys2Proof/Laws/TableKept.lean ====
section
/-! SUPPORT. What the shared operations keep of the Order Table,
the band sets and the counters: one lemma per operation. -/

namespace Sys2Proof.Machine

/-- What the shared operations keep of the Order Table, the band sets and the counters (R59, R138, R157, R192). -/
structure State.TableKept (s t : State) : Prop where
  slots : t.table.map (fun e => e.slot) = s.table.map (fun e => e.slot)
  parks : (∀ e ∈ s.table, e.parkCount ≤ 255) → ∀ e ∈ t.table, e.parkCount ≤ 255
  sets : s.SetsInUseLoaded → t.SetsInUseLoaded
  anchor : t.engine.anchor = s.engine.anchor
  notify : t.writer.notifyPending = s.writer.notifyPending
  step : ∀ k, t.slate.step.mayEnter = some k → s.slate.step.mayEnter = some k

namespace State.TableKept

theorem refl (s : State) : State.TableKept s s := ⟨rfl, fun h => h, fun h => h, rfl, rfl, fun _ h => h⟩

theorem trans {s t u : State} (h : State.TableKept s t) (k : State.TableKept t u) : State.TableKept s u :=
  ⟨k.slots.trans h.slots, fun q => k.parks (h.parks q), fun q => k.sets (h.sets q), k.anchor.trans h.anchor,
      k.notify.trans h.notify, fun x q => h.step x (k.step x q)⟩

theorem of_eq {s t : State} (h1 : t.table = s.table) (h2 : t.bandSets = s.bandSets)
    (h3 : t.engine.anchor = s.engine.anchor) (h4 : t.writer.notifyPending = s.writer.notifyPending)
    (h5 : t.slate.step = s.slate.step) : State.TableKept s t :=
  ⟨by rw [h1], fun q => by rw [h1]; exact q, fun q => by unfold State.SetsInUseLoaded; rw [h2]; exact q, h3, h4, fun k q => by rw [← h5]; exact q⟩

theorem setLane (s : State) (n l) : State.TableKept s
    (s.setLane n l) := by cases n <;> exact of_eq (by rfl) (by rfl) (by rfl) (by rfl) (by rfl)

theorem parkOrder (s : State) (x : List Nat) : State.TableKept s { s with parkOrder := x } :=
    of_eq rfl rfl rfl rfl rfl

theorem setBank (s : State) (b x) : State.TableKept s (s.setBank b x) :=
    of_eq (by rfl) (by rfl) (by rfl) (by rfl) (by rfl)

theorem setMem (s : State) (m) : State.TableKept s (s.setMem m) := of_eq (by rfl) (by rfl) (by rfl) (by rfl) (by rfl)

theorem setAccums (s : State) (m) : State.TableKept s (s.setAccums m) :=
    of_eq (by rfl) (by rfl) (by rfl) (by rfl) (by rfl)

theorem afterHost (s : State) (m) : State.TableKept s (s.afterHost m) :=
    of_eq (by rfl) (by rfl) (by rfl) (by rfl) (by rfl)

theorem setFlags (s : State) (f) : State.TableKept s (s.setFlags f) :=
    of_eq (by rfl) (by rfl) (by rfl) (by rfl) (by rfl)

theorem setEngineState (s : State) (x) : State.TableKept s (s.setEngineState x) :=
    of_eq (by rfl) (by rfl) (by rfl) (by rfl) (by rfl)

theorem handOver (s : State) (h) : State.TableKept s (s.handOver h) :=
    of_eq (by rfl) (by rfl) (by rfl) (by rfl) (by rfl)

theorem setWork (s : State) (n w) : State.TableKept s (s.setWork n w) := setLane s n _

theorem setSlate {s : State} (x : SlateReader) (h : ∀ k,
    x.step.mayEnter = some k → s.slate.step.mayEnter = some k) : State.TableKept s (s.setSlate x) :=
  ⟨rfl, fun q => q, fun q => q, rfl, rfl, h⟩

theorem updEntry (s : State) (k : Nat) (f : Entry → Entry) (h1 : ∀ e, (f e).slot = e.slot) (h2 : ∀ e,
    e.parkCount ≤ 255 → (f e).parkCount ≤ 255) : State.TableKept s (s.updEntry k f) := by
  refine ⟨?_, fun q e he => ?_, fun q => q, rfl, rfl, fun _ q => q⟩
  · show (s.table.map _).map _ = _
    rw [List.map_map]; apply List.map_congr_left; intro e _
    simp only [Function.comp]; split
    · exact h1 e
    · rfl
  · obtain ⟨e', he', rfl⟩ := List.mem_map.1 he
    split
    · exact h2 _ (q _ he')
    · exact q _ he'

theorem setBandSet (s : State) (i : Fin 8) (x : BandSet) (h : s.SetsInUseLoaded → 0 < x.uses →
    x.state = .loaded) : State.TableKept s (s.setBandSet i x) :=
  ⟨rfl, fun q => q, fun q => vector_forall_get_set (fun b : BandSet => 0 < b.uses →
      b.state = .loaded) _ _ _ (h q) q, rfl, rfl, fun _ q => q⟩

theorem freeRequestBank (s : State) (n) : State.TableKept s (s.freeRequestBank n) := by
  unfold State.freeRequestBank; split
  · exact setBank s _ _
  all_goals exact refl s

theorem releaseSet (s : State) (e) : State.TableKept s (s.releaseSet e) := by
  unfold State.releaseSet; split
  · split
    next i _ =>
      exact (setBandSet s i _ (by exact fun q h => q i (Nat.lt_of_lt_of_le (show 0 < s.bandSets[i].uses - 1 from h) (Nat.sub_le _ _)))).trans (updEntry _ _ _ (by exact fun _ => rfl) (by exact fun _ h => h))
    · exact refl s
  · exact refl s

theorem endWalk (s : State) (n f r x) : State.TableKept s (s.endWalk n f r x) := by
  unfold State.endWalk; split
  · exact (((freeRequestBank s n).trans (setLane _ _ _)).trans (releaseSet _ _)).trans (handOver _ _)
  · exact refl s

theorem endPlain (s : State) (n f r) : State.TableKept s (s.endPlain n f r) := by
  unfold State.endPlain; split
  · exact ((freeRequestBank s n).trans (setLane _ _ _)).trans (handOver _ _)
  · exact refl s

theorem endParked (s : State) (k r) : State.TableKept s (s.endParked k r) := by
  unfold State.endParked; split
  · split
    · exact (((releaseSet s _).trans (updEntry _ _ _ (by exact fun _ => rfl) (by exact fun _ h => h))).trans
          (parkOrder _ _)).trans (handOver _ _)
    · exact refl s
    · exact refl s
  · exact refl s

theorem actOn (s : State) (n r) : State.TableKept s (s.actOn n r) := by
  unfold State.actOn; split
  all_goals first | exact endWalk _ _ _ _ _ | exact refl s

theorem post (s : State) (n r) : State.TableKept s (s.post n r) := by
  unfold State.post; dsimp only
  repeat' split
  all_goals first
    | exact refl s
    | exact ((freeRequestBank s n).trans (setLane _ _ _)).trans (actOn _ _ _)
    | exact (freeRequestBank s n).trans (setLane _ _ _)

theorem settlePause (s : State) : State.TableKept s s.settlePause := by
  unfold State.settlePause; split
  · exact setEngineState s _
  · exact refl s

theorem settleStop (s : State) : State.TableKept s s.settleStop := by
  unfold State.settleStop; split
  · exact setEngineState s _
  · exact refl s

theorem asOneEvent (s : State) (f : State →
    State) (h : State.TableKept s (f s)) : State.TableKept s (s.asOneEvent f) :=
    h.trans (of_eq (by rfl) (by rfl) (by rfl) (by rfl) (by rfl))

theorem not_enters {x : SlateStep} (h : x.mayEnter = none) {y : SlateStep} : ∀ k,
    x.mayEnter = some k → y.mayEnter = some k := fun k q => by rw [h] at q; cases q

theorem beginSweep (s : State) (a) : State.TableKept s (s.beginSweep a) := setSlate _ (by exact not_enters rfl)

theorem requestSweep (s : State) : State.TableKept s s.requestSweep := by
  unfold State.requestSweep; split
  · split
    · exact setSlate _ (by exact fun _ h => h)
    · exact beginSweep s _
  · exact setSlate _ (by exact fun _ h => h)
  · exact setSlate _ (by exact fun _ h => h)
  all_goals exact refl s

theorem endSweep (s : State) : State.TableKept s s.endSweep := by
  unfold State.endSweep; dsimp only
  have a : ∀ x : SlateReader, x.step = .idle →
      State.TableKept s (s.setSlate x) := fun x h => setSlate _ (not_enters (by rw [h]; rfl))
  split
  · split
    · exact (a _ rfl).trans (beginSweep _ _)
    · exact a _ rfl
  · exact (a _ rfl).trans (setSlate _ (by exact not_enters rfl))
  all_goals exact a _ rfl

theorem advanceSweep (s : State) (k) : State.TableKept s (s.advanceSweep k) := by
  unfold State.advanceSweep; dsimp only
  have a : State.TableKept s (s.setSlate { s.slate with cursor := (if k + 1 < s.engine.anchor.slotCount then k + 1 else 0), visited := s.slate.visited + 1, step := .headerRead (if k + 1 < s.engine.anchor.slotCount then k + 1 else 0) }) := setSlate _ (by exact not_enters rfl)
  split
  · exact a.trans (endSweep _)
  · exact a

theorem failAtTake (s : State) (k h r) : State.TableKept s (s.failAtTake k h r) :=
    (setSlate _ (by exact not_enters rfl)).trans (handOver _ _)

theorem beginCell (s : State) (n) : State.TableKept s (s.beginCell n) := by
  unfold State.beginCell; split
  · exact setLane s _ _
  · exact refl s

theorem workOperands (s : State) (n e w a b) : State.TableKept s (s.workOperands n e w a b) := setLane s _ _

theorem freezeLane (s : State) (n) : State.TableKept s (s.freezeLane n) := (setLane s _ _).trans (settlePause _)

theorem nextHousekeepingStep (s : State) (n e) : State.TableKept s (s.nextHousekeepingStep n e) := by
  unfold State.nextHousekeepingStep; dsimp only
  repeat' split
  all_goals first
    | exact refl s
    | exact setLane s _ _
    | exact endPlain s _ _ _

theorem stepBoundary (s : State) (n e) : State.TableKept s (s.stepBoundary n e) := by
  unfold State.stepBoundary; split
  · exact freezeLane s n
  · exact nextHousekeepingStep s n e

theorem thaw (s : State) (n) : State.TableKept s (s.thaw n) := by
  unfold State.thaw; dsimp only
  repeat' split
  all_goals first
    | exact refl s
    | exact (setLane s _ _).trans (nextHousekeepingStep _ _ _)
    | exact (setLane s _ _).trans (beginCell _ _)

theorem releasePause (s : State) : State.TableKept s s.releasePause := by
  unfold State.releasePause; dsimp only
  have a := ((setEngineState s .running).trans (thaw _ .lane0)).trans (thaw _ .lane1)
  split
  · exact a.trans (beginSweep _ _)
  · exact a

theorem stopLane (s : State) (n) : State.TableKept s (s.stopLane n) := by
  unfold State.stopLane
  repeat' split
  all_goals first
    | exact refl s
    | exact thaw s n
    | exact post s n _

theorem foldl {α} (f : State → α → State) (h : ∀ s a,
    State.TableKept s (f s a)) (l : List α) (s : State) : State.TableKept s (l.foldl f s) := by
  induction l generalizing s with
  | nil => exact refl s
  | cons a l ih => exact (h s a).trans (ih _)

theorem beginStop (s : State) : State.TableKept s s.beginStop := by
  unfold State.beginStop; dsimp only
  exact ((((setSlate _ (by exact fun _ h => h)).trans (setEngineState _ _)).trans ((stopLane _ .lane0).trans
      (stopLane _ .lane1))).trans (foldl _ (fun s a => endParked s a _) _ _)).trans (settleStop _)

theorem cancelSlot (s : State) (i) : State.TableKept s (s.cancelSlot i) := by
  unfold State.cancelSlot State.cancelEntry State.cancelWaiting State.cancelRunning State.cancelParked
  have u : ∀ k, State.TableKept s (s.setPendingCancel k) :=
      fun k => updEntry s k _ (by exact fun _ => rfl) (by exact fun _ h => h)
  dsimp only
  repeat' split
  all_goals first
    | exact refl s
    | exact setFlags s _
    | exact u _
    | exact (u _).trans (handOver _ _)
    | exact (u _).trans (post _ _ _)
    | exact (u _).trans (endParked _ _ _)

theorem firstStart (s : State) (n e) : State.TableKept s (s.firstStart n e) :=
    (setLane s _ _).trans (updEntry _ _ _ (by exact fun _ => rfl) (by exact fun _ h => h))

theorem resume (s : State) (n e) : State.TableKept s (s.resume n e) := by
  unfold State.resume; dsimp only
  have u : ∀ c, State.TableKept s { ((s.setLane n (resumedLane e c)).setBank e.bank .free).updEntry e.slot (Entry.runOn n) with parkOrder := (((s.setLane n (resumedLane e c)).setBank e.bank .free).updEntry e.slot (Entry.runOn n)).parkOrder.filter (fun k => k != e.slot) } := fun c =>
    (((setLane s _ _).trans (setBank _ _ _)).trans (updEntry _ _ _ (by exact fun _ => rfl)
        (by exact fun _ h => h))).trans (parkOrder _ _)
  repeat' split
  all_goals first
    | exact refl s
    | exact (u _).trans (post _ _ _)
    | exact u _

theorem finishPark (s : State) (n e c b) : State.TableKept s (s.finishPark n e c b) :=
  (((setBank s _ _).trans (setLane _ _ _)).trans (updEntry _ _ _ (by exact fun _ => rfl)
      (by exact fun _ _ => Nat.min_le_right _ _))).trans (parkOrder _ _)

theorem afterPark (s : State) (e) : State.TableKept s (s.afterPark e) := by
  unfold State.afterPark
  repeat' split
  all_goals first
    | exact endParked _ _ _
    | exact refl s

theorem firstAccess (s : State) (n e) : State.TableKept s (s.firstAccess n e) := by
  unfold State.firstAccess
  repeat' split
  all_goals first
    | exact setWork _ _ _
    | exact beginCell _ _

theorem startClaim (s : State) (n e i) : State.TableKept s (s.startClaim n e i) := by
  have g : State.TableKept s (s.grantStart n e i) :=
      ((setBandSet s i _ (by exact fun _ _ => rfl)).trans (updEntry _ _ _ (by exact fun _ => rfl)
      (by exact fun _ h => h))).trans (beginCell _ _)
  unfold State.startClaim
  repeat' split
  all_goals first
    | exact g
    | exact endPlain _ _ _ _

theorem takeSourceA (s : State) (n e w) : State.TableKept s (s.takeSourceA n e w) := by
  unfold State.takeSourceA; dsimp only
  split
  · exact setLane s _ _
  · exact workOperands s _ _ _ _ _

theorem takeDestination (s : State) (n e w) : State.TableKept s (s.takeDestination n e w) := setWork s _ _

theorem walkDone (s : State) (n e) : State.TableKept s (s.walkDone n e) := by
  unfold State.walkDone; split
  · exact setLane s _ _
  · exact endWalk s _ _ _ _

theorem passBoundary (s : State) (n e c w) : State.TableKept s (s.passBoundary n e c w) := by
  unfold State.passBoundary State.endOfWalk State.midBoundary; dsimp only
  repeat' split
  all_goals first
    | exact (setLane s _ _).trans ((freeRequestBank _ _).trans (walkDone _ _ _))
    | exact (setLane s _ _).trans (actOn _ _ _)
    | exact (setLane s _ _).trans (setLane _ _ _)
    | exact (setLane s _ _).trans (freezeLane _ _)
    | exact (setLane s _ _).trans (beginCell _ _)

theorem finishStep (s : State) (n e) : State.TableKept s (s.finishStep n e) :=
    (setLane s _ _).trans (stepBoundary _ _ _)

theorem finishLast (s : State) (n) : State.TableKept s (s.finishLast n) := (setLane s _ _).trans (endPlain _ _ _ _)

theorem takeImage (s : State) (n e k) : State.TableKept s (s.takeImage n e k) := by
  unfold State.takeImage; dsimp only; split
  · exact (setLane s _ _).trans (finishStep _ _ _)
  · exact setLane s _ _

theorem takePresetRecord (s : State) (n e) : State.TableKept s (s.takePresetRecord n e) := by
  unfold State.takePresetRecord; dsimp only; split
  · exact (setLane s _ _).trans (finishStep _ _ _)
  · exact endPlain s _ _ _

theorem failOrder (s : State) (n e) : State.TableKept s (s.failOrder n e) := by
  unfold State.failOrder; split
  · exact endPlain s _ _ _
  · exact endWalk s _ _ _ _

theorem commitLane (s : State) (n e c x) : State.TableKept s (s.commitLane n e c x) :=
    ((setAccums s _).trans (setLane _ _ _)).trans (endWalk _ _ _ _ _)

theorem writeWindow (s : State) (w) : State.TableKept s (s.writeWindow w) := by
  have ws : ∀ i f, (∀ b, (f b).uses = b.uses) → State.TableKept s (s.writeSet i f) := by
    intro i f hf; unfold State.writeSet; split
    next hc =>
      rw [Bool.and_eq_true, decide_eq_true_eq] at hc
      refine (setBandSet s i _ (fun q h => ?_)).trans (of_eq (by rfl) (by rfl) (by rfl) (by rfl) (by rfl))
      have h' : 0 < (f s.bandSets[i]).uses := h
      rw [hf, hc.2] at h'; exact absurd h' (Nat.lt_irrefl 0)
    · exact setFlags s _
  unfold State.writeWindow State.writeAccum
  repeat' split
  all_goals first
    | exact setFlags s _
    | exact of_eq (by rfl) (by rfl) (by rfl) (by rfl) (by rfl)
    | exact ws _ _ (by exact fun _ => rfl)

theorem dropFaulting (s : State) (r t) : State.TableKept s (s.dropFaulting r t) := by
  cases r with
  | slateReader => exact (setMem s _).trans (setSlate _ (by exact not_enters rfl))
  | lane n => exact (setMem s _).trans (setWork _ _ _)
  | completionWriter => exact (setMem s _).trans (of_eq (by rfl) (by rfl) (by rfl) (by rfl) (by rfl))

theorem halt (s : State) (f x) : State.TableKept s (s.halt f x) := ⟨rfl, fun q => q, fun q => q, rfl, rfl,
    not_enters rfl⟩

theorem requestPark (s : State) (n b) : State.TableKept s (s.requestPark n b) := (setBank s _ _).trans (setLane _ _ _)

theorem withdrawPark (s : State) (n) : State.TableKept s (s.withdrawPark n) :=
    (freeRequestBank s _).trans (setLane _ _ _)

theorem tick (s : State) : State.TableKept s s.tick := by
  have tl : ∀ (s : State) n, State.TableKept s (s.tickLane n) := by
    intro s n; unfold State.tickLane; dsimp only
    repeat' split
    all_goals first
      | exact refl s
      | exact (setLane s _ _).trans (post _ _ _)
      | exact setLane s _ _
  have ts : ∀ (s : State), State.TableKept s s.tickSweep := by
    intro s; unfold State.tickSweep
    repeat' split
    all_goals first
      | exact refl s
      | exact (setSlate _ (by exact fun _ h => h)).trans (requestSweep _)
      | exact setSlate _ (by exact fun _ h => h)
  exact ((tl s .lane0).trans (tl _ .lane1)).trans (ts _)

theorem anchorBlock_limit (s : State) : s.anchorBlock.timeLimit ≤ 65535 := by
  have := leField_lt (s.mem.readBytes s.engine.anchorReg.toNat 32) 14 2
  show leField _ 14 2 ≤ 65535; omega

end State.TableKept

end Sys2Proof.Machine
end

