-- ==== Sys2Proof/Laws/Ticks.lean ====
section
/-! SUPPORT. One µs: what it does to a lane, to the banks and to the sweep. -/

namespace Sys2Proof.Machine

/-- A run timer that comes to the limit with this µs (R172). -/
def State.limitReached (s : State) (n : LaneId) : Prop :=
  s.runTimerCounts n = true ∧ s.engine.anchor.timeLimit ≠ 0 ∧ (s.lane n).runTimer + 1 = s.limitMicros

/-- A lane and the banks before and after one µs (R168, R170, R172). -/
structure LaneTicked (s : State) (n : LaneId) (x : Vector ParkBank 4) (y : Vector ParkBank 4) (l : Lane) : Prop where
  still : s.runTimerCounts n = false → l = s.lane n
  counts : s.runTimerCounts n = true → ¬ s.limitReached n →
    l = { s.lane n with runTimer := min ((s.lane n).runTimer + 1) 65535000 }
  posts : s.limitReached n → ((s.lane n).request = .none ∨ ∃ b, (s.lane n).request = .park b) →
    l = { s.lane n with runTimer := s.limitMicros, request := .timeLimit, state := .yielding }
  drops : s.limitReached n → ((s.lane n).request = .timeLimit ∨ (s.lane n).request = .cancel ∨
      (s.lane n).request = .engineStop) → l = { s.lane n with runTimer := s.limitMicros }
  freed : ∀ b : Fin 4, s.limitReached n → (s.lane n).request = .park b → y[b] = .free
  kept : ∀ b : Fin 4, (s.limitReached n → (s.lane n).request ≠ .park b) → y[b] = x[b]

/-- One µs of a lane (R172). -/
theorem State.tickLane_spec (s u : State) (n : LaneId) (hT : s.engine.anchor.timeLimit ≤ 65535)
    (hl : u.lane n = s.lane n) (he : u.engine = s.engine) :
    ∃ y l, u.tickLane n = ({ u with banks := y } : State).setLane n l ∧ LaneTicked s n u.banks y l := by
  have hc : u.runTimerCounts n = s.runTimerCounts n := by unfold State.runTimerCounts; rw [hl]
  have hm : u.limitMicros = s.limitMicros := by unfold State.limitMicros; rw [he]
  have self : ∀ (w : State), w.setLane n (w.lane n) = w := by intro w; cases n <;> rfl
  unfold State.tickLane
  cases h : s.runTimerCounts n with
  | false =>
    rw [if_neg (by rw [hc, h]; simp)]
    have hn : ¬ s.limitReached n := fun q => Bool.false_ne_true (h.symm.trans q.1)
    refine ⟨u.banks, s.lane n, ?_, ?_⟩
    · rw [← hl]; exact (self u).symm
    · exact ⟨fun _ => rfl, fun q => absurd (h.symm.trans q) Bool.false_ne_true, fun q => absurd q hn,
        fun q => absurd q hn, fun _ q => absurd q hn, fun _ _ => rfl⟩
  | true =>
    have ht : ¬ s.runTimerCounts n = false := fun q => Bool.false_ne_true (q.symm.trans h)
    rw [if_pos (by rw [hc, h])]
    dsimp only [Config.maxRunTime]
    have hte : u.engine.anchor.timeLimit = s.engine.anchor.timeLimit := by rw [he]
    rw [hte, hl, hm]
    by_cases hr : s.engine.anchor.timeLimit ≠ 0 ∧ (s.lane n).runTimer + 1 = s.limitMicros
    · have hre : s.limitReached n := ⟨h, hr⟩
      have hmin : min ((s.lane n).runTimer + 1) 65535000 = s.limitMicros := by
        have := hr.2; unfold State.limitMicros at *; omega
      rw [hmin, if_pos ⟨hr.1, by omega, by omega⟩]
      have h' := h
      unfold State.runTimerCounts at h'
      simp only [Bool.and_eq_true, Bool.not_eq_true', Lane.busy, Bool.or_eq_true, beq_iff_eq] at h'
      obtain ⟨⟨⟨hx, hb⟩, hend⟩, hp⟩ := h'
      set v := u.setLane n { s.lane n with runTimer := s.limitMicros } with hv
      have vl : v.lane n = { s.lane n with runTimer := s.limitMicros } := State.setLane_lane _ _ _
      have hp' : (v.lane n).parkUnderWay = false := by rw [vl]; exact hp
      have posted : (s.lane n).request.rank < StopRequest.timeLimit.rank → v.post n .timeLimit =
          (v.freeRequestBank n).setLane n
            { s.lane n with runTimer := s.limitMicros, request := .timeLimit, state := .yielding } := by
        intro hrank
        rw [State.post_replaces v n .timeLimit (by rw [vl]; exact hb) (by rw [vl]; exact hend) hp'
          (by rw [vl]; exact hrank), vl]
      cases hq : (s.lane n).request with
      | none =>
        refine ⟨u.banks, { s.lane n with runTimer := s.limitMicros, request := .timeLimit, state := .yielding }, ?_, ?_⟩
        · rw [posted (by rw [hq]; decide), State.freeRequestBank_none v n (by rw [vl]; exact hq), hv,
            State.setLane_setLane]
        · exact ⟨fun q => absurd q ht, fun _ q => absurd hre q, fun _ _ => rfl,
            fun _ q => (by rw [hq] at q; simp at q),
            fun b _ q => (by rw [hq] at q; cases q), fun _ _ => rfl⟩
      | park b =>
        refine ⟨u.banks.set b .free,
          { s.lane n with runTimer := s.limitMicros, request := .timeLimit, state := .yielding }, ?_, ?_⟩
        · rw [posted (by rw [hq]; show (1 : Nat) < 2; decide)]
          have fb : v.freeRequestBank n = v.setBank b .free := by
            unfold State.freeRequestBank; rw [show (v.lane n).request = .park b by rw [vl]; exact hq]
          rw [fb, hv]
          cases n <;> rfl
        · refine ⟨fun q => absurd q ht, fun _ q => absurd hre q, fun _ _ => rfl,
            fun _ q => (by rw [hq] at q; simp at q), fun c _ q => ?_, fun c q => ?_⟩
          · rw [hq] at q; injection q with q; subst q; simp
          · have := q hre; rw [hq] at this
            have hne : b ≠ c := fun e => this (by rw [e])
            have : b.val ≠ c.val := fun e => hne (Fin.ext e)
            simp [this]
      | timeLimit | cancel | engineStop =>
        refine ⟨u.banks, { s.lane n with runTimer := s.limitMicros }, ?_, ?_⟩
        · show v.post n .timeLimit = v
          unfold State.post; dsimp only
          rw [if_neg, if_neg]
          · rw [vl]; show ¬ StopRequest.rank (s.lane n).request < _; rw [hq]; decide
          · rw [vl] at hp' ⊢; rw [hp']; rcases hb with hb | hb <;> simp [hb, hend]
        · exact ⟨fun q => absurd q ht, fun _ q => absurd hre q, fun _ q => (by rw [hq] at q; simp at q), fun _ _ => rfl,
            fun b _ q => (by rw [hq] at q; cases q), fun _ _ => rfl⟩
    · have hnr : ¬ s.limitReached n := fun q => hr q.2
      refine ⟨u.banks, { s.lane n with runTimer := min ((s.lane n).runTimer + 1) 65535000 }, ?_, ?_⟩
      · rw [if_neg]
        · rintro ⟨q1, q2, q3⟩
          apply hr; refine ⟨q1, ?_⟩
          unfold State.limitMicros at *; omega
      · exact ⟨fun q => absurd q ht, fun _ _ => rfl, fun q => absurd q hnr,
          fun q => absurd q hnr, fun _ q => absurd q hnr, fun _ _ => rfl⟩

/-- One µs of the sweep timer (R141). -/
theorem State.tickSweep_spec (s : State) :
        (s.sweepTimerCounts = false → s.tickSweep.slate = s.slate) ∧
        (s.sweepTimerCounts = true → s.slate.timer + 1 < s.engine.anchor.sweepPeriod →
          s.tickSweep.slate = { s.slate with timer := s.slate.timer + 1 }) ∧
        (s.sweepTimerCounts = true → s.engine.anchor.sweepPeriod ≤ s.slate.timer + 1 → s.slate.sweeping = true →
          s.tickSweep.slate = { s.slate with again := true, timer := 0 }) ∧
        (s.sweepTimerCounts = true → s.engine.anchor.sweepPeriod ≤ s.slate.timer + 1 → s.slate.sweeping = false →
          s.tickSweep.slate =
            { s.slate with
              cursor := if s.slate.cursor < s.engine.anchor.slotCount then s.slate.cursor else 0
              ending := false
              visited := 0
              timer := 0
              step := .headerRead (if s.slate.cursor < s.engine.anchor.slotCount then s.slate.cursor else 0) }) ∧
        ∃ x, s.tickSweep = s.setSlate x := by
  have hrun : s.sweepTimerCounts = true → s.engine.state = .running := by
    unfold State.sweepTimerCounts; simp only [Bool.and_eq_true, beq_iff_eq]; exact fun h => h.1
  refine ⟨fun h => ?_, fun h h1 => ?_, fun h h1 h2 => ?_, fun h h1 h2 => ?_, ?_⟩
  · unfold State.tickSweep; rw [if_neg (by rw [h]; simp)]
  · unfold State.tickSweep; rw [if_pos h, if_neg (by omega)]; rfl
  · unfold State.tickSweep; rw [if_pos h, if_pos h1]; unfold State.requestSweep
    have : (s.setSlate { s.slate with timer := 0 }).engine.state = .running := hrun h
    rw [this]; dsimp only
    rw [if_pos (show (s.setSlate { s.slate with timer := 0 }).slate.sweeping = true from h2)]; rfl
  · unfold State.tickSweep; rw [if_pos h, if_pos h1]; unfold State.requestSweep
    have : (s.setSlate { s.slate with timer := 0 }).engine.state = .running := hrun h
    rw [this]; dsimp only
    have hs : (s.setSlate { s.slate with timer := 0 }).slate.sweeping = false := h2
    rw [if_neg (by rw [hs]; exact Bool.false_ne_true)]; rfl
  · unfold State.tickSweep State.requestSweep State.beginSweep; repeat' split
    all_goals exact ⟨_, rfl⟩

end Sys2Proof.Machine
end

