-- ==== Sys2Proof/Laws/Window.lean ====
section
/-! SUPPORT. The Window Port: where a window address points, and which writes are refused. -/

namespace Sys2Proof.Machine

theorem windowTarget_accum (i : Fin 64) (k : Nat) (hk : k < 6) : windowTarget (6 * i.val + k) = .accum i k := by
  have := i.isLt
  unfold windowTarget
  rw [if_pos (by omega)]
  have h1 : (6 * i.val + k) / 6 = i.val := by omega
  have h2 : (6 * i.val + k) % 6 = k := by omega
  rw [h1, h2]; congr 1; exact Fin.ext (Nat.mod_eq_of_lt (by omega))

theorem windowTarget_set (i : Fin 8) (k : Nat) (hk : k < 80) : windowTarget
    (0x180 + 0x50 * i.val + k) = setTarget i k := by
  have := i.isLt
  unfold windowTarget
  rw [if_neg (by omega), if_pos (by omega)]
  have h1 : (0x180 + 0x50 * i.val + k - 0x180) / 80 = i.val := by omega
  have h2 : (0x180 + 0x50 * i.val + k - 0x180) % 80 = k := by omega
  rw [h1, h2]
  have : Fin.ofNat 8 i.val = i := Fin.ext (Nat.mod_eq_of_lt (by omega))
  rw [this]

theorem windowTarget_band (i b : Fin 8) (k : Nat) (hk : k < 9) : windowTarget
    (0x180 + 0x50 * i.val + 1 + 9 * b.val + k) = .band i b k := by
  have := b.isLt
  have := windowTarget_set i (1 + 9 * b.val + k) (by omega)
  rw [show 0x180 + 0x50 * i.val + 1 + 9 * b.val + k = 0x180 + 0x50 * i.val + (1 + 9 * b.val + k) by omega, this]
  unfold setTarget
  rw [if_neg (by omega), if_pos (by omega)]
  have h1 : (1 + 9 * b.val + k - 1) / 9 = b.val := by omega
  have h2 : (1 + 9 * b.val + k - 1) % 9 = k := by omega
  rw [h1, h2]; congr 1; exact Fin.ext (Nat.mod_eq_of_lt (by omega))

theorem windowTarget_pad (i : Fin 8) (k : Nat) (h : 73 ≤ k) (hk : k < 80) : windowTarget
    (0x180 + 0x50 * i.val + k) = .setPad i := by
  rw [windowTarget_set i k hk]; unfold setTarget; rw [if_neg (by omega), if_neg (by omega)]

theorem windowTarget_header (i : Fin 8) : windowTarget (0x180 + 0x50 * i.val) = .setHeader i := by
  have := windowTarget_set i 0 (by omega); simpa [setTarget] using this

theorem windowTarget_entry (p k : Nat) (hp : p < 32) (hk : k < 4) : windowTarget (0x400 + 4 * p + k) = .entry p k :=
    by
  unfold windowTarget
  rw [if_neg (by omega), if_neg (by omega), if_pos (by omega)]
  have h1 : (0x400 + 4 * p + k - 0x400) / 4 = p := by omega
  have h2 : (0x400 + 4 * p + k - 0x400) % 4 = k := by omega
  rw [h1, h2]

theorem windowTarget_unmapped (a : Nat) (h : 0x4E4 ≤ a) : windowTarget a = .unmapped := by
  unfold windowTarget
  repeat rw [if_neg (by omega)]

theorem WindowPort.advance_fields (w : WindowPort) : w.advance.buffer = w.buffer ∧
    w.advance.accumLatch = w.accumLatch ∧ w.advance.bandLatch = w.bandLatch := by
  unfold WindowPort.advance; split <;> exact ⟨rfl, rfl, rfl⟩

/-- A refused write sets WINDOW_REFUSED and advances the address (R202). -/
theorem exec_windowDataWrite_of_refused (s : State) (v : Word) (h : s.writeWindow v = s.windowRefused) : exec
    (.windowDataWrite v) s = .next
        { s with
          engine := { s.engine with flags := { s.engine.flags with windowRefused := true } }
          window := { s.window with addr := if s.window.autoIncrement then s.window.addr + 1 else s.window.addr } }
              := by
  show Host.Outcome.next _ = _
  rw [h]
  unfold State.windowRefused State.setFlags State.setWindow WindowPort.advance
  dsimp only
  rcases hw : s.window with ⟨a, b, c, d, e⟩
  cases b <;> rfl

theorem EngineState.permitsWindow_of (s : State) (h : s.engine.state = .off ∨
    s.engine.state = .paused) : s.engine.state.permitsWindow = true := by
  rcases h with h | h <;> rw [h] <;> rfl

/-- A written accumulator leaves its latch (R89). -/
theorem WindowPort.dropAccum_fields (w : WindowPort) (i : Fin 64) :
    (w.dropAccum i).advance.accumLatch.holds ≠ some i ∧ (w.dropAccum i).advance.buffer = w.buffer ∧
    (w.dropAccum i).advance.bandLatch = w.bandLatch := by
  simp only [WindowPort.advance_fields]
  unfold WindowPort.dropAccum; split
  · simp
  next h => exact ⟨h, rfl, rfl⟩

/-- A written set leaves the band latch (R204). -/
theorem WindowPort.dropSet_fields (w : WindowPort) (i : Fin 8) : (∀ b,
    (w.dropSet i).advance.bandLatch.holds ≠ some (i, b)) ∧ (w.dropSet i).advance.buffer = w.buffer ∧
    (w.dropSet i).advance.accumLatch = w.accumLatch := by
  simp only [WindowPort.advance_fields]
  unfold WindowPort.dropSet; split
  next j b h =>
    split
    · simp
    next hn =>
      refine ⟨?_, rfl, rfl⟩
      intro b' hb; rw [h] at hb; injection hb with hb; injection hb with h1 h2; exact hn h1
  next h => refine ⟨?_, rfl, rfl⟩; intro b hb; rw [h] at hb; cases hb

theorem writtenValue_none_digit (x : Int) (k j : Nat) (v : Word) (hk : k < 4) (hj : j < 8)
    (hd : 9 < v.toNat / 16 ^ j % 16) (hs : ¬(k = 3 ∧ j = 0)) : writtenValue x k v = none := by
  unfold writtenValue
  dsimp only
  split
  next h =>
    have hn := replaceWord_nibble (packSigned 28 x) k v.toNat j hk hj v.isLt
    unfold replaceWord at h ⊢
    set raw := (packSigned 28 x / 2 ^ (32 * (4 - k)) * 2 ^ (32 * (4 - k)) + v.toNat * 2 ^ (32 *
        (3 - k)) + packSigned 28 x % 2 ^ (32 * (3 - k))) with hraw
    by_cases hbig : 8 * (3 - k) + j < 29
    · have hpos : 1 ≤ 8 * (3 - k) + j := by omega
      refine unpackSigned_none_digit (8 * (3 - k) + j - 1) (by omega) ?_
      rw [show 8 * (3 - k) + j - 1 + 1 = 8 * (3 - k) + j by omega, hn]; exact hd
    · exfalso
      have : raw / 16 ^ (8 * (3 - k) + j) = 0 := by
        apply Nat.div_eq_of_lt
        refine Nat.lt_of_lt_of_le h ?_
        rw [show (16:Nat) = 2 ^ 4 by rfl, ← Nat.pow_mul]
        exact Nat.pow_le_pow_right (by decide) (by omega)
      rw [this] at hn
      omega
  · rfl

theorem writtenValue_none_pad (x : Int) (v : Word) (h : 0x00100000 ≤ v.toNat) : writtenValue x 0 v = none := by
  unfold writtenValue
  dsimp only
  rw [if_neg]
  unfold replaceWord
  simp only [Nat.sub_zero]
  have : 0x00100000 * 2 ^ 96 ≤ v.toNat * 2 ^ 96 := Nat.mul_le_mul_right _ h
  omega

theorem writtenValue_none_sign (x : Int) (v : Word) (h1 : v.toNat % 16 ≠ 0xC)
    (h2 : v.toNat % 16 ≠ 0xD) : writtenValue x 3 v = none := by
  unfold writtenValue
  dsimp only
  split
  · have := replaceWord_nibble (packSigned 28 x) 3 v.toNat 0 (by omega) (by omega) v.isLt
    simp at this
    apply unpackSigned_none_sign <;> (unfold replaceWord; simp; omega)
  · rfl

theorem Total.writeWord_none (t : Total) (k : Nat) (v : Word) (hk : k < 4)
    (h : writtenValue t.value k v = none) : t.writeWord k v = none := by
  unfold Total.writeWord; rw [if_pos hk, h]; rfl

theorem State.writeAccum_refused (s : State) (i : Fin 64) (k : Nat) (v : Word)
    (h : s.accums[i].writeWord k v = none) : s.writeAccum i k v = s.windowRefused := by
  unfold State.writeAccum; rw [h]; split <;> rfl

end Sys2Proof.Machine
end

