-- ==== Sys2Proof/Laws/Views.lean ====
section
/-! SUPPORT. What the register reads and the inspection views show, bit by bit and word by word. -/

namespace Sys2Proof.Machine

/-- The bits of CONTROL. -/
theorem controlBits : ∀ e p a b c d : Bool,
    let w : Word := BitVec.ofNat 32 (e.toNat + 2 * p.toNat + stickyWord ⟨a, b, c, d⟩)
    w.getLsbD 8 = a ∧ w.getLsbD 9 = b ∧ w.getLsbD 10 = c ∧ w.getLsbD 11 = d ∧
      ∀ i : Fin 32, 2 ≤ i.val → i.val < 8 ∨ 12 ≤ i.val → w.getLsbD i.val = false := by decide +kernel

/-- The low half of STATUS. -/
theorem statusLow : ∀ x : EngineState, ∀ a b c d : Bool,
    x.code + stickyWord ⟨a, b, c, d⟩ < 65536 ∧
      ∀ i : Fin 16, 3 ≤ i.val → i.val < 8 ∨ 12 ≤ i.val → (x.code + stickyWord ⟨a, b, c, d⟩).testBit i.val = false := by
  intro x; cases x <;> decide +kernel

/-- The unused bits of STATUS. -/
theorem statusBits (s : State) (i : Nat) (h3 : 3 ≤ i) (h : i < 8 ∨ 12 ≤ i ∧ i < 16) :
    s.statusWord.getLsbD i = false := by
  obtain ⟨h1, h2⟩ := statusLow s.engine.state s.engine.flags.anchorFault s.engine.flags.slateFault
    s.engine.flags.cancelMiss s.engine.flags.windowRefused
  have e : (⟨s.engine.flags.anchorFault, s.engine.flags.slateFault, s.engine.flags.cancelMiss,
    s.engine.flags.windowRefused⟩ : StickyBits) = s.engine.flags := rfl
  rw [e] at h1 h2
  unfold State.statusWord
  rw [BitVec.getLsbD_ofNat]
  have : (s.engine.state.code + stickyWord s.engine.flags + 65536 * s.writer.notifyPending).testBit i =
      (s.engine.state.code + stickyWord s.engine.flags).testBit i := by
    rw [show s.engine.state.code + stickyWord s.engine.flags + 65536 * s.writer.notifyPending =
      2 ^ 16 * s.writer.notifyPending + (s.engine.state.code + stickyWord s.engine.flags) by omega]
    rw [Nat.testBit_two_pow_mul_add _ (by omega)]
    rw [if_pos (by omega)]
  rw [this, h2 ⟨i, by omega⟩ h3 (h.imp id And.left)]
  simp

/-- The unused bits of WINDOW_ADDR. -/
theorem addrBits (a : BitVec 11) (b : Bool) (i : Nat) (h1 : 11 ≤ i) (h2 : i < 31) :
    (BitVec.ofNat 32 (a.toNat + 2147483648 * b.toNat)).getLsbD i = false := by
  rw [BitVec.getLsbD_ofNat]
  rw [show a.toNat + 2147483648 * b.toNat = 2 ^ 31 * b.toNat + a.toNat by omega]
  rw [Nat.testBit_two_pow_mul_add _ (by have := a.isLt; omega), if_pos h2]
  rw [Nat.testBit_lt_two_pow (Nat.lt_of_lt_of_le a.isLt (Nat.pow_le_pow_right (by omega) h1))]
  simp

/-- An offset without a register reads 0 (R196). -/
theorem readRegister_unused (s : State) (offset : BitVec 6) (h : 0x24 ≤ offset.toNat) : s.readRegister offset = 0 := by
  unfold State.readRegister State.registerWord
  repeat (rw [if_neg (by omega)])

/-- Every offset reads the register in which it lies (R196). -/
theorem readRegister_aligned (s : State) (n : Nat) (h : n < 64) :
    s.readRegister (BitVec.ofNat 6 n) = s.readRegister (BitVec.ofNat 6 (n / 4 * 4)) := by
  unfold State.readRegister
  congr 1
  rw [BitVec.toNat_ofNat, BitVec.toNat_ofNat]
  omega

/-- The nibbles of packed digits. -/
theorem packDigits_nibble (n v j : Nat) : packDigits n v / 16 ^ j % 16 = if j < n then v / 10 ^ j % 10 else 0 := by
  induction n generalizing v j with
  | zero => simp [packDigits]
  | succ n ih =>
    unfold packDigits
    cases j with
    | zero =>
      simp only [Nat.pow_zero, Nat.div_one, Nat.zero_lt_succ, if_true]
      omega
    | succ j =>
      have h1 : (v % 10 + 16 * packDigits n (v / 10)) / 16 = packDigits n (v / 10) := by omega
      rw [Nat.pow_succ', ← Nat.div_div_eq_div_mul, h1, ih, Nat.pow_succ', ← Nat.div_div_eq_div_mul]
      simp only [Nat.add_lt_add_iff_right]

/-- The nibbles of one word of a field. -/
theorem word_nibble (raw p j : Nat) (hj : j < 8) : (raw / 2 ^ (32 * p) % 2 ^ 32) / 16 ^ j % 16 = raw / 16 ^ (8 * p + j) % 16 := by
  have e1 : (16 : Nat) ^ j = 2 ^ (4 * j) := by rw [show (16:Nat) = 2 ^ 4 by norm_num, ← Nat.pow_mul]
  have e2 : (16 : Nat) ^ (8 * p + j) = 2 ^ (32 * p) * 2 ^ (4 * j) := by
    rw [show (16:Nat) = 2 ^ 4 by norm_num, ← Nat.pow_mul, ← Nat.pow_add]; congr 1; omega
  rw [e1, e2, ← Nat.div_div_eq_div_mul]
  set x := raw / 2 ^ (32 * p)
  rw [show (2:Nat) ^ 32 = 2 ^ (4 * j) * 2 ^ (32 - 4 * j) by rw [← Nat.pow_add]; congr 1; omega]
  rw [Nat.mod_mul_right_div_self]
  have : (16 : Nat) ∣ 2 ^ (32 - 4 * j) := ⟨2 ^ (28 - 4 * j), by
    rw [show (16:Nat) = 2 ^ 4 by norm_num, ← Nat.pow_add]; congr 1; omega⟩
  exact Nat.mod_mod_of_dvd _ this

/-- The nibbles of a packed signed value. -/
theorem packSigned_nibble (n : Nat) (v : Int) (p : Nat) : packSigned n v / 16 ^ p % 16 =
    if p = 0 then (if v < 0 then 0xD else 0xC) else if p ≤ n then v.natAbs / 10 ^ (p - 1) % 10 else 0 := by
  have key : ∀ c : Nat, c < 16 → (16 * packDigits n v.natAbs + c) / 16 ^ p % 16 =
      if p = 0 then c else if p ≤ n then v.natAbs / 10 ^ (p - 1) % 10 else 0 := by
    intro c hc
    cases p with
    | zero => simp only [Nat.pow_zero, Nat.div_one, if_true]; omega
    | succ p =>
      rw [if_neg (by omega), Nat.pow_succ', ← Nat.div_div_eq_div_mul]
      have : (16 * packDigits n v.natAbs + c) / 16 = packDigits n v.natAbs := by omega
      rw [this, packDigits_nibble]
      simp only [Nat.add_sub_cancel, Nat.succ_le_iff]
  unfold packSigned minusCode plusCode
  split
  · exact key _ (by omega)
  · exact key _ (by omega)

/-- The nibbles of a word of a decimal view (R203). -/
theorem decimalWord_nibble (raw k j : Nat) (hj : j < 8) : (decimalWord raw k).toNat / 16 ^ j % 16 = raw / 16 ^ (8 * (3 - k) + j) % 16 := by
  unfold decimalWord
  rw [BitVec.toNat_ofNat]; exact word_nibble raw (3 - k) j hj

/-- The window addresses of a lane view (R205). -/
theorem target_lane (n : LaneId) (k : Nat) (hk : k < 16) : windowTarget (0x480 + 16 * laneNumber n + k) = .lane n k :=
    by
  cases n
  · show windowTarget (0x480 + 16 * 0 + k) = _
    unfold windowTarget
    repeat rw [if_neg (by omega)]
    rw [if_pos (by omega)]; exact congrArg _ (by omega)
  · show windowTarget (0x480 + 16 * 1 + k) = _
    unfold windowTarget
    repeat rw [if_neg (by omega)]
    rw [if_pos (by omega)]; exact congrArg _ (by omega)

/-- The window addresses of a bank view (R205). -/
theorem target_bank (b : Fin 4) (k : Nat) (hk : k < 16) : windowTarget (0x4A0 + 16 * b.val + k) = .bank b k := by
  have := b.isLt
  unfold windowTarget
  repeat rw [if_neg (by omega)]
  rw [if_pos (by omega)]
  have h1 : (0x4A0 + 16 * b.val + k - 0x4A0) / 16 = b.val := by omega
  have h2 : (0x4A0 + 16 * b.val + k - 0x4A0) % 16 = k := by omega
  rw [h1, h2]; exact congrArg (fun x => WindowTarget.bank x k) (Fin.ext (Nat.mod_eq_of_lt (by omega)))

/-- The window addresses of the fault record (R205). -/
theorem target_fault (k : Nat) (hk : k < 4) : windowTarget (0x4E0 + k) = .fault k := by
  unfold windowTarget
  repeat rw [if_neg (by omega)]
  rw [if_pos (by omega)]
  exact congrArg _ (by omega)

/-- The counts in a view. -/
theorem recordShown (r : OrderRecord) (e : Option Entry) (k : Nat) (hk : 4 ≤ k) (w : Word) (h : w = BitVec.ofNat 32 (match k with
    | 14 => seqWord e
    | _ => recordWord r k)) : r.Shown e k w := by
  subst h
  constructor
  all_goals (intro q; subst q)
  all_goals first
    | rfl
    | (rintro x rfl; simp [seqWord])
    | (rintro rfl; rfl)

/-- The counts in a lane view. -/
theorem laneWord_counts (s : State) (n : LaneId) (k : Nat) (hk : 4 ≤ k) :
    s.laneWord n k = BitVec.ofNat 32 (match k with | 14 => seqWord (s.laneEntry n) | _ => recordWord (s.lane n).record k) := by
  unfold State.laneWord; dsimp only
  by_cases h : k = 14
  · subst h; rfl
  · split <;> first | omega | (split <;> first | omega | rfl)

/-- The counts in a bank view. -/
theorem holdingWord_counts (s : State) (c : ParkedContext) (k : Nat) (hk : 4 ≤ k) :
    s.holdingWord c k = BitVec.ofNat 32 (match k with | 14 => seqWord (s.entry? c.slot) | _ => recordWord c.record k) := by
  unfold State.holdingWord
  by_cases h : k = 14
  · subst h; rfl
  · split <;> first | omega | (split <;> first | omega | rfl)

/-- A lane view, word by word (R205). -/
theorem laneShown (s : State) (n : LaneId) (k : Nat) : s.LaneShown n k (s.laneWord n k) := by
  refine ⟨?_, ?_, ?_, ?_, ?_, ?_, ?_, ?_⟩
  · rintro rfl
    refine ⟨(s.lane n).reservedBank, (s.lane n).record, ?_, ?_, ?_, ?_, ?_, ?_⟩
    · refine congrArg (BitVec.ofNat 32) ?_
      show (s.lane n).state.code + 4 * (s.lane n).request.rank + 32 * (s.lane n).reservedBank +
        256 * (s.lane n).endMark.toNat + (512 * (s.lane n).record.nonzero.toNat + 1024 * (s.lane n).record.saturated.toNat) = _
      omega
    · intro b h; unfold Lane.reservedBank; rw [h]
    · intro h b h2
      unfold Lane.reservedBank; unfold Lane.parkUnderWay at h; rw [h2]
      cases hw : (s.lane n).work <;> first | rfl | (rw [hw] at h; cases h)
    · intro h h2
      unfold Lane.reservedBank; unfold Lane.parkUnderWay at h
      cases hr : (s.lane n).request <;> first | exact absurd hr (h2 _) | (cases hw : (s.lane n).work <;> first | rfl | (rw [hw] at h; cases h))
    · intro c h; unfold Lane.record; rw [h]
    · intro h; unfold Lane.record; rw [h]
  · rintro rfl slot e h1 h2
    unfold State.laneWord; dsimp only; rw [h1]; dsimp only; rw [h2]; rfl
  · rintro rfl h
    unfold State.laneWord; dsimp only; rw [h]; rfl
  · rintro rfl c h
    show BitVec.ofNat 32 (s.lane n).position = _
    unfold Lane.position; rw [h]
  · rintro rfl h
    show BitVec.ofNat 32 (s.lane n).position = _
    unfold Lane.position; rw [h]
  · rintro rfl; rfl
  · intro hk c h
    refine recordShown _ _ k hk _ ?_
    rw [laneWord_counts s n k hk]; unfold Lane.record; rw [h]
  · intro hk h
    refine recordShown _ _ k hk _ ?_
    rw [laneWord_counts s n k hk]; unfold Lane.record; rw [h]

/-- A bank view, word by word (R205). -/
theorem bankShown (s : State) (b : Fin 4) (k : Nat) : s.BankShown b k (s.bankWord b k) := by
  unfold State.bankWord
  refine ⟨?_, ?_, ?_, ?_, ?_, ?_, ?_, ?_⟩
  · intro h; rw [h]
  · intro n h hk; rw [h]; dsimp only; rw [if_pos hk]
  · intro n h hk; rw [h]; dsimp only; rw [if_neg hk]
  · rintro c h rfl; rw [h]; refine ⟨Config.holdingLaneBit s.free, ?_⟩
    refine congrArg (BitVec.ofNat 32) ?_
    show 2 + 4 * (Config.holdingLaneBit s.free).toNat + (512 * c.record.nonzero.toNat + 1024 * c.record.saturated.toNat) = _
    omega
  · rintro c e h rfl he; rw [h]
    show BitVec.ofNat 32 (orderWord c.slot (s.entry? c.slot)) = _
    unfold orderWord; rw [he]
  · rintro c h rfl; rw [h]; rfl
  · rintro c h rfl; rw [h]; rfl
  · intro c h hk; rw [h]
    exact recordShown _ _ k hk _ (holdingWord_counts s c k hk)

end Sys2Proof.Machine
end

