-- ==== Sys2Proof/Laws/Words.lean ====
section
/-! SUPPORT. The words of a decimal value in the window: which value words are taken, and what an accumulator and a band
show after a write to one of their words. -/

namespace Sys2Proof.Machine

/-- The words of a decimal value after one of them is replaced (R203). -/
theorem decimalWord_replaceWord (raw k j : Nat) (w : Word) (hk : k < 4) (hj : j < 4) :
    decimalWord (replaceWord raw k w) j = if j = k then w else decimalWord raw j := by
  have hw := w.isLt
  apply BitVec.eq_of_toNat_eq
  unfold decimalWord replaceWord
  rw [BitVec.toNat_ofNat, apply_ite BitVec.toNat, BitVec.toNat_ofNat]
  interval_cases k <;> interval_cases j <;> norm_num <;> omega

/-- A nibble of a decimal value is a nibble of the word that shows it (R203). -/
theorem nibble_eq_decimalWord (raw p : Nat) (hp : p < 32) :
    raw / 16 ^ p % 16 = (decimalWord raw (3 - p / 8)).toNat / 16 ^ (p % 8) % 16 := by
  rw [decimalWord_nibble _ _ _ (Nat.mod_lt _ (by decide))]
  congr 3; omega

/-- A value word of good nibbles makes a field of good nibbles (R89). -/
theorem replaceWord_good (x : Int) (k : Nat) (v : Word) (hk : k < 4)
    (hd : ∀ j, j < 8 → ¬(k = 3 ∧ j = 0) → v.toNat / 16 ^ j % 16 ≤ 9) (hp : k = 0 → v.toNat < 0x00100000)
    (hs : k = 3 → v.toNat % 16 = 0xC ∨ v.toNat % 16 = 0xD) :
    let raw := replaceWord (packSigned 28 x) k v
    raw < 2 ^ 116 ∧ (∀ j, j < 28 → raw / 16 ^ (j + 1) % 16 ≤ 9) ∧ (raw % 16 = 0xC ∨ raw % 16 = 0xD) := by
  intro raw
  have hold : packSigned 28 x < 2 ^ 116 := packSigned_lt 28 x
  have hn : ∀ p, p < 32 → raw / 16 ^ p % 16 =
      if 3 - p / 8 = k then v.toNat / 16 ^ (p % 8) % 16 else packSigned 28 x / 16 ^ p % 16 := by
    intro p hp
    rw [nibble_eq_decimalWord raw p hp, decimalWord_replaceWord _ _ _ _ hk (by omega)]
    split
    · rfl
    · exact (nibble_eq_decimalWord _ p hp).symm
  refine ⟨?_, fun j hj => ?_, ?_⟩
  · have hv := v.isLt
    show replaceWord (packSigned 28 x) k v < _
    unfold replaceWord
    generalize packSigned 28 x = old at *
    clear hn
    interval_cases k
    · have := hp rfl; norm_num at *; omega
    · norm_num at *; omega
    · norm_num at *; omega
    · norm_num at *; omega
  · rw [hn _ (by omega)]
    split
    next h => exact hd _ (Nat.mod_lt _ (by decide)) (by omega)
    · rw [packSigned_nibble, if_neg (by omega)]; split <;> omega
  · have h0 := hn 0 (by omega)
    simp only [Nat.pow_zero, Nat.div_one, Nat.zero_div, Nat.sub_zero, Nat.zero_mod] at h0
    rw [h0]
    split
    next h => exact hs h.symm
    · unfold packSigned plusCode minusCode; split <;> omega

/-- The upper words of a value below 16 are 0. -/
theorem decimalWord_small (raw j : Nat) (h : raw < 16) (hj : j < 3) : decimalWord raw j = 0 := by
  unfold decimalWord
  rw [Nat.div_eq_of_lt]
  · rfl
  · refine Nat.lt_of_lt_of_le h ?_
    calc 16 = 2 ^ 4 := rfl
      _ ≤ _ := Nat.pow_le_pow_right (by decide) (by omega)

/-- A value word of good nibbles is taken, and the accumulator then shows it in its place and the old words elsewhere,
zero with a plus (R7, R89, R203). -/
theorem writtenValue_good (t : Total) (k : Nat) (v : Word) (hk : k < 4)
    (hd : ∀ j, j < 8 → ¬(k = 3 ∧ j = 0) → v.toNat / 16 ^ j % 16 ≤ 9) (hp : k = 0 → v.toNat < 0x00100000)
    (hs : k = 3 → v.toNat % 16 = 0xC ∨ v.toNat % 16 = 0xD) :
    let word (j : Nat) : Word := if j = k then v else totalWord t j
    ∃ x, writtenValue t.value k v = some x ∧ -10 ^ 28 < x ∧ x < 10 ^ 28 ∧
      (∀ j, j < 3 → totalWord { t with value := x } j = word j) ∧
      (x ≠ 0 → totalWord { t with value := x } 3 = word 3) ∧
      (x = 0 → totalWord { t with value := x } 3 = 0xC ∧ (word 3).toNat / 16 = 0) := by
  intro word
  obtain ⟨hlt, hdig, hsign⟩ := replaceWord_good t.value k v hk hd hp hs
  have hword : ∀ j, j < 4 → decimalWord (replaceWord (packSigned 28 t.value) k v) j = word j := by
    intro j hj
    rw [decimalWord_replaceWord _ _ _ _ hk hj]
    show _ = if j = k then v else totalWord t j
    unfold totalWord; rw [if_pos hj]
  have hw : writtenValue t.value k v = unpackSigned 28 (replaceWord (packSigned 28 t.value) k v) := by
    unfold writtenValue; dsimp only; rw [if_pos hlt]
  generalize replaceWord (packSigned 28 t.value) k v = raw at *
  obtain ⟨x, hx, hl, hu⟩ := unpackSigned_good hdig hsign
  obtain ⟨h1, h2⟩ := packSigned_of_unpackSigned hx hlt
  have tw : ∀ j, j < 4 → totalWord { t with value := x } j = decimalWord (packSigned 28 x) j := by
    intro j hj; unfold totalWord; rw [if_pos hj]
  refine ⟨x, hw.trans hx, hl, hu, fun j hj => ?_, fun h0 => ?_, fun h0 => ?_⟩
  · rw [← hword j (by omega), tw j (by omega)]
    by_cases h0 : x = 0
    · have := h2 h0
      rw [decimalWord_small raw j (by omega) hj, h0, decimalWord_small _ j (by decide) hj]
    · rw [h1 h0]
  · rw [← hword 3 (by omega), tw 3 (by omega), h1 h0]
  · have := h2 h0
    rw [← hword 3 (by omega), tw 3 (by omega), h0]
    refine ⟨by decide, ?_⟩
    unfold decimalWord
    rw [BitVec.toNat_ofNat, show 2 ^ (32 * (3 - 3)) = 1 by rfl, Nat.div_one]
    have : raw < 16 := by omega
    omega

/-- A band after a write to one of its nine words shows that word there, pad bits excepted, and the old words elsewhere
(R64, R203). -/
theorem bandWord_writeWord (b : Band) (k : Nat) (v : Word) (hk : k < 9) (j : Nat) (hj : j < 9) :
    bandWord (b.writeWord k v) j =
      if j = k then (if k = 0 ∨ k = 4 then v &&& 0xF else if k = 8 then v &&& 0x1FF else v) else bandWord b j := by
  have a4 : (v &&& 0xF).toNat = v.toNat % 16 := by
    rw [BitVec.toNat_and]; exact Nat.and_two_pow_sub_one_eq_mod v.toNat 4
  have a9 : (v &&& 0x1FF).toNat = v.toNat % 512 := by
    rw [BitVec.toNat_and]; exact Nat.and_two_pow_sub_one_eq_mod v.toNat 9
  have part : ∀ (x : BitVec 100) (k j : Nat), k < 4 → j < 4 →
      decimalWord (BitVec.ofNat 100 (replaceWord x.toNat k v)).toNat j =
        if j = k then (if k = 0 then v &&& 0xF else v) else decimalWord x.toNat j := by
    intro x k j hk hj
    have hx := x.isLt
    have hv := v.isLt
    have key := congrArg BitVec.toNat (decimalWord_replaceWord x.toNat k j v hk hj)
    apply BitVec.eq_of_toNat_eq
    unfold decimalWord at key ⊢
    rw [BitVec.toNat_ofNat, apply_ite BitVec.toNat, BitVec.toNat_ofNat] at key
    rw [BitVec.toNat_ofNat, apply_ite BitVec.toNat, apply_ite BitVec.toNat, BitVec.toNat_ofNat, BitVec.toNat_ofNat, a4]
    generalize replaceWord x.toNat k v = raw at *
    interval_cases j <;> interval_cases k <;> norm_num at key ⊢ <;> omega
  have low : ∀ (y : Band) i, i < 4 → bandWord y i = decimalWord y.low.toNat i := by
    intro y i hi; unfold bandWord; rw [if_pos hi]
  have high : ∀ (y : Band) i, 4 ≤ i → i < 8 → bandWord y i = decimalWord y.high.toNat (i - 4) := by
    intro y i h4 h8; unfold bandWord; rw [if_neg (by omega), if_pos h8]
  have last : ∀ y : Band, bandWord y 8 = BitVec.ofNat 32 (y.accum.toNat + 256 * y.alarm.toNat) := fun _ => rfl
  by_cases h1 : k < 4
  · have e : b.writeWord k v = { b with low := BitVec.ofNat 100 (replaceWord b.low.toNat k v) } := by
      unfold Band.writeWord; rw [if_pos h1]
    rw [e]
    by_cases h2 : j < 4
    · rw [low _ _ h2, low _ _ h2, part _ _ _ h1 h2]
      by_cases h0 : j = k
      · rw [if_pos h0, if_pos h0]
        by_cases h3 : k = 0
        · rw [if_pos h3, if_pos (.inl h3)]
        · rw [if_neg h3, if_neg (by omega), if_neg (by omega)]
      · rw [if_neg h0, if_neg h0]
    · rw [if_neg (show ¬ j = k by omega)]
      by_cases h4 : j < 8
      · rw [high _ _ (by omega) h4, high _ _ (by omega) h4]
      · obtain rfl : j = 8 := by omega
        rfl
  · by_cases h3 : k < 8
    · have e : b.writeWord k v = { b with high := BitVec.ofNat 100 (replaceWord b.high.toNat (k - 4) v) } := by
        unfold Band.writeWord; rw [if_neg h1, if_pos h3]
      rw [e]
      by_cases h2 : j < 4
      · rw [if_neg (show ¬ j = k by omega), low _ _ h2, low _ _ h2]
      · by_cases h4 : j < 8
        · rw [high _ _ (by omega) h4, high _ _ (by omega) h4, part _ _ _ (by omega) (by omega)]
          by_cases h5 : j = k
          · subst h5; rw [if_pos rfl, if_pos rfl]
            by_cases h6 : j = 4
            · subst h6; rfl
            · rw [if_neg (by omega), if_neg (by omega), if_neg (by omega)]
          · rw [if_neg (by omega), if_neg h5]
        · obtain rfl : j = 8 := by omega
          rw [if_neg (by omega)]; rfl
    · obtain rfl : k = 8 := by omega
      have e : b.writeWord 8 v = { b with accum := BitVec.ofNat 8 v.toNat, alarm := v.getLsbD 8 } := rfl
      rw [e]
      by_cases h2 : j < 4
      · rw [if_neg (show ¬ j = 8 by omega), low _ _ h2, low _ _ h2]
      · by_cases h4 : j < 8
        · rw [if_neg (show ¬ j = 8 by omega), high _ _ (by omega) h4, high _ _ (by omega) h4]
        · obtain rfl : j = 8 := by omega
          rw [last, if_pos rfl, if_neg (by omega), if_pos rfl]
          apply BitVec.eq_of_toNat_eq
          rw [a9, BitVec.toNat_ofNat, BitVec.toNat_ofNat]
          have : (v.getLsbD 8).toNat = v.toNat / 256 % 2 := by
            rw [← BitVec.testBit_toNat, Nat.testBit_eq_decide_div_mod_eq]
            rw [show (2 : Nat) ^ 8 = 256 by rfl]
            rcases Nat.mod_two_eq_zero_or_one (v.toNat / 256) with h | h <;> rw [h] <;> rfl
          have hv := v.isLt
          show (v.toNat % 2 ^ 8 + 256 * (v.getLsbD 8).toNat) % 2 ^ 32 = _
          rw [this]
          omega

/-- The accumulator latch stands where it held another accumulator or none (R88). -/
theorem WindowPort.dropAccum_other (w : WindowPort) (i : Fin 64) (h : w.accumLatch.holds ≠ some i) :
    (w.dropAccum i).advance.accumLatch = w.accumLatch := by
  rw [(WindowPort.advance_fields _).2.1]; unfold WindowPort.dropAccum; rw [if_neg h]

/-- The band latch stands where it held a band of another set or none (R202). -/
theorem WindowPort.dropSet_other (w : WindowPort) (i : Fin 8) (h : ∀ b, w.bandLatch.holds ≠ some (i, b)) :
    (w.dropSet i).advance.bandLatch = w.bandLatch := by
  rw [(WindowPort.advance_fields _).2.2]; unfold WindowPort.dropSet; split
  next j b hb => rw [if_neg]; rintro rfl; exact h b hb
  · rfl

end Sys2Proof.Machine
end

