-- ==== Sys2Proof/Tests/Slice0.lean ====
section
/-! SUPPORT. Small tests: which commands are well formed, register writes and worked values of the spec, and for each
statement that has hypotheses a state that meets them, clause by clause and at the ends of the ranges. -/

namespace Sys2Proof.Tests

open Sys2Proof Sys2Proof.Machine

set_option Elab.async false

/-! ## Well-formed commands -/

theorem test_full_write_of_a_register_is_refused :
    (Instr.registerWriteOther 0x04 0xF 0).wellFormed = false ∧
      (Instr.registerWriteOther 0x20 0xF 0).wellFormed = false := by decide

theorem test_other_register_writes_are_accepted :
    (Instr.registerWriteOther 0x04 0x7 0).wellFormed = true ∧ (Instr.registerWriteOther 0x00 0xF 0).wellFormed = true ∧
      (Instr.registerWriteOther 0x24 0xF 0).wellFormed = true := by decide

theorem test_image_read_of_no_byte_is_refused : (Instr.imageReadDone .lane0 0 []).wellFormed = false := by decide

theorem test_image_read_past_the_image_is_refused : (Instr.imageReadDone .lane0 265 []).wellFormed = false := by decide

theorem test_image_reads_are_accepted :
    (Instr.imageReadDone .lane0 1 []).wellFormed = true ∧ (Instr.imageReadDone .lane0 264 []).wellFormed = true := by
  decide

/-! ## Register writes (R196) -/

theorem test_control_writes_decode :
    decodeRegisterWrite 0x04 0xF 0x00000501 = .enable false ⟨true, false, true, false⟩ ∧
      decodeRegisterWrite 0x04 0xF 0x00000003 = .pause noStickyBits ∧
      decodeRegisterWrite 0x04 0xF 0x00000000 = .engineStop false noStickyBits ∧
      decodeRegisterWrite 0x04 0xF 0x00000F07 = .softReset ⟨true, true, true, true⟩ := by decide

theorem test_other_writes_decode :
    decodeRegisterWrite 0x08 0xF 0x00000400 = .statusClear ⟨false, false, true, false⟩ ∧
      decodeRegisterWrite 0x0C 0xF 0x1000 = .anchorWrite 0x1000 ∧ decodeRegisterWrite 0x18 0xF 5 = .ack 5 ∧
      decodeRegisterWrite 0x0C 0x3 0x1000 = .registerWriteOther 0x0C 0x3 0x1000 ∧
      decodeRegisterWrite 0x00 0xF 1 = .registerWriteOther 0x00 0xF 1 := by decide

theorem test_no_table_word_decodes : decodeTableWord 32 0 = none := rfl

/-! ## Values that the spec works out -/

theorem test_scale_of_minus_25 : scaleValue (-1) false (-25) = (-2, false) ∧
    scaleValue (-1) true (-25) = (-3, false) :=
  by decide

theorem test_signed_saturation_at_four_digits :
    (OutputClass.signed 4).saturate 9999 = (9999, false) ∧ (OutputClass.signed 4).saturate 10000 = (9999, true) ∧
      (OutputClass.signed 4).saturate (-12345) = (-9999, true) := by decide

theorem test_held_total_less_five :
    ((Total.mk (10 ^ 28 - 1) 1 true).add (-5) 1).1 = ⟨10 ^ 28 - 1 - 5, 2, true⟩ := by decide

theorem test_decimal_cell_bytes :
    (CellFormat.dec 3).encode 123 = [0x01, 0x23] ∧ (CellFormat.dec 3).decode 0 [0x11, 0x23] = none ∧
      (CellFormat.dec 4).decode 0 [0x12, 0x3A] = none := by decide

theorem test_signed_cell_bytes :
    (CellFormat.sdec 3).decode 0 [0x12, 0x3D] = some (-123) ∧ (CellFormat.sdec 3).decode 0 [0x00, 0x0D] = some 0 ∧
      (CellFormat.sdec 3).decode 0 [0x12, 0x3E] = none ∧ (CellFormat.sdec 3).decode 0 [0xA2, 0x3C] = none ∧
      (CellFormat.sdec 2).decode 0 [0x01, 0x2C] = some 12 ∧ (CellFormat.sdec 2).decode 0 [0x10, 0x2C] = none := by decide

/-! ## States for the tests -/

/-- A running part in an engine state, with 64 slots from 1000h and the completion word at 20h. -/
def inState (x : EngineState) : State :=
  { State.reset with engine := { State.reset.engine with state := x, anchor := ⟨0x1000, 64, 0x20, 0, 0⟩ } }

/-- A state with other timing in its anchor copy. -/
def timed (s : State) (period limit : Nat) : State :=
  { s with engine := { s.engine with anchor := { s.engine.anchor with sweepPeriod := period, timeLimit := limit } } }

/-- 192 bytes, zero but for those listed. -/
def bodyWith (l : List (Nat × Byte)) : List Byte :=
  (List.range 192).map (fun i => ((l.find? (fun p => p.1 == i)).map (fun p => p.2)).getD 0)

/-- A TALLY of two DEC-2 cells at 100h, tally width 4, band set 0, no residue. -/
def tallyBody : List Byte :=
  bodyWith [(1, 1), (4, 1), (6, 2), (8, 2), (12, 1), (13, 2), (90, 1), (116, 0x0C), (119, 4), (137, 0xFF)]

/-- The same cells with a mark plane at 200h. -/
def markedBody : List Byte :=
  bodyWith [(1, 1), (4, 1), (6, 2), (8, 2), (12, 1), (13, 2), (73, 2), (76, 1), (90, 1), (116, 0x0C), (119, 4),
    (137, 0xFF)]

/-- A COMPARE of a grid with a grid, its window excluded whole where `excl` is 1. -/
def compareBody (excl : Byte) : List Byte :=
  bodyWith [(1, 1), (4, 1), (6, 2), (8, 2), (12, 1), (13, 2), (25, 2), (28, 1), (30, 2), (32, 2), (36, 1), (37, 2),
    (90, 1), (92, excl), (98, 1), (100, 1), (157, 3), (160, 1)]

/-- A housekeeping body: two bytes and an address of 400h. -/
def rangeBody (a b flags : Byte) : List Byte := bodyWith [(0, a), (1, b), (5, 4), (8, flags)]

/-- An order of a kind in slot 0, RUNNING on lane 0, with a list of two records. -/
def orderOf (kind : OrderKind) (body : List Byte) : Entry where
  slot := 0
  seq := 0
  header := ⟨kind, false, false, false, 0x1234, 0x800, 2⟩
  body := body
  phase := .running
  lane := .lane0
  bank := 0
  pendingCancel := false
  parkCount := 0
  claimed := false
  handBack := false
  ended := false

/-- A lane that runs slot 0 and waits for `work`. -/
def laneOn (work : LaneWork) : Lane := { Lane.reset with state := .active, order := some 0, work := work }

/-- The walk context of a body, at its first cell. -/
def contextOf (kind : OrderKind) (body : List Byte) : WalkContext := freshContext kind body

/-- A lane that walks slot 0 at its first cell. -/
def walkingOn (kind : OrderKind) (body : List Byte) (work : LaneWork) : Lane :=
  { laneOn work with context := some (contextOf kind body), cell := some (CellWork.begin 0 0) }

/-- A RUNNING engine with one order on lane 0. -/
def running (e : Entry) (l : Lane) : State := { inState .running with table := [e], lane0 := l }

/-- A TALLY on lane 0 at its first cell, waiting for `work`. -/
def tallying (work : LaneWork) : State := running (orderOf .tally tallyBody) (walkingOn .tally tallyBody work)

/-- A parked context of slot 0. -/
def parkedContext : ParkedContext := ⟨0, 1, 0, OrderRecord.start, Staging.start, 1000⟩

/-- Slot 0 PARKED in bank 0. -/
def parkedOrder : Entry := { orderOf .tally tallyBody with phase := .parked }

/-- Slot 0 PARKED, in an engine state. -/
def parkedIn (x : EngineState) : State :=
  { inState x with table := [parkedOrder], parkOrder := [0], banks := (inState x).banks.set 0 (.holding parkedContext) }

/-- Slot `k` WAITING. -/
def waitingOrder (k : Nat) : Entry := { orderOf .tally tallyBody with slot := k, phase := .waiting }

/-- A hand-over of slot 0. -/
def handOverOf (atTake : Bool) : HandOver :=
  { walkHandOver (orderOf .tally tallyBody) OrderRecord.start .done .none false none with atTake := atTake }

/-- Host writes of bytes from an address up. -/
def bytesAt (a : Nat) (bytes : List Byte) : HostWrites :=
  (List.range bytes.length).map (fun i => (BitVec.ofNat 32 (a + i), byteAt bytes i))

/-- An anchor block in memory at 0: base, slots, word. -/
def anchorHost (base slots word : Nat) : HostWrites :=
  bytesAt 0 (leBytes 4 base ++ leBytes 2 slots ++ leBytes 2 0 ++ leBytes 4 word)

/-- A start with its anchor read outstanding. -/
def starting (x : EngineAccess) (abandoned : Bool) : State :=
  { State.reset with engine := { State.reset.engine with state := .starting, access := x, abandoned := abandoned } }

theorem test_every_engine_state_is_met : ∀ x, (inState x).engine.state = x := fun _ => rfl

/-! ## Steps that the spec works out -/

theorem test_ack_of_five_at_three :
    let s := (inState .running).setWriter { CompletionWriter.reset with notifyPending := 3 }
    exec (.ack 5) s = .next (s.setWriter CompletionWriter.reset) := rfl

theorem test_window_address_wraps :
    let s : State := { inState .off with window := { WindowPort.reset with addr := 0x7FF, autoIncrement := true } }
    exec .windowDataRead s =
      .next { s with window := { WindowPort.reset with addr := 0, autoIncrement := true }, free := 1 } := rfl

/-! ## Each statement's hypotheses are met -/

theorem test_meets_FrontCommandRuns :
    ({ State.reset with pending := [.nudge 0, .take] } : State).pending = .nudge 0 :: [.take] := rfl

theorem test_step_runs_the_front_command :
    step { inState .off with pending := [.anchorWrite 0x40, .take] } =
      exec (.anchorWrite 0x40) { inState .off with pending := [.take] } := rfl

theorem test_meets_EmptyQueue_no_timer :
    State.reset.pending = [] ∧ (∀ n, State.reset.runTimerCounts n = false) ∧ State.reset.sweepTimerCounts = false :=
  ⟨rfl, fun n => by cases n <;> rfl, rfl⟩

theorem test_meets_EmptyQueue_sweep_timer :
    let s (timer : Nat) : State := { timed (inState .running) 5 0 with slate := { SlateReader.reset with timer := timer } }
    (∀ n, (s 3).runTimerCounts n = false) ∧ (s 3).sweepTimerCounts = true ∧
      (s 3).slate.timer + 1 < (s 3).engine.anchor.sweepPeriod ∧ (∀ n, (s 4).runTimerCounts n = false) ∧
      (s 4).sweepTimerCounts = true ∧ (s 4).engine.anchor.sweepPeriod ≤ (s 4).slate.timer + 1 :=
  ⟨fun n => by cases n <;> decide, by decide, by decide, fun n => by cases n <;> decide, by decide, by decide⟩

theorem test_meets_EmptyQueue_run_timer :
    let s (limit time : Nat) : State :=
      timed (running (orderOf .tally tallyBody) { walkingOn .tally tallyBody .boundary with runTimer := time }) 0 limit
    (s 0 7).runTimerCounts .lane0 = true ∧ (s 0 7).runTimerCounts .lane1 = false ∧ (s 0 7).sweepTimerCounts = false ∧
      (s 1 998).lane0.runTimer + 1 < (s 1 998).limitMicros ∧ (s 1 999).runTimerCounts .lane0 = true ∧
      (s 1 999).lane0.runTimer + 1 = (s 1 999).limitMicros ∧ (s 1 999).lane0.request = .none ∧
      (s 65535 65534999).lane0.runTimer + 1 = (s 65535 65534999).limitMicros ∧
      (s 65535 65534999).engine.anchor.timeLimit ≤ 65535 := by decide +kernel

theorem test_meets_EmptyQueue_all_timers_at_once :
    let l (r : StopRequest) : Lane :=
      { walkingOn .tally tallyBody .boundary with request := r, state := .yielding, runTimer := 999 }
    let s (step : SlateStep) : State :=
      { timed (running (orderOf .tally tallyBody) (l (.park 2))) 5 1 with
        lane1 := { l .cancel with order := some 1 }
        slate := { SlateReader.reset with timer := 4, step := step } }
    (∀ n ∈ [LaneId.lane0, .lane1], (s .idle).runTimerCounts n = true) ∧ (s .idle).lane0.runTimer + 1 = (s .idle).limitMicros ∧
      (s .idle).lane1.runTimer + 1 = (s .idle).limitMicros ∧ (s .idle).engine.anchor.timeLimit ≤ 65535 ∧
      (s .idle).engine.anchor.timeLimit ≠ 0 ∧ (s .idle).sweepTimerCounts = true ∧
      (s .idle).engine.anchor.sweepPeriod ≤ (s .idle).slate.timer + 1 ∧ (s .idle).slate.sweeping = false ∧
      (s (.headerRead 0)).slate.sweeping = true ∧ (s .idle).lane0.request = .park 2 ∧
      (s .idle).lane1.request = .cancel := by decide +kernel

theorem test_meets_SoftReset_outside_issued_writes :
    let s := tallying (.destinationWrite 0x40 [1, 2] true)
    s.memoryCanonical ∧ ¬ issuedCovers (s.laneWrite .lane0) 0x42 ∧ ¬ issuedCovers (s.laneWrite .lane1) 0x42 ∧
      ¬ issuedCovers s.slateWrite 0x42 ∧ ¬ issuedCovers s.writerWrite 0x42 := by
  refine ⟨rfl, ?_, ?_, ?_, ?_⟩
  · rintro ⟨a, bytes, h, i, hi, e⟩
    cases h
    have : i = 0 ∨ i = 1 := by simp only [List.length_cons, List.length_nil] at hi; omega
    rcases this with rfl | rfl <;> exact absurd e (by decide)
  all_goals rintro ⟨a, bytes, h, _⟩; cases h

theorem not_covered_by_none (x : Nat) : ¬ issuedCovers none x := by rintro ⟨a, bytes, h, _⟩; cases h

theorem test_meets_SoftReset_landed :
    let s := tallying (.destinationWrite 0xFFFFFFFE [1, 2] true)
    s.issued 0 = some (0xFFFFFFFE, [1, 2]) ∧ 0xFFFFFFFE + [1, 2].length ≤ Config.topAddress + 1 ∧
      ∀ j, j ≠ 0 → ¬ issuedCovers (s.issued j) 0xFFFFFFFF :=
  ⟨rfl, by decide, fun j hj => by fin_cases j <;> first | exact absurd rfl hj | exact not_covered_by_none _⟩

theorem test_meets_EnableStarts :
    let s (a : Addr) : State := { inState .off with engine := { (inState .off).engine with anchorReg := a } }
    (s 0xFFFFFFE0).engine.state = .off ∧ (s 0xFFFFFFE0).engine.anchorReg.toNat + 31 ≤ 0xFFFFFFFF ∧
      0xFFFFFFFF < (s 0xFFFFFFE1).engine.anchorReg.toNat + 31 := by decide +kernel

theorem test_meets_PauseRelease :
    let l : Lane := { walkingOn .tally tallyBody .none with state := .frozen, cell := none }
    let s : State := { running (orderOf .tally tallyBody) l with engine := (inState .paused).engine }
    let t : State := { s with slate := { SlateReader.reset with again := true } }
    s.engine.state = .paused ∧ (s.lane .lane0).state = .frozen ∧ (s.laneEntry .lane0).isSome = true ∧
      (s.lane .lane1).state ≠ .frozen ∧ s.slate.again = false ∧ t.slate.again = true ∧ t.slate.sweeping = false := by
  decide +kernel

/-- A lane frozen before its next cell or step. -/
def frozen (l : Lane) : Lane := { l with state := .frozen, work := .none }

/-- A paused part with one frozen order. -/
def pausedWith (e : Entry) (l : Lane) : State := { running e (frozen l) with engine := (inState .paused).engine }

/-- A PATTERN over DEC-2 cells at 100h, kind code `k`, V = 7, keep mask `mask`. -/
def patternBody (k mask : Byte) : List Byte :=
  bodyWith [(49, 1), (52, 1), (54, 2), (56, 2), (60, 1), (61, 2), (90, 1), (120, mask), (152, 0x7C), (153, k),
    (176, 0x1C), (189, 0x5D)]

theorem test_meets_PauseRelease_next_cell :
    let e := orderOf .pattern (patternBody 2 1)
    let s := pausedWith e (walkingOn .pattern (patternBody 2 1) .boundary)
    let excluded := walkOf (compareBody 1)
    s.laneEntry .lane0 = some e ∧ (s.lane .lane0).state = .frozen ∧ e.header.kind.housekeeping = false ∧
      (s.lane .lane0).context = some (contextOf .pattern (patternBody 2 1)) ∧
      excludes (patternBody 2 1) 0 0 = false ∧ readsDestination .pattern (patternBody 2 1) = true ∧
      readsDestination .pattern (patternBody 2 0) = false ∧ hasMarkPlane .tally markedBody = true ∧
      excludes (compareBody 1) excluded.cell.1 excluded.cell.2 = true ∧
      hasMarkPlane .tally tallyBody = false := by decide +kernel

theorem test_meets_PauseRelease_next_step :
    let e (k : OrderKind) := orderOf k (rangeBody 0 1 1)
    let s (k : OrderKind) (steps : Nat) := pausedWith (e k) { laneOn .none with steps := steps }
    (s .bandset 2).laneEntry .lane0 = some (e .bandset) ∧ (e .bandset).header.kind.housekeeping = true ∧
      bandsValid (byteAt [] 0).toNat ((List.range 8).map (imageBand [])) = false ∧
      ((s .preset 1).lane .lane0).steps < lastAccum (e .preset).body - firstAccum (e .preset).body + 1 ∧
      lastAccum (e .preset).body - firstAccum (e .preset).body + 1 ≤ ((s .preset 2).lane .lane0).steps ∧
      lastAccum (e .snapshot).body - firstAccum (e .snapshot).body + 1 < ((s .snapshot 3).lane .lane0).steps ∧
      (byteAt (e .snapshot).body 8).getLsbD 0 = true ∧
      (({ s .bandset 2 with slate := { SlateReader.reset with step := .headerRead 0 } } : State)).slate.sweeping = true := by
  decide +kernel

theorem test_meets_EngineStop_of_a_walking_lane :
    let s := tallying .boundary
    let t : State := s.setLane .lane0 { s.lane0 with request := .park 2, state := .yielding }
    s.engine.state = .running ∧ s.laneEntry .lane0 = some (orderOf .tally tallyBody) ∧
      (s.lane .lane0).state = .active ∧ (s.lane .lane0).endMark = false ∧ (s.lane .lane0).parkUnderWay = false ∧
      (s.lane .lane0).request ≠ .engineStop ∧ t.laneEntry .lane0 = some (orderOf .tally tallyBody) ∧
      (t.lane .lane0).state = .yielding ∧ (t.lane .lane0).request = .park 2 := by decide +kernel

theorem test_meets_EngineStop_of_a_frozen_lane :
    let e : Entry := { orderOf .tally tallyBody with claimed := true }
    let s := pausedWith e (walkingOn .tally tallyBody .boundary)
    let house := orderOf .snapshot (rangeBody 0 1 1)
    let t := pausedWith house { laneOn .none with steps := 1 }
    s.engine.state = .paused ∧ s.laneEntry .lane0 = some e ∧ (s.lane .lane0).state = .frozen ∧
      (s.lane .lane0).endMark = false ∧ (s.lane .lane0).parkUnderWay = false ∧
      (s.lane .lane0).request ≠ .engineStop ∧ (s.lane .lane0).context = some (contextOf .tally tallyBody) ∧
      e.claimed = true ∧ referencedSet e.header.kind e.body = some 0 ∧ t.laneEntry .lane0 = some house ∧
      house.header.kind.housekeeping = true ∧ (t.lane .lane0).state = .frozen := by decide +kernel

theorem test_meets_EngineStop_of_a_parked_order :
    let s := parkedIn .paused
    s.engine.state = .paused ∧ (s.table.map (fun x => x.slot)).Nodup ∧ parkedOrder ∈ s.table ∧
      parkedOrder.phase = .parked ∧ parkedOrder.pendingCancel = false ∧ parkedOrder.ended = false ∧
      s.banks[parkedOrder.bank] = .holding parkedContext ∧
      ∀ n ∈ [LaneId.lane0, .lane1], (s.lane n).request ≠ .park parkedOrder.bank := by decide +kernel

theorem test_meets_SweepRequests :
    let busy : State := { inState .running with slate := { SlateReader.reset with step := .headerRead 0 } }
    (inState .running).slate.sweeping = false ∧ busy.engine.state = .running ∧ busy.slate.sweeping = true ∧
      (timed (inState .running) 5 0).engine.anchor.sweepPeriod ≠ 0 ∧
      (timed (inState .running) 5 0).engine.state = .running ∧ (timed (inState .running) 5 0).slate.sweeping = false ∧
      (timed busy 5 0).engine.anchor.sweepPeriod ≠ 0 ∧ (timed busy 5 0).engine.state = .running ∧
      (timed busy 5 0).slate.sweeping = true := by decide +kernel

theorem test_meets_CancelMisses :
    let s := inState .running
    let back : Entry := { waitingOrder 0 with handBack := true }
    let ended : Entry := { parkedOrder with ended := true }
    let house : Entry := orderOf .snapshot (rangeBody 0 0 0)
    let marked := running (orderOf .tally tallyBody) { walkingOn .tally tallyBody .commitClaim with endMark := true }
    s.engine.anchor.slotCount ≤ (64 : Word).toNat % 65536 ∧ s.entry? 63 = none ∧
      ({ s with table := [back] } : State).entry? 0 = some back ∧ back.phase = .waiting ∧ back.handBack = true ∧
      (running house (laneOn .latchClaim)).entry? 0 = some house ∧ house.header.kind.housekeeping = true ∧
      (marked.lane .lane0).parkUnderWay = false ∧ (marked.lane .lane0).endMark = true ∧
      ({ s with table := [ended] } : State).entry? 0 = some ended ∧ ended.phase = .parked := by decide +kernel

theorem test_meets_CancelReaches :
    let waiting : State := { inState .stopping with table := [waitingOrder 63] }
    let again : Entry := { waitingOrder 0 with pendingCancel := true }
    let walking := tallying .boundary
    let parking := tallying (.parkedWrite 1)
    (63 : Word).toNat % 65536 < waiting.engine.anchor.slotCount ∧ waiting.entry? 63 = some (waitingOrder 63) ∧
      (waitingOrder 63).pendingCancel = false ∧ (waitingOrder 63).handBack = false ∧
      ({ inState .running with table := [again] } : State).entry? 0 = some again ∧
      walking.entry? 0 = some (orderOf .tally tallyBody) ∧ (walking.lane .lane0).request = .none ∧
      (parking.lane .lane0).parkUnderWay = true ∧ (parkedIn .running).entry? 0 = some parkedOrder ∧
      (parkedIn .running).banks[parkedOrder.bank] = .holding parkedContext := by decide +kernel

theorem test_meets_CancelReaches_a_frozen_or_stopping_lane :
    let e := orderOf .tally tallyBody
    let s := pausedWith e (walkingOn .tally tallyBody .boundary)
    let asked (r : StopRequest) := tallying .boundary |>.setLane .lane0
      { walkingOn .tally tallyBody .boundary with request := r, state := .yielding }
    s.entry? 0 = some e ∧ e.phase = .running ∧ (s.lane e.lane).state = .frozen ∧ (s.lane e.lane).request = .none ∧
      (s.lane e.lane).order = some e.slot ∧ (s.lane e.lane).context = some (contextOf .tally tallyBody) ∧
      (s.lane e.lane).parkUnderWay = false ∧ (s.lane e.lane).endMark = false ∧
      ((asked (.park 3)).lane e.lane).request = .park 3 ∧ ((asked .cancel).lane e.lane).request = .cancel ∧
      ((asked .engineStop).lane e.lane).request = .engineStop ∧ ((asked .engineStop).lane e.lane).state = .yielding ∧
      ((asked .timeLimit).lane e.lane).request = .timeLimit := by decide +kernel

/-! ### The Window Port -/

/-- A window address in an engine state. -/
def windowAt (x : EngineState) (a : BitVec 11) : State :=
  { inState x with window := { WindowPort.reset with addr := a } }

theorem test_meets_WindowDataRead :
    (windowAt .off 0x17F).window.addr.toNat = 6 * (63 : Fin 64).val + 5 ∧
      (windowAt .off 0x17F).window.accumLatch.holds ≠ some 63 ∧
      (windowAt .off 0x3B0).window.addr.toNat = 0x180 + 0x50 * (7 : Fin 8).val ∧
      (windowAt .off 0x3F8).window.addr.toNat = 0x180 + 0x50 * (7 : Fin 8).val + 1 + 9 * (7 : Fin 8).val + 8 ∧
      (windowAt .off 0x47F).window.addr.toNat = 0x400 + 4 * 31 + 3 ∧
      (windowAt .off 0x400).table.length ≤ 0 ∧ (tallying .boundary).table[0]? = some (orderOf .tally tallyBody) ∧
      0x4E4 ≤ (windowAt .off 0x4E4).window.addr.toNat := by decide +kernel

theorem test_meets_WindowDataRead_from_the_latches :
    let w : WindowPort := { WindowPort.reset with accumLatch := ⟨some 0, Total.zero⟩, bandLatch := ⟨some (0, 0), Band.powerOn⟩ }
    w.accumLatch.holds = some 0 ∧ w.bandLatch.holds = some (0, 0) := by decide +kernel

theorem test_meets_WindowDataRead_views :
    let full : State := { windowAt .off 0x47F with table := (List.range 32).map waitingOrder }
    let held : State := { parkedIn .off with banks := (parkedIn .off).banks.set 3 (.reserved .lane1) }
    full.table[31]? = some (waitingOrder 31) ∧ (tallying .boundary).laneEntry .lane0 = some (orderOf .tally tallyBody) ∧
      (windowAt .off 0x49F).window.addr.toNat = 0x480 + 16 * laneNumber .lane1 + 15 ∧
      (windowAt .off 0x4DF).window.addr.toNat = 0x4A0 + 16 * (3 : Fin 4).val + 15 ∧
      (windowAt .off 0x4E3).window.addr.toNat = 0x4E0 + 3 ∧
      (windowAt .off 0x1C9).window.addr.toNat = 0x180 + 0x50 * (0 : Fin 8).val + 73 ∧
      (windowAt .off 0x3FF).window.addr.toNat = 0x180 + 0x50 * (7 : Fin 8).val + 79 ∧
      held.banks[(3 : Fin 4)] = .reserved .lane1 ∧ held.banks[(0 : Fin 4)] = .holding parkedContext ∧
      held.banks[(1 : Fin 4)] = .free ∧ held.entry? parkedContext.slot = some parkedOrder ∧
      ((tallying (.parkedWrite 3)).lane .lane0).work = .parkedWrite 3 ∧
      ((tallying .boundary).lane .lane0).parkUnderWay = false ∧
      ((inState .off).lane .lane0).order = none ∧ ((inState .off).lane .lane0).context = none := by decide +kernel

theorem test_meets_WindowDataWrite_refusals :
    let used : State := (windowAt .paused 0x1CF).setBandSet 0 { BandSet.powerOn with uses := 1 }
    (windowAt .running 0).engine.state ≠ .off ∧ (windowAt .running 0).engine.state ≠ .paused ∧
      0x400 ≤ (windowAt .off 0x400).window.addr.toNat ∧ used.window.addr.toNat < 0x1D0 + 0x50 * (0 : Fin 8).val ∧
      0x180 ≤ used.window.addr.toNat ∧ 0 < used.bandSets[(0 : Fin 8)].uses ∧
      (windowAt .off 3).window.addr.toNat = 6 * (0 : Fin 64).val + 3 ∧ 9 < (0xA0 : Word).toNat / 16 ^ 1 % 16 ∧
      (0xE : Word).toNat % 16 ≠ 0xC ∧ 0x00100000 ≤ (0x00100000 : Word).toNat := by decide +kernel

theorem test_meets_WindowDataWrite_stores :
    (windowAt .off 0x17D).window.addr.toNat = 6 * (63 : Fin 64).val + 3 ∧
      writtenValue Total.zero.value 3 0x12D = some (-12) ∧
      writtenValue Total.zero.value 0 0x000FFFFF = none ∧ (writtenValue Total.zero.value 0 0x00099999).isSome = true ∧
      (windowAt .paused 0x1CF).window.addr.toNat = 0x180 + 0x50 * (0 : Fin 8).val + 79 ∧
      (windowAt .paused 0x1C9).window.addr.toNat = 0x180 + 0x50 * (0 : Fin 8).val + 73 ∧
      (windowAt .paused 0x1C8).window.addr.toNat = 0x180 + 0x50 * (0 : Fin 8).val + 1 + 9 * (7 : Fin 8).val + 8 ∧
      (windowAt .paused 0x1C8).bandSets[(0 : Fin 8)].uses = 0 := by decide +kernel

theorem test_meets_WindowDataWrite_value_words :
    (∀ j, j < 8 → (0x99999999 : Word).toNat / 16 ^ j % 16 ≤ 9) ∧ (0x00099999 : Word).toNat < 0x00100000 ∧
      (0x9999999D : Word).toNat % 16 = 0xD ∧ writtenValue 0 0 0x00099999 = some (99999 * 10 ^ 23) ∧
      writtenValue 0 3 0x9999999D = some (-9999999) ∧ writtenValue (-5) 3 0x0000000D = some 0 ∧
      (windowAt .off 0x17A).window.addr.toNat = 6 * (63 : Fin 64).val + 0 ∧
      (windowAt .off 0x17B).window.accumLatch.holds ≠ some 63 := by decide +kernel

theorem test_meets_WindowDataWrite_band_words :
    (List.range 9).map (bandWord (Band.powerOn.writeWord 0 0xFFFFFFF7)) = [7, 0, 0, 0xC, 0, 0, 0, 0xC, 0] ∧
      (List.range 9).map (bandWord (Band.powerOn.writeWord 7 0xFFFFFFFD)) = [0, 0, 0, 0xC, 0, 0, 0, 0xFFFFFFFD, 0] ∧
      (List.range 9).map (bandWord (Band.powerOn.writeWord 8 0xFFFFFFFF)) = [0, 0, 0, 0xC, 0, 0, 0, 0xC, 0x1FF] ∧
      (∀ b, (windowAt .paused 0x181).window.bandLatch.holds ≠ some ((0 : Fin 8), b)) := by decide +kernel

theorem test_meets_RegistersRead :
    ({ CompletionWriter.reset with notifyPending := 65535 } : CompletionWriter).notifyPending ≤ 65535 ∧
      State.reset.part = .azunel4420 ∧ ({ State.reset with part := .azunel4410 } : State).part = .azunel4410 :=
  by decide +kernel

theorem test_meets_RegistersRead_of_any_width :
    (60 : BitVec 6).toNat + 4 ≤ 64 ∧ (63 : BitVec 6).toNat + 1 ≤ 64 ∧ 0x24 ≤ (0x24 : BitVec 6).toNat ∧
      ({ inState .off with engine := { (inState .off).engine with anchorReg := 0x12345678 } } : State).readRegisterBytes
        0x0D 2 = [0x56, 0x34] := by decide +kernel

/-! ### Starts and takes -/

theorem test_meets_StartReads_of_a_sound_anchor :
    let s := starting .anchorRead false
    let a := (s.afterHost (anchorHost 0xFFFF0000 256 0x20)).anchorBlock
    s.engine.access = .anchorRead ∧ s.engine.abandoned = false ∧ a.slotCount = 256 ∧ a.slateBase.toNat % 256 = 0 ∧
      a.slateBase.toNat + 256 * a.slotCount - 1 = 0xFFFFFFFF ∧ a.wordAddr.toNat % 4 = 0 ∧
      (s.afterHost (anchorHost 0x1000 8 0x20)).anchorBlock.slotCount = 8 := by decide +kernel

theorem test_meets_StartReads_of_an_unsound_anchor :
    let read (host : HostWrites) : Anchor := ((starting .anchorRead false).afterHost host).anchorBlock
    (read (anchorHost 0x1000 7 0x20)).slotCount < 8 ∧ 256 < (read (anchorHost 0x1000 257 0x20)).slotCount ∧
      (read (anchorHost 0x1001 8 0x20)).slateBase.toNat % 256 ≠ 0 ∧
      0xFFFFFFFF < (read (anchorHost 0xFFFFF900 8 0x20)).slateBase.toNat + 256 * 8 - 1 ∧
      (read (anchorHost 0x1000 8 0x22)).wordAddr.toNat % 4 ≠ 0 := by decide +kernel

theorem test_meets_StartReads_of_the_word :
    (starting .wordRead false).engine.access = .wordRead ∧ (starting .wordRead true).engine.abandoned = true :=
  by decide +kernel

/-- A sweep at slot 5 waiting for `x`. -/
def sweepingAt (x : SlateStep) : State :=
  { inState .running with slate := { SlateReader.reset with cursor := 5, step := x } }

theorem test_meets_HeaderReadDone :
    let s := sweepingAt (.headerRead 5)
    let posted (kind : Byte) := (s.afterHost (bytesAt 0x1500 [1, 0, kind])).mem.readBytes (s.slotAddr 5) 16
    let held : State := { s with table := [waitingOrder 5] }
    let full : State := { s with table := (List.range 32).map (fun i => waitingOrder (i + 6)) }
    s.slate.step = .headerRead 5 ∧ byteAt (s.mem.readBytes (s.slotAddr 5) 16) 0 ≠ 1 ∧ byteAt (posted 1) 0 = 1 ∧
      s.entry? 5 = none ∧ kindAtTake s.part (posted 9) = none ∧ (kindAtTake s.part (posted 1)).isSome = true ∧
      (held.entry? 5).isSome = true ∧ full.table.length = 32 ∧ full.entry? 5 = none ∧
      s.slate.visited + 1 < s.engine.anchor.slotCount := by decide +kernel

theorem test_meets_HeaderReadDone_of_a_held_slot_and_a_full_table :
    let s := sweepingAt (.headerRead 5)
    let full : State := { s with table := (List.range 32).map waitingOrder }
    full.table.length = 32 ∧ (full.entry? 5).isSome = true ∧
      kindAtTake .azunel4410 [1, 0, 3, 0] = none ∧ kindAtTake .azunel4410 [1, 0, 8, 0] = some .snapshot := by
  decide +kernel

theorem test_meets_SlotFinished :
    let x (visited : Nat) (again ending : Bool) : SlateReader :=
      { SlateReader.reset with step := .headerRead 63, visited := visited, again := again, ending := ending }
    (x 62 false false).visited + 1 < (inState .running).engine.anchor.slotCount ∧
      (inState .running).engine.anchor.slotCount ≤ (x 63 true false).visited + 1 ∧ (x 63 true false).again = true ∧
      (x 0 false true).ending = true ∧ (inState .pausing).engine.state = .pausing ∧
      (inState .stopping).engine.state = .stopping := by decide +kernel

theorem test_meets_BodyReadDone :
    let header : List Byte := [1, 0, 1, 0, 0, 0, 0, 0, 0, 0, 0, 0, 0, 0, 0, 0]
    kindAtTake .azunel4420 header = some .tally ∧ takeFailure .tally header tallyBody = none ∧
      takeFailure .tally header (bodyWith []) = some .fieldRange ∧
      takeFailure .snapshot header (rangeBody 0 64 0) = some .accumRange ∧
      takeFailure .snapshot header (rangeBody 0 63 0) = none := by decide +kernel

/-- `tallyBody` with one byte changed. -/
def tallyBut (i : Nat) (b : Byte) : List Byte := tallyBody.set i b

theorem test_meets_BodyReadDone_at_each_check :
    let header : List Byte := [1, 0, 1, 0, 0, 0, 0, 0, 0, 0, 0, 0, 0, 0, 0, 0]
    takeFailure .tally header (tallyBut 80 2) = some .fieldRange ∧
      takeFailure .tally (header.set 3 2) tallyBody = some .fieldRange ∧
      takeFailure .tally header (tallyBut 13 25) = some .gridRange ∧
      takeFailure .tally header (tallyBut 90 2) = some .windowRange ∧
      takeFailure .tally header (tallyBut 137 64) = some .accumRange ∧
      takeFailure .tally header (tallyBut 137 63) = none ∧
      takeFailure .bandset header (rangeBody 8 0 0) = some .fieldRange ∧
      takeFailure .pattern header (patternBody 2 1) = none := by decide +kernel

theorem test_meets_Take :
    let header : List Byte := [1, 0, 1, 0, 0, 0, 0, 0, 0, 0, 0, 0, 0, 0, 0, 0]
    (sweepingAt (.takenWrite 5 header tallyBody)).slate.step = .takenWrite 5 header tallyBody ∧
      kindAtTake (sweepingAt .idle).part header = some .tally := by decide +kernel

theorem test_meets_HandBack :
    let s : State := { inState .stopping with table := [waitingOrder 3] }
    let t := s.setSlate { s.slate with step := .handBackWrite 3 }
    s.engine.state = .stopping ∧ s.slate.step = .idle ∧
      s.table.find? (fun x => x.phase == .waiting && !x.pendingCancel && !x.handBack) = some (waitingOrder 3) ∧
      t.slate.step = .handBackWrite 3 := by decide +kernel

/-! ### Completions -/

/-- A Completion Writer at a step. -/
def writingAt (x : WriterStep) : State := (inState .stopping).setWriter { CompletionWriter.reset with step := x }

theorem test_meets_Completion :
    let h := handOverOf false
    let two : List HandOver := [h, { h with together := true }]
    [h].head? = some h ∧ 1 < togetherCount two ∧ two[1]? = some { h with together := true } := by decide +kernel

theorem test_meets_result_state_and_word_writes :
    let s := (writingAt (.stateWrite (handOverOf false)))
    let t : State := { s with table := [orderOf .tally tallyBody], lane0 := laneOn .handedOver }
    let u : State := { s with table := [parkedOrder] }
    let failing := (writingAt (.stateWrite (handOverOf true))).setSlate { SlateReader.reset with step := .failing 0 }
    (writingAt (.resultWrite (handOverOf false))).writer.step = .resultWrite (handOverOf false) ∧
      (handOverOf false).fault = none ∧ ({ handOverOf false with fault := some (65535, 0) } : HandOver).fault = some
          (65535, 0) ∧
      t.writer.step = .stateWrite (handOverOf false) ∧ (t.lane .lane0).order = some (handOverOf false).slot ∧
      (t.lane .lane1).order ≠ some 0 ∧ u.entry? 0 = some parkedOrder ∧ t.entry? 0 = some (orderOf .tally tallyBody) ∧
      failing.slate.step = .failing 0 ∧ (handOverOf true).atTake = true ∧
      (writingAt (.wordWrite (handOverOf false))).writer.step = .wordWrite (handOverOf false) := by decide +kernel

/-! ### The Dispatcher -/

/-- Two ROUTINE orders on the lanes, an URGENT one WAITING behind them, and no lane free for it. -/
def pressed : State :=
  { inState .running with
    table := [orderOf .tally tallyBody, { orderOf .tally tallyBody with slot := 1, lane := .lane1 },
      { waitingOrder 2 with header := { (waitingOrder 2).header with urgent := true } }]
    lane0 := walkingOn .tally tallyBody .boundary
    lane1 := { walkingOn .tally tallyBody .boundary with order := some 1 } }

theorem test_meets_StartChoice :
    let first : State := { inState .running with table := [waitingOrder 4, waitingOrder 5] }
    let urgent : Entry := { waitingOrder 2 with header := { (waitingOrder 2).header with urgent := true } }
    pressed.eligible.find? (fun x => x.header.urgent) = some urgent ∧
      (∀ x ∈ (parkedIn .running).eligible, x.header.urgent = false) ∧ (parkedIn .running).parkOrder = [0] ∧
      (parkedIn .running).eligible.find? (fun x => x.slot == 0 && x.phase == .parked) = some parkedOrder ∧
      (∀ x ∈ first.eligible, x.header.urgent = false ∧ x.phase = .waiting) ∧
      first.eligible.head? = some (waitingOrder 4) := by decide +kernel

theorem test_meets_StartEvent :
    let s : State := { inState .running with table := [waitingOrder 4] }
    s.idleLane = some .lane0 ∧ s.startChoice = some (waitingOrder 4) ∧ (waitingOrder 4).phase = .waiting ∧
      (parkedIn .running).idleLane = some .lane0 ∧ (parkedIn .running).startChoice = some parkedOrder ∧
      (parkedIn .running).banks[parkedOrder.bank] = .holding parkedContext ∧
      (timed (parkedIn .running) 0 1).engine.anchor.timeLimit * 1000 ≤ parkedContext.runTime ∧
      parkedContext.runTime < (timed (parkedIn .running) 0 2).engine.anchor.timeLimit * 1000 := by decide +kernel

theorem test_meets_StartEvent_that_starts_nothing :
    let busy := tallying .boundary
    busy.idleLane = some .lane1 ∧ busy.lane0.state ≠ .idle ∧ (∀ n, (pressed.lane n).state ≠ .idle) ∧
      (inState .running).startChoice = none ∧ (inState .paused).engine.state ≠ .running :=
  ⟨by decide +kernel, by decide +kernel, fun n => by cases n <;> decide +kernel, by decide +kernel, by decide +kernel⟩

theorem test_meets_ParkRequest :
    pressed.parksPending < pressed.parkDemand ∧ pressed.parkCandidate .lane1 = true ∧
      pressed.parkCandidate .lane0 = true ∧ pressed.laneRank .lane0 < pressed.laneRank .lane1 ∧
      pressed.banks[(0 : Fin 4)] = .free := by decide +kernel

theorem test_meets_ParkRequest_that_posts_nothing :
    let full : State := { pressed with banks := Vector.replicate 4 (.holding parkedContext) }
    (pressed.table.map (fun x => x.slot)).Nodup ∧ (pressed.lane .lane1).order = some 1 ∧ pressed.laneRank .lane1 = 1 ∧
      (inState .running).parkDemand ≤ (inState .running).parksPending ∧
      (∀ n ∈ [LaneId.lane0, .lane1], (inState .running).parkCandidate n = false) ∧
      (∀ b : Fin 4, full.banks[b] ≠ .free) := by decide +kernel

theorem test_meets_ParkWithdraw :
    let s := (tallying .boundary).setLane .lane0
      { walkingOn .tally tallyBody .boundary with request := .park 3, state := .yielding }
    s.parkDemand < s.parksPending ∧ (s.lane .lane0).request = .park 3 ∧ (s.lane .lane1).parkPending = false := by
  decide +kernel

theorem test_meets_ParkComplete :
    let s := tallying (.parkedWrite 3)
    (s.lane .lane0).work = .parkedWrite 3 ∧ (s.lane .lane0).order = some 0 ∧
      s.entry? 0 = some (orderOf .tally tallyBody) ∧
      (s.lane .lane0).context = some (contextOf .tally tallyBody) ∧ s.writeHeld .lane0 = false ∧
      s.engine.state ≠ .stopping := by decide +kernel

theorem test_meets_ParkComplete_that_ends :
    let e : Entry := { orderOf .tally tallyBody with pendingCancel := true, parkCount := 255, claimed := true }
    let s := running e (walkingOn .tally tallyBody (.parkedWrite 3))
    let t : State := { tallying (.parkedWrite 0) with engine := (inState .stopping).engine }
    s.entry? 0 = some e ∧ s.writeHeld .lane0 = false ∧ referencedSet e.header.kind e.body = some 0 ∧
      t.engine.state = .stopping ∧ t.writeHeld .lane0 = false ∧ (t.lane .lane0).work = .parkedWrite 0 := by
  decide +kernel

theorem test_meets_progress_writes_that_are_held :
    let other : Lane := { laneOn (.destinationWrite 0x1001 [0] true) with order := some 1 }
    ((tallying (.runningWrite false)).setLane .lane1 other).writeHeld .lane0 = true ∧
      ((tallying (.parkedWrite 0)).setLane .lane1 other).writeHeld .lane0 = true := by decide +kernel

/-! ### Walking orders -/

theorem test_meets_ProgressRunning :
    let house (k : OrderKind) := running (orderOf k (rangeBody 0 1 0)) (laneOn (.runningWrite false))
    let walk (k : OrderKind) (b : List Byte) (resume : Bool) :=
        running (orderOf k b) (walkingOn k b (.runningWrite resume))
    (house .bandset).entry? 0 = some (orderOf .bandset (rangeBody 0 1 0)) ∧ (house .preset).writeHeld .lane0 = false ∧
      (walk .tally tallyBody false).writeHeld .lane0 = false ∧
      (referencedSet .tally tallyBody).isSome = true ∧ referencedSet .compare (compareBody 1) = none ∧
      hasMarkPlane .tally markedBody = true ∧ hasMarkPlane .compare (compareBody 1) = false ∧
      (contextOf .compare (compareBody 1)).walk.cell = (0, 0) ∧ excludes (compareBody 1) 0 0 = true ∧
      excludes (compareBody 0) 0 0 = false ∧ excludes (bodyWith []) 0 0 = false := by decide +kernel

theorem test_meets_ProgressRunning_walk_and_values :
    let span := tallyBody.set 80 1
    lastRow tallyBody - leField tallyBody 84 2 + 1 = 1 ∧ lastCol span - leField span 86 2 + 1 = 2 ∧
      (byteAt (tallyBody.set 81 1) 81).toNat = 1 ∧ (byteAt tallyBody 92).toNat = 0 ∧
      (byteAt (compareBody 1) 92).toNat = 1 ∧ (byteAt (compareBody 2) 92).toNat = 2 ∧
      signedField 24 (patternBody 0 0) 140 13 = some 7 ∧ (byteAt (patternBody 1 0) 153).toNat = 1 ∧
      signedField 24 (patternBody 2 0) 177 13 = some (-5) := by decide +kernel

theorem test_meets_StartClaim :
    let s := tallying .startClaim
    let loaded := s.setBandSet 0 { BandSet.powerOn with state := .loaded }
    let good := s.setBandSet 0 { BandSet.powerOn with state := .unchecked, count := 1 }
    let bad := s.setBandSet 0 { BandSet.powerOn with state := .unchecked, count := 9 }
    (s.lane .lane0).work = .startClaim ∧ referencedSet .tally tallyBody = some 0 ∧
      s.bandSets[(0 : Fin 8)].state = .empty ∧ loaded.bandSets[(0 : Fin 8)].state = .loaded ∧
      good.bandSets[(0 : Fin 8)].state = .unchecked ∧ good.bandSets[(0 : Fin 8)].valid = true ∧
      bad.bandSets[(0 : Fin 8)].valid = false := by decide +kernel

theorem test_meets_StartClaim_with_a_park_pending :
    let s := (tallying .startClaim).setLane .lane0
      { walkingOn .tally tallyBody .startClaim with request := .park 3, state := .yielding }
    (s.lane .lane0).work = .startClaim ∧ (s.lane .lane0).request = .park 3 ∧
      (s.lane .lane0).context = some (contextOf .tally tallyBody) := by decide +kernel

theorem test_meets_StartClaim_referenced_set :
    (byteAt (bodyWith [(136, 7)]) 136).toNat = (7 : Fin 8).val ∧ (byteAt (bodyWith [(136, 0xFF)]) 136).toNat = 0xFF ∧
      referencedSet .difference (bodyWith [(136, 7)]) = some 7 := by decide +kernel

theorem test_meets_MarkReadDone :
    let s := running (orderOf .tally markedBody) (walkingOn .tally markedBody .markRead)
    let host := bytesAt 0x200 [1]
    (s.lane .lane0).work = .markRead ∧ (s.lane .lane0).cell = some (CellWork.begin 0 0) ∧
      ((s.afterHost host).mem.read ((leField markedBody 72 4 + 0 * leField markedBody 76 4 + 0 / 8) %
          4294967296)).getLsbD 0 = true ∧
      (s.mem.read 0x200).getLsbD 0 = false ∧ excludes (compareBody 1) 0 1 = true ∧ excludes markedBody 0 1 = false :=
  by decide +kernel

theorem test_meets_SourceReadDone :
    let s := running (orderOf .compare (compareBody 0)) (walkingOn .compare (compareBody 0) .sourceARead)
    readsB .compare (compareBody 0) = true ∧ readsB .tally tallyBody = false ∧
      (s.lane .lane0).work = .sourceARead ∧ (s.lane .lane0).cell = some (CellWork.begin 0 0) ∧
      s.laneEntry .lane0 = some (orderOf .compare (compareBody 0)) := by decide +kernel

/-- A valid set of two bands, 0 to 5 and 9 to 9, the second with its alarm set. -/
def twoBands : BandSet where
  state := .loaded
  count := 2
  bands := (Vector.replicate 8 Band.powerOn).set 0 ⟨0xC, 0x5C, 0, false⟩ |>.set 1 ⟨0x9C, 0x9C, 63, true⟩
  uses := 1

theorem twoBands_sound : BandsSound twoBands.count.toNat twoBands.bands.toList :=
  have at1 : ∀ {i : Nat} {b : Band}, i < twoBands.count.toNat → twoBands.bands.toList[i]? = some b →
      i = 0 ∧ b = ⟨0xC, 0x5C, 0, false⟩ ∨ i = 1 ∧ b = ⟨0x9C, 0x9C, 63, true⟩ := fun {i b} h e => by
    have : i < 2 := h
    interval_cases i
    · exact Or.inl ⟨rfl, (Option.some.inj e).symm⟩
    · exact Or.inr ⟨rfl, (Option.some.inj e).symm⟩
  { size := by decide
    nibbles := fun i b h e => by
      unfold boundSound
      rcases at1 h e with ⟨_, rfl⟩ | ⟨_, rfl⟩ <;> decide +kernel
    order := fun i b h e => by rcases at1 h e with ⟨_, rfl⟩ | ⟨_, rfl⟩ <;> decide +kernel
    ascending := fun i a b h ea eb => by
      have hi : i + 1 < 2 := h
      rcases at1 (by omega) ea with ⟨rfl, rfl⟩ | ⟨rfl, rfl⟩
      · rcases at1 h eb with ⟨q, _⟩ | ⟨_, rfl⟩
        · cases q
        · decide +kernel
      · omega
    accum := fun i b h e => by rcases at1 h e with ⟨_, rfl⟩ | ⟨_, rfl⟩ <;> decide +kernel }

theorem test_meets_SourceReadDone_classes :
    classify twoBands (-1) = .below ∧ classify twoBands 0 = .band 0 ∧ classify twoBands 5 = .band 0 ∧
      classify twoBands 6 = .gap ∧ classify twoBands 8 = .gap ∧ classify twoBands 9 = .band 1 ∧
      classify twoBands 10 = .above ∧ stagingEntry (residueOf tallyBody) .gap = none ∧
      stagingEntry (residueOf (tallyBut 137 0)) .gap = some 8 := by decide +kernel

theorem test_meets_SourceReadDone_outcomes :
    let sdec := tallyBut 60 2
    let constant := (compareBody 0).set 138 1 |>.set 152 0x7C
    (gridA tallyBody).decodeCell 0 0 [0x1A] = none ∧ (gridA tallyBody).decodeCell 0 0 [0x12] = some 12 ∧
      (gridB (compareBody 0)).decodeCell 0 0 [0x12] = some 12 ∧
      (formDifference 2 5 1 99).2.map (fun k => k.kind) = some .rollover ∧
      (formDifference 0 0 1 99).2.map (fun k => k.kind) = some .reversal ∧ (formDifference 0 0 99 1).2 = none ∧
      (byteAt sdec 60).toNat = 2 ∧ (byteAt constant 138).toNat = 1 ∧ signedField 24 constant 140 13 = some 7 ∧
      signedField 24 tallyBody 104 13 = some 0 ∧ readsB .compare constant = false := by decide +kernel

theorem test_reversal_into_unsigned_holds_its_value :
    let w := CellWork.begin 0 0
    differenceCell (bodyWith [(60, 1), (61, 2)]) none w 1 99 =
      ({ w with working := some (-98), exceptions := [⟨.reversal, 0, -98⟩], cls := .rejected }, none) := by
  decide +kernel

theorem test_meets_SourceReadDone_limits :
    let t : Total := ⟨10 ^ 28 - 1, 1, false⟩
    t.value + 0 ≤ 10 ^ 28 - 1 ∧ 10 ^ 28 - 1 < t.value + 1 ∧ (⟨-(10 ^ 28 - 1), 1, false⟩ : Total).value + -1 < -(10 ^ 28 - 1) ∧
      (patternValue (.sdec 2) 100).saturated = true ∧ (patternValue (.sdec 2) 99).saturated = false := by
  decide +kernel

theorem test_meets_SourceReadDone_rollover_limit :
    let body := bodyWith ((List.range 12).map (fun i => (124 + i, 0x99)))
    (∀ k, k < 24 → beValue (slice body 124 12) / 16 ^ k % 16 ≤ 9) ∧ rolloverLimit body = 10 ^ 24 - 1 := by
  decide +kernel

theorem test_meets_DestinationReadDone :
    let e := orderOf .compare (compareBody 0)
    let s := running e (walkingOn .compare (compareBody 0) .destinationRead)
    let other : Lane := { laneOn (.destinationWrite 0x300 [0] true) with order := some 1 }
    let t := s.setLane .lane1 other
    (s.lane .lane0).work = .destinationRead ∧ destinationAddr e 0 0 = 0x300 ∧
      s.claimed .lane0 (destinationAddr e 0 0) (destinationLen e 0 0) = false ∧
      t.claimed .lane0 (destinationAddr e 0 0) (destinationLen e 0 0) = true := by decide +kernel

theorem test_meets_DestinationReadDone_keep_mask :
    (CellFormat.dec 24).merge 0 0x800000 (List.replicate 12 0x99) 0 = 0x90 :: List.replicate 11 0 ∧
      (CellFormat.sdec 3).merge 0 1 [0x12, 0x3C] (-456) = [0x45, 0x3D] ∧
      destinationAddr (orderOf .pattern (patternBody 0 1)) 0 1 = 0x101 := by decide +kernel

/-- A cell with exceptions still to write. -/
def raising (k : Nat) : CellWork :=
  { CellWork.begin 0 0 with exceptions := List.replicate k ⟨.malformed, 1, 0⟩ }

theorem test_meets_LaneWrites :
    let s (work : LaneWork) (k : Nat) := running (orderOf .tally tallyBody)
      { walkingOn .tally tallyBody work with cell := some (raising k) }
    let full : WalkContext :=
      { contextOf .tally tallyBody with record := { OrderRecord.start with cursor := 2, written := 2, raised := 2 } }
    (s (.destinationWrite 0x40 [1] true) 0).writeHeld .lane0 = false ∧ (raising 0).exceptions = [] ∧
      (raising 1).exceptions ≠ [] ∧ (contextOf .tally tallyBody).record.cursor <
          (orderOf .tally tallyBody).header.listCapacity ∧
      (orderOf .tally tallyBody).header.listCapacity ≤ full.record.cursor ∧
      (s .exceptionWrite 2).writeHeld .lane0 = false ∧
      (raising 2).exceptions = ⟨.malformed, 1, 0⟩ :: (raising 1).exceptions := by decide +kernel

theorem test_meets_LaneWrites_that_are_held :
    let other : Lane := { laneOn (.destinationWrite 0x3F [0, 0] true) with order := some 1 }
    let s := (tallying (.destinationWrite 0x40 [1] false)).setLane .lane1 other
    let apart := (tallying (.destinationWrite 0x41 [1] false)).setLane .lane1 other
    s.writeHeld .lane0 = true ∧ apart.writeHeld .lane0 = false ∧
      (s.lane .lane1).work = .destinationWrite 0x3F [0, 0] true := by decide +kernel

theorem test_meets_CellBoundary :
    let s := tallying .boundary
    let at' (r : StopRequest) := (s.setLane .lane0 { s.lane0 with request := r }).lane .lane0
    let last : WalkContext := { contextOf .tally tallyBody with walk := { walkOf tallyBody with next := 1 } }
    (s.lane .lane0).work = .boundary ∧ (contextOf .tally tallyBody).walk.next + 1 <
        (contextOf .tally tallyBody).walk.cells ∧
      (s.lane .lane0).request = .none ∧ (at' (.park 3)).request = .park 3 ∧ (at' .timeLimit).request = .timeLimit ∧
      (at' .cancel).request = .cancel ∧ (at' .engineStop).request = .engineStop ∧
      last.walk.cells ≤ last.walk.next + 1 ∧ last.commitOverflow = false ∧
      (orderOf .tally tallyBody).header.kind ≠ .pattern := by decide +kernel

theorem test_meets_CellBoundary_of_a_pattern_in_pausing :
    let e := orderOf .pattern (patternBody 1 0)
    let s : State := { running e (walkingOn .pattern (patternBody 1 0) .boundary) with engine := (inState .pausing).engine }
    s.engine.state = .pausing ∧ (s.lane .lane0).request = .none ∧ s.laneEntry .lane0 = some e ∧
      e.header.kind = .pattern ∧
      (contextOf .pattern (patternBody 1 0)).walk.next + 1 < (contextOf .pattern (patternBody 1 0)).walk.cells ∧
      referencedSet .pattern (patternBody 1 0) = none ∧ OrderKind.pattern.housekeeping = false := by decide +kernel

theorem test_meets_CellBoundary_step : signedField 24 (patternBody 1 0) 164 13 = some (stepOf (patternBody 1 0)) := by
  decide +kernel

theorem test_meets_Commit :
    let staging : Staging := Staging.start.set 2 ⟨7, 1, false⟩
    let s := (tallying .commitClaim).setBandSet 0 { BandSet.powerOn with state := .loaded, uses := 1 }
    let name := namedAccum s.bandSets[(0 : Fin 8)] tallyBody
    (s.lane .lane0).work = .commitClaim ∧ referencedSet .tally tallyBody = some 0 ∧ 0 < staging[(2 : Fin 9)].count ∧
      (∀ j : Fin 9, 0 < staging[j].count → name j = name 2 → j = 2) ∧
      (∀ k : Fin 9, 0 < staging[k].count → name k ≠ 1) ∧ (∀ k : Fin 9, Staging.start[k].count = 0) := by decide +kernel

theorem test_meets_Commit_of_entries_that_share_an_accumulator :
    let staging : Staging := (Staging.start.set 2 ⟨7, 1, false⟩).set 5 ⟨8, 2, true⟩
    let e : Entry := { orderOf .tally tallyBody with claimed := true }
    let name := namedAccum BandSet.powerOn tallyBody
    e.claimed = true ∧ 0 < staging[(2 : Fin 9)].count ∧ 0 < staging[(5 : Fin 9)].count ∧ name 2 = name 5 ∧
      (commitStaging name staging (Vector.replicate 64 Total.zero)).1[(0 : Fin 64)] = ⟨15, 3, true⟩ ∧
      (commitStaging name staging (Vector.replicate 64 Total.zero)).2 = true ∧
      (byteAt (tallyBut 137 63) 137).toNat ≤ 63 := by decide +kernel

theorem test_meets_TimeLimit :
    let s (r : StopRequest) := timed ((tallying .boundary).setLane .lane0
      { walkingOn .tally tallyBody .boundary with request := r }) 0 65535
    (s .none).runTimerCounts .lane0 = true ∧ (s .none).engine.anchor.timeLimit ≠ 0 ∧
      (s .none).lane0.runTimer < (s .none).engine.anchor.timeLimit * 1000 ∧
      (s (.park 0)).runTimerCounts .lane0 = true ∧ (s .cancel).runTimerCounts .lane0 = true ∧
      (s .engineStop).runTimerCounts .lane0 = true := by decide +kernel

theorem test_meets_MemoryFault :
    let s := tallying .sourceARead
    let t := tallying (.destinationWrite 0x40 [1] false)
    let house := running (orderOf .preset (rangeBody 0 1 0)) (laneOn .recordRead)
    (s.lane .lane0).work.faults = true ∧ s.writeHeld .lane0 = false ∧ s.readHeld .lane0 = false ∧
      s.laneWrite .lane0 = none ∧ (t.lane .lane0).work.faults = true ∧ t.writeHeld .lane0 = false ∧
      t.readHeld .lane0 = false ∧ (house.lane .lane0).work.faults = true ∧
          house.readHeld .lane0 = false := by decide +kernel

theorem test_meets_MemoryFault_of_a_snapshot_and_of_a_claimed_order :
    let house := running (orderOf .snapshot (rangeBody 0 1 1))
      { laneOn .recordWrite with steps := 1, buffer := ⟨some (0, 1), RecordBuffer.empty.entries.set 1 ⟨0, 0, true⟩⟩ }
    let e : Entry := { orderOf .tally tallyBody with claimed := true }
    let s := running e { walkingOn .tally tallyBody .sourceARead with request := .park 2, state := .yielding }
    (house.lane .lane0).work.faults = true ∧ house.writeHeld .lane0 = false ∧ house.readHeld .lane0 = false ∧
      (house.lane .lane0).buffer.entries[(1 : Fin 64)].overflow = true ∧ (s.lane .lane0).request = .park 2 ∧
      s.readHeld .lane0 = false ∧ e.claimed = true ∧ referencedSet e.header.kind e.body = some 0 ∧
      (s.lane .lane0).cell = some (CellWork.begin 0 0) := by decide +kernel

theorem test_meets_MemoryFault_of_an_access_that_is_held :
    let e := orderOf .compare (compareBody 0)
    let other : Lane := { laneOn (.destinationWrite 0x300 [0] true) with order := some 1 }
    let s (work : LaneWork) := (running e (walkingOn .compare (compareBody 0) work)).setLane .lane1 other
    (s (.destinationWrite 0x300 [1] false)).writeHeld .lane0 = true ∧ (s .destinationRead).readHeld .lane0 = true ∧
      ((s .destinationRead).lane .lane0).cell = some (CellWork.begin 0 0) ∧
      (s .destinationRead).entry? 0 = some e ∧ (s .sourceARead).readHeld .lane0 = false := by decide +kernel

theorem test_meets_SlateFault :
    ((sweepingAt (.headerRead 5)).faultOf .slateReader).isSome = true ∧
      ((tallying (.runningWrite false)).faultOf (.lane .lane0)).isSome = true ∧
      ((writingAt (.wordWrite (handOverOf false))).faultOf .completionWriter).isSome = true := by decide +kernel

theorem test_meets_SlateFault_by_access :
    let h := handOverOf false
    ((writingAt (.resultWrite h)).faultOf .completionWriter).map (fun f => (f.kind, f.address)) =
        some (.resultWrite, 0x1010) ∧ 0x1010 + 48 ≤ Config.topAddress + 1 ∧
      ((writingAt (.stateWrite h)).faultOf .completionWriter).map (fun f => f.kind) = some .stateWrite ∧
      (writingAt .idle).faultOf .completionWriter = none ∧ (tallying .sourceARead).faultOf (.lane .lane0) = none ∧
      (sweepingAt (.bodyRead 5 [])).faultOf .slateReader = none ∧
      ((sweepingAt (.handBackWrite 5)).faultOf .slateReader).map (fun f => f.kind) = some .handBackWrite ∧
      ((sweepingAt (.takenWrite 5 [] [])).faultOf .slateReader).map (fun f => f.kind) = some .takenWrite ∧
      (tallying (.parkedWrite 1)).writeHeld .lane0 = false := by decide +kernel

theorem test_meets_SlateFault_issued_writes :
    let s := (tallying (.runningWrite false)).setWriter { CompletionWriter.reset with step := .resultWrite (handOverOf false) }
    s.issued (issuerOf .completionWriter) = some (0x1010, resultArea (handOverOf false)) ∧
      s.issued (issuerOf (.lane .lane0)) = some (0x1001, [2]) ∧ (resultArea (handOverOf false)).length = 48 :=
  ⟨rfl, rfl, by decide +kernel⟩

/-! ### Housekeeping orders -/

/-- A housekeeping order on lane 0. -/
def housekeeping (kind : OrderKind) (body : List Byte) (work : LaneWork) (steps : Nat) : State :=
  running (orderOf kind body) { laneOn work with steps := steps }

/-- An image of one band, plus zero to plus zero. -/
def oneBandImage : List Byte :=
  [1, 0, 0, 0, 0, 0, 0, 0] ++ List.replicate 12 0 ++ [0x0C] ++ List.replicate 12 0 ++ [0x0C] ++ List.replicate 230 0

theorem test_meets_Bandset :
    let s := housekeeping .bandset (rangeBody 0 0 0) .startTest 0
    let used := s.setBandSet 0 { BandSet.powerOn with state := .loaded, uses := 1 }
    s.laneEntry .lane0 = some (orderOf .bandset (rangeBody 0 0 0)) ∧ (s.lane .lane0).steps = 0 ∧
      s.bandSets[bandsetNumber (rangeBody 0 0 0)].uses = 0 ∧ 0 < used.bandSets[bandsetNumber (rangeBody 0 0 0)].uses ∧
      oneBandImage.length = 264 ∧
      bandsValid (byteAt oneBandImage 0).toNat ((List.range 8).map (imageBand oneBandImage)) = true ∧
      bandsValid 0 ((List.range 8).map (imageBand [])) = false := by decide +kernel

theorem test_meets_Bandset_in_pausing :
    let s : State := { housekeeping .bandset (rangeBody 0 0 0) .imageRead 1 with engine := (inState .pausing).engine }
    s.engine.state = .pausing ∧ (s.lane .lane0).work = .imageRead ∧ (s.lane .lane0).steps = 1 ∧
      264 - (s.lane .lane0).image.length ≤ 264 ∧ 263 < 264 - (s.lane .lane0).image.length ∧
      s.laneEntry .lane0 = some (orderOf .bandset (rangeBody 0 0 0)) := by decide +kernel

theorem test_meets_LoadClaim :
    let s := housekeeping .bandset (rangeBody 7 0 0) .loadClaim 3
    (s.lane .lane0).work = .loadClaim ∧ (s.lane .lane0).order = some 0 ∧ bandsetNumber (rangeBody 7 0 0) = 7 ∧
      s.bandSets[(7 : Fin 8)].uses = 0 ∧ 0 < ({ BandSet.powerOn with uses := 1 } : BandSet).uses := by decide +kernel

theorem test_meets_Preset :
    let body := rangeBody 62 63 0
    let s := housekeeping .preset body .recordRead 1
    let record := totalRecord 63 ⟨-5, 2, true⟩
    firstAccum body ≤ lastAccum body ∧ lastAccum body ≤ 63 ∧ (s.lane .lane0).work = .recordRead ∧
      signedField 28 record 8 15 = some (-5) ∧ (byteAt record 0).toNat = firstAccum body + (s.lane .lane0).steps ∧
      signedField 28 (List.replicate 24 0) 8 15 = none ∧
      ((housekeeping .preset body .applyClaim 2).lane .lane0).work = .applyClaim := by decide +kernel

theorem test_meets_Snapshot :
    let body := rangeBody 62 63 1
    let s := housekeeping .snapshot body .recordWrite 2
    firstAccum body ≤ lastAccum body ∧ lastAccum body ≤ 63 ∧ (s.lane .lane0).work = .recordWrite ∧
      firstAccum body + (s.lane .lane0).steps = (63 : Fin 64).val + 1 ∧ s.writeHeld .lane0 = false ∧
      (byteAt body 8).getLsbD 0 = true ∧ (byteAt (rangeBody 62 63 0) 8).getLsbD 0 = false ∧
      ((housekeeping .snapshot body .latchClaim 0).lane .lane0).work = .latchClaim ∧
      ((housekeeping .snapshot body .clearClaim 3).lane .lane0).work = .clearClaim := by decide +kernel

theorem test_meets_Snapshot_held_or_in_paused :
    let body := rangeBody 62 63 0
    let s : State := { housekeeping .snapshot body .recordWrite 2 with engine := (inState .paused).engine }
    let held := s.setLane .lane1 { laneOn (.destinationWrite 0x418 [0] true) with order := some 1 }
    s.engine.state = .paused ∧ (s.lane .lane0).work = .recordWrite ∧ s.writeHeld .lane0 = false ∧
      held.writeHeld .lane0 = true ∧ firstAccum body + 1 = (62 : Fin 64).val + 1 := by decide +kernel

/-! ### Invariants -/

theorem test_meets_StepKeepsMemoryCanonical :
    (inState .running).memoryCanonical ∧ step (inState .running) = .next (inState .running) := ⟨rfl, rfl⟩

theorem test_meets_StepKeepsTotalsInLimits : (inState .running).TotalsInLimits where
  accums := fun i => by simpa [inState, State.reset] using Total.zero_inLimits
  staging := fun n => by cases n <;> exact Staging.start_inWidth
  buffers := fun n => by cases n <;> exact RecordBuffer.empty_inLimits
  banks := fun b c h => by simp [inState, State.reset] at h
  latch := Total.zero_inLimits

theorem test_meets_StepKeepsRecordsBalanced : (inState .running).RecordsBalanced where
  lanes := fun n c h => by cases n <;> cases h
  banks := fun b c h => by simp [inState, State.reset] at h
  hands := fun h hh => by cases hh

theorem test_meets_StepKeepsTheTableSound : (inState .running).TableSound where
  size := by decide
  slots := List.nodup_nil
  taking := fun k h => by cases h

theorem test_meets_StepKeepsSetsAndCounters_sets : (inState .running).SetsInUseLoaded := by
  intro i h
  simp [inState, State.reset, BandSet.powerOn] at h

theorem test_meets_StepKeepsSetsAndCounters_counters : (inState .running).CountersHold where
  notify := by decide
  parks := fun e h => by cases h
  limit := by decide
  timers := fun n => by cases n <;> decide
  banks := fun b c h => by simp [inState, State.reset] at h

theorem test_meets_HaltedEndsOnlyAtAReset : (inState .halted).Halted ∧ (inState .halted).pending.head? = none :=
  ⟨⟨rfl, rfl, fun n => by cases n <;> exact ⟨rfl, rfl, .inl rfl⟩, rfl, rfl, rfl⟩, rfl⟩

end Sys2Proof.Tests
end

section
/-! Scaling and output saturation, by the tables of R12, R13, R15, R16 and R17. -/

namespace Sys2Proof.Machine

/-! ## Scaling -/

/-- Scaling by a power that is not negative multiplies and holds the product (R12). -/
theorem scaleValue_natCast (k : Nat) (half : Bool) (v : Int) :
    scaleValue k half v = clampTo Config.maxWorking (v * 10 ^ k) := by
  unfold scaleValue
  rw [if_pos (Int.natCast_nonneg k), Int.toNat_natCast]

/-- Scaling by a negative power divides the magnitude, raises the quotient where rounding says so, and never saturates
(R13). -/
theorem scaleValue_neg_natCast {k : Nat} (hk : 1 ≤ k) (half : Bool) (v : Int) :
    scaleValue (-(k : Int)) half v =
      ((if v < 0 then -1 else 1) *
        ((v.natAbs / 10 ^ k + if half && decide (10 ^ k ≤ 2 * (v.natAbs % 10 ^ k)) then 1 else 0 : Nat) : Int),
        false) := by
  unfold scaleValue
  rw [if_neg (by omega), neg_neg, Int.toNat_natCast]
  dsimp only
  generalize (half && decide (10 ^ k ≤ 2 * (v.natAbs % 10 ^ k))) = raised
  have hq : ∀ q : Nat, (if raised = true then q + 1 else q) = q + if raised = true then 1 else 0 := by
    intro q; cases raised <;> rfl
  rw [hq]
  split
  · rw [neg_one_mul]
  · rw [one_mul]

/-- A remainder is half of 10^k or more when its top digit is 5 or more. -/
theorem ten_pow_le_two_mul_iff {k : Nat} (hk : 1 ≤ k) (d : Nat) : 10 ^ k ≤ 2 * d ↔ 5 * 10 ^ (k - 1) ≤ d := by
  obtain ⟨j, rfl⟩ := Nat.exists_eq_add_of_le' hk
  rw [Nat.pow_succ, Nat.add_sub_cancel]
  omega

/-- Truncation (R13). -/
theorem scaleValue_truncate {k : Nat} (hk : 1 ≤ k) (v : Int) :
    scaleValue (-(k : Int)) false v = ((if v < 0 then -1 else 1) * ((v.natAbs / 10 ^ k : Nat) : Int), false) := by
  rw [scaleValue_neg_natCast hk]
  rfl

/-- Rounding half up below the half (R13). -/
theorem scaleValue_round_down {k : Nat} (hk : 1 ≤ k) (v : Int) (hd : v.natAbs % 10 ^ k < 5 * 10 ^ (k - 1)) :
    scaleValue (-(k : Int)) true v = ((if v < 0 then -1 else 1) * ((v.natAbs / 10 ^ k : Nat) : Int), false) := by
  have hn : ¬ 10 ^ k ≤ 2 * (v.natAbs % 10 ^ k) := by rw [ten_pow_le_two_mul_iff hk]; exact Nat.not_le.2 hd
  rw [scaleValue_neg_natCast hk, decide_eq_false hn]
  rfl

/-- Rounding half up from the half on (R13). -/
theorem scaleValue_round_up {k : Nat} (hk : 1 ≤ k) (v : Int) (hd : 5 * 10 ^ (k - 1) ≤ v.natAbs % 10 ^ k) :
    scaleValue (-(k : Int)) true v =
      ((if v < 0 then -1 else 1) * (((v.natAbs / 10 ^ k : Nat) : Int) + 1), false) := by
  rw [scaleValue_neg_natCast hk, decide_eq_true ((ten_pow_le_two_mul_iff hk _).2 hd)]
  rfl

/-! ## Saturation at the output -/

/-- The saturation into 0 to `top`, by cases. -/
theorem clampUnsigned_table (top v : Int) (h : 0 ≤ top) : (v ≤ -1 → clampUnsigned top v = (0, true)) ∧
    (0 ≤ v → v ≤ top → clampUnsigned top v = (v, false)) ∧ (top + 1 ≤ v → clampUnsigned top v = (top, true)) := by
  unfold clampUnsigned
  refine ⟨fun hv => ?_, fun h0 hv => ?_, fun hv => ?_⟩
  · rw [if_pos (by omega)]
  · rw [if_neg (by omega), if_neg (by omega)]
  · rw [if_neg (by omega), if_pos (by omega)]

/-- Saturation to a signed decimal of `n` digits (R15). -/
theorem saturate_signed_table (n : Nat) (v : Int) :
    (v ≤ -10 ^ n → (OutputClass.signed n).saturate v = (-(10 ^ n - 1), true)) ∧
      (-(10 ^ n - 1) ≤ v → v ≤ 10 ^ n - 1 → (OutputClass.signed n).saturate v = (v, false)) ∧
      (10 ^ n ≤ v → (OutputClass.signed n).saturate v = (10 ^ n - 1, true)) := by
  have hpos : (0 : Int) < 10 ^ n := by positivity
  obtain ⟨inside, above, below⟩ := clampTo_table (10 ^ n - 1) v (by omega)
  exact ⟨fun h => below (by omega), inside, fun h => above (by omega)⟩

/-- Saturation to an unsigned decimal of `n` digits (R16). -/
theorem saturate_unsigned_table (n : Nat) (v : Int) :
    (v ≤ -1 → (OutputClass.unsigned n).saturate v = (0, true)) ∧
      (0 ≤ v → v ≤ 10 ^ n - 1 → (OutputClass.unsigned n).saturate v = (v, false)) ∧
      (10 ^ n ≤ v → (OutputClass.unsigned n).saturate v = (10 ^ n - 1, true)) := by
  have hpos : (0 : Int) < 10 ^ n := by positivity
  obtain ⟨below, inside, above⟩ := clampUnsigned_table (10 ^ n - 1) v (by omega)
  exact ⟨below, inside, fun h => above (by omega)⟩

/-- Saturation to a binary value of `b` bits (R17). -/
theorem saturate_binary_table (b : Nat) (v : Int) :
    (v ≤ -1 → (OutputClass.binary b).saturate v = (0, true)) ∧
      (0 ≤ v → v ≤ 2 ^ b - 1 → (OutputClass.binary b).saturate v = (v, false)) ∧
      (2 ^ b ≤ v → (OutputClass.binary b).saturate v = (2 ^ b - 1, true)) := by
  have hpos : (0 : Int) < 2 ^ b := by positivity
  obtain ⟨below, inside, above⟩ := clampUnsigned_table (2 ^ b - 1) v (by omega)
  exact ⟨below, inside, fun h => above (by omega)⟩

/-- Settles O51: scaling up and the signed saturation by `clampTo_table`, scaling down by its rounding lemmas, the
unsigned saturations by `clampUnsigned_table`. -/
theorem scalingAndSaturationFollowTheTables : Obligations.ScalingAndSaturationFollowTheTables := by
  have hmax : Config.maxWorking = 10 ^ 32 - 1 := rfl
  refine ⟨fun half v hl hu => ?_, fun k half v _ _ => ?_, fun k v hk _ => ?_, fun n v _ => saturate_signed_table n v,
    fun n v _ => saturate_unsigned_table n v, fun b v _ => saturate_binary_table b v⟩
  · obtain ⟨inside, -, -⟩ := clampTo_table Config.maxWorking v (by decide)
    have h := scaleValue_natCast 0 half v
    rw [pow_zero, mul_one] at h
    exact h.trans (inside hl hu)
  · rw [scaleValue_natCast, hmax]
    obtain ⟨inside, above, below⟩ := clampTo_table (10 ^ 32 - 1) (v * 10 ^ k) (by decide)
    exact ⟨fun h => inside (by omega) (by omega), above, below⟩
  · exact ⟨scaleValue_truncate hk v, scaleValue_round_down hk v, scaleValue_round_up hk v⟩

end Sys2Proof.Machine
end

section
/-! Cells written and read back, and which bytes hold no value (R2 to R8, R32). -/

namespace Sys2Proof.Machine

/-! ## When the bytes of a decimal cell hold a value -/

/-- When the digit nibbles are not all digits (R6). -/
theorem digitsOk_eq_false_iff (n raw : Nat) : digitsOk n raw = false ↔ ∃ k, k < n ∧ 9 < raw / 16 ^ k % 16 := by
  rw [← Bool.not_eq_true, digitsOk_iff]
  push Not
  rfl

/-- A DEC-n cell holds no value where a digit nibble is above 9 or the pad nibble is not 0 (R6). -/
theorem decode_dec_eq_none_iff (n bit : Nat) (bytes : List Byte) : (CellFormat.dec n).decode bit bytes = none ↔
    (∃ k, k < n ∧ 9 < beValue bytes / 16 ^ k % 16) ∨ beValue bytes / 16 ^ n ≠ 0 := by
  show (if _ then _ else _) = none ↔ _
  rw [← digitsOk_eq_false_iff, ite_eq_right_iff, ← Bool.not_eq_true]
  simp only [reduceCtorEq, imp_false]
  exact not_and_or

/-- A DEC-n cell that holds a value holds the value of its digits (R2). -/
theorem decode_dec_eq_some {n bit : Nat} {bytes : List Byte} {v : Int}
    (h : (CellFormat.dec n).decode bit bytes = some v) :
    0 ≤ v ∧ v < 10 ^ n ∧ ∀ k, k < n → v.natAbs / 10 ^ k % 10 = beValue bytes / 16 ^ k % 16 := by
  obtain ⟨⟨hd, -⟩, hv⟩ := Option.ite_none_right_eq_some.1 h
  obtain rfl := Option.some.inj hv
  exact ⟨Int.natCast_nonneg _, by exact_mod_cast digitsValue_lt n _ hd, digitsValue_digit n _ hd⟩

/-- An SDEC-n cell holds no value where a digit nibble is above 9, the sign nibble is no sign, or the pad nibble is not
0 (R6). -/
theorem decode_sdec_eq_none_iff (n bit : Nat) (bytes : List Byte) : (CellFormat.sdec n).decode bit bytes = none ↔
    (∃ k, k < n ∧ 9 < beValue bytes / 16 ^ (k + 1) % 16) ∨
      (beValue bytes % 16 ≠ 0xC ∧ beValue bytes % 16 ≠ 0xD) ∨ beValue bytes / 16 ^ (n + 1) ≠ 0 := by
  show (if beValue bytes / 16 ^ (n + 1) = 0 then unpackSigned n (beValue bytes) else none) = none ↔ _
  rw [← or_assoc, ← unpackSigned_eq_none]
  split
  next hpad => simp [hpad]
  next hpad => simp [hpad]

/-- An SDEC-n cell that holds a value holds the value of its digits and sign (R3, R7). -/
theorem decode_sdec_eq_some {n bit : Nat} {bytes : List Byte} {v : Int}
    (h : (CellFormat.sdec n).decode bit bytes = some v) :
    v.natAbs < 10 ^ n ∧ (∀ k, k < n → v.natAbs / 10 ^ k % 10 = beValue bytes / 16 ^ (k + 1) % 16) ∧
      (v ≠ 0 → (v < 0 ↔ beValue bytes % 16 = 0xD)) :=
  unpackSigned_value (Option.ite_none_right_eq_some.1 h).2

/-! ## Written cells -/

/-- A packed signed value is read back (R3, R8). -/
theorem unpackSigned_packSigned (n : Nat) (v : Int) (h : v.natAbs < 10 ^ n) :
    unpackSigned n (packSigned n v) = some v := by
  have hok := digitsOk_packDigits n v.natAbs
  have hval : digitsValue n (packDigits n v.natAbs) = v.natAbs := by
    rw [digitsValue_packDigits, Nat.mod_eq_of_lt h]
  unfold unpackSigned packSigned plusCode minusCode
  by_cases hv : v < 0
  · have hdiv : (16 * packDigits n v.natAbs + 0xD) / 16 = packDigits n v.natAbs := by omega
    have hmod : (16 * packDigits n v.natAbs + 0xD) % 16 = 0xD := by omega
    rw [if_pos hv, hdiv, hmod, if_pos hok, if_neg (by decide), if_pos rfl, hval]
    exact congrArg some (by omega)
  · have hdiv : (16 * packDigits n v.natAbs + 0xC) / 16 = packDigits n v.natAbs := by omega
    have hmod : (16 * packDigits n v.natAbs + 0xC) % 16 = 0xC := by omega
    rw [if_neg hv, hdiv, hmod, if_pos hok, if_pos rfl, hval]
    exact congrArg some (by omega)

/-- A DEC-n cell's value is read back (R2, R8). -/
theorem decode_encode_dec (n bit : Nat) (v : Int) (h0 : 0 ≤ v) (h : v < 10 ^ n) :
    (CellFormat.dec n).decode bit ((CellFormat.dec n).encode v) = some v := by
  have hraw : beValue ((CellFormat.dec n).encode v) = packDigits n v.toNat :=
    beValue_beBytes_lt ((n + 1) / 2) _ n (packDigits_lt n _) (by omega)
  have hv : v.toNat < 10 ^ n := by rw [Int.toNat_lt h0]; exact_mod_cast h
  refine Option.ite_none_right_eq_some.2 ?_
  rw [hraw]
  refine ⟨⟨digitsOk_packDigits n _, Nat.div_eq_of_lt (packDigits_lt n _)⟩, ?_⟩
  rw [digitsValue_packDigits, Nat.mod_eq_of_lt hv, Int.toNat_of_nonneg h0]

/-- An SDEC-n cell's value is read back (R3, R8). -/
theorem decode_encode_sdec (n bit : Nat) (v : Int) (h : v.natAbs < 10 ^ n) :
    (CellFormat.sdec n).decode bit ((CellFormat.sdec n).encode v) = some v := by
  have hraw : beValue ((CellFormat.sdec n).encode v) = packSigned n v :=
    beValue_beBytes_lt ((n + 2) / 2) _ (n + 1) (packSigned_lt n v) (by omega)
  refine Option.ite_none_right_eq_some.2 ?_
  rw [hraw]
  exact ⟨Nat.div_eq_of_lt (packSigned_lt n v), unpackSigned_packSigned n v h⟩

/-- A value that fits its bytes is read back from little-endian bytes (R4). -/
theorem leValue_leBytes_toNat (n : Nat) (v : Int) (h0 : 0 ≤ v) (h : v < 256 ^ n) :
    ((leValue (leBytes n v.toNat) : Nat) : Int) = v := by
  have hv : v.toNat < 256 ^ n := by rw [Int.toNat_lt h0]; exact_mod_cast h
  rw [leValue_leBytes, Nat.mod_eq_of_lt hv, Int.toNat_of_nonneg h0]

/-! ## FIELD cells, bit by bit -/

/-- A FIELD write replaces `w` bits from `bit` on and leaves the others (R5, R32). -/
theorem testBit_replaced (o u w bit k : Nat) :
    (o % 2 ^ bit + u % 2 ^ w * 2 ^ bit + o / 2 ^ (bit + w) * 2 ^ (bit + w)).testBit k =
      if k < bit ∨ bit + w ≤ k then o.testBit k else u.testBit (k - bit) := by
  have hlow : 2 ^ bit * (u % 2 ^ w) + o % 2 ^ bit < 2 ^ (bit + w) := by
    have hu : u % 2 ^ w + 1 ≤ 2 ^ w := Nat.mod_lt u (Nat.two_pow_pos w)
    calc 2 ^ bit * (u % 2 ^ w) + o % 2 ^ bit
        < 2 ^ bit * (u % 2 ^ w) + 2 ^ bit := Nat.add_lt_add_left (Nat.mod_lt o (Nat.two_pow_pos bit)) _
      _ = 2 ^ bit * (u % 2 ^ w + 1) := by ring
      _ ≤ 2 ^ bit * 2 ^ w := Nat.mul_le_mul_left _ hu
      _ = 2 ^ (bit + w) := (Nat.pow_add 2 bit w).symm
  have hsum : o % 2 ^ bit + u % 2 ^ w * 2 ^ bit + o / 2 ^ (bit + w) * 2 ^ (bit + w) =
      2 ^ (bit + w) * (o / 2 ^ (bit + w)) + (2 ^ bit * (u % 2 ^ w) + o % 2 ^ bit) := by ring
  rw [hsum, Nat.testBit_two_pow_mul_add _ hlow,
    Nat.testBit_two_pow_mul_add _ (Nat.mod_lt o (Nat.two_pow_pos bit)),
    Nat.testBit_mod_two_pow, Nat.testBit_mod_two_pow, Nat.testBit_div_two_pow]
  by_cases hb : k < bit
  · simp [hb, Nat.lt_add_right w hb]
  · by_cases hw : k < bit + w
    · have hkw : k - bit < w := by omega
      simp [hb, hw, Nat.not_le.2 hw, hkw]
    · simp [hb, hw, Nat.not_lt.1 hw]

/-- The bytes after a FIELD write, bit by bit, where the cell lies inside them (R32). -/
theorem testBit_merge_field (w bit : Nat) (old : List Byte) (v : Int) (h : bit + w ≤ 8 * old.length) (k : Nat) :
    (leValue ((CellFormat.field w).merge bit 0 old v)).testBit k =
      if k < bit ∨ bit + w ≤ k then (leValue old).testBit k else v.toNat.testBit (k - bit) := by
  have h256 : 256 ^ old.length = 2 ^ (8 * old.length) := by rw [Nat.pow_mul]
  have hold : leValue old < 2 ^ (8 * old.length) := h256 ▸ leValue_lt old
  show (leValue (leBytes old.length _)).testBit k = _
  rw [leValue_leBytes, h256, Nat.mod_eq_of_lt, testBit_replaced]
  rw [lt_two_pow_iff]
  intro j hj
  rw [testBit_replaced, if_pos (.inr (h.trans hj))]
  exact (lt_two_pow_iff _ _).1 hold j hj

/-- A FIELD cell's value is read back from the bytes it was written into (R5, R32). -/
theorem decode_merge_field (w bit : Nat) (old : List Byte) (v : Int) (h : bit + w ≤ 8 * old.length) (h0 : 0 ≤ v)
    (hv : v < 2 ^ w) : (CellFormat.field w).decode bit ((CellFormat.field w).merge bit 0 old v) = some v := by
  have hlt : v.toNat < 2 ^ w := by rw [Int.toNat_lt h0]; exact_mod_cast hv
  have hbits : leValue ((CellFormat.field w).merge bit 0 old v) / 2 ^ bit % 2 ^ w = v.toNat := by
    refine Nat.eq_of_testBit_eq fun j => ?_
    rw [Nat.testBit_mod_two_pow, Nat.testBit_div_two_pow, testBit_merge_field w bit old v h]
    by_cases hj : j < w
    · rw [if_neg (by omega), Nat.add_sub_cancel]; simp [hj]
    · simp [hj, (lt_two_pow_iff _ _).1 hlt j (Nat.not_lt.1 hj)]
  show some ((_ : Nat) : Int) = some v
  rw [hbits, Int.toNat_of_nonneg h0]

/-- Settles O54: one lemma per format for the cell read back, the FIELD frame bit by bit, and the DEC and SDEC bytes
with and without a value from their nibbles. -/
theorem writtenCellsReadBack : Obligations.WrittenCellsReadBack := by
  refine ⟨fun n v _ _ h0 h => decode_encode_dec n 0 v h0 h, fun n v _ _ hl hu => decode_encode_sdec n 0 v ?_,
    fun v h0 h => congrArg some (leValue_leBytes_toNat 2 v h0 h),
    fun v h0 h => congrArg some (leValue_leBytes_toNat 4 v h0 h),
    fun w bit old v _ _ hfit h0 h => ⟨decode_merge_field w bit old v hfit h0 h, fun k hk => ?_⟩,
    fun n bit bytes => ⟨decode_dec_eq_none_iff n bit bytes, fun v => decode_dec_eq_some,
      decode_sdec_eq_none_iff n bit bytes, fun v => decode_sdec_eq_some, rfl, rfl, rfl⟩⟩
  · zify
    exact abs_lt.2 ⟨hl, hu⟩
  · rw [testBit_merge_field w bit old v hfit, if_pos hk]

end Sys2Proof.Machine
end

section
/-! Cell and exception counts stay in balance at every step (R37, R94, R114). -/

namespace Sys2Proof.Machine

/-! ## One µs -/

section
variable {L : Lane → Prop} {B : ParkBank → Prop} {R : OrderRecord → Prop}

theorem State.Contexts.tickLane (H : Closed L B R) (hT : ∀ (l : Lane) (k : Nat), L l → L { l with runTimer := k })
    {s : State} (h : s.Contexts L B R) (n : LaneId) : (s.tickLane n).Contexts L B R := by
  unfold State.tickLane
  split
  next =>
    have counted := h.setLane n (hT _ (min ((s.lane n).runTimer + 1) Config.maxRunTime) (h.lanes n))
    dsimp only
    split
    · exact counted.post H n _
    · exact counted
  next => exact h

theorem State.Contexts.tickSweep {s : State} (h : s.Contexts L B R) : s.tickSweep.Contexts L B R := by
  unfold State.tickSweep
  split
  · split
    · exact (h.setSlate _).requestSweep
    · exact h.setSlate _
  · exact h

/-- Every step keeps a closed property of contexts that stands under any run timer. -/
theorem State.Contexts.step (H : Closed L B R) (hT : ∀ (l : Lane) (k : Nat), L l → L { l with runTimer := k })
    (C : ∀ s : State, s.Contexts L B R → CommandsClosed L s) {s t : State} (h : s.Contexts L B R)
    (hs : step s = .next t) : t.Contexts L B R := by
  unfold Machine.step at hs
  split at hs
  next =>
    obtain rfl := Host.Outcome.next.inj hs
    exact ((h.tickLane H hT .lane0).tickLane H hT .lane1).tickSweep
  next c rest _ =>
    have front : ({ s with pending := rest } : State).Contexts L B R :=
      h.of_eq (fun n => by cases n <;> rfl) rfl rfl
    exact front.exec H (C _ front) c hs

end

/-! ## Records that balance -/

/-- The record that a lane holds balances. -/
def Lane.RecordBalanced (l : Lane) : Prop := ∀ c, l.context = some c → c.record.Balanced

/-- The record that a bank holds balances. -/
def ParkBank.RecordBalanced (b : ParkBank) : Prop := ∀ c, b = .holding c → c.record.Balanced

theorem OrderRecord.balanced_start : OrderRecord.start.Balanced := ⟨rfl, rfl, rfl⟩

theorem Lane.recordBalanced_of_none {l : Lane} (h : l.context = none) : l.RecordBalanced := by
  intro c hc
  rw [h] at hc
  cases hc

theorem Lane.recordBalanced_of_some {l : Lane} {c : WalkContext} (h : l.context = some c) (hc : c.record.Balanced) :
    l.RecordBalanced := by
  intro c' hc'
  obtain rfl := Option.some.inj (h.symm.trans hc')
  exact hc

theorem Lane.recordBalanced_congr {l l' : Lane} (h : l'.context = l.context) (hl : l.RecordBalanced) :
    l'.RecordBalanced := fun c hc => hl c (h ▸ hc)

/-- A record balances wherever it goes: it starts balanced, grows balanced, and is moved whole. -/
theorem closed_recordBalanced : Closed Lane.RecordBalanced ParkBank.RecordBalanced OrderRecord.Balanced where
  same _ _ _ _ hc _ := Lane.recordBalanced_congr hc
  grow _ _ c _ hc hc' grows _ _ _ hl := Lane.recordBalanced_of_some hc' (OrderRecord.balanced_grows grows (hl c hc))
  contribute _ _ _ := Lane.recordBalanced_congr rfl
  ending _ _ := Lane.recordBalanced_of_none rfl
  reset := Lane.recordBalanced_of_none rfl
  fresh e := by
    cases hk : e.header.kind.housekeeping
    · exact Lane.recordBalanced_of_some (c := freshContext e.header.kind e.body) (by simp [freshLane, hk])
        OrderRecord.balanced_start
    · exact Lane.recordBalanced_of_none (by simp [freshLane, hk])
  free _ hc := nomatch hc
  reserved _ _ hc := nomatch hc
  resumed _ c hb := Lane.recordBalanced_of_some rfl (hb c rfl)
  park _ _ c hc hl := by
    rintro _ ⟨⟩
    exact hl c hc
  start := OrderRecord.balanced_start
  walk _ c hc hl := hl c hc
  banked c hb := hb c rfl

/-- No command touches a record but in the ways of `Closed`. -/
theorem commandsClosed_recordBalanced (s : State)
    (h : s.Contexts Lane.RecordBalanced ParkBank.RecordBalanced OrderRecord.Balanced) :
    CommandsClosed Lane.RecordBalanced s where
  latch n _ := Lane.recordBalanced_congr rfl (h.lanes n)
  record n _ _ _ _ _ := Lane.recordBalanced_congr rfl (h.lanes n)
  limit n := Lane.recordBalanced_congr rfl (h.lanes n)
  halted _ := Lane.recordBalanced_congr rfl

theorem State.recordsBalanced_iff (s : State) :
    s.RecordsBalanced ↔ s.Contexts Lane.RecordBalanced ParkBank.RecordBalanced OrderRecord.Balanced :=
  ⟨fun h => ⟨h.lanes, h.banks, h.hands⟩, fun h => ⟨h.lanes, h.banks, h.hands⟩⟩

/-- Settles O57: balance is a closed property of contexts, so every step keeps it. -/
theorem stepKeepsRecordsBalanced : Obligations.StepKeepsRecordsBalanced := by
  intro s t h hs
  rw [State.recordsBalanced_iff] at h ⊢
  exact h.step closed_recordBalanced (fun _ _ => Lane.recordBalanced_congr rfl) commandsClosed_recordBalanced hs

end Sys2Proof.Machine
end

section
/-! What a reset leaves, and the first start of a waiting order (R31, R163, R164, R174, R194). -/

namespace Sys2Proof.Machine

/-! ## SOFT_RESET -/

/-- SOFT_RESET leaves the power-on state, but for what it keeps, the IRQ enables it carries and the writes it lands
(R194). -/
theorem exec_softReset (s : State) (irq : StickyBits) :
    exec (.softReset irq) s = .next { State.reset with
      part := s.part
      mem := s.landIssued.mem
      engine := { Engine.powerOn with anchorReg := s.engine.anchorReg, irqEnables := irq }
      bandSets := s.bandSets.map (fun b => { b with uses := 0 })
      accums := s.accums
      readData := s.readData
      free := s.free
      pending := s.pending } := rfl

/-- Settles O5: the reset values by evaluation, memory by the laws of landing. -/
theorem softResetKeepsTotalsAndSets : Obligations.SoftResetKeepsTotalsAndSets := by
  intro s irq
  refine ⟨_, exec_softReset s irq, ?values, rfl, rfl, ?sets, rfl, rfl, rfl, rfl, ?outside, ?landed⟩
  case values =>
    refine ⟨⟨rfl, rfl, rfl, rfl, rfl⟩, ⟨rfl, rfl, rfl, rfl, rfl⟩, rfl, fun n => ?_, fun b => ?_, rfl, fun i => ?_, rfl,
      ⟨rfl, rfl, rfl, rfl, rfl⟩⟩
    · cases n <;> exact ⟨rfl, rfl, rfl, rfl, rfl, rfl, rfl, rfl, rfl, rfl, rfl, rfl⟩
    · exact vector_get_replicate 4 ParkBank.free b
    · exact congrArg BandSet.uses (Vector.getElem_map _ i.isLt)
  case sets => exact fun i => Vector.getElem_map _ i.isLt
  case outside => exact fun hm x h0 h1 h2 h3 => State.landIssued_outside hm x h0 h1 h2 h3
  case landed => exact fun hm k => State.landIssued_landed hm k

/-! ## START_EVENT -/

theorem State.idleLane_eq_some_iff (s : State) (n : LaneId) :
    s.idleLane = some n ↔ (s.lane n).state = .idle ∧ (n = .lane1 → s.lane0.state ≠ .idle) := by
  unfold State.idleLane
  by_cases h0 : s.lane0.state = .idle <;> by_cases h1 : s.lane1.state = .idle <;> cases n <;> simp [h0, h1]

theorem State.idleLane_eq_none {s : State} (h : ∀ n, (s.lane n).state ≠ .idle) : s.idleLane = none := by
  refine Option.eq_none_iff_forall_ne_some.2 fun n hn => ?_
  exact h n ((s.idleLane_eq_some_iff n).1 hn).1

/-- A start event outside RUNNING, without an IDLE lane or without an entry to choose starts nothing (R163). -/
theorem exec_startEvent_of_nothing {s : State}
    (h : s.engine.state ≠ .running ∨ (∀ n, (s.lane n).state ≠ .idle) ∨ s.startChoice = none) :
    exec .startEvent s = .next s := by
  show execStartEvent s = _
  unfold execStartEvent
  split
  next n e hr hn he =>
    rcases h with h | h | h
    · exact absurd hr h
    · rw [State.idleLane_eq_none h] at hn
      cases hn
    · rw [h] at he
      cases he
  next => rfl

/-- A start event that chooses a WAITING entry starts it (R164). -/
theorem exec_startEvent_waiting {s : State} {n : LaneId} {e : Entry} (hr : s.engine.state = .running)
    (hn : s.idleLane = some n) (he : s.startChoice = some e) (hw : e.phase = .waiting) :
    exec .startEvent s = .next (s.firstStart n e) := by
  show execStartEvent s = _
  simp [execStartEvent, hr, hn, he, hw]

/-- Settles O30: the lane served by its two states, the fresh lane field by field. -/
theorem startEventFirstStart : Obligations.StartEventFirstStart := by
  intro s
  refine ⟨s.idleLane_eq_some_iff, exec_startEvent_of_nothing, fun n e hr hn he hw => ?_⟩
  refine ⟨freshLane e, exec_startEvent_waiting hr hn he hw, rfl, rfl, rfl, rfl, rfl, rfl, rfl, rfl, rfl,
    fun hk => ?_, fun hk => ?_⟩
  · simp [freshLane, hk]
  · exact ⟨freshContext e.header.kind e.body, by simp [freshLane, hk], rfl, rfl, rfl, fun hp => if_pos hp⟩

end Sys2Proof.Machine
end

section
/-! The first access of an order, the walk over its window, and the mark bit of a cell (R22, R24 to R28, R137, R164). -/

namespace Sys2Proof.Machine

/-! ## Writes that a lane has issued -/

theorem State.laneWrite_runningWrite {s : State} {n : LaneId} {resume : Bool} {slot : Nat}
    (hw : (s.lane n).work = .runningWrite resume) (ho : (s.lane n).order = some slot) :
    s.laneWrite n = some (s.slotAddr slot + 1, [2]) := by
  simp [State.laneWrite, hw, ho]

/-- An issued write that lands leaves its bytes and no other. -/
theorem State.written_land_laneWrite {s : State} {n : LaneId} {a : Nat} {bytes : List Byte}
    (hw : s.laneWrite n = some (a, bytes)) (hm : s.memoryCanonical) :
    Memory.Written s.mem (s.mem.land (s.laneWrite n)) a bytes :=
  hw ▸ Memory.written_land hm a bytes

/-! ## The RUNNING write accepted -/

theorem State.beginCell_eq {s : State} {n : LaneId} {e : Entry} (he : s.laneEntry n = some e) :
    s.beginCell n = s.setLane n ((s.lane n).beginCell e) := by
  simp [State.beginCell, he]

/-- A lane that makes its order's first claim or access (R164). -/
def Lane.firstAccess (e : Entry) (l : Lane) : Lane :=
  match e.header.kind with
  | .bandset => { l with work := .startTest }
  | .snapshot => { l with work := .latchClaim }
  | .preset => { l with work := .recordRead }
  | .tally | .difference | .compare | .convert | .pattern =>
    if (referencedSet e.header.kind e.body).isSome then { l with work := .startClaim } else l.beginCell e

/-- The first claim or access changes the lane and nothing else. -/
theorem State.firstAccess_eq {s : State} {n : LaneId} {e : Entry} (he : s.laneEntry n = some e) :
    s.firstAccess n e = s.setLane n ((s.lane n).firstAccess e) := by
  unfold State.firstAccess Lane.firstAccess
  cases e.header.kind <;> dsimp only
  case bandset | preset | snapshot => rfl
  all_goals
    split
    · rfl
    · exact State.beginCell_eq he

theorem Lane.firstAccess_of_referencedSet {e : Entry} (l : Lane)
    (h : (referencedSet e.header.kind e.body).isSome = true) : l.firstAccess e = { l with work := .startClaim } := by
  unfold Lane.firstAccess
  cases hk : e.header.kind <;> rw [hk] at h <;> dsimp only
  case bandset | preset | snapshot => cases h
  all_goals exact if_pos h

theorem Lane.firstAccess_of_no_set {e : Entry} (l : Lane) (hk : e.header.kind.housekeeping = false)
    (h : referencedSet e.header.kind e.body = none) : l.firstAccess e = l.beginCell e := by
  unfold Lane.firstAccess
  cases hk' : e.header.kind <;> rw [hk'] at h hk <;> dsimp only
  case bandset | preset | snapshot => cases hk
  all_goals exact if_neg (by simp [h])

/-- An accepted RUNNING write begins the next cell of a resumed order, and the first access of any other (R164,
R165). -/
theorem exec_progressRunningAccept {s : State} {n : LaneId} {resume : Bool} {e : Entry}
    (hw : (s.lane n).work = .runningWrite resume) (he : s.laneEntry n = some e) (hh : s.writeHeld n = false) :
    exec (.progressRunningAccept n) s = .next ((s.setMem (s.mem.land (s.laneWrite n))).setLane n
      (if resume then (s.lane n).beginCell e else (s.lane n).firstAccess e)) := by
  have he' : (s.setMem (s.mem.land (s.laneWrite n))).laneEntry n = some e := (s.laneEntry_setMem _ n).trans he
  show execProgressRunningAccept n s = _
  cases resume
  · simp [execProgressRunningAccept, hw, he, hh, State.firstAccess_eq he']
  · simp [execProgressRunningAccept, hw, he, hh, State.beginCell_eq he']

/-- A write that waits for the other lane's claim is not accepted (R33). -/
theorem exec_progressRunningAccept_of_held {s : State} {n : LaneId} (hh : s.writeHeld n = true) :
    exec (.progressRunningAccept n) s = .next s := by
  show execProgressRunningAccept n s = _
  unfold execProgressRunningAccept
  split
  · rw [if_pos hh]
  · rfl

/-! ## Mark planes and generated values -/

theorem hasMarkPlane_iff (kind : OrderKind) (body : List Byte) :
    hasMarkPlane kind body = true ↔ kind ≠ .pattern ∧ leField body 72 4 ≠ 0 := by
  have plane : decide ((markPlane body).1 ≠ 0) = true ↔ leField body 72 4 ≠ 0 := decide_eq_true_iff
  cases kind
  case pattern => simp [hasMarkPlane]
  all_goals exact plane.trans (by simp)

theorem generatedValue_table (body : List Byte) (ramp v : Int) (r c : Nat) (hv : signedField 24 body 140 13 = some v) :
    ((byteAt body 153).toNat = 0 → generatedValue body ramp r c = v) ∧
    ((byteAt body 153).toNat = 1 → generatedValue body ramp r c = ramp) ∧
    (∀ x, (byteAt body 153).toNat = 2 → signedField 24 body 177 13 = some x →
      generatedValue body ramp r c = if (r + c) % 2 = 0 then v else x) := by
  have hV : constantOf body = v := by simp [constantOf, hv]
  refine ⟨fun h => ?_, fun h => ?_, fun x h hx => ?_⟩
  · simp [generatedValue, h, hV]
  · simp [generatedValue, h]
  · simp [generatedValue, h, hV, secondOf, hx]

/-- Settles O34: the lane by its kind's first access or `CellBegun`, the walk and the rectangle by their laws. -/
theorem progressRunningAcceptBeginsTheOrder : Obligations.ProgressRunningAcceptBeginsTheOrder := by
  refine ⟨fun s n resume slot e hw ho he hh => ?_,
    fun body k => ⟨rfl, rfl, rfl, cellAt_cells body⟩, excludes_iff, hasMarkPlane_iff, generatedValue_table,
    fun g => ⟨fun _ => rfl, rfl, rfl, fun _ => rfl, fun _ => rfl⟩, fun s n => exec_progressRunningAccept_of_held⟩
  have hl := State.laneEntry_of_order ho he
  refine ⟨_, _, exec_progressRunningAccept hw hl hh,
    State.written_land_laneWrite (State.laneWrite_runningWrite hw ho), ?bandset, ?snapshot, ?preset, ?claim, ?cell⟩
  case bandset | snapshot | preset =>
    rintro rfl hk
    simp [Lane.firstAccess, hk]
  case claim =>
    rintro rfl hset
    exact Lane.firstAccess_of_referencedSet _ hset
  case cell =>
    intro c hc hcase
    have begun := Lane.cellBegun_beginCell e (s.lane n) c hc
    cases resume
    · obtain ⟨hk, hset⟩ := hcase.resolve_left Bool.false_ne_true
      rw [if_neg Bool.false_ne_true, Lane.firstAccess_of_no_set _ hk hset]
      exact begun
    · exact begun

/-! ## The mark read answered -/

theorem exec_markReadDone {s : State} {n : LaneId} {e : Entry} {w : CellWork} (host : HostWrites)
    (hw : (s.lane n).work = .markRead) (he : s.laneEntry n = some e) (hc : (s.lane n).cell = some w) :
    exec (.markReadDone n host) s = .next ((s.afterHost host).setLane n ((s.lane n).takeMark e w
      ((s.afterHost host).mem.read (wrapAddr (planeAddr (markPlane e.body) w.row w.col))))) := by
  show execMarkReadDone n host s = _
  unfold execMarkReadDone
  rw [hw, he, hc]
  rfl

theorem Lane.takeMark_of_marked {e : Entry} {w : CellWork} {b : Byte} (l : Lane)
    (h : b.getLsbD (w.col % 8) = true) :
    l.takeMark e w b = { l with cell := some { w with cls := .marked }, work := .boundary } := if_pos h

theorem Lane.takeMark_of_unmarked {e : Entry} {w : CellWork} {b : Byte} (l : Lane)
    (h : b.getLsbD (w.col % 8) = false) : l.takeMark e w b = l.afterMark e :=
  if_neg (by rw [markBit, h]; exact Bool.false_ne_true)

/-- An unmarked cell inside the exclusion comes to its boundary (R28). -/
theorem Lane.afterMark_of_excluded {e : Entry} {l : Lane} {c : WalkContext} {w : CellWork} (hc : l.context = some c)
    (hw : l.cell = some w) (hx : excludes e.body w.row w.col = true) :
    l.afterMark e = { l with cell := some { w with cls := .excluded }, work := .boundary } := by
  simp [Lane.afterMark, hc, hw, hx]

/-- A cell that is worked has source A read, but for a PATTERN's (R30). -/
theorem Lane.afterMark_of_source {e : Entry} {l : Lane} {c : WalkContext} {w : CellWork} (hc : l.context = some c)
    (hw : l.cell = some w) (hx : excludes e.body w.row w.col = false) (hk : e.header.kind ≠ .pattern) :
    l.afterMark e = { l with work := .sourceARead } := by
  simp [Lane.afterMark, hc, hw, hx, hk]

/-- Settles O36: by the mark bit, then by the exclusion rectangle. -/
theorem markReadDoneSortsTheCell : Obligations.MarkReadDoneSortsTheCell := by
  intro s n host slot e w c hw ho he hcell hc hk plane pitch byte
  have answered : exec (.markReadDone n host) s =
      .next ((s.afterHost host).setLane n ((s.lane n).takeMark e w byte)) :=
    exec_markReadDone host hw (State.laneEntry_of_order ho he) hcell
  refine ⟨fun hb => ?marked, fun hb hx => ?excluded, fun hb hx => ?source⟩
  case marked => rw [answered, Lane.takeMark_of_marked _ hb]
  case excluded => rw [answered, Lane.takeMark_of_unmarked _ hb, Lane.afterMark_of_excluded hc hcell hx]
  case source => rw [answered, Lane.takeMark_of_unmarked _ hb, Lane.afterMark_of_source hc hcell hx hk]

end Sys2Proof.Machine
end

section
/-! The source reads of a cell and what a worked cell's outcome is made of (R14, R40, R43, R48, R66 to R69, R74,
R101). -/

namespace Sys2Proof.Machine

/-! ## Source reads answered -/

theorem exec_sourceReadDone_a {s : State} {n : LaneId} {e : Entry} {w : CellWork} (host : HostWrites)
    (hw : (s.lane n).work = .sourceARead) (he : s.laneEntry n = some e) (hc : (s.lane n).cell = some w) :
    exec (.sourceReadDone n host) s = .next ((s.afterHost host).takeSourceA n e w) := by
  show execSourceReadDone n host s = _
  simp [execSourceReadDone, hw, he, hc]

theorem exec_sourceReadDone_b {s : State} {n : LaneId} {e : Entry} {w : CellWork} (host : HostWrites)
    (hw : (s.lane n).work = .sourceBRead) (he : s.laneEntry n = some e) (hc : (s.lane n).cell = some w) :
    exec (.sourceReadDone n host) s = .next ((s.afterHost host).workOperands n e w w.operandA
      ((s.afterHost host).cellBytes (gridB e.body) w.row w.col)) := by
  show execSourceReadDone n host s = _
  simp [execSourceReadDone, hw, he, hc]

theorem State.takeSourceA_of_readsB {s : State} {n : LaneId} {e : Entry} {w : CellWork}
    (h : readsB e.header.kind e.body = true) :
    s.takeSourceA n e w = s.setLane n { s.lane n with
      cell := some { w with operandA := s.cellBytes (gridA e.body) w.row w.col }, work := .sourceBRead } := if_pos h

theorem State.takeSourceA_of_single {s : State} {n : LaneId} {e : Entry} {w : CellWork}
    (h : readsB e.header.kind e.body = false) :
    s.takeSourceA n e w = s.workOperands n e w (s.cellBytes (gridA e.body) w.row w.col) [] :=
  if_neg (by simp [h])

/-! ## Rollover limit and conversion -/

/-- The rollover limit read digit by digit (R101). -/
theorem rolloverLimit_digits (body : List Byte)
    (h : ∀ k, k < 24 → beValue (slice body 124 12) / 16 ^ k % 16 ≤ 9) :
    rolloverLimit body < 10 ^ 24 ∧
      ∀ k, k < 24 → rolloverLimit body / 10 ^ k % 10 = beValue (slice body 124 12) / 16 ^ k % 16 := by
  have ok : digitsOk 24 (rolloverRaw body) = true := (digitsOk_iff 24 _).2 h
  exact ⟨digitsValue_lt 24 _ ok, digitsValue_digit 24 _ ok⟩

/-- Steps 3 to 5 of the conversion stage, the offset read (R45 to R48). -/
theorem convertValue_of_offset (body : List Byte) (cls : OutputClass) (v : Int) {offset : Int}
    (h : signedField 24 body 104 13 = some offset) :
    let u := scaleValue (byteAt body 117).toInt (byteAt body 118 == 1) (v + offset)
    convertValue body cls v = ⟨(cls.saturate u.1).1, u.2 || (cls.saturate u.1).2, u.1⟩ := by
  have hO : offsetOf body = offset := by simp [offsetOf, h]
  simp [convertValue, hO, scaleOf, halfUp]

/-- The SATURATED exception carries the value before output saturation, held to 28 digits (R48). -/
theorem saturatedException_table (x : Converted) :
    (x.saturated = false → saturatedException x = []) ∧
    (x.saturated = true → ∃ v, saturatedException x = [⟨.saturated, 0, v⟩] ∧
      (-(10 ^ 28 - 1) ≤ x.before → x.before ≤ 10 ^ 28 - 1 → v = x.before) ∧
      (10 ^ 28 - 1 < x.before → v = 10 ^ 28 - 1) ∧ (x.before < -(10 ^ 28 - 1) → v = -(10 ^ 28 - 1))) := by
  obtain ⟨inside, above, below⟩ := clampTotal_cases x.before
  refine ⟨fun h => if_neg (by simp [h]), fun h => ⟨(clampTotal x.before).1, if_pos h, fun hl hu => ?_, fun hu => ?_,
    fun hl => ?_⟩⟩
  · rw [inside hl hu]
  · rw [above hu]
  · rw [below hl]

/-! ## Classes, staging entries and contributions -/

/-- The exception of each class (R69). -/
theorem classException_table (z : BandSet) (v : Int) :
    (∀ i : Fin 8, classException z v (.band i.val) = if z.bands[i].alarm then [⟨.alarmBand, i.val, v⟩] else []) ∧
    classException z v .gap = [⟨.unbanded, 1, v⟩] ∧ classException z v .below = [⟨.unbanded, 2, v⟩] ∧
    classException z v .above = [⟨.unbanded, 3, v⟩] := by
  refine ⟨fun i => ?_, rfl, rfl, rfl⟩
  have band : z.bands.toList.getD i.val Band.powerOn = z.bands[i] := by simp
  show (if (z.bands.toList.getD i.val Band.powerOn).alarm then _ else _) = _
  rw [band]

theorem stagingEntry_band (residue : Option (Fin 64)) (i : Fin 8) :
    stagingEntry residue (.band i.val) = some i.castSucc :=
  congrArg some (Fin.ext (Nat.mod_eq_of_lt (by omega)))

theorem residueOf_eq_none_iff (body : List Byte) : residueOf body = none ↔ (byteAt body 137).toNat = 0xFF := by
  have code : byteAt body 137 = 0xFF ↔ (byteAt body 137).toNat = 0xFF := by
    rw [← BitVec.toNat_inj]
    rfl
  unfold residueOf
  split
  next h => simp [code.1 h]
  next h => simp [mt code.2 h]

/-- An unbanded value goes to the residue entry where the order has a residue accumulator (R67, R68). -/
theorem stagingEntry_unbanded (residue : Option (Fin 64)) {k : BandResult} (hk : k = .gap ∨ k = .below ∨ k = .above) :
    (residue = none → stagingEntry residue k = none) ∧ (residue ≠ none → stagingEntry residue k = some 8) := by
  have entry : stagingEntry residue k = if residue.isSome then some 8 else none := by
    rcases hk with rfl | rfl | rfl <;> rfl
  cases residue <;> simp [entry]

/-- A contribution to a staging entry (R74). -/
theorem Total.contribute_table (t : Total) (v : Int) :
    (t.contribute v).count = t.count + 1 ∧
    (-(10 ^ 28 - 1) ≤ t.value + v → t.value + v ≤ 10 ^ 28 - 1 →
      (t.contribute v).value = t.value + v ∧ (t.contribute v).overflow = t.overflow) ∧
    (10 ^ 28 - 1 < t.value + v → (t.contribute v).value = 10 ^ 28 - 1 ∧ (t.contribute v).overflow = true) ∧
    (t.value + v < -(10 ^ 28 - 1) →
      (t.contribute v).value = -(10 ^ 28 - 1) ∧ (t.contribute v).overflow = true) := by
  obtain ⟨inside, above, below⟩ := clampTotal_cases (t.value + v)
  refine ⟨rfl, fun hl hu => ?_, fun hu => ?_, fun hl => ?_⟩
  · simp [Total.contribute, inside hl hu]
  · simp [Total.contribute, above hu]
  · simp [Total.contribute, below hl]

/-- Settles O37: the accesses and the begun writes by `State.workOperands_begins`, the outcomes by
`workCell_outcomes`, and each quantity by its table. -/
theorem sourceReadDoneWorksTheCell : Obligations.SourceReadDoneWorksTheCell := by
  refine ⟨fun s n host slot e w c ho he hcell hc => ?reads,
    fun kind body => ⟨readsB_iff kind body, readsDestination_iff kind body, fun h => h ▸ rfl⟩, grid_cells,
    workCell_outcomes, fun body => ⟨rfl, rfl, rolloverLimit_digits body⟩,
    fun body cls v offset h => convertValue_of_offset body cls v h,
    ⟨fun _ => rfl, fun _ => rfl, rfl, rfl, fun _ => rfl⟩, saturatedException_table, fun z v hz => ?classes,
    fun body => ⟨stagingEntry_band _, fun k hk => ?residue⟩, Total.contribute_table⟩
  case reads =>
    have hl := State.laneEntry_of_order ho he
    intro t bytesA bytesB worked
    have begins (a b : List Byte) (hx : exec (.sourceReadDone n host) s = .next (t.workOperands n e w a b)) :
        worked (workCell e.header.kind e.body (s.setOfEntry e) w a b) := by
      obtain ⟨l, staging, hset, hin, hout, hbegun⟩ := t.workOperands_begins n e w a b c hc
      exact ⟨l, staging, hx.trans (congrArg _ hset), hin, hout, hbegun⟩
    refine ⟨fun hw hB => ?_, fun hw hB => begins _ _ ?_, fun hw => begins _ _ (exec_sourceReadDone_b host hw hl hcell)⟩
    · exact (exec_sourceReadDone_a host hw hl hcell).trans (congrArg _ (State.takeSourceA_of_readsB hB))
    · exact (exec_sourceReadDone_a host hw hl hcell).trans (congrArg _ (State.takeSourceA_of_single hB))
  case classes =>
    obtain ⟨band, below, gap, above⟩ := classify_spec z v hz
    exact ⟨band, below, gap, above, classException_table z v⟩
  case residue =>
    obtain ⟨hnone, hsome⟩ := stagingEntry_unbanded (residueOf body) hk
    exact ⟨fun h => hnone ((residueOf_eq_none_iff body).2 h), fun h => hsome (mt (residueOf_eq_none_iff body).1 h)⟩

end Sys2Proof.Machine
end

section
/-! Destination cells read and written back, exception records, and the writes a lane lands (R29, R32, R33, R35, R114,
R156). -/

namespace Sys2Proof.Machine

/-! ## Bytes written back under a keep mask -/

theorem beValue_encode_dec (n : Nat) (v : Int) : beValue ((CellFormat.dec n).encode v) = packDigits n v.toNat :=
  beValue_beBytes_lt _ _ n (packDigits_lt n _) (by simp only [CellFormat.cellBytes]; omega)

theorem beValue_encode_sdec (n : Nat) (v : Int) : beValue ((CellFormat.sdec n).encode v) = packSigned n v :=
  beValue_beBytes_lt _ _ (n + 1) (packSigned_lt n v) (by simp only [CellFormat.cellBytes]; omega)

theorem packSigned_div (n : Nat) (v : Int) : packSigned n v / 16 = packDigits n v.natAbs := by
  unfold packSigned minusCode plusCode
  split <;> omega

theorem packSigned_mod (n : Nat) (v : Int) : packSigned n v % 16 = if v < 0 then 0xD else 0xC := by
  unfold packSigned minusCode plusCode
  split <;> omega

theorem merge_dec_length (n mask : Nat) (old : List Byte) (v : Int) :
    ((CellFormat.dec n).merge 0 mask old v).length = (n + 1) / 2 := beBytes_length' _ _

theorem merge_sdec_length (n mask : Nat) (old : List Byte) (v : Int) :
    ((CellFormat.sdec n).merge 0 mask old v).length = (n + 2) / 2 := beBytes_length' _ _

theorem beValue_merge_dec (n mask : Nat) (old : List Byte) (v : Int) :
    beValue ((CellFormat.dec n).merge 0 mask old v) = mergeDigits n mask (beValue old) (packDigits n v.toNat) := by
  rw [← beValue_encode_dec]
  exact beValue_beBytes_lt _ _ n (mergeDigits_lt n _ _ _) (by simp only [CellFormat.cellBytes]; omega)

theorem beValue_merge_sdec (n mask : Nat) (old : List Byte) (v : Int) :
    beValue ((CellFormat.sdec n).merge 0 mask old v) =
      packSigned n v % 16 + 16 * mergeDigits n mask (beValue old / 16) (packDigits n v.natAbs) := by
  have fits := mergeDigits_lt n mask (beValue old / 16) (packSigned n v / 16)
  rw [← packSigned_div, ← beValue_encode_sdec]
  refine beValue_beBytes_lt _ _ (n + 1) ?_ (by simp only [CellFormat.cellBytes]; omega)
  rw [Nat.pow_succ, beValue_encode_sdec]
  omega

/-- The nibbles of a merged DEC cell (R35). -/
theorem merge_dec_nibbles (n mask : Nat) (old : List Byte) {v : Int} (h0 : 0 ≤ v) (k : Nat) :
    let dec := (CellFormat.dec n).merge 0 mask old v
    (k < n → mask.testBit k = true → beValue dec / 16 ^ k % 16 = beValue old / 16 ^ k % 16) ∧
    (k < n → mask.testBit k = false → beValue dec / 16 ^ k % 16 = v.natAbs / 10 ^ k % 10) ∧
    (n ≤ k → beValue dec / 16 ^ k % 16 = 0) := by
  intro dec
  have nibble := mergeDigits_nibble n mask (beValue old) (packDigits n v.toNat) k
  have abs : v.toNat = v.natAbs := by omega
  rw [show beValue dec = _ from beValue_merge_dec n mask old v, nibble]
  refine ⟨fun hk hm => ?_, fun hk hm => ?_, fun hk => if_neg (by omega)⟩
  · rw [if_pos hk, if_pos hm]
  · rw [if_pos hk, if_neg (by simp [hm]), abs, packDigits_nibble, if_pos hk]

/-- The sign and the nibbles above it of a merged SDEC cell (R35). -/
theorem merge_sdec_nibbles (n mask : Nat) (old : List Byte) (v : Int) :
    let sdec := (CellFormat.sdec n).merge 0 mask old v
    beValue sdec % 16 = (if v < 0 then 0xD else 0xC) ∧ ∀ k,
      (k < n → mask.testBit k = true → beValue sdec / 16 ^ (k + 1) % 16 = beValue old / 16 ^ (k + 1) % 16) ∧
      (k < n → mask.testBit k = false → beValue sdec / 16 ^ (k + 1) % 16 = v.natAbs / 10 ^ k % 10) ∧
      (n ≤ k → beValue sdec / 16 ^ (k + 1) % 16 = 0) := by
  intro sdec
  have value : beValue sdec = _ := beValue_merge_sdec n mask old v
  have sign := packSigned_mod n v
  refine ⟨by rw [value]; omega, fun k => ?_⟩
  have nibble := mergeDigits_nibble n mask (beValue old / 16) (packDigits n v.natAbs) k
  have above (x : Nat) : x / 16 ^ (k + 1) % 16 = x / 16 / 16 ^ k % 16 := by
    rw [Nat.pow_succ', Nat.div_div_eq_div_mul]
  have digits : beValue sdec / 16 = mergeDigits n mask (beValue old / 16) (packDigits n v.natAbs) := by
    rw [value]; omega
  rw [above, above, digits, nibble]
  refine ⟨fun hk hm => ?_, fun hk hm => ?_, fun hk => if_neg (by omega)⟩
  · rw [if_pos hk, if_pos hm]
  · rw [if_pos hk, if_neg (by simp [hm]), packDigits_nibble, if_pos hk]

/-! ## The destination read answered -/

theorem destinationAddr_compare {e : Entry} (h : e.header.kind = .compare) (r c : Nat) :
    destinationAddr e r c = leField e.body 156 4 + r * leField e.body 160 4 + c / 8 ∧ destinationLen e r c = 1 := by
  simp [destinationAddr, destinationLen, h, planeAddr, resultPlane]

theorem destinationLen_other {e : Entry} (h : e.header.kind ≠ .compare) (r c : Nat) :
    destinationLen e r c = (gridC e.body).cellLen r c := by
  unfold destinationLen
  split
  · exact absurd ‹_› h
  · rfl

theorem mergedBytes_other {e : Entry} (h : e.header.kind ≠ .compare) (w : CellWork) (old : List Byte) :
    mergedBytes e w old = (gridC e.body).format.merge ((gridC e.body).cellBit w.row w.col) (leField e.body 120 3) old
      (w.working.getD 0) := by
  unfold mergedBytes
  split
  · exact absurd ‹_› h
  · rfl

theorem mergedBytes_compare {e : Entry} (h : e.header.kind = .compare) (w : CellWork) (old : List Byte) :
    mergedBytes e w old = [resultByte (byteAt old 0) w.col (w.verdict == some true)] := by
  simp [mergedBytes, h]

/-- A destination read is answered unless the other lane's claim covers a byte of it (R33, log 10). -/
theorem exec_destinationReadDone {s : State} {n : LaneId} {e : Entry} {w : CellWork} (host : HostWrites)
    (hw : (s.lane n).work = .destinationRead) (he : s.laneEntry n = some e) (hc : (s.lane n).cell = some w) :
    exec (.destinationReadDone n host) s = .next
      (if s.claimed n (destinationAddr e w.row w.col) (destinationLen e w.row w.col) then s
        else (s.afterHost host).takeDestination n e w) := by
  show execDestinationReadDone n host s = _
  simp [execDestinationReadDone, hw, he, hc]

/-- Settles O38: the claim by `claimed_iff`, the bytes put back nibble by nibble. -/
theorem destinationReadDoneIssuesTheClaim : Obligations.DestinationReadDoneIssuesTheClaim := by
  refine ⟨fun s n host slot e w hw ho he hcell => ?_, fun n mask old v _ _ => ?_⟩
  · intro a len old
    have answered : exec (.destinationReadDone n host) s = .next
        (if s.claimed n a len then s else (s.afterHost host).takeDestination n e w) :=
      exec_destinationReadDone host hw (State.laneEntry_of_order ho he) hcell
    refine ⟨fun hk => destinationAddr_compare hk _ _, fun hk => ⟨destinationAddr_other e _ _ hk,
      destinationLen_other hk _ _, mergedBytes_other hk w old⟩, claimed_iff s n a len, fun h => ?_, fun h => ?_,
      fun hk => ⟨_, mergedBytes_compare hk w old, resultByte_bits _ _ _⟩⟩
    · rw [answered, if_neg (by simp [h])]
      rfl
    · rw [answered, if_pos h]
  · exact ⟨merge_dec_length n mask old v, merge_sdec_length n mask old v,
      fun h0 _ k => merge_dec_nibbles n mask old h0 k, fun _ _ => merge_sdec_nibbles n mask old v⟩

/-! ## Writes accepted -/

theorem State.laneWrite_destinationWrite {s : State} {n : LaneId} {a : Addr} {bytes : List Byte} {claim : Bool}
    (hw : (s.lane n).work = .destinationWrite a bytes claim) : s.laneWrite n = some (a.toNat, bytes) := by
  simp [State.laneWrite, hw]

theorem State.laneWrite_exceptionWrite {s : State} {n : LaneId} {e : Entry} {c : WalkContext} {w : CellWork}
    {x : CellException} {rest : List CellException} (hw : (s.lane n).work = .exceptionWrite)
    (he : s.laneEntry n = some e) (hc : (s.lane n).context = some c) (hcell : (s.lane n).cell = some w)
    (hx : w.exceptions = x :: rest) :
    s.laneWrite n = some (e.header.listAddr.toNat + 32 * c.record.cursor,
      exceptionRecord e.header.tag w.row w.col x) := by
  simp [State.laneWrite, hw, he, hc, hcell, hx]

theorem exec_destinationWriteAccept {s : State} {n : LaneId} {e : Entry} {a : Addr} {bytes : List Byte} {claim : Bool}
    (hw : (s.lane n).work = .destinationWrite a bytes claim) (he : s.laneEntry n = some e)
    (hh : s.writeHeld n = false) :
    exec (.destinationWriteAccept n) s =
      .next ((s.setMem (s.mem.land (s.laneWrite n))).setLane n ((s.lane n).toRecords e)) := by
  show execDestinationWriteAccept n s = _
  simp [execDestinationWriteAccept, hw, he, hh]

theorem exec_exceptionRecordWriteAccept {s : State} {n : LaneId} {e : Entry} {c : WalkContext} {w : CellWork}
    (hw : (s.lane n).work = .exceptionWrite) (he : s.laneEntry n = some e) (hc : (s.lane n).context = some c)
    (hcell : (s.lane n).cell = some w) (hh : s.writeHeld n = false) :
    exec (.exceptionRecordWriteAccept n) s = .next ((s.setMem (s.mem.land (s.laneWrite n))).setLane n
      (((s.lane n).recordWritten c w).toRecords e)) := by
  show execExceptionRecordWriteAccept n s = _
  simp [execExceptionRecordWriteAccept, hw, he, hc, hcell, hh]

/-- A write that waits for the other lane's claim is not accepted (R33, log 10). -/
theorem exec_laneWrites_of_held {s : State} {n : LaneId} (hh : s.writeHeld n = true) :
    exec (.destinationWriteAccept n) s = .next s ∧ exec (.exceptionRecordWriteAccept n) s = .next s := by
  constructor
  · show execDestinationWriteAccept n s = _
    unfold execDestinationWriteAccept
    split
    · rw [if_pos hh]
    · rfl
  · show execExceptionRecordWriteAccept n s = _
    unfold execExceptionRecordWriteAccept
    split
    · rw [if_pos hh]
    · rfl

/-- The records of a cell after its first has been written, seen from the lane before (R114). -/
theorem Lane.recordsBegun_recordWritten (e : Entry) (l : Lane) (c : WalkContext) (w : CellWork) :
    RecordsBegun e { c with record := c.record.countWritten } { w with exceptions := w.exceptions.tail } l
      ((l.recordWritten c w).toRecords e) := by
  obtain ⟨done, room, full⟩ := Lane.recordsBegun_toRecords e (l.recordWritten c w)
    { c with record := c.record.countWritten } { w with exceptions := w.exceptions.tail } rfl rfl
  exact ⟨done, room, full⟩

/-- Settles O39: each write by the laws of landing, the records after it by `RecordsBegun`. -/
theorem laneWritesLandWhole : Obligations.LaneWritesLandWhole := by
  refine ⟨fun s n slot e c w ho he hc hcell hh => ⟨fun a bytes claim hw => ?destination, fun x rest hw hx => ?record⟩,
    fun s n => exec_laneWrites_of_held, writeHeld_iff, exceptionRecord_fields, rfl⟩
  case destination =>
    exact ⟨_, _, exec_destinationWriteAccept hw (State.laneEntry_of_order ho he) hh,
      State.written_land_laneWrite (State.laneWrite_destinationWrite hw),
      Lane.recordsBegun_toRecords e (s.lane n) c w hc hcell⟩
  case record =>
    have hl := State.laneEntry_of_order ho he
    have begun := Lane.recordsBegun_recordWritten e (s.lane n) c w
    rw [hx] at begun
    exact ⟨_, _, exec_exceptionRecordWriteAccept hw hl hc hcell hh,
      State.written_land_laneWrite (State.laneWrite_exceptionWrite hw hl hc hcell hx), begun⟩

end Sys2Proof.Machine
end

section
/-! The boundary of a cell: what is counted, where the walk goes on, and how it ends (R25, R37, R93, R123, R171). -/

namespace Sys2Proof.Machine

/-! ## The state past a boundary -/

/-- The state at a boundary with the cell counted and dropped (R37). -/
def State.passed (s : State) (n : LaneId) (e : Entry) (c : WalkContext) (w : CellWork) : State :=
  s.setLane n { s.lane n with context := some (c.pass e w), cell := none }

@[simp] theorem State.passed_lane (s : State) (n : LaneId) (e : Entry) (c : WalkContext) (w : CellWork) :
    (s.passed n e c w).lane n = { s.lane n with context := some (c.pass e w), cell := none } :=
  s.setLane_lane n _

@[simp] theorem State.passed_laneEntry (s : State) (n : LaneId) (e : Entry) (c : WalkContext) (w : CellWork) :
    (s.passed n e c w).laneEntry n = s.laneEntry n :=
  s.laneEntry_setLane n { s.lane n with context := some (c.pass e w), cell := none } rfl

theorem State.passBoundary_of_last {s : State} {n : LaneId} {e : Entry} {c : WalkContext} {w : CellWork}
    (h : c.walk.cells ≤ c.walk.next + 1) : s.passBoundary n e c w = (s.passed n e c w).endOfWalk n e :=
  if_pos (decide_eq_true h)

theorem State.passBoundary_of_more {s : State} {n : LaneId} {e : Entry} {c : WalkContext} {w : CellWork}
    (h : c.walk.next + 1 < c.walk.cells) : s.passBoundary n e c w = (s.passed n e c w).midBoundary n :=
  if_neg fun ends => absurd (of_decide_eq_true ends) (Nat.not_le.2 h)

/-! ## Boundaries that are not the last -/

theorem State.midBoundary_of_park {s : State} {n : LaneId} {b : Fin 4} (h : (s.lane n).request = .park b) :
    s.midBoundary n = s.setLane n { s.lane n with state := .yielding, request := .none, work := .parkedWrite b } := by
  simp [State.midBoundary, h]

theorem State.midBoundary_of_freeze {s : State} {n : LaneId} (h : (s.lane n).request = .none)
    (hf : s.engine.state = .pausing ∨ s.engine.state = .paused) : s.midBoundary n = s.freezeLane n := by
  simp [State.midBoundary, h, (freezes_iff _).2 hf]

theorem State.midBoundary_of_next {s : State} {n : LaneId} (h : (s.lane n).request = .none)
    (hf : ¬(s.engine.state = .pausing ∨ s.engine.state = .paused)) : s.midBoundary n = s.beginCell n := by
  have hf' : s.engine.state.freezes = false := by rwa [← Bool.not_eq_true, freezes_iff]
  simp [State.midBoundary, h, hf']

/-- A lane that parks at a boundary (R169). -/
theorem State.passBoundary_park {s : State} {n : LaneId} {e : Entry} {c : WalkContext} {w : CellWork} {b : Fin 4}
    (h : c.walk.next + 1 < c.walk.cells) (hr : (s.lane n).request = .park b) :
    s.passBoundary n e c w = s.setLane n { s.lane n with
      context := some (c.pass e w), cell := none, state := .yielding, request := .none, work := .parkedWrite b } := by
  rw [State.passBoundary_of_more h, State.midBoundary_of_park (b := b) (by simpa using hr), State.passed_lane]
  exact State.setLane_setLane _ _ _ _

/-- A lane that freezes at a boundary (R171). -/
theorem State.passBoundary_freeze {s : State} {n : LaneId} {e : Entry} {c : WalkContext} {w : CellWork}
    (h : c.walk.next + 1 < c.walk.cells) (hr : (s.lane n).request = .none)
    (hf : s.engine.state = .pausing ∨ s.engine.state = .paused) :
    s.FrozenAt (s.passBoundary n e c w) n { s.lane n with context := some (c.pass e w), cell := none } := by
  have heng : (s.passed n e c w).engine = s.engine := State.setLane_engine _ _ _
  rw [State.passBoundary_of_more h, State.midBoundary_of_freeze (by simpa using hr) (heng ▸ hf),
    ← State.passed_lane s n e c w]
  exact State.frozenAt_freezeLane s _ n hf (State.lane_setLane_other _ _ _) heng (State.setLane_table _ _ _)
    (State.setLane_banks _ _ _) (State.setLane_bandSets _ _ _) (State.setLane_writer _ _ _) (State.setLane_slate _ _ _)
    (State.setLane_parkOrder _ _ _) (State.kept_setLane _ _ _)

/-- A lane that goes on to its next cell (R171). -/
theorem State.passBoundary_next {s : State} {n : LaneId} {e : Entry} {c : WalkContext} {w : CellWork}
    (h : c.walk.next + 1 < c.walk.cells) (hr : (s.lane n).request = .none)
    (hf : ¬(s.engine.state = .pausing ∨ s.engine.state = .paused)) (he : s.laneEntry n = some e) :
    s.passBoundary n e c w = s.setLane n
      (({ s.lane n with context := some (c.pass e w), cell := none } : Lane).beginCell e) := by
  have heng : (s.passed n e c w).engine = s.engine := State.setLane_engine _ _ _
  rw [State.passBoundary_of_more h, State.midBoundary_of_next (by simpa using hr) (heng ▸ hf),
    State.beginCell_eq ((State.passed_laneEntry _ _ _ _ _).trans he), State.passed_lane]
  exact State.setLane_setLane _ _ _ _

/-- Settles O40: the context after the cell by `WalkContext.pass`, then the three ways on. -/
theorem cellBoundaryCountsAndGoesOn : Obligations.CellBoundaryCountsAndGoesOn := by
  refine ⟨fun body x hx => by simp [stepOf, hx], fun s n slot e c w hw ho he hc hcell hmore => ?_⟩
  have hl := State.laneEntry_of_order ho he
  have hx := exec_cellBoundary s n slot e c w hw hl hc hcell
  refine ⟨c.pass e w, rfl, rfl, rfl, rfl, rfl, rfl, rfl, rfl, ?nonzero, ?saturated, rfl, rfl, rfl, rfl,
    fun hp => if_pos hp, rfl, fun b hr => ?park, fun hr hf => ?freeze, fun hr h1 h2 => ?next⟩
  case nonzero => exact Bool.or_eq_true _ _ ▸ Iff.rfl
  case saturated => exact Bool.or_eq_true _ _ ▸ Iff.rfl
  case park => rw [hx, State.passBoundary_park hmore hr]
  case freeze => exact ⟨_, hx, State.passBoundary_freeze hmore hr hf⟩
  case next =>
    refine ⟨_, hx.trans (congrArg _ (State.passBoundary_next hmore hr (by simp [h1, h2]) hl)), ?_⟩
    exact Lane.cellBegun_beginCell e _ _ rfl

/-! ## Ends of walks -/

/-- States alike but for what lane `n` holds beside its order, and for the park banks. -/
structure State.AlikeBut (s u : State) (n : LaneId) : Prop where
  other : u.lane (otherLane n) = s.lane (otherLane n)
  order : (u.lane n).order = (s.lane n).order
  writer : u.writer = s.writer
  engine : u.engine = s.engine
  slate : u.slate = s.slate
  parkOrder : u.parkOrder = s.parkOrder
  bandSets : u.bandSets = s.bandSets
  table : u.table = s.table
  kept : s.Kept u

theorem State.AlikeBut.refl (s : State) (n : LaneId) : s.AlikeBut s n :=
  ⟨rfl, rfl, rfl, rfl, rfl, rfl, rfl, rfl, .refl s⟩

theorem State.AlikeBut.setLane (s : State) (n : LaneId) {l : Lane} (h : l.order = (s.lane n).order) :
    s.AlikeBut (s.setLane n l) n :=
  ⟨by simp, by simpa using h, by simp, by simp, by simp, by simp, by simp, by simp, s.kept_setLane n l⟩

theorem State.AlikeBut.freeRequestBank {s u : State} {n : LaneId} (h : s.AlikeBut u n) :
    s.AlikeBut (u.freeRequestBank n) n := by
  obtain ⟨heng, hslate, hpark, hwriter, hsets, htable⟩ := u.freeRequestBank_fields n
  exact ⟨by simpa using h.other, by simpa using h.order, hwriter.trans h.writer, heng.trans h.engine,
    hslate.trans h.slate, hpark.trans h.parkOrder, hsets.trans h.bandSets, htable.trans h.table,
    h.kept.trans (u.kept_freeRequestBank n)⟩

theorem State.AlikeBut.laneEntry {s u : State} {n : LaneId} (h : s.AlikeBut u n) : u.laneEntry n = s.laneEntry n := by
  unfold State.laneEntry State.entry?
  rw [h.order, h.table]

/-- A walking order ended, with its claim released, seen from a state alike to the one it ends in (R62, R95, R161). -/
theorem State.AlikeBut.endWalk {s u : State} {n : LaneId} {e : Entry} {c : WalkContext} (h : s.AlikeBut u n)
    (he : s.laneEntry n = some e) (hc : (u.lane n).context = some c) (f : FinalState) (r : Reason)
    (x : Option (Nat × Nat)) :
    s.Ended (u.endWalk n f r x) n (walkHandOver e c.record f r (f == .done && c.commitOverflow) x) ∧
      s.Released (u.endWalk n f r x) e ∧ (u.endWalk n f r x).banks = (u.freeRequestBank n).banks := by
  have he' := h.laneEntry.trans he
  obtain ⟨_, ended, rfl, _⟩ := u.ended_endWalk n e c f r x he' hc
  refine ⟨ended.after h.other h.order h.writer h.engine h.slate h.parkOrder h.kept, ?_,
    u.endWalk_banks n e c f r x he' hc⟩
  exact (u.released_endWalk n e c f r x he' hc).congr h.bandSets.symm rfl fun y hy hs => ⟨y, hy, hs, rfl⟩

theorem State.freeRequestBank_idem (s : State) (n : LaneId) :
    (s.freeRequestBank n).freeRequestBank n = s.freeRequestBank n := by
  cases hr : (s.lane n).request
  case park b =>
    have freed : s.freeRequestBank n = s.setBank b .free := by simp [State.freeRequestBank, hr]
    rw [freed]
    unfold State.freeRequestBank
    rw [State.lane_setBank, hr]
    exact congrArg (fun banks => { s with banks := banks }) (Vector.set_set ..)
  all_goals simp [State.freeRequestBank, hr]

/-- The banks after lane `n`'s request has been dropped: that of a PARK is FREE (R168). -/
def State.BanksFreed (s t : State) (n : LaneId) : Prop :=
  (∀ b : Fin 4, (s.lane n).request = .park b → t.banks = s.banks.set b .free) ∧
    ((∀ b, (s.lane n).request ≠ .park b) → t.banks = s.banks)

theorem State.banksFreed_of_passed {s t : State} {n : LaneId} {e : Entry} {c : WalkContext} {w : CellWork}
    (h : t.banks = ((s.passed n e c w).freeRequestBank n).banks) : s.BanksFreed t n := by
  obtain ⟨park, other⟩ := freeRequestBank_banks (s.passed n e c w) n
  rw [State.passed_lane] at park other
  have same : (s.passed n e c w).banks = s.banks := State.setLane_banks _ _ _
  exact ⟨fun b hb => h.trans (same ▸ park b hb), fun hb => h.trans (same ▸ other hb)⟩

theorem State.alikeBut_passed (s : State) (n : LaneId) (e : Entry) (c : WalkContext) (w : CellWork) :
    s.AlikeBut (s.passed n e c w) n := .setLane s n rfl

/-- A request other than PARK ends the order at any boundary (R171). -/
theorem State.passBoundary_of_request {s : State} {n : LaneId} {e : Entry} {c : WalkContext} {w : CellWork}
    (h : (s.lane n).request = .timeLimit ∨ (s.lane n).request = .cancel ∨ (s.lane n).request = .engineStop) :
    s.passBoundary n e c w = (s.passed n e c w).actOn n (s.lane n).request := by
  rcases Nat.lt_or_ge (c.walk.next + 1) c.walk.cells with hmore | hlast
  · rw [State.passBoundary_of_more hmore]
    rcases h with h | h | h <;> simp [State.midBoundary, h]
  · rw [State.passBoundary_of_last hlast]
    rcases h with h | h | h <;> simp [State.endOfWalk, h]

theorem State.endOfWalk_of_none_or_park {s : State} {n : LaneId} {e : Entry}
    (h : (s.lane n).request = .none ∨ ∃ b, (s.lane n).request = .park b) :
    s.endOfWalk n e = (s.freeRequestBank n).walkDone n e := by
  rcases h with h | ⟨b, h⟩ <;> simp [State.endOfWalk, h]

/-- The end of a walk that no request has ended: a tallying order presents its commit claim, any other is DONE (R76,
R95). -/
theorem State.passBoundary_done {s : State} {n : LaneId} {e : Entry} {c : WalkContext} {w : CellWork}
    (hlast : c.walk.cells ≤ c.walk.next + 1)
    (h : (s.lane n).request = .none ∨ ∃ b, (s.lane n).request = .park b) :
    s.passBoundary n e c w = ((s.passed n e c w).freeRequestBank n).walkDone n e := by
  rw [State.passBoundary_of_last hlast, State.endOfWalk_of_none_or_park (by simpa using h)]

/-- The indicators of each walking kind (R93, R99, R105, R112, R119, R124). -/
theorem walkIndicators_table (kind : OrderKind) (r : OrderRecord) (overflow : Bool) (hk : kind.housekeeping = false) :
    let x := walkIndicators kind r overflow
    (x.zero = true ↔ kind ≠ .compare ∧ r.nonzero = false) ∧
    (x.saturated = true ↔ kind ≠ .compare ∧ r.saturated = true) ∧
    (x.overflow = true ↔ (kind = .tally ∨ kind = .difference) ∧ overflow = true) ∧
    (x.lost = true ↔ 0 < r.lost) ∧
    (x.allTrue = true ↔ kind = .compare ∧ r.falseCount = 0 ∧ 0 < r.trueCount) ∧
    (x.noneTrue = true ↔ kind = .compare ∧ r.trueCount = 0) := by
  cases kind
  case bandset | preset | snapshot => cases hk
  all_goals simp [walkIndicators]

/-- Settles O41: every end is `State.endWalk` from the state past the boundary, with its request's bank freed. -/
theorem cellBoundaryEndsTheOrder : Obligations.CellBoundaryEndsTheOrder := by
  refine ⟨fun s n slot e c w hw ho he hc hcell => ?_, fun _ _ => rfl, walkIndicators_table⟩
  have hl := State.laneEntry_of_order ho he
  have hx := exec_cellBoundary s n slot e c w hw hl hc hcell
  have hslot := State.slot_of_entry he
  have past := s.alikeBut_passed n e c w
  have counted : ((s.passed n e c w).lane n).context = some (c.pass e w) := by simp
  intro freed ended
  have ends {u : State} {f : FinalState} {r : Reason} (hu : s.AlikeBut u n)
      (hctx : (u.lane n).context = some (c.pass e w)) (hpass : s.passBoundary n e c w = u.endWalk n f r none)
      (hbanks : (u.freeRequestBank n).banks = ((s.passed n e c w).freeRequestBank n).banks) :
      ended f r (f == .done && c.commitOverflow) := by
    obtain ⟨hended, hreleased, hb⟩ := hu.endWalk hl hctx f r none
    exact ⟨_, _, hx.trans (congrArg _ hpass), hended, hreleased, State.banksFreed_of_passed (hb.trans hbanks), hslot,
      rfl, rfl, rfl, rfl, rfl, rfl, rfl, rfl⟩
  have byRequest := State.passBoundary_of_request (s := s) (n := n) (e := e) (c := c) (w := w)
  refine ⟨fun hr => ?timeLimit, fun hr => ?cancel, fun hr => ?engineStop,
    fun hlast hr => ⟨fun hset => ?commit, fun hset => ?done⟩⟩
  case timeLimit => exact ends past counted ((byRequest (.inl hr)).trans (by rw [hr]; rfl)) rfl
  case cancel => exact ends past counted ((byRequest (.inr (.inl hr))).trans (by rw [hr]; rfl)) rfl
  case engineStop => exact ends past counted ((byRequest (.inr (.inr hr))).trans (by rw [hr]; rfl)) rfl
  case commit =>
    have hu := past.freeRequestBank
    refine ⟨_, hx.trans (congrArg _ ((State.passBoundary_done hlast hr).trans (if_pos hset))), ?_⟩
    simp only [State.setLane_lane, State.setLane_writer, State.setLane_bandSets, State.setLane_table,
      State.lane_freeRequestBank, State.passed_lane, true_and]
    refine ⟨⟨c.pass e w, rfl, rfl⟩, State.banksFreed_of_passed (State.setLane_banks _ _ _), hu.writer, hu.bandSets,
      hu.table, hu.kept.trans (State.kept_setLane _ _ _)⟩
  case done =>
    refine ends past.freeRequestBank (by simp) ((State.passBoundary_done hlast hr).trans (if_neg (by simp [hset]))) ?_
    rw [State.freeRequestBank_idem]

end Sys2Proof.Machine
end

section
/-! A bus error on a lane's access: what memory holds after it, and the order's end (R31, R33, R39, R115, R126,
R173). -/

namespace Sys2Proof.Machine

/-! ## Accesses that have not been made -/

theorem State.readHeld_of_other_work {s : State} {n : LaneId} (h : (s.lane n).work ≠ .destinationRead) :
    s.readHeld n = false := by
  unfold State.readHeld
  split
  · exact absurd ‹_› h
  · rfl

theorem State.readHeld_of_read {s : State} {n : LaneId} {e : Entry} {w : CellWork}
    (hw : (s.lane n).work = .destinationRead) (he : s.laneEntry n = some e) (hc : (s.lane n).cell = some w) :
    s.readHeld n = s.claimed n (destinationAddr e w.row w.col) (destinationLen e w.row w.col) := by
  simp [State.readHeld, hw, he, hc]

/-- An access that waits for the other lane's claim faults nothing (R33, log 10). -/
theorem exec_memoryFault_of_held {s : State} {n : LaneId} (took : BitVec 32)
    (h : s.writeHeld n = true ∨ s.readHeld n = true) : exec (.memoryFault n took) s = .next s := by
  show execMemoryFault n took s = _
  unfold execMemoryFault
  split
  · rw [if_neg]
    rcases h with h | h <;> simp [h]
  · rfl

theorem exec_memoryFault {s : State} {n : LaneId} {e : Entry} (took : BitVec 32) (he : s.laneEntry n = some e)
    (hf : (s.lane n).work.faults = true) (hw : s.writeHeld n = false) (hr : s.readHeld n = false) :
    exec (.memoryFault n took) s =
      .next ((s.setMem (s.faultMem n (fun i => took.getLsbD i))).failOrder n e) := by
  show execMemoryFault n took s = _
  simp [execMemoryFault, he, hf, hw, hr]

/-! ## Memory after a bus error -/

/-- Without an issued write a bus error leaves memory. -/
theorem State.faultMem_of_read {s : State} {n : LaneId} (took : Nat → Bool) (h : s.laneWrite n = none) :
    s.faultMem n took = s.mem := by
  unfold State.faultMem
  rw [h]
  split
  · split <;> rfl
  all_goals rfl

/-- A faulting destination write lands whole or not at all (R31). -/
theorem State.faultMem_destinationWrite {s : State} {n : LaneId} (took : Nat → Bool) {a : Addr} {bytes : List Byte}
    {claim : Bool} (hw : (s.lane n).work = .destinationWrite a bytes claim) :
    s.faultMem n took = s.mem ∨ s.faultMem n took = s.mem.writeBytes a.toNat bytes := by
  have mem : s.faultMem n took = if took 0 then s.mem.land (s.laneWrite n) else s.mem := by
    simp [State.faultMem, hw]
  rw [mem, State.laneWrite_destinationWrite hw]
  split
  · exact .inr rfl
  · exact .inl rfl

/-- A bus error changes no byte outside the issued write. -/
theorem State.faultMem_outside {s : State} {n : LaneId} (took : Nat → Bool) (hm : s.memoryCanonical) {x : Nat}
    (hx : ¬ issuedCovers (s.laneWrite n) x) : (s.faultMem n took).read x = s.mem.read x := by
  unfold State.faultMem
  split
  · split
    · exact Memory.read_land_outside hm _ x hx
    · rfl
  · exact Memory.read_landTaken_outside hm took _ x hx
  · exact Memory.read_landTaken_outside hm took _ x hx
  · rfl

/-! ## The end of a housekeeping order -/

/-- The one indicator of a housekeeping order (R126, R132). -/
theorem housekeepingIndicators_table (kind : OrderKind) (overflow : Bool) :
    housekeepingIndicators kind overflow =
        { Indicators.clear with overflow := (housekeepingIndicators kind overflow).overflow } ∧
      ((housekeepingIndicators kind overflow).overflow = true ↔ kind = .snapshot ∧ overflow = true) := by
  cases kind <;> simp [housekeepingIndicators, Indicators.clear]

theorem any_overflow_iff (entries : Vector Total 64) :
    entries.toList.any (fun t => t.overflow) = true ↔ ∃ k : Fin 64, entries[k].overflow = true := by
  rw [List.any_eq_true]
  constructor
  · rintro ⟨t, ht, hoverflow⟩
    obtain ⟨k, hk, rfl⟩ := Vector.mem_iff_getElem.1 (Vector.mem_toList_iff.1 ht)
    exact ⟨⟨k, hk⟩, hoverflow⟩
  · rintro ⟨k, hk⟩
    exact ⟨_, Vector.mem_toList_iff.2 (Vector.getElem_mem k.isLt), hk⟩

/-- Settles O44: memory by the write that faults, then the order's end by its kind. -/
theorem memoryFaultEndsTheOrder : Obligations.MemoryFaultEndsTheOrder := by
  refine ⟨fun s n took => exec_memoryFault_of_held took, fun s n => ⟨State.readHeld_of_other_work,
    fun slot e w hw ho he hc => State.readHeld_of_read hw (State.laneEntry_of_order ho he) hc⟩,
    fun s n took slot e ho he hf hw hr => ?_⟩
  have hl := State.laneEntry_of_order ho he
  have hx := exec_memoryFault took hl hf hw hr
  have hslot := State.slot_of_entry he
  set m := s.faultMem n (fun i => took.getLsbD i)
  have hl' : (s.setMem m).laneEntry n = some e := (s.laneEntry_setMem m n).trans hl
  have freed : s.BanksFreed ((s.setMem m).freeRequestBank n) n := freeRequestBank_banks (s.setMem m) n
  refine ⟨m, fun hk => ?housekeeping, fun c w hk hc hcell => ?walking, State.faultMem_of_read _,
    fun a bytes claim => State.faultMem_destinationWrite _, fun hm x => State.faultMem_outside _ hm⟩
  case housekeeping =>
    obtain ⟨_, ended, rfl, hsets, htable⟩ := (s.setMem m).ended_endPlain n e .failed .memoryFault hl'
    obtain ⟨alone, overflow⟩ := housekeepingIndicators_table e.header.kind
      (((s.setMem m).lane n).buffer.entries.toList.any (fun t => t.overflow))
    have banks := (s.setMem m).endPlain_banks n e .failed .memoryFault hl'
    refine ⟨_, _, hx.trans (congrArg _ (if_pos hk)), ended, htable, hsets, hslot, rfl, rfl, rfl, rfl, rfl, rfl, rfl,
      alone, overflow.trans (and_congr_right' (any_overflow_iff _)), fun b hb => banks.trans (freed.1 b hb),
      fun hb => banks.trans (freed.2 hb)⟩
  case walking =>
    have cell : ((s.setMem m).lane n).cell.map (fun w => (w.row, w.col)) = some (w.row, w.col) := by simp [hcell]
    obtain ⟨ended, released, banks⟩ := (State.AlikeBut.refl (s.setMem m) n).endWalk hl' (c := c) hc .failed
      .memoryFault (some (w.row, w.col))
    have released' : s.Released _ e := released.congr rfl rfl fun y hy hs => ⟨y, hy, hs, rfl⟩
    have failed : (s.setMem m).failOrder n e = (s.setMem m).endWalk n .failed .memoryFault (some (w.row, w.col)) :=
      (if_neg (by simp [hk])).trans (by rw [cell])
    exact ⟨_, _, hx.trans (congrArg _ failed), ended, released', hslot, rfl, rfl, rfl, rfl, rfl, rfl, rfl, rfl,
      fun b hb => banks.trans (freed.1 b hb), fun hb => banks.trans (freed.2 hb),
      fun i hclaimed hi => (released'.held i hclaimed hi).1⟩

end Sys2Proof.Machine
end

section
/-! A SNAPSHOT, from its latch to its last record write (R80, R81, R125, R132). -/

namespace Sys2Proof.Machine

/-! ## The step after a latch or a record write -/

/-- A SNAPSHOT's step finished with records left: the next one is written (R132). -/
theorem State.finishStep_record {s : State} {n : LaneId} {e : Entry} (hk : e.header.kind = .snapshot)
    (hf : ¬(s.engine.state = .pausing ∨ s.engine.state = .paused)) (hmore : (s.lane n).steps + 1 ≤ rangeSize e.body) :
    s.finishStep n e =
      s.setLane n { s.lane n with steps := (s.lane n).steps + 1, work := .recordWrite } := by
  unfold State.finishStep
  rw [State.stepBoundary_of_not_frozen _ n e (by simpa using mt .inl hf) (by simpa using mt .inr hf)]
  simp [State.nextHousekeepingStep, hk, hmore, State.setWork, State.setLane_setLane]

/-- A SNAPSHOT's last record written, with CLEAR: the clear claim is presented (R132). -/
theorem State.finishStep_clear {s : State} {n : LaneId} {e : Entry} (hk : e.header.kind = .snapshot)
    (hf : ¬(s.engine.state = .pausing ∨ s.engine.state = .paused)) (hlast : rangeSize e.body < (s.lane n).steps + 1)
    (hclear : clearFlag e.body = true) :
    s.finishStep n e =
      s.setLane n { s.lane n with steps := (s.lane n).steps + 1, work := .clearClaim } := by
  unfold State.finishStep
  rw [State.stepBoundary_of_not_frozen _ n e (by simpa using mt .inl hf) (by simpa using mt .inr hf)]
  simp [State.nextHousekeepingStep, hk, Nat.not_le.2 hlast, hclear, State.setWork, State.setLane_setLane]

theorem lastStepDone_snapshot {e : Entry} (hk : e.header.kind = .snapshot) (k : Nat) :
    lastStepDone e k = (decide (rangeSize e.body < k) && !clearFlag e.body) := by
  simp [lastStepDone, hk]

/-- A SNAPSHOT's last record written, without CLEAR: the order ends DONE, PAUSING or not (R132, log 12). -/
theorem State.finishStep_last {s : State} {n : LaneId} {e : Entry} (hk : e.header.kind = .snapshot)
    (hlast : rangeSize e.body < (s.lane n).steps + 1) (hclear : clearFlag e.body = false) :
    s.finishStep n e = s.finishLast n := by
  have done : lastStepDone e ((s.lane n).steps + 1) = true := by simp [lastStepDone_snapshot hk, hlast, hclear]
  unfold State.finishStep State.finishLast State.stepBoundary
  simp [State.nextHousekeepingStep, hk, Nat.not_le.2 hlast, hclear, done]

/-! ## LATCH -/

theorem exec_latch {s : State} {n : LaneId} {e : Entry} (hw : (s.lane n).work = .latchClaim)
    (he : s.laneEntry n = some e) :
    exec (.latch n) s =
      .next ((s.setLane n { s.lane n with buffer := latchedBuffer e.body s.accums }).finishStep n e) := by
  show execLatch n s = _
  simp [execLatch, hw, he]

theorem latchedBuffer_get (body : List Byte) (accums : Vector Total 64) {i : Fin 64} (h1 : firstAccum body ≤ i.val)
    (h2 : i.val ≤ lastAccum body) : (latchedBuffer body accums).entries[i] = accums[i] := by
  simp [latchedBuffer, inRange, h1, h2]

/-- A lane that has latched the accumulators of its order's range, its first step finished (R80). -/
def Lane.latched (l : Lane) (body : List Byte) (accums : Vector Total 64) : Lane :=
  { l with buffer := latchedBuffer body accums, steps := l.steps + 1 }

theorem State.latch_running {s : State} {n : LaneId} {e : Entry} (hk : e.header.kind = .snapshot)
    (hf : ¬(s.engine.state = .pausing ∨ s.engine.state = .paused)) (hsteps : (s.lane n).steps = 0) :
    (s.setLane n { s.lane n with buffer := latchedBuffer e.body s.accums }).finishStep n e =
      s.setLane n { (s.lane n).latched e.body s.accums with work := .recordWrite } := by
  rw [State.finishStep_record hk (by simpa using hf) (by simp [hsteps, rangeSize]), State.setLane_setLane,
    State.setLane_lane]
  rfl

theorem State.latch_paused {s : State} {n : LaneId} {e : Entry} (hk : e.header.kind = .snapshot)
    (hf : s.engine.state = .pausing ∨ s.engine.state = .paused) (hsteps : (s.lane n).steps = 0) :
    s.FrozenAt ((s.setLane n { s.lane n with buffer := latchedBuffer e.body s.accums }).finishStep n e) n
      ((s.lane n).latched e.body s.accums) := by
  have frozen := State.finishStep_frozen s
    (s.setLane n { s.lane n with buffer := latchedBuffer e.body s.accums }) n e hf (by simp) (by simp) (by simp)
    (by simp) (by simp) (by simp) (by simp) (by simp) (s.kept_setLane _ _)
    (by simp [lastStepDone_snapshot hk, hsteps, rangeSize])
  rwa [State.setLane_lane] at frozen

/-! ## Record writes -/

/-- The record write of a lane that has finished the latch and the records before `i` (R81). -/
theorem State.laneWrite_recordWrite {s : State} {n : LaneId} {e : Entry} {i : Fin 64}
    (hw : (s.lane n).work = .recordWrite) (he : s.laneEntry n = some e)
    (hi : firstAccum e.body + (s.lane n).steps = i.val + 1) (h1 : 1 ≤ (s.lane n).steps) :
    s.laneWrite n = some (leField e.body 4 4 + 24 * (i.val - firstAccum e.body),
      totalRecord i.val (s.lane n).buffer.entries[i]) := by
  have place : firstAccum e.body + (i.val - firstAccum e.body) = i.val := by omega
  have record : (s.lane n).steps - 1 = i.val - firstAccum e.body := by omega
  have entry : Fin.ofNat 64 i.val = i := Fin.ext (Nat.mod_eq_of_lt i.isLt)
  simp only [State.laneWrite, hw, he, Option.map_some, record, place, entry, dataAddr]

theorem exec_snapshotRecordWriteAccept {s : State} {n : LaneId} {e : Entry} (hw : (s.lane n).work = .recordWrite)
    (he : s.laneEntry n = some e) (hh : s.writeHeld n = false) :
    exec (.snapshotRecordWriteAccept n) s = .next ((s.setMem (s.mem.land (s.laneWrite n))).finishStep n e) := by
  show execSnapshotRecordWriteAccept n s = _
  simp [execSnapshotRecordWriteAccept, hw, he, hh]

/-- A record write that waits for the other lane's claim is not accepted (R33, log 10). -/
theorem exec_snapshotRecordWriteAccept_of_held {s : State} {n : LaneId} (hh : s.writeHeld n = true) :
    exec (.snapshotRecordWriteAccept n) s = .next s := by
  show execSnapshotRecordWriteAccept n s = _
  unfold execSnapshotRecordWriteAccept
  split
  · rw [if_pos hh]
  · rfl

theorem State.finishStep_paused {s : State} {n : LaneId} {e : Entry}
    (hf : s.engine.state = .pausing ∨ s.engine.state = .paused) (hl : lastStepDone e ((s.lane n).steps + 1) = false) :
    s.FrozenAt (s.finishStep n e) n { s.lane n with steps := (s.lane n).steps + 1 } :=
  State.finishStep_frozen s s n e hf rfl rfl rfl rfl rfl rfl rfl rfl (.refl s) hl

/-- Settles O49: the latch, each record by its place, and the step after it by what is left. -/
theorem snapshotLatchesThenWrites : Obligations.SnapshotLatchesThenWrites := by
  refine ⟨fun s n slot e ho he hk => ?_, fun i x hx => totalRecord_fields i.val x (by omega) hx⟩
  intro paused first last horder hbound
  have hl := State.laneEntry_of_order ho he
  refine ⟨fun hw hsteps => ?latch, fun hw hh => exec_snapshotRecordWriteAccept_of_held hh,
    fun i hw hi h1 hlast hh => ?record⟩
  case latch =>
    have hx := exec_latch hw hl
    refine ⟨(s.lane n).latched e.body s.accums, fun hf => hx.trans (congrArg _ (State.latch_running hk hf hsteps)),
      fun hf => ⟨_, hx, State.latch_paused hk hf hsteps⟩, ?_, rfl, fun i => latchedBuffer_get e.body s.accums⟩
    simp [Lane.latched, hsteps]
  case record =>
    intro finished clears
    have hx := exec_snapshotRecordWriteAccept hw hl hh
    set m := s.mem.land (s.laneWrite n)
    have hl' : (s.setMem m).laneEntry n = some e := (s.laneEntry_setMem m n).trans hl
    have size : rangeSize e.body = last - first + 1 := rfl
    have more (h : i.val < last) : (s.lane n).steps + 1 ≤ rangeSize e.body := by omega
    have none_left (h : i.val = last) : rangeSize e.body < (s.lane n).steps + 1 := by omega
    refine ⟨m, State.written_land_laneWrite (State.laneWrite_recordWrite hw hl hi h1),
      fun h hf => hx.trans (congrArg _ (State.finishStep_record hk hf (more h))),
      fun h hc hf => hx.trans (congrArg _ (State.finishStep_clear hk hf (none_left h) hc)),
      fun h hf => ⟨_, hx, State.finishStep_paused (s := s.setMem m) hf ?frozen⟩, fun h hc => ?last⟩
    case frozen =>
      rw [lastStepDone_snapshot hk]
      rcases h with h | hc
      · simp [Nat.not_lt.2 (more h)]
      · simp [show clearFlag e.body = true from hc]
    case last =>
      obtain ⟨_, ended, rfl, _⟩ := (s.setMem m).ended_finishLast n e hl'
      obtain ⟨alone, overflow⟩ := housekeepingIndicators_table e.header.kind
        (((s.setMem m).lane n).buffer.entries.toList.any (fun t => t.overflow))
      have last_step := State.finishStep_last (s := s.setMem m) (n := n) hk (none_left h) (eq_false_of_ne_true hc)
      refine ⟨_, _, hx.trans (congrArg _ last_step), ended, State.slot_of_entry he, rfl, rfl, rfl, rfl, rfl, rfl, rfl,
        alone, overflow.trans ?_⟩
      rw [any_overflow_iff]
      exact and_iff_right hk

end Sys2Proof.Machine
end

section
/-! A bus error on a slate access: the halt, and what memory holds after it (R31, R154, R174, R184, R185). -/

namespace Sys2Proof.Machine

/-! ## The slate access that faults -/

theorem exec_slateFault {s : State} {r : Requester} {f : SlateFaultAt} (took : BitVec 48) (h : s.faultOf r = some f) :
    exec (.slateFault r took) s =
      .next ((s.dropFaulting r (fun i => took.getLsbD i)).halt f s.slate.sweeping) := by
  show execSlateFault r took s = _
  simp [execSlateFault, h]

theorem exec_slateFault_of_none {s : State} {r : Requester} (took : BitVec 48) (h : s.faultOf r = none) :
    exec (.slateFault r took) s = .next s := by
  show execSlateFault r took s = _
  simp [execSlateFault, h]

/-- A lane's outstanding progress write faults, and no other access of a lane is a slate access (R164, R165, R169). -/
theorem State.progressFault_eq_none {s : State} {n : LaneId} (h1 : ∀ resume, (s.lane n).work ≠ .runningWrite resume)
    (h2 : ∀ b, (s.lane n).work ≠ .parkedWrite b) : s.progressFault n = none := by
  unfold State.progressFault
  split
  next h _ => exact absurd h (h1 _)
  next h _ => exact absurd h (h2 _)
  next => rfl

theorem State.faultOf_lane_progress {s : State} {n : LaneId} {slot : Nat}
    (hw : (∃ resume, (s.lane n).work = .runningWrite resume) ∨ ∃ b, (s.lane n).work = .parkedWrite b)
    (ho : (s.lane n).order = some slot) (hh : s.writeHeld n = false) :
    s.faultOf (.lane n) = some ⟨.progressWrite, slot, s.slotAddr slot + 1⟩ := by
  rcases hw with ⟨_, hw⟩ | ⟨_, hw⟩ <;> simp [State.faultOf, State.progressFault, hh, hw, ho]

theorem State.faultOf_lane_other {s : State} {n : LaneId} (h1 : ∀ resume, (s.lane n).work ≠ .runningWrite resume)
    (h2 : ∀ b, (s.lane n).work ≠ .parkedWrite b) : s.faultOf (.lane n) = none := by
  simp [State.faultOf, State.progressFault_eq_none h1 h2]

/-- The kind of a lane's slate fault. -/
theorem State.kind_of_lane_fault {s : State} {n : LaneId} {f : SlateFaultAt} (h : s.faultOf (.lane n) = some f) :
    f.kind = .progressWrite := by
  unfold State.faultOf State.progressFault at h
  dsimp only at h
  repeat' split at h
  all_goals cases h
  all_goals rfl

/-! ## The state at the halt -/

theorem State.halt_lane (s : State) (f : SlateFaultAt) (sweeping : Bool) (n : LaneId) :
    (s.halt f sweeping).lane n = (s.lane n).halted := by
  cases n <;> rfl

theorem State.halted_halt (s : State) (f : SlateFaultAt) (sweeping : Bool) : (s.halt f sweeping).Halted where
  state := rfl
  access := rfl
  lanes n := by
    rw [State.halt_lane]
    refine ⟨rfl, rfl, ?_⟩
    by_cases h : (s.lane n).state = .idle <;> simp [Lane.halted, h]
  slate := rfl
  writer := ⟨rfl, rfl⟩

/-- Whatever access a lane waits for, it halts alike. -/
theorem State.lane_halt_dropFaulting (s : State) (r : Requester) (took : Nat → Bool) (f : SlateFaultAt)
    (sweeping : Bool) (n : LaneId) : ((s.dropFaulting r took).halt f sweeping).lane n = (s.lane n).halted := by
  obtain ⟨_, _, _, _, _, _, _, _, _, _, _, _, lanes⟩ := s.dropFaulting_fields r took
  obtain ⟨w, hw⟩ := lanes n
  rw [State.halt_lane, hw]
  rfl

/-- Engine Control at the halt: SLATE_FAULT and the fault record besides the state and the dropped access (R185). -/
theorem State.engine_halt_dropFaulting (s : State) (r : Requester) (took : Nat → Bool) (f : SlateFaultAt)
    (sweeping : Bool) : ((s.dropFaulting r took).halt f sweeping).engine =
      { s.engine with
        state := .halted
        access := .none
        flags := { s.engine.flags with slateFault := true }
        fault := ⟨BitVec.ofNat 32 f.address, f.kind, f.slot, s.engine.state⟩ } := by
  obtain ⟨_, engine, _⟩ := s.dropFaulting_fields r took
  rw [← engine]
  rfl

theorem State.bank_halt_dropFaulting (s : State) (r : Requester) (took : Nat → Bool) (f : SlateFaultAt)
    (sweeping : Bool) (b : Fin 4) : ((s.dropFaulting r took).halt f sweeping).banks[b] = s.banks[b].halted := by
  obtain ⟨_, _, _, _, _, _, _, banks, _⟩ := s.dropFaulting_fields r took
  rw [← banks]
  exact Vector.getElem_map ParkBank.halted b.isLt

/-! ## Memory at the halt -/

theorem not_issuedCovers_none (x : Nat) : ¬ issuedCovers none x := by
  rintro ⟨_, _, h, _⟩
  cases h

theorem State.dropFaulting_memoryCanonical {s : State} (r : Requester) (took : Nat → Bool) (hm : s.memoryCanonical) :
    (s.dropFaulting r took).memoryCanonical := by
  unfold State.memoryCanonical
  rcases s.dropFaulting_mem r took with h | h <;> rw [h]
  · exact hm
  · exact Memory.wf_landTaken hm took _

/-- A byte that no issued write but the faulting one covers is covered by none once that one is off the bus. -/
theorem State.dropFaulting_uncovered {s : State} {r : Requester} (took : Nat → Bool) {x : Nat}
    (h : ∀ j, j ≠ issuerOf r → ¬ issuedCovers (s.issued j) x) (j : Fin 4) :
    ¬ issuedCovers ((s.dropFaulting r took).issued j) x := by
  obtain ⟨gone, others⟩ := s.dropFaulting_issued r took
  by_cases hj : j = issuerOf r
  · rw [hj, gone]
    exact not_issuedCovers_none x
  · rw [others j hj]
    exact h j hj

/-- A byte of the faulting write that no other issued write covers is, at the halt, what the bus error left. -/
theorem State.read_halt_uncovered {s : State} {r : Requester} (took : Nat → Bool) (f : SlateFaultAt) (sweeping : Bool)
    (hm : s.memoryCanonical) {x : Nat} (h : ∀ j, j ≠ issuerOf r → ¬ issuedCovers (s.issued j) x) :
    ((s.dropFaulting r took).halt f sweeping).mem.read x = (s.dropFaulting r took).mem.read x :=
  landIssued_uncovered (State.dropFaulting_memoryCanonical r took hm) x (State.dropFaulting_uncovered took h)

/-- Every issued write but the faulting one lands whole (R174, R184). -/
theorem State.landed_halt {s : State} {r : Requester} (took : Nat → Bool) (f : SlateFaultAt) (sweeping : Bool)
    (hm : s.memoryCanonical) {k : Fin 4} (hk : k ≠ issuerOf r) :
    s.Landed ((s.dropFaulting r took).halt f sweeping).mem k := by
  obtain ⟨gone, others⟩ := s.dropFaulting_issued r took
  intro a bytes hissued hfit i hi hothers
  refine State.landIssued_landed (State.dropFaulting_memoryCanonical r took hm) k a bytes
    ((others k hk).trans hissued) hfit i hi fun j hj => ?_
  by_cases hr : j = issuerOf r
  · rw [hr, gone]
    exact not_issuedCovers_none _
  · rw [others j hr]
    exact hothers j hj

/-- A faulting state, completion-word or hand-back write leaves memory as it was (R154). -/
theorem State.dropFaulting_mem_of_whole {s : State} {r : Requester} {f : SlateFaultAt} (took : Nat → Bool)
    (hf : s.faultOf r = some f) (hk : f.kind = .stateWrite ∨ f.kind = .wordWrite ∨ f.kind = .handBackWrite) :
    (s.dropFaulting r took).mem = s.mem := by
  cases r with
  | slateReader =>
    cases hstep : s.slate.step <;>
      simp only [State.faultOf, State.readerFault, hstep, reduceCtorEq, Option.some.injEq] at hf
    case takenWrite =>
      subst hf
      simp at hk
    all_goals simp [State.dropFaulting, hstep]
  | lane n =>
    rw [State.kind_of_lane_fault hf] at hk
    simp at hk
  | completionWriter =>
    cases hstep : s.writer.step <;>
      simp only [State.faultOf, State.writerFault, hstep, reduceCtorEq, Option.some.injEq] at hf
    case resultWrite =>
      subst hf
      simp at hk
    all_goals simp [State.dropFaulting, hstep]

/-- A result area write faults for the Completion Writer alone. -/
theorem State.resultWrite_of_fault {s : State} {r : Requester} {f : SlateFaultAt} (hf : s.faultOf r = some f)
    (hk : f.kind = .resultWrite) :
    r = .completionWriter ∧ ∃ h, s.writer.step = .resultWrite h ∧ f.address = s.slotAddr h.slot + 16 := by
  cases r with
  | slateReader =>
    cases hstep : s.slate.step <;>
      simp only [State.faultOf, State.readerFault, hstep, reduceCtorEq, Option.some.injEq] at hf
    all_goals
      subst hf
      cases hk
  | lane n =>
    rw [State.kind_of_lane_fault hf] at hk
    cases hk
  | completionWriter =>
    cases hstep : s.writer.step <;>
      simp only [State.faultOf, State.writerFault, hstep, reduceCtorEq, Option.some.injEq] at hf
    case resultWrite h =>
      subst hf
      exact ⟨rfl, h, rfl, rfl⟩
    all_goals
      subst hf
      cases hk

theorem resultArea_length (h : HandOver) : (resultArea h).length = 48 := by
  simp [resultArea, leBytes_length]

/-- A write landed by `Memory.landPartly` leaves some byte old, whatever `took` marks (R154). -/
theorem Memory.landPartly_old_byte {m : Memory} (hm : m.wf = true) (took : Nat → Bool) (a : Nat) (bytes : List Byte)
    (ht : a + bytes.length ≤ Config.topAddress + 1) (h0 : 0 < bytes.length) :
    ∃ i, i < bytes.length ∧ (m.landPartly took (some (a, bytes))).read (a + i) = m.read (a + i) := by
  unfold Memory.landPartly
  dsimp only
  split
  next => exact ⟨0, h0, rfl⟩
  next h =>
    obtain ⟨i, hi, hold⟩ : ∃ i, i < bytes.length ∧ took i = false := by simpa using h
    refine ⟨i, hi, ?_⟩
    have byte := Memory.landTaken_byte hm took a bytes ht i hi
    rw [hold] at byte
    exact byte

/-- A faulting result area keeps an old byte (R154). -/
theorem State.dropFaulting_resultWrite {s : State} {r : Requester} {f : SlateFaultAt} (took : Nat → Bool)
    (hm : s.memoryCanonical) (hf : s.faultOf r = some f) (hk : f.kind = .resultWrite)
    (ht : f.address + 48 ≤ Config.topAddress + 1) :
    ∃ i, i < 48 ∧ (s.dropFaulting r took).mem.read (f.address + i) = s.mem.read (f.address + i) := by
  obtain ⟨rfl, h, hstep, haddr⟩ := State.resultWrite_of_fault hf hk
  have mem : (s.dropFaulting .completionWriter took).mem =
      s.mem.landPartly took (some (f.address, resultArea h)) := by
    simp [State.dropFaulting, hstep, State.writerWrite, haddr]
  rw [mem, ← resultArea_length h]
  exact Memory.landPartly_old_byte hm took f.address (resultArea h) (by rwa [resultArea_length])
    (by rw [resultArea_length]; decide)

/-- A byte of the faulting write is old or new (R154, R184, log 9). -/
theorem State.dropFaulting_byte {s : State} {r : Requester} (took : Nat → Bool) (hm : s.memoryCanonical) {a : Nat}
    {bytes : List Byte} (hissued : s.issued (issuerOf r) = some (a, bytes))
    (ht : a + bytes.length ≤ Config.topAddress + 1) (i : Nat) (hi : i < bytes.length) :
    (s.dropFaulting r took).mem.read (a + i) = s.mem.read (a + i) ∨
      (s.dropFaulting r took).mem.read (a + i) = bytes[i] := by
  rcases s.dropFaulting_mem r took with h | h <;> rw [h]
  · exact .inl rfl
  · rw [hissued, Memory.landTaken_byte hm took a bytes ht i hi]
    split
    · exact .inr rfl
    · exact .inl rfl

/-- No byte outside the issued writes changes (R174). -/
theorem State.halt_outside {s : State} {r : Requester} (took : Nat → Bool) (f : SlateFaultAt) (sweeping : Bool)
    (hm : s.memoryCanonical) {x : Nat} (h0 : ¬ issuedCovers (s.laneWrite .lane0) x)
    (h1 : ¬ issuedCovers (s.laneWrite .lane1) x) (h2 : ¬ issuedCovers s.slateWrite x)
    (h3 : ¬ issuedCovers s.writerWrite x) :
    ((s.dropFaulting r took).halt f sweeping).mem.read x = s.mem.read x := by
  obtain ⟨hm', hread, k0, k1, k2, k3⟩ := s.dropFaulting_outside r took hm x h0 h1 h2 h3
  exact (State.landIssued_outside hm' x k0 k1 k2 k3).trans hread

/-- What each requester's outstanding access faults as (R184, R185, log 20). -/
theorem State.faultOf_table (s : State) :
    (∀ slot, s.slate.step = .headerRead slot →
      s.faultOf .slateReader = some ⟨.headerRead, slot, s.slotAddr slot⟩) ∧
    (∀ slot header body, s.slate.step = .takenWrite slot header body →
      s.faultOf .slateReader = some ⟨.takenWrite, slot, s.slotAddr slot⟩) ∧
    (∀ slot, s.slate.step = .handBackWrite slot →
      s.faultOf .slateReader = some ⟨.handBackWrite, slot, s.slotAddr slot⟩) ∧
    (∀ slot header, (s.slate.step = .idle ∨ s.slate.step = .bodyRead slot header ∨ s.slate.step = .failing slot) →
      s.faultOf .slateReader = none) ∧
    (∀ n slot, ((∃ resume, (s.lane n).work = .runningWrite resume) ∨ ∃ b, (s.lane n).work = .parkedWrite b) →
      (s.lane n).order = some slot → s.writeHeld n = false →
      s.faultOf (.lane n) = some ⟨.progressWrite, slot, s.slotAddr slot + 1⟩) ∧
    (∀ n, (∀ resume, (s.lane n).work ≠ .runningWrite resume) → (∀ b, (s.lane n).work ≠ .parkedWrite b) →
      s.faultOf (.lane n) = none) ∧
    (∀ h, s.writer.step = .resultWrite h →
      s.faultOf .completionWriter = some ⟨.resultWrite, h.slot, s.slotAddr h.slot + 16⟩) ∧
    (∀ h, s.writer.step = .stateWrite h →
      s.faultOf .completionWriter = some ⟨.stateWrite, h.slot, s.slotAddr h.slot⟩) ∧
    (∀ h, s.writer.step = .wordWrite h →
      s.faultOf .completionWriter = some ⟨.wordWrite, h.slot, s.engine.anchor.wordAddr.toNat⟩) ∧
    (s.writer.step = .idle → s.faultOf .completionWriter = none) := by
  refine ⟨fun _ h => ?_, fun _ _ _ h => ?_, fun _ h => ?_, fun _ _ h => ?_, fun _ _ => State.faultOf_lane_progress,
    fun _ => State.faultOf_lane_other, fun _ h => ?_, fun _ h => ?_, fun _ h => ?_, fun h => ?_⟩
  case refine_4 => rcases h with h | h | h <;> simp [State.faultOf, State.readerFault, h]
  all_goals simp [State.faultOf, State.readerFault, State.writerFault, h]

/-- Settles O45: the blocks by the fields of the halt, memory by the faulting write first and the landed ones after. -/
theorem slateFaultHaltsTheEngine : Obligations.SlateFaultHaltsTheEngine := by
  refine ⟨fun s r took f hf => ?_, fun s r took => exec_slateFault_of_none took, State.faultOf_table,
    ⟨rfl, rfl, rfl, rfl, rfl, rfl, rfl, rfl, rfl, rfl, rfl⟩⟩
  obtain ⟨table, _, parkOrder, bandSets, accums, window, pending, _, count, notify, cursor, nextSeq, _⟩ :=
    s.dropFaulting_fields r (fun i => took.getLsbD i)
  have engine := s.engine_halt_dropFaulting r (fun i => took.getLsbD i) f s.slate.sweeping
  have lanes := s.lane_halt_dropFaulting r (fun i => took.getLsbD i) f s.slate.sweeping
  have banks := s.bank_halt_dropFaulting r (fun i => took.getLsbD i) f s.slate.sweeping
  refine ⟨_, exec_slateFault took hf, State.halted_halt _ _ _, rfl, ?flags, ?fault, ?anchor, table, parkOrder, bandSets,
    accums, window, pending, count, notify, cursor, nextSeq, rfl, fun n h => ?idle, fun n h => ?busy,
    fun b c h => ?holding, fun b n h => ?reserved, fun hm x => State.halt_outside _ _ _ hm,
    fun hm k => State.landed_halt _ _ _ hm, fun hm hk x hx => ?whole,
    fun hm a bytes hissued ht i hi hx => ?byte, fun hm hk ht => ?result⟩
  case flags | fault | anchor => rw [engine]
  case idle =>
    rw [lanes]
    exact if_pos h
  case busy =>
    rw [lanes]
    exact ⟨if_neg h, rfl, rfl, rfl, rfl⟩
  case holding => rw [banks, h]; rfl
  case reserved => rw [banks, h]; rfl
  case whole =>
    rw [State.read_halt_uncovered _ f _ hm hx, State.dropFaulting_mem_of_whole _ hf hk]
  case byte =>
    rw [State.read_halt_uncovered _ f _ hm hx]
    exact State.dropFaulting_byte _ hm hissued ht i hi
  case result =>
    obtain ⟨i, hi, hold⟩ := State.dropFaulting_resultWrite (fun i => took.getLsbD i) hm hf hk ht
    exact ⟨i, hi, fun hx => (State.read_halt_uncovered _ f _ hm hx).trans hold⟩

end Sys2Proof.Machine
end

section
/-! Band sets in use and counters that hold at a limit, at every step (R59, R157, R172, R192). -/

namespace Sys2Proof.Machine

/-- What a step keeps of the Order Table, the band sets and the counters outside the lanes and banks. -/
structure State.TableCounted (s : State) : Prop where
  sets : s.SetsInUseLoaded
  notify : s.writer.notifyPending ≤ Config.maxNotify
  parks : ∀ e ∈ s.table, e.parkCount ≤ 255
  limit : s.engine.anchor.timeLimit ≤ 65535

namespace State.TableCounted

/-- Every operation that `State.TableKept` describes keeps the counts. -/
theorem after {s t : State} (h : s.TableCounted) (k : State.TableKept s t) : t.TableCounted :=
  ⟨k.sets h.sets, k.notify ▸ h.notify, k.parks h.parks, k.anchor ▸ h.limit⟩

/-- Entries left out, an anchor copied or cleared, and a notify-pending within its limit keep the counts. -/
theorem of_parts {s t : State} (h : s.TableCounted) (hsets : t.bandSets = s.bandSets)
    (hnotify : t.writer.notifyPending ≤ Config.maxNotify) (htable : ∀ e ∈ t.table, e ∈ s.table)
    (hlimit : t.engine.anchor.timeLimit ≤ 65535) : t.TableCounted :=
  ⟨by unfold State.SetsInUseLoaded; rw [hsets]; exact h.sets, hnotify, fun e he => h.parks e (htable e he), hlimit⟩

/-- The Slate Reader's state does not touch the counts. -/
theorem setSlate {s : State} (h : s.TableCounted) (x : SlateReader) : (s.setSlate x).TableCounted :=
  h.of_parts rfl h.notify (fun _ he => he) h.limit

/-- The Completion Writer takes any state within the limit of notify-pending (R192). -/
theorem setWriter {s : State} (h : s.TableCounted) {w : CompletionWriter}
    (hw : w.notifyPending ≤ Config.maxNotify) : (s.setWriter w).TableCounted :=
  h.of_parts rfl hw (fun _ he => he) h.limit

/-! ## The starts -/

theorem failStart {s : State} (h : s.TableCounted) (k : FaultKind) (a : Addr) : (s.failStart k a).TableCounted :=
  h.of_parts rfl h.notify (fun _ he => he) (Nat.zero_le _)

theorem dropStart {s : State} (h : s.TableCounted) : s.dropStart.TableCounted :=
  h.of_parts rfl h.notify (fun _ he => he) (Nat.zero_le _)

theorem beginStart {s : State} (h : s.TableCounted) : s.beginStart.TableCounted := by
  unfold State.beginStart
  dsimp only
  split
  · exact (h.setSlate _).failStart _ _
  · exact h.of_parts rfl h.notify (fun _ he => he) h.limit

theorem takeAnchor {s : State} (h : s.TableCounted) : s.takeAnchor.TableCounted := by
  unfold State.takeAnchor
  split
  · exact h.of_parts rfl h.notify (fun _ he => he) (State.TableKept.anchorBlock_limit s)
  · exact h.failStart _ _

theorem completeStart {s : State} (h : s.TableCounted) : s.completeStart.TableCounted :=
  h.of_parts rfl h.notify (fun _ he => he) h.limit

theorem controlWrite {s : State} (h : s.TableCounted) (enable pause : Bool) (irq : StickyBits) :
    (s.controlWrite enable pause irq).TableCounted := by
  have stored : (s.storeIrq irq).TableCounted := h.after (.of_eq rfl rfl rfl rfl rfl)
  unfold State.controlWrite
  generalize s.storeIrq irq = t at stored
  have fields : (t.controlFields enable pause).TableCounted := by
    unfold State.controlFields
    split
    case h_1 => exact stored.beginStart
    case h_2 => exact stored.after (.of_eq rfl rfl rfl rfl rfl)
    case h_3 =>
      exact (stored.setSlate _).after ((State.TableKept.setEngineState _ _).trans (.settlePause _))
    case h_5 | h_7 => exact stored.after (.releasePause t)
    case h_4 | h_6 | h_8 => exact stored.after (.beginStop t)
    case h_9 => exact stored
  exact fields.after (.of_eq rfl rfl rfl rfl rfl)

/-! ## Entries that join or leave the Order Table -/

theorem removeEntry {s : State} (h : s.TableCounted) (slot : Nat) : (s.removeEntry slot).TableCounted :=
  h.of_parts rfl h.notify (fun _ he => (List.mem_filter.1 he).1) h.limit

theorem enterOrder {s : State} (h : s.TableCounted) (k : OrderKind) (slot : Nat) (header body : List Byte) :
    (s.enterOrder k slot header body).TableCounted := by
  refine ⟨h.sets, h.notify, fun e he => ?_, h.limit⟩
  rcases List.mem_append.1 he with he | he
  · exact h.parks e he
  · rw [List.mem_singleton.1 he]
    exact Nat.zero_le _

theorem meetHeader {s : State} (h : s.TableCounted) (k : Nat) (b : List Byte) : (s.meetHeader k b).TableCounted := by
  unfold State.meetHeader State.meetPosted
  dsimp only
  repeat' split
  all_goals first
    | exact h.after (.advanceSweep s k)
    | exact h.after (.endSweep s)
    | exact h.after (.failAtTake s k b _)
    | exact h.setSlate _

theorem meetBody {s : State} (h : s.TableCounted) (k : Nat) (b d : List Byte) : (s.meetBody k b d).TableCounted := by
  unfold State.meetBody
  repeat' split
  all_goals first
    | exact h.after (.failAtTake s k b _)
    | exact h.setSlate _

theorem leaveSlot {s : State} (h : s.TableCounted) (x : HandOver) : (s.leaveSlot x).TableCounted := by
  have lane (t : State) (n : LaneId) (k : t.TableCounted) : (t.clearLaneOf x.slot n).TableCounted := by
    unfold State.clearLaneOf
    split
    · exact k.after (.setLane t n _)
    · exact k
  have bank (t : State) (k : t.TableCounted) : (t.clearBankOf x.slot).TableCounted := by
    unfold State.clearBankOf
    split
    · split
      · exact k.after (.setBank t _ _)
      · exact k
    · exact k
  unfold State.leaveSlot
  split
  · split
    · exact h.after (.advanceSweep s _)
    all_goals exact h
  · exact (bank _ (lane _ .lane1 (lane _ .lane0 h))).removeEntry _

/-! ## The commands -/

/-- Both resets leave no use, no entry and nothing counted. -/
theorem of_reset {t : State} (hsets : ∀ i : Fin 8, t.bandSets[i].uses = 0) (htable : t.table = [])
    (hwriter : t.writer = CompletionWriter.reset) (hanchor : t.engine.anchor = Anchor.zero) : t.TableCounted :=
  ⟨fun i hi => absurd hi (by rw [hsets i]; exact Nat.lt_irrefl 0), by rw [hwriter]; exact Nat.zero_le _,
    fun e he => by rw [htable] at he; exact absurd he List.not_mem_nil, by rw [hanchor]; exact Nat.zero_le _⟩

/-- A claim that loads a set leaves it LOADED. -/
theorem loadSet {s : State} (h : s.TableCounted) (i : Fin 8) (image : List Byte) :
    (s.setBandSet i (loadedSet image 0)).TableCounted :=
  h.after (.setBandSet s i _ fun _ _ => rfl)

/-- Every command keeps the counts. -/
theorem exec {s : State} (h : s.TableCounted) (c : Instr) {t : State} (he : exec c s = .next t) :
    t.TableCounted := by
  cases c
  case powerOnReset =>
    obtain rfl := Host.Outcome.next.inj he
    exact of_reset (fun i => by
      show ((Vector.replicate 8 BandSet.powerOn)[i]).uses = 0
      rw [Fin.getElem_fin, Vector.getElem_replicate]; rfl) rfl rfl rfl
  case softReset irq =>
    obtain rfl := Host.Outcome.next.inj he
    exact of_reset (fun i => by
      show ((s.bandSets.map fun b : BandSet => { b with uses := 0 })[i]).uses = 0
      rw [Fin.getElem_fin, Vector.getElem_map]) rfl rfl rfl
  case enable | engineStop | pause | pauseRelease =>
    obtain rfl := Host.Outcome.next.inj he
    exact h.controlWrite _ _ _
  case irqEnableWrite | statusClear | windowAddrWrite | windowDataRead =>
    obtain rfl := Host.Outcome.next.inj he
    exact h.after (.of_eq rfl rfl rfl rfl rfl)
  case ack =>
    obtain rfl := Host.Outcome.next.inj he
    exact h.setWriter ((Nat.sub_le _ _).trans h.notify)
  case registerWriteOther =>
    obtain rfl := Host.Outcome.next.inj he
    exact h
  case anchorWrite =>
    obtain rfl := Host.Outcome.next.inj he
    split
    all_goals exact h.after (.of_eq rfl rfl rfl rfl rfl)
  case nudge =>
    obtain rfl := Host.Outcome.next.inj he
    exact h.after (.requestSweep s)
  case cancel =>
    obtain rfl := Host.Outcome.next.inj he
    exact h.after (.cancelSlot s _)
  case windowDataWrite w =>
    obtain rfl := Host.Outcome.next.inj he
    exact (h.after (.writeWindow s w)).after (.of_eq rfl rfl rfl rfl rfl)
  case sweepTimerExpiry =>
    obtain rfl := Host.Outcome.next.inj he
    split
    · exact (h.setSlate _).after (.requestSweep _)
    · exact h
  case anchorReadDone reply =>
    obtain rfl := Host.Outcome.next.inj he
    repeat' split
    all_goals first
      | exact h
      | exact h.dropStart
      | exact h.failStart _ _
      | exact (h.after (.afterHost s _)).dropStart
      | exact (h.after (.afterHost s _)).takeAnchor
  case completionWordReadDone reply =>
    obtain rfl := Host.Outcome.next.inj he
    repeat' split
    all_goals first
      | exact h
      | exact h.dropStart
      | exact h.failStart _ _
      | exact (h.after (.afterHost s _)).dropStart
      | exact (h.after (.afterHost s _)).completeStart
  case headerReadDone host =>
    obtain rfl := Host.Outcome.next.inj he
    split
    · exact ((h.after (.afterHost s host)).meetHeader _ _).after
        ((State.TableKept.settlePause _).trans (.settleStop _))
    all_goals exact h
  case bodyReadDone reply =>
    obtain rfl := Host.Outcome.next.inj he
    split
    · exact h.after (.failAtTake s _ _ _)
    · exact (h.after (.afterHost s _)).meetBody _ _ _
    all_goals exact h
  case take =>
    obtain rfl := Host.Outcome.next.inj he
    split
    · split
      · exact ((h.after (.setMem s _)).enterOrder _ _ _ _).after
          (((State.TableKept.advanceSweep _ _).trans (.settlePause _)).trans (.settleStop _))
      · exact h
    all_goals exact h
  case handBack =>
    obtain rfl := Host.Outcome.next.inj he
    split
    · exact (h.after (.updEntry s _ _ (by exact fun _ => rfl) (by exact fun _ q => q))).setSlate _
    · exact h
  case handBackWriteAccept =>
    obtain rfl := Host.Outcome.next.inj he
    split
    · exact (((h.after (.setMem s _)).removeEntry _).setSlate _).after (.settleStop _)
    all_goals exact h
  case completion pick =>
    obtain rfl := Host.Outcome.next.inj he
    split
    · exact h.setWriter h.notify
    · exact h
  case resultAreaWriteAccept =>
    obtain rfl := Host.Outcome.next.inj he
    split
    · exact (h.after (.setMem s _)).setWriter h.notify
    all_goals exact h
  case stateWriteAccept =>
    obtain rfl := Host.Outcome.next.inj he
    split
    next x _ =>
      have left := (h.after (.setMem s (s.mem.land s.writerWrite))).leaveSlot x
      exact State.TableCounted.after (left.setWriter (by exact left.notify)) (.settlePause _)
    all_goals exact h
  case completionWordWriteAccept =>
    obtain rfl := Host.Outcome.next.inj he
    split
    next x _ =>
      refine ((h.after (.setMem s _)).setWriter ?_).after (.settleStop _)
      show (if x.notify then _ else _) ≤ _
      split
      · exact Nat.min_le_right _ _
      · exact h.notify
    all_goals exact h
  case startEvent =>
    obtain rfl := Host.Outcome.next.inj he
    split
    · split
      · exact h.after (.resume s _ _)
      · exact h.after (.firstStart s _ _)
    · exact h
  case progressRunningAccept n =>
    obtain rfl := Host.Outcome.next.inj he
    repeat' split
    all_goals first
      | exact h
      | exact h.after ((State.TableKept.setMem s _).trans (.beginCell _ n))
      | exact h.after ((State.TableKept.setMem s _).trans (.firstAccess _ n _))
  case startClaim n =>
    obtain rfl := Host.Outcome.next.inj he
    repeat' split
    all_goals first
      | exact h
      | exact h.after (.startClaim s n _ _)
  case startTest n =>
    obtain rfl := Host.Outcome.next.inj he
    repeat' split
    all_goals first
      | exact h
      | exact h.after (.endPlain s n _ _)
      | exact h.after (.finishStep s n _)
  case imageReadDone n bytes host =>
    obtain rfl := Host.Outcome.next.inj he
    split
    · exact h.after ((State.TableKept.afterHost s host).trans (.takeImage _ n _ _))
    · exact h
  case loadClaim n =>
    obtain rfl := Host.Outcome.next.inj he
    repeat' split
    all_goals first
      | exact h
      | exact h.after (.endPlain s n _ _)
      | exact (h.loadSet _ _).after (.finishLast _ n)
  case presetRecordReadDone n host =>
    obtain rfl := Host.Outcome.next.inj he
    split
    · exact h.after ((State.TableKept.afterHost s host).trans (.takePresetRecord _ n _))
    · exact h
  case apply n | clear n =>
    obtain rfl := Host.Outcome.next.inj he
    split
    · exact h.after ((State.TableKept.setAccums s _).trans (.finishLast _ n))
    · exact h
  case latch n =>
    obtain rfl := Host.Outcome.next.inj he
    split
    · exact h.after ((State.TableKept.setLane s n _).trans (.finishStep _ n _))
    · exact h
  case snapshotRecordWriteAccept n =>
    obtain rfl := Host.Outcome.next.inj he
    repeat' split
    all_goals first
      | exact h
      | exact h.after ((State.TableKept.setMem s _).trans (.finishStep _ n _))
  case markReadDone n host =>
    obtain rfl := Host.Outcome.next.inj he
    split
    · exact h.after ((State.TableKept.afterHost s host).trans (.setLane _ n _))
    · exact h
  case sourceReadDone n host =>
    obtain rfl := Host.Outcome.next.inj he
    split
    · exact h.after ((State.TableKept.afterHost s host).trans (.takeSourceA _ n _ _))
    · exact h.after ((State.TableKept.afterHost s host).trans (.workOperands _ n _ _ _ _))
    · exact h
  case destinationReadDone n host =>
    obtain rfl := Host.Outcome.next.inj he
    repeat' split
    all_goals first
      | exact h
      | exact h.after ((State.TableKept.afterHost s host).trans (.takeDestination _ n _ _))
  case destinationWriteAccept n =>
    obtain rfl := Host.Outcome.next.inj he
    repeat' split
    all_goals first
      | exact h
      | exact h.after ((State.TableKept.setMem s _).trans (.setLane _ n _))
  case exceptionRecordWriteAccept n =>
    obtain rfl := Host.Outcome.next.inj he
    repeat' split
    all_goals first
      | exact h
      | exact h.after ((State.TableKept.setMem s _).trans (.setLane _ n _))
  case cellBoundary n =>
    obtain rfl := Host.Outcome.next.inj he
    split
    · exact h.after (.passBoundary s n _ _ _)
    · exact h
  case commit n =>
    obtain rfl := Host.Outcome.next.inj he
    repeat' split
    all_goals first
      | exact h
      | exact h.after (.commitLane s n _ _ _)
  case parkRequest =>
    obtain rfl := Host.Outcome.next.inj he
    repeat' split
    all_goals first
      | exact h
      | exact h.after (.requestPark s _ _)
  case parkWithdraw =>
    obtain rfl := Host.Outcome.next.inj he
    repeat' split
    all_goals first
      | exact h
      | exact h.after (.withdrawPark s _)
  case parkComplete n =>
    obtain rfl := Host.Outcome.next.inj he
    repeat' split
    all_goals first
      | exact h
      | exact h.after ((((State.TableKept.setMem s _).trans (.finishPark _ n _ _ _)).trans (.afterPark _ _)).trans
          (.settlePause _))
  case timeLimit n =>
    obtain rfl := Host.Outcome.next.inj he
    split
    · exact h.after ((State.TableKept.setLane s n _).trans (.post _ n _))
    · exact h
  case memoryFault n took =>
    obtain rfl := Host.Outcome.next.inj he
    repeat' split
    all_goals first
      | exact h
      | exact h.after ((State.TableKept.setMem s _).trans (.failOrder _ n _))
  case slateFault r took =>
    obtain rfl := Host.Outcome.next.inj he
    split
    · exact h.after ((State.TableKept.dropFaulting s r _).trans (.halt _ _ _))
    · exact h

/-- Every step keeps the counts. -/
theorem step {s t : State} (h : s.TableCounted) (hs : step s = .next t) : t.TableCounted := by
  unfold Machine.step at hs
  split at hs
  next =>
    obtain rfl := Host.Outcome.next.inj hs
    exact h.after (.tick s)
  next c rest _ =>
    have front : ({ s with pending := rest } : State).TableCounted := ⟨h.sets, h.notify, h.parks, h.limit⟩
    exact front.exec c hs

end State.TableCounted

/-! ## The run timers -/

/-- A lane's run timer is at or below where it holds (R172). -/
def Lane.Timed (l : Lane) : Prop := l.runTimer ≤ Config.maxRunTime

/-- The run time of a HOLDING bank's order is at or below where a run timer holds (R168, R172). -/
def ParkBank.Timed (x : ParkBank) : Prop := ∀ c, x = .holding c → c.runTime ≤ Config.maxRunTime

/-- The run timers of lanes and banks, which no hand-over carries. -/
abbrev State.Timed (s : State) : Prop := s.Contexts Lane.Timed ParkBank.Timed (fun _ => True)

/-- Only a µs and the time limit raise a run timer; a park and a resume carry it. -/
theorem closed_timed : Closed Lane.Timed ParkBank.Timed (fun _ => True) where
  same l l' _ _ _ htime h := by unfold Lane.Timed; rw [htime]; exact h
  grow l l' _ _ _ _ _ _ _ htime h := by unfold Lane.Timed; rw [htime]; exact h
  contribute _ _ _ h := h
  ending _ h := h
  reset := Nat.zero_le _
  fresh _ := Nat.zero_le _
  free _ h := nomatch h
  reserved _ _ h := nomatch h
  resumed _ c h := h c rfl
  park _ _ _ _ h := by rintro _ ⟨⟩; exact h
  start := trivial
  walk _ _ _ _ := trivial
  banked _ _ := trivial

theorem State.Timed.commandsClosed {s : State} (h : s.Timed) (hlimit : s.engine.anchor.timeLimit ≤ 65535) :
    CommandsClosed Lane.Timed s where
  latch n _ := h.lanes n
  record n _ _ _ _ _ := h.lanes n
  limit n := by
    show s.engine.anchor.timeLimit * 1000 ≤ 65535000
    omega
  halted _ h := h

theorem State.Timed.tickLane {s : State} (h : s.Timed) (n : LaneId) : (s.tickLane n).Timed := by
  have counted : (s.setLane n { s.lane n with
      runTimer := min ((s.lane n).runTimer + 1) Config.maxRunTime }).Timed :=
    h.setLane n (Nat.min_le_right _ _)
  unfold State.tickLane
  split
  · dsimp only
    split
    · exact counted.post closed_timed n _
    · exact counted
  · exact h

theorem State.Timed.step {s t : State} (h : s.Timed) (hlimit : s.engine.anchor.timeLimit ≤ 65535)
    (hs : step s = .next t) : t.Timed := by
  unfold Machine.step at hs
  split at hs
  next =>
    obtain rfl := Host.Outcome.next.inj hs
    exact State.Contexts.tickSweep ((h.tickLane .lane0).tickLane .lane1)
  next c rest _ =>
    have front : ({ s with pending := rest } : State).Timed := h.of_eq (fun n => by cases n <;> rfl) rfl rfl
    exact front.exec closed_timed (front.commandsClosed hlimit) c hs

/-- Settles O59: table, sets and counts follow `State.TableKept` and the few commands beyond it; the run timers are a
closed property of contexts. -/
theorem stepKeepsSetsAndCounters : Obligations.StepKeepsSetsAndCounters := by
  unfold Obligations.StepKeepsSetsAndCounters
  intro s t hsets hc hs
  have counted : t.TableCounted := State.TableCounted.step ⟨hsets, hc.notify, hc.parks, hc.limit⟩ hs
  have timed : t.Timed := State.Timed.step ⟨hc.timers, hc.banks, fun _ _ => trivial⟩ hc.limit hs
  exact ⟨counted.sets, counted.notify, counted.parks, counted.limit, timed.lanes, timed.banks⟩

end Sys2Proof.Machine
end

section
/-! The values after power-on reset (R195, R196). -/

namespace Sys2Proof.Machine

/-- A bound of plus zero: the value that a band's bounds have after power-on reset (R58). -/
theorem boundValue_powerOn : boundValue 0xC = some 0 := by decide

theorem State.reset_bandSets (i : Fin 8) : State.reset.bandSets[i] = BandSet.powerOn :=
  vector_get_replicate 8 BandSet.powerOn i

theorem State.reset_accums (i : Fin 64) : State.reset.accums[i] = Total.zero :=
  vector_get_replicate 64 Total.zero i

theorem State.reset_banks (b : Fin 4) : State.reset.banks[b] = .free :=
  vector_get_replicate 4 ParkBank.free b

theorem State.reset_lane (n : LaneId) : State.reset.lane n = Lane.reset := by cases n <;> rfl

theorem State.reset_resetValues : State.reset.ResetValues where
  engine := ⟨rfl, rfl, rfl, rfl, rfl⟩
  slate := ⟨rfl, rfl, rfl, rfl, rfl⟩
  table := rfl
  lanes n := by
    rw [State.reset_lane]
    exact ⟨rfl, rfl, rfl, rfl, rfl, rfl, rfl, rfl, rfl, rfl, rfl, rfl⟩
  banks := State.reset_banks
  parkOrder := rfl
  uses i := by rw [State.reset_bandSets]; rfl
  writer := rfl
  window := ⟨rfl, rfl, rfl, rfl, rfl⟩

/-- After power-on reset a set is EMPTY and every band has plus zero bounds, accumulator 0 and no alarm (R58). -/
theorem State.reset_powerOnValues : State.reset.PowerOnValues where
  toResetValues := State.reset_resetValues
  anchorReg := rfl
  irqEnables := rfl
  sets i := by
    rw [State.reset_bandSets]
    refine ⟨rfl, rfl, fun b => ?_⟩
    have hband : BandSet.powerOn.bands[b] = Band.powerOn := vector_get_replicate 8 Band.powerOn b
    rw [hband]
    exact ⟨boundValue_powerOn, boundValue_powerOn, rfl, rfl⟩
  accums i := State.reset_accums i

theorem State.reset_totalsInLimits : State.reset.TotalsInLimits where
  accums i := by
    rw [State.reset_accums]
    exact Total.zero_inLimits
  staging n := by rw [State.reset_lane]; exact Staging.start_inWidth
  buffers n := by rw [State.reset_lane]; exact RecordBuffer.empty_inLimits
  banks b c hc := by rw [State.reset_banks] at hc; cases hc
  latch := Total.zero_inLimits

theorem State.reset_recordsBalanced : State.reset.RecordsBalanced where
  lanes n c hc := by rw [State.reset_lane] at hc; cases hc
  banks b c hc := by rw [State.reset_banks] at hc; cases hc
  hands _ hh := absurd hh List.not_mem_nil

theorem State.reset_tableSound : State.reset.TableSound where
  size := Nat.zero_le _
  slots := List.nodup_nil
  taking _ hk := nomatch hk

theorem State.reset_setsInUseLoaded : State.reset.SetsInUseLoaded := by
  intro i hi
  rw [State.reset_bandSets] at hi
  exact absurd hi (Nat.lt_irrefl 0)

theorem State.reset_countersHold : State.reset.CountersHold where
  notify := Nat.zero_le _
  parks _ he := absurd he List.not_mem_nil
  limit := Nat.zero_le _
  timers n := by rw [State.reset_lane]; exact Nat.zero_le _
  banks b c hc := by rw [State.reset_banks] at hc; cases hc

/-- Settles O3: each property of the state after reset, field by field from the blocks' reset values. -/
theorem resetHoldsPowerOnValues : Obligations.ResetHoldsPowerOnValues :=
  ⟨State.reset_powerOnValues, by decide, by decide, by decide, by decide, by decide, by decide, rfl,
    State.reset_totalsInLimits, State.reset_recordsBalanced, State.reset_tableSound, State.reset_setsInUseLoaded,
    State.reset_countersHold⟩

end Sys2Proof.Machine
end

section
/-! A parked order resumed from its bank (R61, R165, R168, R172). -/

namespace Sys2Proof.Machine

/-- A lane whose run timer stands at the limit, with TIME_LIMIT posted; any other lane as it is (R172). -/
def State.limitedLane (s : State) (l : Lane) : Lane :=
  if s.engine.anchor.timeLimit ≠ 0 ∧ s.limitMicros ≤ l.runTimer then
    { l with request := .timeLimit, state := .yielding }
  else l

/-- The posted request moves the lane's state and request alone. -/
theorem State.limitedLane_fields (s : State) (l : Lane) :
    s.limitedLane l = { l with request := (s.limitedLane l).request, state := (s.limitedLane l).state } := by
  unfold State.limitedLane
  split <;> rfl

theorem State.limitedLane_of_reached {s : State} {l : Lane} (h0 : s.engine.anchor.timeLimit ≠ 0)
    (h : s.limitMicros ≤ l.runTimer) : s.limitedLane l = { l with request := .timeLimit, state := .yielding } :=
  if_pos ⟨h0, h⟩

theorem State.limitedLane_of_not_reached {s : State} {l : Lane}
    (h : s.engine.anchor.timeLimit = 0 ∨ l.runTimer < s.limitMicros) : s.limitedLane l = l := by
  refine if_neg fun ⟨h0, hl⟩ => ?_
  exact h.elim h0 (fun hlt => absurd hl (Nat.not_le.2 hlt))

/-- The entry RUNNING, its bank FREE and its slot out of the park-order list, before the lane takes the context. -/
def State.leavePark (s : State) (n : LaneId) (e : Entry) : State :=
  { s with
    banks := s.banks.set e.bank .free
    table := s.table.map (fun x => if x.slot = e.slot then Entry.runOn n x else x)
    parkOrder := s.parkOrder.filter (fun k => k != e.slot) }

/-- A resumed lane is ACTIVE with no request, so TIME_LIMIT posted to it frees no bank and is kept. -/
theorem State.resume_eq {s : State} {e : Entry} {c : ParkedContext} (n : LaneId)
    (hbank : s.banks[e.bank] = .holding c) :
    s.resume n e = (s.leavePark n e).setLane n (s.limitedLane (resumedLane e c)) := by
  have left : (((s.setLane n (resumedLane e c)).setBank e.bank .free).updEntry e.slot (Entry.runOn n)).parkOrder =
      s.parkOrder := by cases n <;> rfl
  have unposted : ({ ((s.setLane n (resumedLane e c)).setBank e.bank .free).updEntry e.slot (Entry.runOn n) with
      parkOrder := s.parkOrder.filter (fun k => k != e.slot) } : State) =
      (s.leavePark n e).setLane n (resumedLane e c) := by cases n <;> rfl
  unfold State.resume State.limitedLane
  rw [hbank]
  dsimp only
  rw [left, unposted]
  split
  next hlimit =>
    rw [if_pos (show _ ∧ s.limitMicros ≤ (resumedLane e c).runTimer from hlimit)]
    rw [State.post_replaces _ n .timeLimit (by rw [State.lane_setLane]; exact .inl rfl)
      (by rw [State.lane_setLane]; rfl) (by rw [State.lane_setLane]; rfl)
      (by rw [State.lane_setLane]; exact Nat.zero_lt_two)]
    rw [State.freeRequestBank_none _ n (by rw [State.lane_setLane]; rfl), State.setLane_setLane, State.lane_setLane]
  next hlimit => rw [if_neg (show ¬(_ ∧ s.limitMicros ≤ (resumedLane e c).runTimer) from hlimit)]

/-- A start event that chooses a PARKED entry resumes it (R163, R165). -/
theorem exec_startEvent_parked {s : State} {n : LaneId} {e : Entry} (hr : s.engine.state = .running)
    (hn : s.idleLane = some n) (he : s.startChoice = some e) (hp : e.phase = .parked) :
    exec .startEvent s = .next (s.resume n e) := by
  show execStartEvent s = _
  simp [execStartEvent, hr, hn, he, hp]

/-- Settles O31: the resume as one update of the state, the lane by the limit. -/
theorem startEventResumesFromTheBank : Obligations.StartEventResumesFromTheBank := by
  unfold Obligations.StartEventResumesFromTheBank
  intro s n e c hr hn he hp hbank
  refine ⟨_, exec_startEvent_parked hr hn he hp, ?_⟩
  have kept := s.kept_resume n e
  rw [State.resume_eq n hbank] at kept ⊢
  have fields := s.limitedLane_fields (resumedLane e c)
  simp only [State.setLane_banks, State.setLane_parkOrder, State.setLane_table, State.lane_setLane,
    State.lane_setLane_other, State.setLane_bandSets, State.setLane_engine, State.setLane_slate,
    State.setLane_writer]
  refine ⟨rfl, rfl, rfl, ?order, ?timer, ?staging, ?work, ?mark, ?context, ?reached, ?before, ?other, rfl, rfl, rfl,
    rfl, kept⟩
  case order | timer | staging | work | mark => rw [fields]; rfl
  case context =>
    rw [fields]
    exact ⟨_, rfl, rfl, rfl, rfl⟩
  case reached =>
    rintro ⟨h0, hlimit⟩
    rw [State.limitedLane_of_reached (l := resumedLane e c) h0 hlimit]
    exact ⟨rfl, rfl⟩
  case before =>
    intro h
    rw [State.limitedLane_of_not_reached (l := resumedLane e c) h]
    exact ⟨rfl, rfl⟩
  case other => cases n <;> rfl

end Sys2Proof.Machine
end

section
/-! Orders that end with every count 0, and the start claim of a band set (R57, R60, R65, R126). -/

namespace Sys2Proof.Machine

/-! ## The entry that was changed, and the others -/

theorem State.entry_updEntry_self {s : State} {k : Nat} {e : Entry} (f : Entry → Entry) (hf : ∀ x, (f x).slot = x.slot)
    (he : s.entry? k = some e) : (s.updEntry k f).entry? k = some (f e) := by
  rw [State.entry_updEntry s k k f hf, he]
  exact congrArg some (if_pos (State.slot_of_entry he))

theorem State.entry_updEntry_ne {s : State} {j k : Nat} (f : Entry → Entry) (hf : ∀ x, (f x).slot = x.slot)
    (h : k ≠ j) : (s.updEntry j f).entry? k = s.entry? k := by
  rw [State.entry_updEntry s j k f hf]
  cases he : s.entry? k with
  | none => rfl
  | some e => exact congrArg some (if_neg (by rw [State.slot_of_entry he]; exact h))

/-! ## Orders that end with every count 0 -/

/-- Of the orders that end so, a SNAPSHOT alone can have an indicator (R93, R126). -/
theorem State.ended_endPlain_clear {s : State} {n : LaneId} {e : Entry} (f : FinalState) (r : Reason)
    (he : s.laneEntry n = some e) (hk : e.header.kind ≠ .snapshot) :
    s.Ended (s.endPlain n f r) n (plainHandOver e f r Indicators.clear) ∧
      (s.endPlain n f r).bandSets = s.bandSets ∧ (s.endPlain n f r).table = s.table := by
  obtain ⟨h, ended, rfl, sets, table⟩ := State.ended_endPlain s n e f r he
  rw [housekeeping_clear _ _ hk] at ended
  exact ⟨ended, sets, table⟩

/-- The PARK that an order drops at its end has its bank freed (R168). -/
theorem State.endPlain_bank_free {s : State} {n : LaneId} {e : Entry} {b : Fin 4} (f : FinalState) (r : Reason)
    (he : s.laneEntry n = some e) (hb : (s.lane n).request = .park b) : (s.endPlain n f r).banks[b] = .free := by
  have hbanks := State.endPlain_banks s n e f r he
  have hfree := State.freeRequestBank_park s n b hb
  rwa [← hbanks] at hfree

/-! ## The set that an order references -/

theorem referencedSet_of_byte {kind : OrderKind} {body : List Byte} {i : Fin 8}
    (hk : kind = .tally ∨ kind = .difference) (hi : (byteAt body 136).toNat = i.val) :
    referencedSet kind body = some i := by
  have hset : Fin.ofNat 8 (byteAt body 136).toNat = i := by rw [hi]; exact Fin.ofNat_val_eq_self i
  have hff : byteAt body 136 ≠ 0xFF := fun h => by
    rw [h] at hi
    exact absurd i.isLt (by rw [← hi]; decide)
  rcases hk with rfl | rfl
  · exact congrArg some hset
  · exact (if_neg hff).trans (congrArg some hset)

theorem referencedSet_difference_of_none {body : List Byte} (h : (byteAt body 136).toNat = 0xFF) :
    referencedSet .difference body = none :=
  if_pos (BitVec.eq_of_toNat_eq h)

theorem referencedSet_of_other {kind : OrderKind} (body : List Byte) (ht : kind ≠ .tally) (hd : kind ≠ .difference) :
    referencedSet kind body = none := by
  cases kind
  case tally => exact absurd rfl ht
  case difference => exact absurd rfl hd
  all_goals rfl

theorem kind_of_referencedSet {kind : OrderKind} {body : List Byte} {i : Fin 8}
    (h : referencedSet kind body = some i) : kind = .tally ∨ kind = .difference := by
  by_contra hk
  rw [not_or] at hk
  rw [referencedSet_of_other body hk.1 hk.2] at h
  cases h

theorem ne_snapshot_of_referencedSet {kind : OrderKind} {body : List Byte} {i : Fin 8}
    (h : referencedSet kind body = some i) : kind ≠ .snapshot := by
  rcases kind_of_referencedSet h with rfl | rfl <;> decide

/-! ## START_CLAIM -/

theorem exec_startClaim {s : State} {n : LaneId} {e : Entry} {i : Fin 8} (hw : (s.lane n).work = .startClaim)
    (he : s.laneEntry n = some e) (hi : referencedSet e.header.kind e.body = some i) :
    exec (.startClaim n) s = .next (s.startClaim n e i) := by
  show execStartClaim n s = _
  simp [execStartClaim, hw, he, hi]

/-- A LOADED set, or an UNCHECKED one that passes its check, is granted (R60). -/
theorem State.startClaim_granted {s : State} (n : LaneId) (e : Entry) {i : Fin 8}
    (h : s.bandSets[i].state = .loaded ∨ s.bandSets[i].state = .unchecked ∧ s.bandSets[i].valid = true) :
    s.startClaim n e i = s.grantStart n e i := by
  unfold State.startClaim
  rcases h with h | ⟨h, hv⟩
  · rw [h]
  · rw [h]; exact if_pos hv

theorem State.startClaim_empty {s : State} (n : LaneId) (e : Entry) {i : Fin 8} (h : s.bandSets[i].state = .empty) :
    s.startClaim n e i = s.endPlain n .failed .bandSetEmpty := by
  unfold State.startClaim
  rw [h]

theorem State.startClaim_invalid {s : State} (n : LaneId) (e : Entry) {i : Fin 8}
    (h : s.bandSets[i].state = .unchecked) (hv : s.bandSets[i].valid = false) :
    s.startClaim n e i = s.endPlain n .failed .bandSetInvalid := by
  unfold State.startClaim
  rw [h]
  exact if_neg (by rw [hv]; exact Bool.false_ne_true)

/-- The claim held does not touch the cell that begins. -/
theorem Lane.beginCell_claimed (e : Entry) (held : Bool) (l : Lane) :
    l.beginCell { e with claimed := held } = l.beginCell e := rfl

/-- A claim granted counts one use more, marks the entry, and begins the first cell (R60, R164). -/
theorem State.grantStart_eq {s : State} {n : LaneId} {slot : Nat} {e : Entry} (i : Fin 8)
    (ho : (s.lane n).order = some slot) (he : s.entry? slot = some e) :
    s.grantStart n e i = ((s.setBandSet i
      { s.bandSets[i] with state := .loaded, uses := s.bandSets[i].uses + 1 }).updEntry slot
        (fun x => { x with claimed := true })).setLane n ((s.lane n).beginCell e) := by
  have hslot : e.slot = slot := State.slot_of_entry he
  unfold State.grantStart
  rw [hslot]
  set t := (s.setBandSet i { s.bandSets[i] with state := .loaded, uses := s.bandSets[i].uses + 1 }).updEntry slot
    (fun x => { x with claimed := true }) with ht
  have hentry : t.entry? slot = some { e with claimed := true } :=
    State.entry_updEntry_self (fun x => { x with claimed := true }) (fun _ => rfl)
      (show (s.setBandSet i _).entry? slot = some e from he)
  rw [State.beginCell_eq (State.laneEntry_of_order (s := t) ho hentry), Lane.beginCell_claimed]
  rfl

/-- Settles O35: the check by `bandsValid_iff`, the referenced set by kind, the claim by the set's state. -/
theorem startClaimCountsTheUse : Obligations.StartClaimCountsTheUse := by
  unfold Obligations.StartClaimCountsTheUse
  refine ⟨fun set => bandsValid_iff _ _, fun kind body => ⟨fun hk i => referencedSet_of_byte hk, ?_,
    referencedSet_of_other body⟩, ?claim⟩
  · rintro rfl
    exact referencedSet_difference_of_none
  case claim =>
    intro s n slot e i c hw ho he hi hc failed
    have hlane : s.laneEntry n = some e := State.laneEntry_of_order ho he
    have run := exec_startClaim hw hlane hi
    have fails (r : Reason) (h : s.startClaim n e i = s.endPlain n .failed r) : failed r := by
      obtain ⟨ended, sets, table⟩ :=
        State.ended_endPlain_clear .failed r hlane (ne_snapshot_of_referencedSet hi)
      exact ⟨_, _, run.trans (congrArg _ h), ended, sets, table, fun b hb => State.endPlain_bank_free _ _ hlane hb,
        State.slot_of_entry he, rfl, rfl, rfl, rfl, rfl, rfl, rfl, rfl⟩
    refine ⟨fun h => ?_, fun h => fails _ (State.startClaim_empty n e h),
      fun h hv => fails _ (State.startClaim_invalid n e h hv)⟩
    refine ⟨(s.lane n).beginCell e, ?_, Lane.cellBegun_beginCell e _ c hc⟩
    rw [run, State.startClaim_granted n e h, State.grantStart_eq i ho he]

end Sys2Proof.Machine
end

section
/-! The commit of a walking order's staging set (R62, R72, R76, R77, R93, R95, R99). -/

namespace Sys2Proof.Machine

/-! ## The accumulators that a staging entry names -/

theorem namedAccum_band (set : BandSet) (body : List Byte) (k : Fin 8) :
    namedAccum set body k.castSucc = Fin.ofNat 64 set.bands[k].accum.toNat :=
  dif_pos k.isLt

theorem namedAccum_residue {body : List Byte} (set : BandSet) (h : (byteAt body 137).toNat ≤ 63) :
    (namedAccum set body 8).val = (byteAt body 137).toNat := by
  have hff : byteAt body 137 ≠ 0xFF := fun q => by
    rw [q] at h
    exact absurd h (by decide)
  have hres : residueOf body = some (Fin.ofNat 64 (byteAt body 137).toNat) := if_neg hff
  have hname : namedAccum set body 8 = (residueOf body).getD 0 := dif_neg (Nat.lt_irrefl 8)
  rw [hname, hres]
  exact Nat.mod_eq_of_lt (Nat.lt_succ_of_le h)

/-! ## What a commit leaves of the accumulators -/

section
variable (name : Fin 9 → Fin 64) (staging : Staging) (accums : Vector Total 64)

theorem commitStaging_unnamed {a : Fin 64} (h : ∀ k : Fin 9, 0 < staging[k].count → name k ≠ a) :
    (commitStaging name staging accums).1[a] = accums[a] :=
  applyStaged_unnamed name staging _ _ a (fun k _ => h k)

theorem commitStaging_named_once {k : Fin 9} (hk : 0 < staging[k].count)
    (h : ∀ j : Fin 9, 0 < staging[j].count → name j = name k → j = k) :
    (commitStaging name staging accums).1[name k] = (accums[name k].applyEntry staging[k]).1 :=
  applyStaged_named_once name staging _ _ k (List.nodup_finRange 9) (List.mem_finRange k) hk h

theorem commitStaging_of_no_counts (h : ∀ k : Fin 9, staging[k].count = 0) :
    commitStaging name staging accums = (accums, false) :=
  applyStaged_of_no_counts name staging _ _ (fun k _ => h k)

end

/-! ## COMMIT -/

theorem State.setOfEntry_of_referencedSet (s : State) {e : Entry} {i : Fin 8}
    (hi : referencedSet e.header.kind e.body = some i) : s.setOfEntry e = some s.bandSets[i] := by
  unfold State.setOfEntry
  rw [hi]
  rfl

theorem exec_commit {s : State} {n : LaneId} {e : Entry} {c : WalkContext} {i : Fin 8}
    (hw : (s.lane n).work = .commitClaim) (he : s.laneEntry n = some e) (hc : (s.lane n).context = some c)
    (hi : referencedSet e.header.kind e.body = some i) :
    exec (.commit n) s = .next (s.commitLane n e c s.bandSets[i]) := by
  show execCommit n s = _
  simp only [execCommit, hw, he, hc, s.setOfEntry_of_referencedSet hi]

/-- The hand-over of a committed order: DONE, with the Bank's report (R93, R95). -/
def commitHandOver (e : Entry) (c : WalkContext) (overflow : Bool) : HandOver :=
  walkHandOver e c.record .done .none overflow none

/-- Of the kinds that commit, either shows the Bank's report as OVERFLOW (R93). -/
theorem commitHandOver_overflow {e : Entry} {i : Fin 8} (c : WalkContext) (overflow : Bool)
    (hi : referencedSet e.header.kind e.body = some i) :
    (commitHandOver e c overflow).indicators.overflow = overflow := by
  show (walkIndicators e.header.kind c.record overflow).overflow = overflow
  rcases kind_of_referencedSet hi with hk | hk <;> rw [hk] <;> rfl

/-- The lane's walk ends from the state with the totals applied (R76, R77, R95). -/
theorem State.ended_commitLane {s : State} {n : LaneId} {e : Entry} {c : WalkContext} (set : BandSet)
    (he : s.laneEntry n = some e) (hc : (s.lane n).context = some c) :
    let result := commitStaging (namedAccum set e.body) (s.lane n).staging s.accums
    (s.setAccums result.1).Ended (s.commitLane n e c set) n (commitHandOver e c result.2) ∧
      s.Released (s.commitLane n e c set) e ∧
      ∀ i, e.claimed = true → referencedSet e.header.kind e.body = some i →
        (s.commitLane n e c set).bandSets =
            s.bandSets.set i { s.bandSets[i] with uses := s.bandSets[i].uses - 1 } ∧
          (s.commitLane n e c set).table =
            s.table.map (fun x => if x.slot = e.slot then { x with claimed := false } else x) := by
  intro result
  set l : Lane := { s.lane n with context := some { c with commitOverflow := result.2 } } with hl
  set u := (s.setAccums result.1).setLane n l with hu
  have hcommit : s.commitLane n e c set = u.endWalk n .done .none none := rfl
  have hlane : u.laneEntry n = some e :=
    (State.laneEntry_setLane (s.setAccums result.1) n l rfl).trans ((s.laneEntry_setAccums _ n).trans he)
  have hcontext : (u.lane n).context = some { c with commitOverflow := result.2 } := by
    rw [hu, State.lane_setLane]
  have hsets : u.bandSets = s.bandSets := by cases n <;> rfl
  have htable : u.table = s.table := by cases n <;> rfl
  obtain ⟨h, ended, hh, claim⟩ := State.ended_endWalk u n e _ .done .none none hlane hcontext
  have released := State.released_endWalk u n e _ .done .none none hlane hcontext
  rw [hsets, htable] at claim
  rw [hcommit]
  subst hh
  exact ⟨ended.after_setLane l rfl, released.congr hsets.symm rfl (fun y hy hs => ⟨y, hy, hs, rfl⟩), claim⟩

/-- Settles O42: the order's end by `State.ended_commitLane`, the totals by the laws of the fold over the entries. -/
theorem commitAddsStagingOnce : Obligations.CommitAddsStagingOnce := by
  unfold Obligations.CommitAddsStagingOnce
  refine ⟨fun s n slot e c i hw ho he hc hi => ?_, commit_spec, applyEntry_spec⟩
  intro name staging result
  refine ⟨?_, namedAccum_band _ _, namedAccum_residue _, fun a => commitStaging_unnamed name staging _,
    fun k => commitStaging_named_once name staging _, commitStaging_of_no_counts name staging _⟩
  have hlane : s.laneEntry n = some e := State.laneEntry_of_order ho he
  have hslot : e.slot = slot := State.slot_of_entry he
  obtain ⟨ended, released, claim⟩ := State.ended_commitLane s.bandSets[i] hlane hc
  refine ⟨_, commitHandOver e c result.2, exec_commit hw hlane hc hi, ended, released, hslot, rfl, rfl, rfl,
    commitHandOver_overflow c _ hi, rfl, rfl, rfl, rfl, rfl, fun hclaimed => ?_⟩
  rw [← hslot]
  exact claim i hclaimed hi

end Sys2Proof.Machine
end

section
/-! The load claim of a BANDSET (R63, R126, R128). -/

namespace Sys2Proof.Machine

/-! ## The set that an image leaves -/

theorem loadedSet_band (image : List Byte) (uses : Nat) (b : Fin 8) :
    (loadedSet image uses).bands[b] = if b.val < (byteAt image 0).toNat then imageBand image b.val else Band.powerOn :=
  Vector.getElem_ofFn b.isLt

/-! ## LOAD_CLAIM -/

theorem exec_loadClaim_in_use {s : State} {n : LaneId} {e : Entry} (hw : (s.lane n).work = .loadClaim)
    (he : s.laneEntry n = some e) (hu : 0 < s.bandSets[bandsetNumber e.body].uses) :
    exec (.loadClaim n) s = .next (s.endPlain n .failed .bandSetInUse) := by
  show execLoadClaim n s = _
  simp only [execLoadClaim, hw, he, if_pos hu]

theorem exec_loadClaim_unused {s : State} {n : LaneId} {e : Entry} (hw : (s.lane n).work = .loadClaim)
    (he : s.laneEntry n = some e) (hu : s.bandSets[bandsetNumber e.body].uses = 0) :
    exec (.loadClaim n) s =
      .next ((s.setBandSet (bandsetNumber e.body) (loadedSet (s.lane n).image 0)).finishLast n) := by
  show execLoadClaim n s = _
  simp only [execLoadClaim, hw, he, hu, if_neg (Nat.lt_irrefl 0)]

/-- Settles O47: the set replaced first and the order ended after it, or the order ended with the set as it stood. -/
theorem loadClaimReplacesTheSet : Obligations.LoadClaimReplacesTheSet := by
  unfold Obligations.LoadClaimReplacesTheSet
  intro s n slot e ho he hw i image carried
  have hlane : s.laneEntry n = some e := State.laneEntry_of_order ho he
  have carries (f : FinalState) (r : Reason) (overflow : Bool) :
      carried (plainHandOver e f r (housekeepingIndicators e.header.kind overflow)) :=
    ⟨State.slot_of_entry he, rfl, rfl, rfl, rfl, rfl,
      fun hk => housekeeping_clear _ _ (by rw [hk]; decide)⟩
  refine ⟨fun hu => ?load, fun hu => ?fail⟩
  case load =>
    set u := s.setBandSet i (loadedSet image 0) with hset
    obtain ⟨h, ended, rfl, sets, -⟩ := State.ended_finishLast u n e hlane
    have loaded : (u.finishLast n).bandSets[i] = loadedSet image 0 := by
      rw [sets]
      exact vector_get_set_self s.bandSets i _
    refine ⟨_, _, exec_loadClaim_unused hw hlane hu,
      ended.after rfl rfl rfl rfl rfl rfl (s.kept_setBandSet i _), carries _ _ _, rfl, rfl, ?_⟩
    rw [loaded]
    refine ⟨rfl, rfl, rfl, fun b hb => ?_, fun b hb => ?_, fun j hj => ?_⟩
    · rw [loadedSet_band, if_pos hb]
    · rw [loadedSet_band, if_neg (Nat.not_lt.2 hb)]
    · rw [sets]
      exact vector_get_set_ne s.bandSets i j _ (fun h => hj (Fin.ext h.symm))
  case fail =>
    obtain ⟨h, ended, rfl, sets, -⟩ := State.ended_endPlain s n e .failed .bandSetInUse hlane
    exact ⟨_, _, exec_loadClaim_in_use hw hlane hu, ended, carries _ _ _, sets, rfl, rfl⟩

end Sys2Proof.Machine
end

section
/-! The steps of a BANDSET before its load claim: test, image read and check (R57, R63, R125, R126, R128, R160). -/

namespace Sys2Proof.Machine

/-! ## The step that follows -/

/-- Outside PAUSING and PAUSED a finished step is followed by the next one (R125). -/
theorem State.finishStep_of_not_paused {s : State} (n : LaneId) (e : Entry)
    (hf : ¬(s.engine.state = .pausing ∨ s.engine.state = .paused)) :
    s.finishStep n e =
      (s.setLane n { s.lane n with steps := (s.lane n).steps + 1 }).nextHousekeepingStep n e := by
  unfold State.finishStep
  exact State.stepBoundary_of_not_frozen _ n e (by simpa using mt .inl hf) (by simpa using mt .inr hf)

section
variable {s : State} {n : LaneId} {e : Entry} (hk : e.header.kind = .bandset)
include hk

theorem State.nextHousekeepingStep_image (h1 : (s.lane n).steps = 1) :
    s.nextHousekeepingStep n e = s.setLane n { s.lane n with image := [], work := .imageRead } := by
  simp [State.nextHousekeepingStep, hk, h1]

theorem State.nextHousekeepingStep_valid (h2 : (s.lane n).steps = 2)
    (hv : bandsValid (byteAt (s.lane n).image 0).toNat ((List.range 8).map (imageBand (s.lane n).image)) = true) :
    s.nextHousekeepingStep n e = s.setLane n { s.lane n with steps := 3, work := .loadClaim } := by
  simp only [State.nextHousekeepingStep, hk, h2, hv]
  rfl

theorem State.nextHousekeepingStep_invalid (h2 : (s.lane n).steps = 2)
    (hv : bandsValid (byteAt (s.lane n).image 0).toNat ((List.range 8).map (imageBand (s.lane n).image)) = false) :
    s.nextHousekeepingStep n e = s.endPlain n .failed .bandSetInvalid := by
  simp only [State.nextHousekeepingStep, hk, h2, hv]
  rfl

theorem not_snapshot_of_bandset : e.header.kind ≠ .snapshot := by
  rw [hk]
  decide

end

/-! ## START_TEST -/

theorem exec_startTest_in_use {s : State} {n : LaneId} {e : Entry} (hw : (s.lane n).work = .startTest)
    (he : s.laneEntry n = some e) (hu : 0 < s.bandSets[bandsetNumber e.body].uses) :
    exec (.startTest n) s = .next (s.endPlain n .failed .bandSetInUse) := by
  show execStartTest n s = _
  simp only [execStartTest, hw, he, if_pos hu]

theorem exec_startTest_unused {s : State} {n : LaneId} {e : Entry} (hw : (s.lane n).work = .startTest)
    (he : s.laneEntry n = some e) (hu : s.bandSets[bandsetNumber e.body].uses = 0) :
    exec (.startTest n) s = .next (s.finishStep n e) := by
  show execStartTest n s = _
  simp only [execStartTest, hw, he, hu, if_neg (Nat.lt_irrefl 0)]

/-! ## IMAGE_READ_DONE -/

/-- The lane with the bytes of one more read, as many as the image lacks at most (R128, log 11). -/
def State.imageGathered (s : State) (n : LaneId) (e : Entry) (k : Nat) : Lane :=
  { s.lane n with image := (s.lane n).image ++
      s.mem.readBytes (dataAddr e.body + (s.lane n).image.length) (min k (264 - (s.lane n).image.length)) }

/-- The image is whole once a read brings what it lacked. -/
theorem State.imageGathered_whole_iff (s : State) (n : LaneId) (e : Entry) (k : Nat) :
    imageBytes ≤ (s.imageGathered n e k).image.length ↔ 264 - (s.lane n).image.length ≤ k := by
  have hlength : (s.imageGathered n e k).image.length =
      (s.lane n).image.length + min k (264 - (s.lane n).image.length) := by
    unfold State.imageGathered
    rw [List.length_append, Memory.readBytes_length]
  rw [hlength]
  show 264 ≤ _ ↔ _
  omega

theorem exec_imageReadDone {s : State} {n : LaneId} {e : Entry} (k : Nat) (host : HostWrites)
    (hw : (s.lane n).work = .imageRead) (he : s.laneEntry n = some e) :
    exec (.imageReadDone n k host) s = .next ((s.afterHost host).takeImage n e k) := by
  show execImageReadDone n k host s = _
  simp only [execImageReadDone, hw, he]

theorem State.takeImage_of_lacking {s : State} {n : LaneId} (e : Entry) {k : Nat}
    (h : k < 264 - (s.lane n).image.length) :
    s.takeImage n e k = s.setLane n (s.imageGathered n e k) :=
  if_neg (mt (s.imageGathered_whole_iff n e k).1 (Nat.not_le.2 h))

theorem State.takeImage_of_whole {s : State} {n : LaneId} (e : Entry) {k : Nat}
    (h : 264 - (s.lane n).image.length ≤ k) :
    s.takeImage n e k = (s.setLane n (s.imageGathered n e k)).finishStep n e :=
  if_pos ((s.imageGathered_whole_iff n e k).2 h)

/-- The lane with its image whole, at the step boundary after the read (R125, R128). -/
def State.imageRead (s : State) (n : LaneId) (e : Entry) (k : Nat) : Lane :=
  { s.imageGathered n e k with steps := 2 }

section
variable {s : State} {n : LaneId} {e : Entry} {k : Nat} (h : 264 - (s.lane n).image.length ≤ k)
  (h1 : (s.lane n).steps = 1)
include h h1

/-- With its image whole a lane has two steps done and comes to the check (R128, log 12). -/
theorem State.takeImage_of_not_paused (hf : ¬(s.engine.state = .pausing ∨ s.engine.state = .paused)) :
    s.takeImage n e k = (s.setLane n (s.imageRead n e k)).nextHousekeepingStep n e := by
  rw [State.takeImage_of_whole e h, State.finishStep_of_not_paused n e (by simpa using hf), State.lane_setLane,
    State.setLane_setLane]
  have hsteps : (s.imageGathered n e k).steps + 1 = 2 := congrArg (· + 1) h1
  rw [hsteps]
  rfl

/-- In PAUSING and PAUSED the lane freezes before the check (R125, log 12). -/
theorem State.takeImage_paused (hk : e.header.kind ≠ .snapshot)
    (hf : s.engine.state = .pausing ∨ s.engine.state = .paused) :
    s.FrozenAt (s.takeImage n e k) n (s.imageRead n e k) := by
  have frozen := State.finishStep_frozen s (s.setLane n (s.imageGathered n e k)) n e hf (by simp) (by simp) (by simp)
    (by simp) (by simp) (by simp) (by simp) (by simp) (s.kept_setLane _ _) (lastStep_other e _ hk)
  rw [State.lane_setLane] at frozen
  have hsteps : (s.imageGathered n e k).steps + 1 = 2 := congrArg (· + 1) h1
  rw [hsteps] at frozen
  rw [State.takeImage_of_whole e h]
  exact frozen

end

/-- Settles O46: each step by its boundary, the check by `bandsValid_iff`. -/
theorem bandsetTestsReadsAndChecks : Obligations.BandsetTestsReadsAndChecks := by
  unfold Obligations.BandsetTestsReadsAndChecks
  refine ⟨fun s n slot e ho he hk => ?_, fun _ _ => ⟨rfl, rfl, rfl, rfl⟩⟩
  intro paused fails
  have hlane : s.laneEntry n = some e := State.laneEntry_of_order ho he
  have hsnap := not_snapshot_of_bandset hk
  refine ⟨fun hw h0 => ⟨fun hu => ?inUse, fun hu => ⟨fun hp => ?next, fun hp => ?frozen⟩⟩, fun k host hw h1 => ?image⟩
  case inUse =>
    obtain ⟨ended, sets, table⟩ := State.ended_endPlain_clear .failed .bandSetInUse hlane hsnap
    exact ⟨_, _, exec_startTest_in_use hw hlane hu, ended, sets, table, State.slot_of_entry he, rfl, rfl, rfl, rfl,
      rfl, rfl, rfl, rfl⟩
  case next =>
    rw [exec_startTest_unused hw hlane hu, State.finishStep_of_not_paused n e hp,
      State.nextHousekeepingStep_image hk (by simp [h0])]
    simp [h0, State.setLane_setLane]
  case frozen =>
    have frozen := State.finishStep_paused (n := n) (e := e) hp (lastStep_other e _ hsnap)
    rw [h0] at frozen
    exact ⟨_, exec_startTest_unused hw hlane hu, frozen⟩
  case image =>
    intro u lacks more image sound
    have run : exec (.imageReadDone n k host) s = .next (u.takeImage n e k) := exec_imageReadDone k host hw hlane
    have check (hlack : lacks ≤ k) (hp : ¬paused) :
        u.takeImage n e k = (u.setLane n (u.imageRead n e k)).nextHousekeepingStep n e :=
      State.takeImage_of_not_paused (s := u) hlack h1 hp
    have hread : (u.setLane n (u.imageRead n e k)).lane n = u.imageRead n e k := State.lane_setLane _ _ _
    refine ⟨fun hlack => ?lacking, fun hlack hp hs => ?valid, fun hlack hp hs => ?invalid, fun hlack hp => ?paused⟩
    case lacking => exact run.trans (congrArg _ (State.takeImage_of_lacking (s := u) e hlack))
    case valid =>
      rw [run, check hlack hp, State.nextHousekeepingStep_valid hk (by rw [hread]; rfl)
        (by rw [hread]; exact (bandsValid_iff _ _).2 hs), State.setLane_setLane, hread]
      rfl
    case invalid =>
      have hinvalid : bandsValid (byteAt image 0).toNat ((List.range 8).map (imageBand image)) = false := by
        rw [← Bool.not_eq_true, bandsValid_iff]
        exact hs
      have hu : (u.setLane n (u.imageRead n e k)).laneEntry n = some e :=
        (State.laneEntry_setLane u n (u.imageRead n e k) rfl).trans hlane
      obtain ⟨ended, sets, table⟩ := State.ended_endPlain_clear .failed .bandSetInvalid hu hsnap
      rw [check hlack hp, State.nextHousekeepingStep_invalid hk (by rw [hread]; rfl)
        (by rw [hread]; exact hinvalid)] at run
      exact ⟨_, _, run, ended.after_setLane _ rfl, sets.trans (State.setLane_bandSets _ _ _),
        table.trans (State.setLane_table _ _ _), State.slot_of_entry he, rfl, rfl, rfl, rfl, rfl, rfl, rfl, rfl⟩
    case paused => exact ⟨_, run, State.takeImage_paused (s := u) hlack h1 hsnap hp⟩

end Sys2Proof.Machine
end

section
/-! The end of a parked order, and the completion of a park (R62, R137, R157, R163, R168, R169, R182, R189, R190). -/

namespace Sys2Proof.Machine

/-! ## The end of a parked order -/

theorem State.entry_releaseSet_self {s : State} {e : Entry} (he : s.entry? e.slot = some e) :
    ∃ held, (s.releaseSet e).entry? e.slot = some { e with claimed := held } := by
  unfold State.releaseSet
  split
  · split
    next i _ =>
      exact ⟨false, State.entry_updEntry_self (s := s.setBandSet i _) (fun x => { x with claimed := false })
        (fun _ => rfl) he⟩
    · exact ⟨e.claimed, he⟩
  · exact ⟨e.claimed, he⟩

theorem State.entry_releaseSet_ne (s : State) {e : Entry} {k : Nat} (h : k ≠ e.slot) :
    (s.releaseSet e).entry? k = s.entry? k := by
  unfold State.releaseSet
  split
  · split
    next i _ =>
      exact State.entry_updEntry_ne (s := s.setBandSet i _) (fun x => { x with claimed := false }) (fun _ => rfl) h
    · rfl
  · rfl

/-- A parked order ended: handed over, marked ended in the Order Table, out of the park-order list, its band set
released, and nothing else changed (R62, R182, R190). -/
structure State.ParkEnded (s t : State) (e : Entry) (h : HandOver) : Prop where
  writer : t.writer = { s.writer with waiting := s.writer.waiting ++ [h] }
  entry : ∃ held, t.entry? e.slot = some { e with ended := true, claimed := held }
  others : ∀ k, k ≠ e.slot → t.entry? k = s.entry? k
  slots : t.table.map (fun x => x.slot) = s.table.map (fun x => x.slot)
  released : s.Released t e
  parkOrder : t.parkOrder = s.parkOrder.filter (fun k => k != e.slot)
  banks : t.banks = s.banks
  engine : t.engine = s.engine
  slate : t.slate = s.slate
  lanes : ∀ n, t.lane n = s.lane n
  kept : s.Kept t

theorem State.endParked_eq {s : State} {k : Nat} {e : Entry} {c : ParkedContext} (r : Reason)
    (he : s.entry? k = some e) (hc : s.banks[e.bank] = .holding c) :
    s.endParked k r = ({ (s.releaseSet e).updEntry k (fun x => { x with ended := true }) with
      parkOrder := s.parkOrder.filter (fun j => j != k) } : State).handOver
        (walkHandOver e c.record .cancelled r false none) := by
  obtain ⟨-, -, hpark, -, -⟩ := State.releaseSet_fields s e
  unfold State.endParked
  rw [he]
  dsimp only
  rw [hc]
  dsimp only
  rw [State.updEntry_parkOrder, hpark]

theorem State.parkEnded_endParked {s : State} {e : Entry} {c : ParkedContext} (r : Reason)
    (he : s.entry? e.slot = some e) (hc : s.banks[e.bank] = .holding c) :
    s.ParkEnded (s.endParked e.slot r) e (walkHandOver e c.record .cancelled r false none) := by
  have heq := State.endParked_eq r he hc
  obtain ⟨slate, engine, banks, lanes⟩ := State.endParked_fields s e.slot r
  refine ⟨State.endParked_writer s e.slot r e c he hc, ?entry, fun k hk => ?other, State.endParked_slots s e.slot r,
    ?released, by rw [heq]; rfl, banks, engine, slate, lanes, s.kept_endParked e.slot r⟩
  case entry =>
    obtain ⟨held, hheld⟩ := State.entry_releaseSet_self he
    rw [heq]
    exact ⟨held, State.entry_updEntry_self (fun x => { x with ended := true }) (fun _ => rfl) hheld⟩
  case other =>
    rw [heq]
    exact (State.entry_updEntry_ne (s := s.releaseSet e) (fun x => { x with ended := true }) (fun _ => rfl) hk).trans
      (s.entry_releaseSet_ne hk)
  case released =>
    rw [heq]
    refine (State.released_releaseSet s e).congr rfl rfl fun x hx hslot => ?_
    obtain ⟨y, hy, rfl⟩ := List.mem_map.1 hx
    by_cases hys : y.slot = e.slot
    · rw [if_pos hys]
      exact ⟨y, hy, hys, rfl⟩
    · rw [if_neg hys] at hslot
      exact absurd hslot hys

/-! ## The park completed -/

theorem State.laneWrite_parkedWrite {s : State} {n : LaneId} {b : Fin 4} {slot : Nat}
    (hw : (s.lane n).work = .parkedWrite b) (ho : (s.lane n).order = some slot) :
    s.laneWrite n = some (s.slotAddr slot + 1, [3]) := by
  simp [State.laneWrite, hw, ho]

/-- A PARKED write that the other lane's claim holds back is not accepted (R33, log 10). -/
theorem exec_parkComplete_of_held {s : State} {n : LaneId} (hh : s.writeHeld n = true) :
    exec (.parkComplete n) s = .next s := by
  show execParkComplete n s = _
  unfold execParkComplete
  split
  next => rw [if_pos hh]
  next => rfl

/-- The state with the PARKED write landed and the context in its bank, before a cancel or a stop ends the order. -/
def State.parkLanded (s : State) (n : LaneId) (e : Entry) (c : WalkContext) (b : Fin 4) : State :=
  (s.setMem (s.mem.land (s.laneWrite n))).finishPark n e c b

theorem exec_parkComplete {s : State} {n : LaneId} {e : Entry} {c : WalkContext} {b : Fin 4}
    (hw : (s.lane n).work = .parkedWrite b) (he : s.laneEntry n = some e) (hc : (s.lane n).context = some c)
    (hh : s.writeHeld n = false) :
    exec (.parkComplete n) s = .next ((s.parkLanded n e c b).afterPark e).settlePause := by
  show execParkComplete n s = _
  simp [execParkComplete, hw, he, hc, hh, State.parkLanded]

section
variable (s : State) (n : LaneId) (e : Entry) (c : WalkContext) (b : Fin 4)

theorem State.parkLanded_banks : (s.parkLanded n e c b).banks =
    s.banks.set b (.holding ⟨e.slot, c.walk.next, c.ramp, c.record, (s.lane n).staging, (s.lane n).runTimer⟩) := by
  cases n <;> rfl

theorem State.parkLanded_lane : (s.parkLanded n e c b).lane n = Lane.reset := by cases n <;> rfl

theorem State.parkLanded_lane_other : (s.parkLanded n e c b).lane (otherLane n) = s.lane (otherLane n) := by
  cases n <;> rfl

theorem State.parkLanded_table : (s.parkLanded n e c b).table =
    s.table.map (fun x => if x.slot = e.slot then Entry.parkIn b x else x) := by
  cases n <;> rfl

theorem State.parkLanded_fields : (s.parkLanded n e c b).engine = s.engine ∧ (s.parkLanded n e c b).slate = s.slate ∧
    (s.parkLanded n e c b).writer = s.writer ∧ (s.parkLanded n e c b).bandSets = s.bandSets ∧
    (s.parkLanded n e c b).parkOrder = s.parkOrder ++ [e.slot] := by
  cases n <;> exact ⟨rfl, rfl, rfl, rfl, rfl⟩

theorem State.kept_parkLanded :
    (s.setMem (s.mem.land (s.laneWrite n))).Kept (s.parkLanded n e c b) :=
  State.kept_finishPark _ n e c b

variable {s e}

theorem State.entry_parkLanded (he : s.entry? e.slot = some e) :
    (s.parkLanded n e c b).entry? e.slot = some (e.parkIn b) := by
  have parked : (s.updEntry e.slot (Entry.parkIn b)).entry? e.slot = some (e.parkIn b) :=
    State.entry_updEntry_self _ (fun _ => rfl) he
  unfold State.entry? at parked ⊢
  rw [State.parkLanded_table]
  exact parked

theorem State.entry_parkLanded_ne {k : Nat} (hk : k ≠ e.slot) :
    (s.parkLanded n e c b).entry? k = s.entry? k := by
  have other : (s.updEntry e.slot (Entry.parkIn b)).entry? k = s.entry? k :=
    State.entry_updEntry_ne _ (fun _ => rfl) hk
  unfold State.entry? at other ⊢
  rw [State.parkLanded_table]
  exact other

theorem State.parkLanded_slots :
    (s.parkLanded n e c b).table.map (fun x => x.slot) = s.table.map (fun x => x.slot) := by
  rw [State.parkLanded_table, List.map_map]
  refine List.map_congr_left fun x _ => ?_
  show (if x.slot = e.slot then Entry.parkIn b x else x).slot = x.slot
  split <;> rfl

/-- Why the Dispatcher ends an order whose park has completed (R182, R190). -/
def Entry.parkEndReason (e : Entry) : Reason := if e.pendingCancel then .hostCancel else .engineStopped

theorem State.afterPark_of_end (hend : e.pendingCancel = true ∨ s.engine.state = .stopping) :
    s.afterPark e = s.endParked e.slot e.parkEndReason := by
  unfold State.afterPark Entry.parkEndReason
  cases hp : e.pendingCancel with
  | true => rfl
  | false =>
    have hstop := hend.resolve_left (by rw [hp]; exact Bool.false_ne_true)
    exact if_pos hstop

theorem State.afterPark_of_parked (hp : e.pendingCancel = false) (hs : s.engine.state ≠ .stopping) :
    s.afterPark e = s := by
  unfold State.afterPark
  rw [hp]
  exact if_neg hs

end

/-- What the Dispatcher does after a park leaves the lanes, the banks and the slots as the park left them. -/
theorem State.afterPark_fields (s : State) (e : Entry) : (s.afterPark e).slate = s.slate ∧
    (s.afterPark e).engine = s.engine ∧ (s.afterPark e).banks = s.banks ∧ (∀ n, (s.afterPark e).lane n = s.lane n) ∧
    (s.afterPark e).table.map (fun x => x.slot) = s.table.map (fun x => x.slot) := by
  have ends (r : Reason) := State.endParked_fields s e.slot r
  have slots (r : Reason) := State.endParked_slots s e.slot r
  unfold State.afterPark
  split
  · exact ⟨(ends _).1, (ends _).2.1, (ends _).2.2.1, (ends _).2.2.2, slots _⟩
  · split
    · exact ⟨(ends _).1, (ends _).2.1, (ends _).2.2.1, (ends _).2.2.2, slots _⟩
    · exact ⟨rfl, rfl, rfl, fun _ => rfl, rfl⟩

/-- An order whose park completes under a cancel or a stop is ended from its bank (R182, R190). -/
theorem State.parkEnded_afterPark {s : State} {n : LaneId} {e : Entry} {c : WalkContext} {b : Fin 4}
    (he : s.entry? e.slot = some e) (hend : e.pendingCancel = true ∨ s.engine.state = .stopping) :
    (s.parkLanded n e c b).ParkEnded ((s.parkLanded n e c b).afterPark e) (e.parkIn b)
      (walkHandOver (e.parkIn b) c.record .cancelled e.parkEndReason false none) := by
  obtain ⟨engine, -⟩ := s.parkLanded_fields n e c b
  rw [State.afterPark_of_end (by rw [engine]; exact hend)]
  have hbank : (s.parkLanded n e c b).banks[(e.parkIn b).bank] =
      .holding ⟨e.slot, c.walk.next, c.ramp, c.record, (s.lane n).staging, (s.lane n).runTimer⟩ := by
    have hset := vector_get_set_self s.banks b
      (.holding ⟨e.slot, c.walk.next, c.ramp, c.record, (s.lane n).staging, (s.lane n).runTimer⟩)
    rwa [← s.parkLanded_banks n e c b] at hset
  exact State.parkEnded_endParked _ (State.entry_parkLanded n c b he) hbank

theorem State.entry_settlePause (s : State) (k : Nat) : s.settlePause.entry? k = s.entry? k := by
  obtain ⟨-, table, -⟩ := State.settlePause_fields s
  unfold State.entry?
  rw [table]

theorem State.entry_ne_none_table {s : State} {k : Nat} {e : Entry} (he : s.entry? k = some e) : s.table ≠ [] := by
  intro hnil
  have hmem : e ∈ s.table := List.mem_of_find?_eq_some he
  rw [hnil] at hmem
  cases hmem

/-- Settles O33: the park as one update, then the order left parked, or ended from its bank. -/
theorem parkCompleteKeepsTheContext : Obligations.ParkCompleteKeepsTheContext := by
  unfold Obligations.ParkCompleteKeepsTheContext
  refine ⟨fun s n => exec_parkComplete_of_held, fun s n b e c slot hw ho he hc hh => ?_⟩
  have hlane : s.laneEntry n = some e := State.laneEntry_of_order ho he
  obtain rfl : e.slot = slot := State.slot_of_entry he
  set p := s.parkLanded n e c b with hp
  set t := p.afterPark e with ht
  obtain ⟨engine, slate, writer, sets, order⟩ := s.parkLanded_fields n e c b
  rw [← hp] at engine slate writer sets order
  obtain ⟨tslate, tengine, tbanks, tlanes, tslots⟩ := p.afterPark_fields e
  rw [← ht] at tslate tengine tbanks tlanes tslots
  obtain ⟨pslate, ptable, pwriter, planes, pbanks, psets, porder, -⟩ := State.settlePause_fields t
  have slots : t.table.map (fun x => x.slot) = s.table.map (fun x => x.slot) :=
    tslots.trans (State.parkLanded_slots n c b)
  have kept : (s.setMem (s.mem.land (s.laneWrite n))).Kept t.settlePause :=
    ((s.kept_parkLanded n e c b).trans (State.kept_afterPark p e)).trans (State.kept_settlePause t)
  refine ⟨_, exec_parkComplete hw hlane hc hh, ?banks, ?lane, ?other, fun hm => ?memory, ?engine,
    pslate.trans (tslate.trans slate), kept.accums, kept.window, kept.pending, fun k hk => ?entries, ?slots,
    fun hcancel hstop => ?parked, fun hend => ?ended⟩
  case banks => rw [pbanks, tbanks, hp, State.parkLanded_banks]
  case lane => rw [planes, tlanes, hp, State.parkLanded_lane]
  case other => rw [planes, tlanes, hp, State.parkLanded_lane_other]
  case memory =>
    rw [kept.mem]
    exact State.written_land_laneWrite (State.laneWrite_parkedWrite hw ho) hm
  case engine =>
    refine State.engineSettled_settlePause s t (tengine.trans engine) fun _ hidle => ?_
    have hnil : s.table.map (fun x => x.slot) = [] := by rw [← slots, hidle.1]; rfl
    exact State.entry_ne_none_table he (List.map_eq_nil_iff.1 hnil)
  case entries =>
    rw [State.entry_settlePause]
    by_cases hend : e.pendingCancel = true ∨ s.engine.state = .stopping
    · exact ((State.parkEnded_afterPark he hend).others k hk).trans (State.entry_parkLanded_ne n c b hk)
    · have hstop : p.engine.state ≠ .stopping := by rw [engine]; exact fun q => hend (.inr q)
      have hleft : t = p := State.afterPark_of_parked (by simpa using mt .inl hend) hstop
      show t.entry? k = s.entry? k
      rw [hleft]
      exact State.entry_parkLanded_ne n c b hk
  case slots => rw [ptable, slots]
  case parked =>
    have hleft : t = p := State.afterPark_of_parked hcancel (by rw [engine]; exact hstop)
    rw [ptable, porder, psets, pwriter, hleft]
    exact ⟨s.parkLanded_table n e c b, order, sets, writer⟩
  case ended =>
    have ended := State.parkEnded_afterPark (n := n) (c := c) (b := b) he hend
    obtain ⟨held, hheld⟩ := ended.entry
    refine ⟨⟨held, (t.entry_settlePause _).trans hheld⟩, ?_, ?_,
      walkHandOver (e.parkIn b) c.record .cancelled e.parkEndReason false none,
      pwriter.trans (ended.writer.trans ?_), rfl, rfl, rfl, rfl, rfl, rfl, rfl, rfl, rfl⟩
    · rw [porder, ended.parkOrder, order, List.filter_append]
      simp [Entry.parkIn]
    · have released : s.Released t.settlePause (e.parkIn b) :=
        ended.released.congr sets.symm psets (fun x hx hs => ⟨x, ptable ▸ hx, hs, rfl⟩)
      exact ⟨released.held, released.free⟩
    · rw [← hp, writer]

end Sys2Proof.Machine
end

section
/-! A request that a frozen lane acts on at once, and a cancel that reaches its order (R62, R160, R161, R170, R171,
R187 to R190). -/

namespace Sys2Proof.Machine

/-! ## A request posted to a lane -/

/-- A lane with a stop request pending in place of the one before it, whose PARK has its bank freed (R168, R170). -/
def State.requested (s : State) (n : LaneId) (r : StopRequest) : State :=
  (s.freeRequestBank n).setLane n { s.lane n with request := r, state := .yielding }

/-- CANCEL outranks every request but itself and ENGINE_STOP (R170). -/
theorem StopRequest.rank_lt_cancel {r : StopRequest} (h3 : r ≠ .cancel) (h4 : r ≠ .engineStop) :
    r.rank < StopRequest.cancel.rank := by
  cases r
  case cancel => exact absurd rfl h3
  case engineStop => exact absurd rfl h4
  case none => exact Nat.succ_pos 2
  case park => exact Nat.lt_of_sub_eq_succ rfl
  case timeLimit => exact Nat.lt_succ_self 2

/-- A request that does not outrank the one pending is dropped (R170). -/
theorem State.post_dropped {s : State} {n : LaneId} {r : StopRequest} (hr : r.rank ≤ (s.lane n).request.rank) :
    s.post n r = s := by
  unfold State.post
  dsimp only
  rw [if_neg (Nat.not_lt.2 hr), ite_self]

/-- A FROZEN lane acts on a request at once (R160). -/
theorem State.post_frozen {s : State} {n : LaneId} {r : StopRequest} (hs : (s.lane n).state = .frozen)
    (hmark : (s.lane n).endMark = false) (hpark : (s.lane n).parkUnderWay = false)
    (hr : (s.lane n).request.rank < r.rank) : s.post n r = (s.requested n r).actOn n r := by
  unfold State.post
  dsimp only
  rw [if_neg (by simp [hs, hmark, hpark]), if_pos hr, if_pos hs]
  rfl

/-- With no PARK pending no bank is freed. -/
theorem State.freeRequestBank_of_no_park {s : State} {n : LaneId} (h : ∀ b, (s.lane n).request ≠ .park b) :
    s.freeRequestBank n = s := by
  unfold State.freeRequestBank
  split
  · exact absurd ‹_› (h _)
  all_goals rfl

theorem State.freeRequestBank_of_park {s : State} {n : LaneId} {b : Fin 4} (h : (s.lane n).request = .park b) :
    s.freeRequestBank n = s.setBank b .free := by
  unfold State.freeRequestBank
  rw [h]

theorem State.requested_lane (s : State) (n : LaneId) (r : StopRequest) :
    (s.requested n r).lane n = { s.lane n with request := r, state := .yielding } :=
  State.lane_setLane _ _ _

theorem State.requested_fields (s : State) (n : LaneId) (r : StopRequest) :
    (s.requested n r).engine = s.engine ∧ (s.requested n r).slate = s.slate ∧
      (s.requested n r).parkOrder = s.parkOrder ∧ (s.requested n r).writer = s.writer ∧
      (s.requested n r).bandSets = s.bandSets ∧ (s.requested n r).table = s.table ∧
      (s.requested n r).banks = (s.freeRequestBank n).banks ∧
      (s.requested n r).lane (otherLane n) = s.lane (otherLane n) := by
  obtain ⟨engine, slate, parkOrder, writer, sets, table⟩ := State.freeRequestBank_fields s n
  rw [← engine, ← slate, ← parkOrder, ← writer, ← sets, ← table, ← State.lane_freeRequestBank s n (otherLane n)]
  cases n <;> exact ⟨rfl, rfl, rfl, rfl, rfl, rfl, rfl, rfl⟩

theorem State.requested_laneEntry (s : State) (n : LaneId) (r : StopRequest) :
    (s.requested n r).laneEntry n = s.laneEntry n := by
  obtain ⟨-, -, -, -, -, table, -, -⟩ := s.requested_fields n r
  unfold State.laneEntry State.entry?
  rw [s.requested_lane, table]

/-- A walking order ended CANCELLED by the request that its lane has just taken. -/
structure State.StoppedBy (s t : State) (n : LaneId) (e : Entry) (c : WalkContext) (reason : Reason) : Prop where
  ended : s.Ended t n (walkHandOver e c.record .cancelled reason false none)
  lane : t.lane n = (s.lane n).ending
  released : s.Released t e
  banks : t.banks = (s.freeRequestBank n).banks

/-- The order ends as it would from the lane before the request, whose PARK's bank the request freed (R161, R171). -/
theorem State.stoppedBy_requested {s : State} {n : LaneId} {e : Entry} {c : WalkContext} {r : StopRequest}
    (reason : Reason) (hr : ∀ b, r ≠ .park b) (he : s.laneEntry n = some e) (hc : (s.lane n).context = some c) :
    s.StoppedBy ((s.requested n r).endWalk n .cancelled reason none) n e c reason := by
  obtain ⟨engine, slate, parkOrder, writer, sets, -, banks, other⟩ := s.requested_fields n r
  have hlane := s.requested_lane n r
  have hentry : (s.requested n r).laneEntry n = some e := (s.requested_laneEntry n r).trans he
  have hcontext : ((s.requested n r).lane n).context = some c := by rw [hlane]; exact hc
  obtain ⟨h, ended, rfl, -⟩ := State.ended_endWalk _ n e c .cancelled reason none hentry hcontext
  have released := State.released_endWalk _ n e c .cancelled reason none hentry hcontext
  have hbanks := State.endWalk_banks _ n e c .cancelled reason none hentry hcontext
  have nopark (b : Fin 4) : ((s.requested n r).lane n).request ≠ .park b := by rw [hlane]; exact hr b
  rw [State.freeRequestBank_of_no_park nopark, banks] at hbanks
  have kept : s.Kept (s.requested n r) := (s.kept_freeRequestBank n).trans (State.kept_setLane _ _ _)
  refine ⟨ended.after other (by rw [hlane]) writer engine slate parkOrder kept, ?lane,
    released.congr sets.symm rfl (fun x hx hs => ⟨x, hx, hs, rfl⟩), hbanks⟩
  case lane =>
    unfold State.endWalk
    rw [hentry, hcontext]
    dsimp only
    rw [State.lane_handOver, State.lane_releaseSet, State.lane_setLane, hlane]
    rfl

/-! ## CANCEL -/

/-- The engine states in which a cancel can reach an order (R187, R198). -/
theorem EngineState.takesCancels_of {x : EngineState}
    (h : x = .running ∨ x = .pausing ∨ x = .paused ∨ x = .stopping) : x.takesCancels = true := by
  rcases h with rfl | rfl | rfl | rfl <;> rfl

section
variable {s : State} {v : Word} {e : Entry}
  (hs : s.engine.state = .running ∨ s.engine.state = .pausing ∨ s.engine.state = .paused ∨
    s.engine.state = .stopping)
  (hv : v.toNat % 65536 < s.engine.anchor.slotCount) (he : s.entry? (v.toNat % 65536) = some e)
include hs hv he

theorem exec_cancel_held : exec (.cancel v) s = .next (s.cancelEntry e) := by
  show execCancel v s = _
  simp only [execCancel, cancelIndex, State.cancelSlot, EngineState.takesCancels_of hs, hv, he, decide_true,
    Bool.and_self, if_true]

theorem exec_cancel_pending (hp : e.pendingCancel = true) : exec (.cancel v) s = .next s := by
  rw [exec_cancel_held hs hv he, State.cancelEntry, if_pos hp]

variable (hp : e.pendingCancel = false)
include hp

theorem exec_cancel_waiting (hw : e.phase = .waiting) (hb : e.handBack = false) :
    exec (.cancel v) s = .next ((s.setPendingCancel e.slot).handOver
      (plainHandOver e .cancelled .hostCancel Indicators.clear)) := by
  rw [exec_cancel_held hs hv he]
  simp [State.cancelEntry, State.cancelWaiting, hp, hw, hb]

theorem exec_cancel_parking (hr : e.phase = .running) (hl : (s.lane e.lane).parkUnderWay = true) :
    exec (.cancel v) s = .next (s.setPendingCancel e.slot) := by
  rw [exec_cancel_held hs hv he]
  simp [State.cancelEntry, State.cancelRunning, hp, hr, hl]

theorem exec_cancel_running (hr : e.phase = .running) (hl : (s.lane e.lane).parkUnderWay = false)
    (hk : e.header.kind.housekeeping = false) (hm : (s.lane e.lane).endMark = false) :
    exec (.cancel v) s = .next ((s.setPendingCancel e.slot).post e.lane .cancel) := by
  rw [exec_cancel_held hs hv he]
  simp [State.cancelEntry, State.cancelRunning, hp, hr, hl, hk, hm]

theorem exec_cancel_parked (hr : e.phase = .parked) (hend : e.ended = false) :
    exec (.cancel v) s = .next ((s.setPendingCancel e.slot).endParked e.slot .hostCancel) := by
  rw [exec_cancel_held hs hv he]
  simp [State.cancelEntry, State.cancelParked, hp, hr, hend]

end

section
variable {s : State} {e : Entry} (he : s.entry? e.slot = some e)
include he

/-- The entry with its cancel marked (R157). -/
theorem State.entry_setPendingCancel :
    (s.setPendingCancel e.slot).entry? e.slot = some { e with pendingCancel := true } :=
  State.entry_updEntry_self _ (fun _ => rfl) he

/-- A FROZEN lane ends its order on the cancel it is posted (R160, R171, R189). -/
theorem State.stoppedBy_cancel {c : WalkContext} (hs : (s.lane e.lane).state = .frozen)
    (hm : (s.lane e.lane).endMark = false) (hl : (s.lane e.lane).parkUnderWay = false)
    (h3 : (s.lane e.lane).request ≠ .cancel) (h4 : (s.lane e.lane).request ≠ .engineStop)
    (ho : (s.lane e.lane).order = some e.slot) (hc : (s.lane e.lane).context = some c) :
    (s.setPendingCancel e.slot).StoppedBy ((s.setPendingCancel e.slot).post e.lane .cancel) e.lane
      { e with pendingCancel := true } c .hostCancel := by
  rw [State.post_frozen (s := s.setPendingCancel e.slot) hs hm hl (StopRequest.rank_lt_cancel h3 h4)]
  exact State.stoppedBy_requested .hostCancel (fun _ => nofun)
    (State.laneEntry_of_order (s := s.setPendingCancel e.slot) ho (State.entry_setPendingCancel he)) hc

end

/-- A lane that is ACTIVE or YIELDING takes the cancel in place of what is pending (R170, R189). -/
theorem State.post_cancel {s : State} {n : LaneId} (hs : (s.lane n).state = .active ∨ (s.lane n).state = .yielding)
    (hm : (s.lane n).endMark = false) (hl : (s.lane n).parkUnderWay = false)
    (hr : (s.lane n).request.rank < StopRequest.cancel.rank) : s.post n .cancel = s.requested n .cancel :=
  State.post_replaces s n .cancel hs hm hl hr

/-- Settles O15: one lemma per phase for the command, the ends by `State.StoppedBy` and `State.ParkEnded`. -/
theorem cancelReachesOrdersByPhase : Obligations.CancelReachesOrdersByPhase := by
  unfold Obligations.CancelReachesOrdersByPhase
  intro s v e hs hv he
  have hslot : e.slot = v.toNat % 65536 := State.slot_of_entry he
  have he' : s.entry? e.slot = some e := hslot ▸ he
  intro marked
  refine ⟨State.entry_setPendingCancel he', exec_cancel_pending hs hv he, fun hp hw hb => ?waiting,
    fun hp => exec_cancel_parking hs hv he hp, fun hp hr hl hk hm => ⟨fun hst => ⟨fun hq => ?free, fun b hq => ?park⟩,
      fun hq => ?dropped, fun c hst h3 h4 ho hc => ?frozen⟩, fun c hp hr hend hc => ?parked⟩
  case waiting =>
    exact ⟨_, exec_cancel_waiting hs hv he hp hw hb, rfl, rfl, rfl, rfl, rfl, rfl, rfl, rfl, rfl⟩
  case free =>
    have hrank : (s.lane e.lane).request.rank < StopRequest.cancel.rank := by
      rcases hq with hq | hq <;> exact StopRequest.rank_lt_cancel (by rw [hq]; exact nofun) (by rw [hq]; exact nofun)
    have hnone (b : Fin 4) : (marked.lane e.lane).request ≠ .park b := by
      show (s.lane e.lane).request ≠ _
      rcases hq with hq | hq <;> rw [hq] <;> exact nofun
    rw [exec_cancel_running hs hv he hp hr hl hk hm, State.post_cancel (s := marked) hst hm hl hrank,
      State.requested, State.freeRequestBank_of_no_park hnone]
    rfl
  case park =>
    have hrank : (s.lane e.lane).request.rank < StopRequest.cancel.rank :=
      StopRequest.rank_lt_cancel (by rw [hq]; exact nofun) (by rw [hq]; exact nofun)
    rw [exec_cancel_running hs hv he hp hr hl hk hm, State.post_cancel (s := marked) hst hm hl hrank,
      State.requested, State.freeRequestBank_of_park (s := marked) hq]
    rfl
  case dropped =>
    have hrank : StopRequest.cancel.rank ≤ (s.lane e.lane).request.rank := by
      rcases hq with hq | hq
      · rw [hq]
      · rw [hq]
        decide
    rw [exec_cancel_running hs hv he hp hr hl hk hm, State.post_dropped (s := marked) hrank]
  case frozen =>
    have stopped := State.stoppedBy_cancel he' hst hm hl h3 h4 ho hc
    obtain ⟨hpark, hother⟩ := freeRequestBank_banks marked e.lane
    refine ⟨_, _, exec_cancel_running hs hv he hp hr hl hk hm, stopped.ended,
      ⟨stopped.released.held, stopped.released.free⟩, rfl, rfl, rfl, rfl, rfl, rfl, rfl, rfl, rfl,
      fun b hq => stopped.banks.trans (hpark b hq), fun hq => stopped.banks.trans (hother hq)⟩
  case parked =>
    have ended := State.parkEnded_endParked (s := marked) (e := { e with pendingCancel := true }) .hostCancel
      (State.entry_setPendingCancel he') hc
    have slots : marked.table.map (fun x => x.slot) = s.table.map (fun x => x.slot) := by
      show (s.table.map _).map _ = _
      rw [List.map_map]
      refine List.map_congr_left fun x _ => ?_
      show (if x.slot = e.slot then { x with pendingCancel := true } else x).slot = x.slot
      split <;> rfl
    exact ⟨_, _, exec_cancel_parked hs hv he hp hr hend, ended.writer, rfl, rfl, rfl, rfl, rfl, rfl, rfl, rfl, rfl,
      ended.entry, fun k hk => (ended.others k hk).trans (State.entry_updEntry_ne _ (fun _ => rfl) hk),
      ended.slots.trans slots, ⟨ended.released.held, ended.released.free⟩, ended.parkOrder, ended.banks,
      ended.engine, ended.slate, ended.lanes, (s.kept_updEntry _ _).trans ended.kept⟩

end Sys2Proof.Machine
end

section
/-! Writes through the Window Port: which are refused, and what the others store (R64, R88, R89, R202, R203). -/

namespace Sys2Proof.Machine

/-! ## The commands of a write -/

theorem exec_windowDataWrite (s : State) (v : Word) :
    exec (.windowDataWrite v) s = .next ((s.writeWindow v).setWindow (s.writeWindow v).window.advance) := rfl

section
variable {s : State} {i : Fin 64} {k : Nat}

/-- A word of an accumulator that passes its check is stored, and the accumulator latch drops it (R88, R89). -/
theorem exec_windowDataWrite_accum {v : Word} {t : Total} (hperm : s.engine.state = .off ∨ s.engine.state = .paused)
    (htarget : windowTarget s.window.addr.toNat = .accum i k) (hword : s.accums[i].writeWord k v = some t) :
    exec (.windowDataWrite v) s =
      .next { s with accums := s.accums.set i t, window := (s.window.dropAccum i).advance } := by
  rw [exec_windowDataWrite]
  unfold State.writeWindow State.writeAccum
  rw [htarget]
  dsimp only
  rw [if_pos (EngineState.permitsWindow_of s hperm), hword]
  rfl

theorem State.writeWindow_accum_refused {v : Word} (htarget : windowTarget s.window.addr.toNat = .accum i k)
    (hword : s.accums[i].writeWord k v = none) : s.writeWindow v = s.windowRefused := by
  unfold State.writeWindow
  rw [htarget]
  exact s.writeAccum_refused i k v hword

end

section
variable {s : State} {i : Fin 8} {f : BandSet → BandSet}

/-- A write to a set not in use is stored and leaves it UNCHECKED, and the band latch drops its bands (R64, R202). -/
theorem exec_windowDataWrite_set {v : Word} (hperm : s.engine.state = .off ∨ s.engine.state = .paused)
    (hwrite : s.writeWindow v = s.writeSet i f) (hu : s.bandSets[i].uses = 0) :
    exec (.windowDataWrite v) s =
      .next { s with
        bandSets := s.bandSets.set i { f s.bandSets[i] with state := .unchecked }
        window := (s.window.dropSet i).advance } := by
  rw [exec_windowDataWrite, hwrite]
  unfold State.writeSet
  rw [if_pos (by rw [EngineState.permitsWindow_of s hperm, hu]; rfl)]
  rfl

/-- A set in use takes no write (R64). -/
theorem State.writeSet_in_use (hu : 0 < s.bandSets[i].uses) : s.writeSet i f = s.windowRefused :=
  if_neg (by rw [Bool.and_eq_true, decide_eq_true_eq]; exact fun h => absurd h.2 hu.ne')

end

/-! ## Writes refused -/

/-- Outside OFF and PAUSED no word is stored (R64, R89). -/
theorem State.writeWindow_not_permitted {s : State} (hoff : s.engine.state ≠ .off) (hpaused : s.engine.state ≠ .paused)
    (v : Word) : s.writeWindow v = s.windowRefused := by
  have hperm : s.engine.state.permitsWindow = false := by
    cases hs : s.engine.state
    case off => exact absurd hs hoff
    case paused => exact absurd hs hpaused
    all_goals rfl
  have accum (i : Fin 64) (k : Nat) : s.writeAccum i k v = s.windowRefused :=
    if_neg (by rw [hperm]; exact Bool.false_ne_true)
  have bandSet (i : Fin 8) (f : BandSet → BandSet) : s.writeSet i f = s.windowRefused :=
    if_neg (by rw [hperm]; exact Bool.false_ne_true)
  unfold State.writeWindow
  split
  · exact accum _ _
  · exact bandSet _ _
  · exact bandSet _ _
  · exact bandSet _ _
  all_goals rfl

/-- From 400h up a window address points at an inspection view or at nothing (R205). -/
theorem windowTarget_view {a : Nat} (h : 0x400 ≤ a) :
    (∃ p k, windowTarget a = .entry p k) ∨ (∃ n k, windowTarget a = .lane n k) ∨ (∃ b k, windowTarget a = .bank b k) ∨
      (∃ k, windowTarget a = .fault k) ∨ windowTarget a = .unmapped := by
  unfold windowTarget
  rw [if_neg (by omega), if_neg (by omega)]
  repeat' split
  all_goals simp

theorem State.writeWindow_view {s : State} (h : 0x400 ≤ s.window.addr.toNat) (v : Word) :
    s.writeWindow v = s.windowRefused := by
  unfold State.writeWindow
  rcases windowTarget_view h with ⟨_, _, ht⟩ | ⟨_, _, ht⟩ | ⟨_, _, ht⟩ | ⟨_, ht⟩ | ht
  all_goals rw [ht]

theorem setTarget_cases (i : Fin 8) (k : Nat) :
    setTarget i k = .setHeader i ∨ (∃ b j, setTarget i k = .band i b j) ∨ setTarget i k = .setPad i := by
  unfold setTarget
  repeat' split
  all_goals simp

/-- A word of a set is written through its set, whichever word it is (R64, R203). -/
theorem State.writeWindow_setTarget {s : State} {i : Fin 8} {k : Nat} (hk : k < 80)
    (ha : s.window.addr.toNat = 0x180 + 0x50 * i.val + k) (v : Word) : ∃ f, s.writeWindow v = s.writeSet i f := by
  unfold State.writeWindow
  rw [ha, windowTarget_set i k hk]
  rcases setTarget_cases i k with h | ⟨b, j, h⟩ | h
  all_goals
    rw [h]
    exact ⟨_, rfl⟩

/-! ## The words of an accumulator -/

theorem Total.writeWord_value {t : Total} {k : Nat} {v : Word} {x : Int} (hk : k < 4)
    (h : writtenValue t.value k v = some x) : t.writeWord k v = some { t with value := x } := by
  unfold Total.writeWord
  rw [if_pos hk, h]
  rfl

theorem Total.writeWord_count (t : Total) (v : Word) : t.writeWord 4 v = some { t with count := v.toNat } := rfl

theorem Total.writeWord_overflow (t : Total) (v : Word) : t.writeWord 5 v = some { t with overflow := v.getLsbD 0 } :=
  rfl

/-- Settles O18: what each target does with the word, and the latches by `WindowPort.dropAccum` and
`WindowPort.dropSet`. -/
theorem windowDataWriteRefusedOrStored : Obligations.WindowDataWriteRefusedOrStored := by
  unfold Obligations.WindowDataWriteRefusedOrStored
  intro s v refused accumDropped setDropped
  have refuse (h : s.writeWindow v = s.windowRefused) : exec (.windowDataWrite v) s = refused :=
    exec_windowDataWrite_of_refused s v h
  have accum {i : Fin 64} {k : Nat} (hk : k < 6) (ha : s.window.addr.toNat = 6 * i.val + k) :
      windowTarget s.window.addr.toNat = .accum i k := ha ▸ windowTarget_accum i k hk
  have badWord {i : Fin 64} {k : Nat} (hk : k < 4) (ha : s.window.addr.toNat = 6 * i.val + k)
      (hv : writtenValue s.accums[i].value k v = none) : exec (.windowDataWrite v) s = refused :=
    refuse (State.writeWindow_accum_refused (accum (by omega) ha) (Total.writeWord_none _ k v hk hv))
  have droppedAccum (i : Fin 64) : accumDropped i (s.window.dropAccum i).advance := by
    obtain ⟨latch, buffer, band⟩ := s.window.dropAccum_fields i
    exact ⟨latch, s.window.dropAccum_other i, band, buffer⟩
  have droppedSet (i : Fin 8) : setDropped i (s.window.dropSet i).advance := by
    obtain ⟨latch, buffer, accum⟩ := s.window.dropSet_fields i
    exact ⟨latch, s.window.dropSet_other i, accum, buffer⟩
  refine ⟨fun hoff hpaused => refuse (State.writeWindow_not_permitted hoff hpaused v),
    fun h => refuse (State.writeWindow_view h v), fun i hlow hhigh hu => ?inUse,
    fun i k hk ha ⟨j, hj, hd, hsign⟩ => badWord hk ha (writtenValue_none_digit _ k j v hk hj hd hsign),
    fun i ha hv => badWord (k := 0) (by decide) ha (writtenValue_none_pad _ v hv),
    fun i ha hc hd => badWord (by decide) ha (writtenValue_none_sign _ v hc hd),
    fun hperm => ⟨fun i ha => ?count, fun i ha => ?overflow, fun i ha hu => ?header, fun i k hk ha hd hp hs => ?value,
      fun i b k hk ha hu => ?band, fun i k hlow hk ha hu => ?pad⟩⟩
  case inUse =>
    obtain ⟨f, hf⟩ := State.writeWindow_setTarget (s := s) (i := i)
      (k := s.window.addr.toNat - (0x180 + 0x50 * i.val)) (by omega) (by omega) v
    exact refuse (hf.trans (State.writeSet_in_use hu))
  case count =>
    exact ⟨_, exec_windowDataWrite_accum hperm (accum (by decide) ha) (Total.writeWord_count _ v), droppedAccum i⟩
  case overflow =>
    exact ⟨_, exec_windowDataWrite_accum hperm (accum (by decide) ha) (Total.writeWord_overflow _ v), droppedAccum i⟩
  case header =>
    have hwrite : s.writeWindow v = s.writeSet i (fun x => { x with count := BitVec.ofNat 8 v.toNat }) := by
      unfold State.writeWindow
      rw [ha, windowTarget_header]
    exact ⟨_, exec_windowDataWrite_set hperm hwrite hu, droppedSet i⟩
  case value =>
    obtain ⟨x, hx, hlow, hhigh, hfirst, hlast, hzero⟩ := writtenValue_good s.accums[i] k v hk hd hp hs
    exact ⟨_, x, exec_windowDataWrite_accum hperm (accum (by omega) ha) (Total.writeWord_value hk hx), hlow, hhigh,
      hfirst, hlast, hzero, droppedAccum i⟩
  case band =>
    have hwrite : s.writeWindow v =
        s.writeSet i (fun x => { x with bands := x.bands.set b (x.bands[b].writeWord k v) }) := by
      unfold State.writeWindow
      rw [ha, windowTarget_band i b k hk]
    exact ⟨_, _, exec_windowDataWrite_set hperm hwrite hu,
      fun j hj => bandWord_writeWord s.bandSets[i].bands[b] k v hk j hj, droppedSet i⟩
  case pad =>
    have hwrite : s.writeWindow v = s.writeSet i id := by
      unfold State.writeWindow
      rw [ha, windowTarget_pad i k hlow hk]
    exact ⟨_, exec_windowDataWrite_set hperm hwrite hu, droppedSet i⟩

end Sys2Proof.Machine
end

section
/-! The hand-overs of one event, and a pause released (R57, R125, R128, R140, R148, R160, R178, R181). -/

namespace Sys2Proof.Machine

/-! ## The hand-overs of one event -/

/-- A hand-over waits after its event as it was made, but for the mark that it came with others (R150, log 16). -/
theorem mem_joinAfter {h : HandOver} {hs : List HandOver} (k : Nat) (hm : h ∈ hs) :
    ∃ together, { h with together := together } ∈ joinAfter k hs := by
  rw [← List.take_append_drop (k + 1) hs] at hm
  rcases List.mem_append.1 hm with hm | hm
  · exact ⟨h.together, List.mem_append_left _ hm⟩
  · exact ⟨true, List.mem_append_right _ (List.mem_map.2 ⟨h, hm, rfl⟩)⟩

theorem joinAfter_eq_nil_iff (k : Nat) (hs : List HandOver) : joinAfter k hs = [] ↔ hs = [] := by
  unfold joinAfter
  rw [List.append_eq_nil_iff, List.map_eq_nil_iff, ← List.append_eq_nil_iff, List.take_append_drop]

/-- The hand-overs of a state wait in another one, but for the mark that they came with others (log 16). -/
def State.WaitIn (u t : State) : Prop :=
  ∀ h ∈ u.writer.waiting, ∃ together, { h with together := together } ∈ t.writer.waiting

theorem State.waitIn_asOneEvent (s : State) (f : State → State) : (f s).WaitIn (s.asOneEvent f) :=
  fun _ hm => mem_joinAfter _ hm

/-- A CONTROL write as one event at the state with its IRQ enables stored (R178, log 16). -/
theorem State.controlWrite_eq {s : State} {enable pause : Bool} {irq : StickyBits} {f : State → State}
    (h : (s.storeIrq irq).controlFields enable pause = f (s.storeIrq irq)) :
    s.controlWrite enable pause irq = (s.storeIrq irq).asOneEvent f := by
  unfold State.controlWrite State.asOneEvent
  dsimp only
  rw [h]

/-! ## PAUSE_RELEASE -/

/-- The releases of a pause, as one event at the state with the IRQ enables stored (R178, R181). -/
theorem exec_pauseRelease {s : State} {irq : StickyBits} {c : Instr}
    (hc : c = .pauseRelease irq ∨ c = .enable false irq)
    (hs : s.engine.state = .pausing ∨ s.engine.state = .paused) :
    exec c s = .next ((s.storeIrq irq).asOneEvent State.releasePause) := by
  have hrun : exec c s = .next (s.controlWrite true false irq) := by
    rcases hc with rfl | rfl <;> rfl
  have hfields : (s.storeIrq irq).controlFields true false = (s.storeIrq irq).releasePause := by
    have hstate : (s.storeIrq irq).engine.state = s.engine.state := rfl
    unfold State.controlFields
    rcases hs with hs | hs <;> rw [hstate, hs]
  rw [hrun, State.controlWrite_eq (f := State.releasePause) hfields]

/-- The state with both lanes thawed, before a sweep-again begins (R181). -/
def State.bothThawed (s : State) : State := ((s.setEngineState .running).thaw .lane0).thaw .lane1

theorem State.releasePause_eq (s : State) : s.releasePause =
    if s.bothThawed.slate.again && !s.bothThawed.slate.sweeping then s.bothThawed.beginSweep false
    else s.bothThawed := rfl

theorem State.bothThawed_fields (s : State) : s.bothThawed.engine = { s.engine with state := .running } ∧
    s.bothThawed.slate = s.slate ∧ s.bothThawed.table = s.table ∧ s.bothThawed.bandSets = s.bandSets := by
  obtain ⟨engine0, slate0, table0, sets0⟩ := State.thaw_fields (s.setEngineState .running) .lane0
  obtain ⟨engine1, slate1, table1, sets1⟩ := State.thaw_fields ((s.setEngineState .running).thaw .lane0) .lane1
  exact ⟨engine1.trans engine0, slate1.trans slate0, table1.trans table0, sets1.trans sets0⟩

/-- The sweep that a release begins touches the Slate Reader alone (R140). -/
theorem State.releasePause_fields (s : State) : s.releasePause.engine = { s.engine with state := .running } ∧
    s.releasePause.table = s.table ∧ s.releasePause.bandSets = s.bandSets ∧
    (∀ n, s.releasePause.lane n = s.bothThawed.lane n) ∧ s.releasePause.writer = s.bothThawed.writer := by
  obtain ⟨engine, -, table, sets⟩ := s.bothThawed_fields
  rw [State.releasePause_eq]
  split
  · exact ⟨engine, table, sets, fun _ => rfl, rfl⟩
  · exact ⟨engine, table, sets, fun _ => rfl, rfl⟩

theorem State.releasePause_sweeps {s : State} (hagain : s.slate.again = true) (hsweep : s.slate.sweeping = false) :
    s.releasePause = s.bothThawed.beginSweep false := by
  obtain ⟨-, slate, -, -⟩ := s.bothThawed_fields
  rw [State.releasePause_eq, slate, hagain, hsweep]
  rfl

theorem State.releasePause_no_sweep {s : State} (h : s.slate.again = false ∨ s.slate.sweeping = true) :
    s.releasePause = s.bothThawed := by
  obtain ⟨-, slate, -, -⟩ := s.bothThawed_fields
  rw [State.releasePause_eq, slate]
  rcases h with h | h <;> rw [h]
  · rfl
  · rw [Bool.not_true, Bool.and_false]
    rfl

/-- A thaw keeps every hand-over that waits. -/
theorem State.mem_thaw_waiting {s : State} (n : LaneId) {h : HandOver} (hm : h ∈ s.writer.waiting) :
    h ∈ (s.thaw n).writer.waiting := by
  obtain ⟨l, hl⟩ := s.thaw_waiting n
  rw [hl]
  exact List.mem_append_left _ hm

/-- Each lane is thawed from a state that agrees with the one before the release on it and its entry (R181). -/
theorem State.releasePause_lane (s : State) (n : LaneId) : ∃ x : State, x.lane n = s.lane n ∧
    x.laneEntry n = s.laneEntry n ∧ s.releasePause.lane n = (x.thaw n).lane n ∧
    ∀ h ∈ (x.thaw n).writer.waiting, h ∈ s.releasePause.writer.waiting := by
  set v := s.setEngineState .running with hv
  obtain ⟨-, -, -, lanes, writer⟩ := s.releasePause_fields
  have vlane (k : LaneId) : v.lane k = s.lane k := State.lane_setEngineState _ _ _
  cases n
  case lane0 =>
    refine ⟨v, vlane _, State.laneEntry_congr _ (vlane _) rfl, ?_, fun h hm => ?_⟩
    · rw [lanes]
      exact State.thaw_lane_ne (v.thaw .lane0) .lane1 (by decide)
    · rw [writer]
      exact State.mem_thaw_waiting .lane1 hm
  case lane1 =>
    have untouched : (v.thaw .lane0).lane .lane1 = s.lane .lane1 :=
      (State.thaw_lane_ne v .lane0 (by decide)).trans (vlane _)
    obtain ⟨-, -, table, -⟩ := State.thaw_fields v .lane0
    refine ⟨v.thaw .lane0, untouched, State.laneEntry_congr _ untouched table, lanes _, fun h hm => ?_⟩
    rw [writer]
    exact hm

/-- Settles O9: each lane by its thaw, the sweep by the Slate Reader's marks, the check by `bandsValid_iff`. -/
theorem pauseReleaseResumesLanesAndSweeps : Obligations.PauseReleaseResumesLanesAndSweeps := by
  unfold Obligations.PauseReleaseResumesLanesAndSweeps
  refine ⟨bandsValid_iff, fun s irq c hc hs => ?_⟩
  have run := exec_pauseRelease hc hs
  set stored := s.storeIrq irq with hstored
  set t := stored.asOneEvent State.releasePause with ht
  obtain ⟨engine, table, sets, -, -⟩ := stored.releasePause_fields
  have storedLane (n : LaneId) : stored.lane n = s.lane n := by cases n <;> rfl
  have kept : s.Kept t :=
    (s.kept_engine _).trans (State.kept_asOneEvent _ _ (State.kept_releasePause stored))
  have lane (n : LaneId) : ∃ x : State, x.lane n = s.lane n ∧ x.laneEntry n = s.laneEntry n ∧
      t.lane n = (x.thaw n).lane n ∧ (x.thaw n).WaitIn t := by
    obtain ⟨x, hlane, hentry, hthaw, hwait⟩ := stored.releasePause_lane n
    refine ⟨x, hlane.trans (storedLane n), hentry.trans (State.laneEntry_congr n (storedLane n) rfl), hthaw,
      fun h hm => ?_⟩
    exact State.waitIn_asOneEvent stored State.releasePause h (hwait h hm)
  refine ⟨t, run, engine, fun n hf he => ?active, fun n e x hf he hk hx => ?cell, fun n e hf he hk => ?step,
    fun n e hf he hk h2 hv => ?invalid, fun n hf => ?still, fun hagain hsweep => ?sweeps, fun h => ?quiet, table, sets,
    kept⟩
  case active =>
    obtain ⟨x, hlane, hentry, hthaw, -⟩ := lane n
    rw [hthaw, ← hlane]
    exact State.thaw_lane x n (hlane ▸ hf) (hentry ▸ he)
  case cell =>
    obtain ⟨y, hlane, hentry, hthaw, -⟩ := lane n
    rw [hthaw, ← hlane]
    exact State.thaw_cell y n e x (hlane ▸ hf) (hentry.trans he) hk (hlane ▸ hx)
  case step =>
    obtain ⟨x, hlane, hentry, hthaw, -⟩ := lane n
    rw [hthaw, ← hlane]
    exact State.thaw_step x n e (hlane ▸ hf) (hentry.trans he) hk
  case invalid =>
    obtain ⟨x, hlane, hentry, hthaw, hwait⟩ := lane n
    obtain ⟨h, ended, hh⟩ := State.thaw_invalid x n e (hlane ▸ hf) (hentry.trans he) hk (hlane ▸ h2) (hlane ▸ hv)
    have hm : h ∈ (x.thaw n).writer.waiting := by
      rw [ended.writer]
      exact List.mem_append_right _ (List.mem_singleton_self h)
    obtain ⟨together, hjoined⟩ := hwait h hm
    subst hh
    exact ⟨hthaw ▸ ended.endMark, hthaw ▸ ended.work, _, hjoined, rfl, rfl, rfl, rfl⟩
  case still =>
    obtain ⟨x, hlane, -, hthaw, -⟩ := lane n
    rw [hthaw, State.thaw_of_not_frozen x n (hlane ▸ hf), hlane]
  case sweeps =>
    have hslate : t.slate = (stored.bothThawed.beginSweep false).slate := by
      show stored.releasePause.slate = _
      rw [State.releasePause_sweeps (s := stored) hagain hsweep]
    obtain ⟨hengine, hkept, -, -⟩ := stored.bothThawed_fields
    have hbegun : (stored.bothThawed.beginSweep false).slate =
        { s.slate with
          cursor := if s.slate.cursor < s.engine.anchor.slotCount then s.slate.cursor else 0
          again := false
          ending := false
          visited := 0
          step := .headerRead (if s.slate.cursor < s.engine.anchor.slotCount then s.slate.cursor else 0) } := by
      unfold State.beginSweep
      rw [hengine, hkept]
      rfl
    rw [hslate, hbegun]
    exact ⟨rfl, rfl, rfl⟩
  case quiet =>
    obtain ⟨-, hkept, -, -⟩ := stored.bothThawed_fields
    show stored.releasePause.slate = _
    rw [State.releasePause_no_sweep (s := stored) h]
    exact hkept

end Sys2Proof.Machine
end

section
/-! What an engine stop does at the lanes and to the parked orders (R62, R93, R160, R163, R168, R171, R182). -/

namespace Sys2Proof.Machine

/-! ## The banks that a stopped lane frees -/

/-- A bank after a lane's event: as it stood, or freed for the PARK that the lane had pending (R168). -/
def State.BankAfter (s t : State) (n : LaneId) (b : Fin 4) : Prop :=
  t.banks[b] = s.banks[b] ∨ t.banks[b] = .free ∧ (s.lane n).request = .park b

theorem State.BankAfter.of_eq {s t : State} (n : LaneId) (b : Fin 4) (h : t.banks = s.banks) : s.BankAfter t n b :=
  .inl (by rw [h])

theorem State.bankAfter_freeRequestBank (s : State) (n : LaneId) (b : Fin 4) :
    s.BankAfter (s.freeRequestBank n) n b := by
  by_cases hb : (s.lane n).request = .park b
  · exact .inr ⟨s.freeRequestBank_park n b hb, hb⟩
  · refine .inl ?_
    unfold State.freeRequestBank
    split
    next j hj =>
      refine vector_get_set_ne s.banks j b _ fun h => hb ?_
      rw [hj, Fin.ext h]
    all_goals rfl

theorem State.bankAfter_endPlain {s : State} (l : Lane) (n : LaneId) (f : FinalState) (r : Reason) (b : Fin 4)
    (hl : l.request = (s.lane n).request) : s.BankAfter ((s.setLane n l).endPlain n f r) n b := by
  cases he : (s.setLane n l).laneEntry n with
  | none =>
    unfold State.endPlain
    rw [he]
    exact .of_eq n b (State.setLane_banks s n l)
  | some e =>
    have hfree := (s.setLane n l).bankAfter_freeRequestBank n b
    unfold State.BankAfter at hfree ⊢
    rw [State.setLane_banks, State.lane_setLane, hl] at hfree
    have hbanks := State.endPlain_banks (s.setLane n l) n e f r he
    rw [hbanks]
    exact hfree

theorem State.bankAfter_thaw (s : State) (n : LaneId) (b : Fin 4) : s.BankAfter (s.thaw n) n b := by
  unfold State.thaw
  split
  · split
    next e _ =>
      dsimp only
      split
      · rcases State.next_cases (s.setLane n { s.lane n with state := .active }) n e with ⟨l, h⟩ | ⟨f, r, h⟩ | h
        · rw [h, State.setLane_setLane]
          exact .of_eq n b (State.setLane_banks s n l)
        · rw [h]
          exact State.bankAfter_endPlain _ n f r b rfl
        · rw [h]
          exact .of_eq n b (State.setLane_banks s n _)
      · refine .of_eq n b ?_
        unfold State.beginCell
        split
        · rw [State.setLane_banks, State.setLane_banks]
        · rw [State.setLane_banks]
    next => exact .inl rfl
  · exact .inl rfl

/-! ## A request posted, by what comes of it -/

theorem State.post_cases (s : State) (n : LaneId) (r : StopRequest) :
    s.post n r = s ∨ s.post n r = s.requested n r ∨
      ∃ f x, s.post n r = (s.requested n r).endWalk n f x none := by
  unfold State.post State.actOn
  dsimp only
  split
  · exact .inl rfl
  · split
    · split
      · split
        all_goals first
          | exact .inr (.inr ⟨_, _, rfl⟩)
          | exact .inr (.inl rfl)
      · exact .inr (.inl rfl)
    · exact .inl rfl

theorem State.bankAfter_post {s : State} (n : LaneId) {r : StopRequest} (hr : ∀ b, r ≠ .park b) (b : Fin 4) :
    s.BankAfter (s.post n r) n b := by
  have hrequested : s.BankAfter (s.requested n r) n b := by
    obtain ⟨-, -, -, -, -, -, banks, -⟩ := s.requested_fields n r
    unfold State.BankAfter
    rw [banks]
    exact s.bankAfter_freeRequestBank n b
  rcases s.post_cases n r with h | h | ⟨f, x, h⟩
  · rw [h]
    exact .inl rfl
  · rw [h]
    exact hrequested
  · rw [h]
    have nopark (j : Fin 4) : ((s.requested n r).lane n).request ≠ .park j := by
      rw [s.requested_lane]
      exact hr j
    have hbanks : ((s.requested n r).endWalk n f x none).banks = (s.requested n r).banks := by
      cases he : (s.requested n r).laneEntry n with
      | none => unfold State.endWalk; rw [he]
      | some e =>
        cases hc : ((s.requested n r).lane n).context with
        | none => unfold State.endWalk; rw [he, hc]
        | some c =>
          have hwalk := State.endWalk_banks (s.requested n r) n e c f x none he hc
          rwa [State.freeRequestBank_of_no_park nopark] at hwalk
    unfold State.BankAfter
    rw [hbanks]
    exact hrequested

/-! ## Entries and hand-overs that stand through the end of another order -/

/-- Entries stand but for their claim, and hand-overs that wait stay. -/
structure State.StandsIn (s t : State) : Prop where
  entry : ∀ k e, s.entry? k = some e → ∃ held, t.entry? k = some { e with claimed := held }
  waiting : ∀ h ∈ s.writer.waiting, h ∈ t.writer.waiting

theorem State.StandsIn.refl (s : State) : s.StandsIn s := ⟨fun _ e he => ⟨e.claimed, he⟩, fun _ h => h⟩

theorem State.StandsIn.of_eq {s t : State} (ht : t.table = s.table)
    (hw : ∃ l, t.writer = { s.writer with waiting := s.writer.waiting ++ l }) : s.StandsIn t := by
  obtain ⟨l, hl⟩ := hw
  refine ⟨fun k e he => ⟨e.claimed, ?_⟩, fun h hm => ?_⟩
  · unfold State.entry?
    rw [ht]
    exact he
  · rw [hl]
    exact List.mem_append_left _ hm

theorem State.StandsIn.trans {s t u : State} (h : s.StandsIn t) (k : t.StandsIn u) : s.StandsIn u := by
  refine ⟨fun j e he => ?_, fun x hx => k.waiting x (h.waiting x hx)⟩
  obtain ⟨held, hheld⟩ := h.entry j e he
  obtain ⟨held', hheld'⟩ := k.entry j _ hheld
  exact ⟨held', hheld'⟩

theorem State.standsIn_requested (s : State) (n : LaneId) (r : StopRequest) : s.StandsIn (s.requested n r) := by
  obtain ⟨-, -, -, writer, -, table, -, -⟩ := s.requested_fields n r
  exact .of_eq table ⟨[], by rw [writer, List.append_nil]⟩

theorem State.laneEntry_entry {s : State} {n : LaneId} {e : Entry} (he : s.laneEntry n = some e) :
    s.entry? e.slot = some e := by
  unfold State.laneEntry at he
  split at he
  next slot _ => rwa [State.slot_of_entry he]
  next => cases he

theorem State.standsIn_releaseSet {s : State} {e : Entry} (he : s.entry? e.slot = some e) :
    s.StandsIn (s.releaseSet e) := by
  refine ⟨fun k x hx => ?_, fun h hm => ?_⟩
  · by_cases hk : k = e.slot
    · subst hk
      obtain rfl : e = x := Option.some.inj (he.symm.trans hx)
      exact State.entry_releaseSet_self he
    · exact ⟨x.claimed, (s.entry_releaseSet_ne hk).trans hx⟩
  · obtain ⟨-, -, -, writer, -⟩ := State.releaseSet_fields s e
    rwa [writer]

theorem State.standsIn_endWalk (s : State) (n : LaneId) (f : FinalState) (r : Reason) (x : Option (Nat × Nat)) :
    s.StandsIn (s.endWalk n f r x) := by
  unfold State.endWalk
  split
  next e c he hc =>
    obtain ⟨-, -, -, writer, -, table⟩ := State.freeRequestBank_fields s n
    have freed : s.StandsIn ((s.freeRequestBank n).setLane n (s.lane n).ending) :=
      .of_eq (by rw [State.setLane_table, table]) ⟨[], by rw [State.setLane_writer, writer, List.append_nil]⟩
    have held : ((s.freeRequestBank n).setLane n (s.lane n).ending).entry? e.slot = some e := by
      unfold State.entry?
      rw [State.setLane_table, table]
      exact State.laneEntry_entry he
    exact (freed.trans (State.standsIn_releaseSet held)).trans (.of_eq rfl ⟨_, rfl⟩)
  next => exact .refl s

theorem State.standsIn_post (s : State) (n : LaneId) (r : StopRequest) : s.StandsIn (s.post n r) := by
  rcases s.post_cases n r with h | h | ⟨f, x, h⟩
  · rw [h]
    exact .refl s
  · rw [h]
    exact s.standsIn_requested n r
  · rw [h]
    exact (s.standsIn_requested n r).trans (State.standsIn_endWalk _ n f x none)

/-! ## A lane met by an engine stop -/

theorem State.stopLane_cases (s : State) (n : LaneId) :
    s.stopLane n = s ∨ s.stopLane n = s.thaw n ∨ s.stopLane n = s.post n .engineStop := by
  unfold State.stopLane
  split
  · split
    · exact .inr (.inl rfl)
    · exact .inr (.inr rfl)
  · exact .inl rfl

theorem State.stopLane_walking {s : State} {n : LaneId} {e : Entry} (he : s.laneEntry n = some e)
    (hk : e.header.kind.housekeeping = false) : s.stopLane n = s.post n .engineStop := by
  unfold State.stopLane
  rw [he]
  exact if_neg (by rw [hk]; exact Bool.false_ne_true)

theorem State.stopLane_housekeeping {s : State} {n : LaneId} {e : Entry} (he : s.laneEntry n = some e)
    (hk : e.header.kind.housekeeping = true) : s.stopLane n = s.thaw n := by
  unfold State.stopLane
  rw [he]
  exact if_pos hk

theorem State.stopLane_lane_ne (s : State) {n k : LaneId} (h : k ≠ n) : (s.stopLane n).lane k = s.lane k := by
  rcases s.stopLane_cases n with hs | hs | hs <;> rw [hs]
  · exact s.thaw_lane_ne n h
  · exact s.post_lane_ne n _ h

theorem State.stopLane_fields (s : State) (n : LaneId) :
    (s.stopLane n).engine = s.engine ∧ (s.stopLane n).slate = s.slate := by
  rcases s.stopLane_cases n with hs | hs | hs <;> rw [hs]
  · exact ⟨rfl, rfl⟩
  · exact ⟨(s.thaw_fields n).1, (s.thaw_fields n).2.1⟩
  · exact ⟨(s.post_fields n _).2, (s.post_fields n _).1⟩

theorem State.standsIn_stopLane (s : State) (n : LaneId) : s.StandsIn (s.stopLane n) := by
  rcases s.stopLane_cases n with hs | hs | hs <;> rw [hs]
  · exact .refl s
  · obtain ⟨-, -, table, -⟩ := s.thaw_fields n
    exact .of_eq table (s.thaw_waiting n)
  · exact s.standsIn_post n _

theorem State.bankAfter_stopLane (s : State) (n : LaneId) (b : Fin 4) : s.BankAfter (s.stopLane n) n b := by
  rcases s.stopLane_cases n with hs | hs | hs <;> rw [hs]
  · exact .inl rfl
  · exact s.bankAfter_thaw n b
  · exact State.bankAfter_post n (r := .engineStop) (fun _ => nofun) b

/-! ## The parked orders that a stop ends -/

theorem State.endParked_cases (s : State) (k : Nat) (r : Reason) : s.endParked k r = s ∨
    ∃ e h, e.slot = k ∧ s.ParkEnded (s.endParked k r) e h := by
  cases he : s.entry? k with
  | none =>
    refine .inl ?_
    unfold State.endParked
    rw [he]
  | some e =>
    obtain rfl : e.slot = k := State.slot_of_entry he
    cases hc : s.banks[e.bank] with
    | holding c => exact .inr ⟨e, _, rfl, State.parkEnded_endParked r he hc⟩
    | free | reserved n =>
      refine .inl ?_
      unfold State.endParked
      rw [he]
      dsimp only
      rw [hc]

theorem State.mem_endParked_waiting {s : State} (k : Nat) (r : Reason) {h : HandOver} (hm : h ∈ s.writer.waiting) :
    h ∈ (s.endParked k r).writer.waiting := by
  rcases s.endParked_cases k r with hs | ⟨e, x, -, ended⟩
  · rwa [hs]
  · rw [ended.writer]
    exact List.mem_append_left _ hm

theorem State.entry_endParked_ne (s : State) {k j : Nat} (r : Reason) (h : j ≠ k) :
    (s.endParked k r).entry? j = s.entry? j := by
  rcases s.endParked_cases k r with hs | ⟨e, x, rfl, ended⟩
  · rw [hs]
  · exact ended.others j h

/-- The orders of some slots ended as parked orders, one after another (R182). -/
def State.endAllParked (s : State) (slots : List Nat) : State :=
  slots.foldl (fun x slot => x.endParked slot .engineStopped) s

theorem State.endAllParked_fields (slots : List Nat) (s : State) : (s.endAllParked slots).slate = s.slate ∧
    (s.endAllParked slots).engine = s.engine ∧ (s.endAllParked slots).banks = s.banks ∧
    (∀ n, (s.endAllParked slots).lane n = s.lane n) ∧
    ∀ h ∈ s.writer.waiting, h ∈ (s.endAllParked slots).writer.waiting := by
  induction slots generalizing s with
  | nil => exact ⟨rfl, rfl, rfl, fun _ => rfl, fun _ hm => hm⟩
  | cons k rest ih =>
    obtain ⟨slate, engine, banks, lanes⟩ := State.endParked_fields s k .engineStopped
    obtain ⟨rslate, rengine, rbanks, rlanes, rwaiting⟩ := ih (s.endParked k .engineStopped)
    exact ⟨rslate.trans slate, rengine.trans engine, rbanks.trans banks, fun n => (rlanes n).trans (lanes n),
      fun h hm => rwaiting h (State.mem_endParked_waiting k _ hm)⟩

theorem State.entry_endAllParked_ne {slots : List Nat} {k : Nat} (hk : k ∉ slots) (s : State) :
    (s.endAllParked slots).entry? k = s.entry? k := by
  induction slots generalizing s with
  | nil => rfl
  | cons j rest ih =>
    rw [List.mem_cons, not_or] at hk
    exact (ih hk.2 (s.endParked j .engineStopped)).trans (s.entry_endParked_ne _ hk.1)

/-! ## The stop as one event -/

/-- The state of an engine stop before its lanes are met (R182, R183). -/
def State.stopping (s : State) : State :=
  (s.setSlate { s.slate with again := false }).setEngineState .stopping

/-- The state of an engine stop with both lanes met. -/
def State.lanesStopped (s : State) : State := (s.stopping.stopLane .lane0).stopLane .lane1

/-- The state of an engine stop with its parked orders ended. -/
def State.ordersStopped (s : State) : State := s.lanesStopped.endAllParked s.lanesStopped.parkedToEnd

theorem State.beginStop_eq (s : State) : s.beginStop = s.ordersStopped.settleStop := rfl

theorem exec_engineStop {s : State} (p : Bool) (irq : StickyBits)
    (hs : s.engine.state = .running ∨ s.engine.state = .pausing ∨ s.engine.state = .paused) :
    exec (.engineStop p irq) s = .next ((s.storeIrq irq).asOneEvent State.beginStop) := by
  show Host.Outcome.next (s.controlWrite false p irq) = _
  rw [State.controlWrite_eq (f := State.beginStop)]
  have hstate : (s.storeIrq irq).engine.state = s.engine.state := rfl
  unfold State.controlFields
  rcases hs with hs | hs | hs <;> rw [hstate, hs]

theorem State.ordersStopped_fields (s : State) : s.ordersStopped.engine = { s.engine with state := .stopping } ∧
    s.ordersStopped.slate = { s.slate with again := false } ∧ s.ordersStopped.banks = s.lanesStopped.banks ∧
    ∀ n, s.ordersStopped.lane n = s.lanesStopped.lane n := by
  obtain ⟨engine0, slate0⟩ := s.stopping.stopLane_fields .lane0
  obtain ⟨engine1, slate1⟩ := (s.stopping.stopLane .lane0).stopLane_fields .lane1
  obtain ⟨slate, engine, banks, lanes, -⟩ := State.endAllParked_fields s.lanesStopped.parkedToEnd s.lanesStopped
  exact ⟨engine.trans (engine1.trans engine0), slate.trans (slate1.trans slate0), banks, lanes⟩

/-- What the event of an engine stop leaves of the state `u` in which every order that it ends has ended: the engine
goes on to OFF where nothing is held, and the hand-overs are marked as having come together (R183, log 16). -/
structure State.StopLeaves (u t : State) : Prop where
  engine : t.engine = { u.engine with state := t.engine.state }
  state : t.engine.state = .stopping ∨ t.engine.state = .off
  off : t.engine.state = .off ↔
    t.table = [] ∧ t.writer.waiting = [] ∧ t.writer.step = .idle ∧ t.slate.step = .idle
  slate : t.slate = u.slate
  table : t.table = u.table
  lanes : ∀ n, t.lane n = u.lane n
  banks : t.banks = u.banks
  bandSets : t.bandSets = u.bandSets
  parkOrder : t.parkOrder = u.parkOrder
  waiting : u.WaitIn t

theorem State.settleStop_engine (s : State) :
    s.settleStop.engine = { s.engine with state := s.settleStop.engine.state } := by
  unfold State.settleStop
  split <;> rfl

theorem State.settleStop_stopping {s : State} (h : s.engine.state = .stopping) :
    s.settleStop.engine.state = .stopping ∨ s.settleStop.engine.state = .off := by
  unfold State.settleStop
  split
  · exact .inr rfl
  · exact .inl h

/-- The engine is settled before the hand-overs of the event are joined. -/
theorem State.stopLeaves_asOneEvent {s u : State} {f : State → State} (hf : f s = u.settleStop)
    (hu : u.engine.state = .stopping) : u.StopLeaves (s.asOneEvent f) := by
  obtain ⟨slate, table, writer, lanes, banks, sets, order, -⟩ := State.settleStop_fields u
  have hoff := State.settleStop_off_iff u hu
  have joined := State.waitIn_asOneEvent s f
  unfold State.asOneEvent at joined ⊢
  dsimp only at joined ⊢
  rw [hf] at joined ⊢
  refine ⟨u.settleStop_engine, State.settleStop_stopping hu, hoff.trans ?_, slate, table, lanes, banks, sets, order,
    fun h hm => joined h (by rw [writer]; exact hm)⟩
  show _ ↔ u.settleStop.table = [] ∧ joinAfter _ u.settleStop.writer.waiting = [] ∧ u.settleStop.writer.step = .idle ∧
    u.settleStop.slate.step = .idle
  rw [joinAfter_eq_nil_iff, table, writer, slate]

theorem State.stopLeaves_beginStop (s : State) : s.ordersStopped.StopLeaves (s.asOneEvent State.beginStop) :=
  State.stopLeaves_asOneEvent s.beginStop_eq (congrArg (fun x => x.state) s.ordersStopped_fields.1)

/-! ## The parked orders of a stop -/

theorem State.standsIn_stopping (s : State) : s.StandsIn s.stopping :=
  ⟨fun _ e he => ⟨e.claimed, he⟩, fun _ hm => hm⟩

theorem State.standsIn_lanesStopped (s : State) : s.StandsIn s.lanesStopped :=
  (s.standsIn_stopping.trans (s.stopping.standsIn_stopLane .lane0)).trans (State.standsIn_stopLane _ .lane1)

/-- A bank that no lane's PARK reserves stands while the lanes are met (R168). -/
theorem State.lanesStopped_bank {s : State} {b : Fin 4} (h : ∀ n, (s.lane n).request ≠ .park b) :
    s.lanesStopped.banks[b] = s.banks[b] := by
  have first : (s.stopping.stopLane .lane0).banks[b] = s.banks[b] :=
    (s.stopping.bankAfter_stopLane .lane0 b).resolve_right fun hb => h .lane0 hb.2
  have untouched : (s.stopping.stopLane .lane0).lane .lane1 = s.lane .lane1 :=
    State.stopLane_lane_ne _ (by decide)
  have second := (s.stopping.stopLane .lane0).bankAfter_stopLane .lane1 b
  exact (second.resolve_right fun hb => h .lane1 (untouched ▸ hb.2)).trans first

theorem State.useOf_lanesStopped {P : Prop} {s : State} {k : Nat} {i : Fin 8} (h : State.UseOf P s s k i) :
    State.UseOf P s s.lanesStopped k i :=
  ((h.of_eq (v := s.stopping) rfl rfl).stopLane .lane0).stopLane .lane1

theorem State.mem_parkedToEnd {s : State} {e : Entry} (he : s.entry? e.slot = some e) (hp : e.phase = .parked)
    (hc : e.pendingCancel = false) (hend : e.ended = false) : e.slot ∈ s.parkedToEnd := by
  refine List.mem_map.2 ⟨e, List.mem_filter.2 ⟨List.mem_of_find?_eq_some he, ?_⟩, rfl⟩
  rw [hp, hc, hend]
  rfl

/-- An order ended as one of several: what the state holds after it is kept by the ends of the others. -/
structure State.EndedAmong (s t : State) (e : Entry) (h : HandOver) : Prop where
  waiting : h ∈ t.writer.waiting
  gone : ParkGone e.slot t
  released : ∀ (r : State) (i : Fin 8), State.UseOf True r s e.slot i → State.UseOf False r t e.slot i

theorem State.endedAmong_endParked {s : State} {e : Entry} {c : ParkedContext} (r : Reason)
    (he : s.entry? e.slot = some e) (hc : s.banks[e.bank] = .holding c) :
    s.EndedAmong (s.endParked e.slot r) e (walkHandOver e c.record .cancelled r false none) := by
  have ended := State.parkEnded_endParked r he hc
  refine ⟨?_, State.parkGone_endParked r e c he hc, fun w i h => ?_⟩
  · rw [ended.writer]
    exact List.mem_append_right _ (List.mem_singleton_self _)
  · have released : State.UseOf False w (s.releaseSet e) e.slot i := .inr (h.released e he rfl)
    rw [State.endParked_eq r he hc]
    exact (released.updEntry e.slot (fun x => { x with ended := true }) (fun _ => rfl) (fun _ => rfl) (fun _ => rfl)
      (fun _ => rfl)).of_eq rfl rfl

/-- The first of the slots that is the order's ends it, and the others leave it ended (R182). -/
theorem State.endedAmong_endAllParked {slots : List Nat} {s : State} {e : Entry} {c : ParkedContext}
    (hslot : e.slot ∈ slots) (he : s.entry? e.slot = some e) (hc : s.banks[e.bank] = .holding c) :
    s.EndedAmong (s.endAllParked slots) e (walkHandOver e c.record .cancelled .engineStopped false none) := by
  obtain ⟨before, after, rfl, hnot⟩ := List.eq_append_cons_of_mem hslot
  set u := s.endAllParked before with hu
  have hsplit : s.endAllParked (before ++ e.slot :: after) = (u.endParked e.slot .engineStopped).endAllParked after :=
    List.foldl_append
  obtain ⟨-, -, banks, -, -⟩ := State.endAllParked_fields before s
  have entry : u.entry? e.slot = some e := (State.entry_endAllParked_ne hnot s).trans he
  have ended := State.endedAmong_endParked .engineStopped entry
    (by rw [← hc]; exact congrArg (fun v => v[e.bank]) banks)
  obtain ⟨-, -, -, -, waiting⟩ := State.endAllParked_fields after (u.endParked e.slot .engineStopped)
  rw [hsplit]
  refine ⟨waiting _ ended.waiting, ended.gone.foldParked after _ _, fun r i h => ?_⟩
  exact (ended.released r i (h.foldParked before _)).foldParked after _

/-- A use that may not be held any more has been released (R62). -/
theorem State.UseOf.of_not_held {s u : State} {k : Nat} {i : Fin 8} (h : State.UseOf False s u k i) :
    u.bandSets[i].uses ≤ s.bandSets[i].uses - 1 ∧ ∀ x ∈ u.table, x.slot = k → x.claimed = false := by
  rcases h with ⟨hf, -⟩ | h
  · exact hf.elim
  · exact h

theorem State.useOf_self {s : State} {e : Entry} {i : Fin 8} (he : s.entry? e.slot = some e) (hc : e.claimed = true)
    (hi : referencedSet e.header.kind e.body = some i) : State.UseOf True s s e.slot i :=
  .inl ⟨trivial, Nat.le_refl _, e, he, hc, hi⟩

/-- Settles O11: the entry stands until its turn, is ended at it, and stays ended. -/
theorem engineStopEndsParkedOrders : Obligations.EngineStopEndsParkedOrders := by
  unfold Obligations.EngineStopEndsParkedOrders
  intro s p irq e c hs hn hmem hphase hcancel hend hbank hpark
  set a := s.storeIrq irq with ha
  have leaves := a.stopLeaves_beginStop
  have he : a.entry? e.slot = some e := State.entry_of_mem hn hmem
  obtain ⟨held, hheld⟩ := a.standsIn_lanesStopped.entry _ e he
  have alane (n : LaneId) : a.lane n = s.lane n := by cases n <;> rfl
  have hbanks : a.lanesStopped.banks[e.bank] = .holding c :=
    (State.lanesStopped_bank (s := a) fun n => alane n ▸ hpark n).trans hbank
  have ended : a.lanesStopped.EndedAmong a.ordersStopped { e with claimed := held }
      (walkHandOver { e with claimed := held } c.record .cancelled .engineStopped false none) :=
    State.endedAmong_endAllParked (State.mem_parkedToEnd hheld hphase hcancel hend) hheld hbanks
  have slots : a.ordersStopped.table.map (fun x => x.slot) = s.table.map (fun x => x.slot) :=
    (State.foldParked_slots a.lanesStopped.parkedToEnd _ a.lanesStopped).trans
      ((State.stopLane_slots _ .lane1).trans (State.stopLane_slots a.stopping .lane0))
  obtain ⟨together, joined⟩ := leaves.waiting _ ended.waiting
  refine ⟨_, exec_engineStop p irq hs, ⟨_, joined, rfl, rfl, rfl, rfl, rfl, rfl, rfl, rfl, rfl⟩, ?slots, ?gone, ?list,
    fun i hclaimed hi => ?released⟩
  case slots => rw [leaves.table, slots]
  case gone =>
    rw [leaves.table]
    exact ended.gone.ended
  case list =>
    rw [leaves.parkOrder]
    exact ended.gone.list
  case released =>
    have before : State.UseOf True a a e.slot i := State.useOf_self he hclaimed hi
    have use := ended.released a i (State.useOf_lanesStopped before)
    rw [leaves.table, leaves.bandSets]
    exact use.of_not_held

end Sys2Proof.Machine
end

section
/-! The entry to STOPPING (R62, R125, R160, R161, R170, R171, R178, R179, R182, R183). -/

namespace Sys2Proof.Machine

/-- An engine stop in STARTING abandons the start and hands nothing over (R179). -/
theorem exec_engineStop_starting {s : State} (p : Bool) (irq : StickyBits) (hs : s.engine.state = .starting) :
    exec (.engineStop p irq) s =
      .next { s with engine := { s.engine with abandoned := true, irqEnables := irq } } := by
  show Host.Outcome.next (s.controlWrite false p irq) = _
  have hfields : (s.storeIrq irq).controlFields false p = (s.storeIrq irq).abandonStart := by
    have hstate : (s.storeIrq irq).engine.state = .starting := hs
    unfold State.controlFields
    rw [hstate]
  rw [State.controlWrite_eq (f := State.abandonStart) hfields, State.asOneEvent_of_none_handed _ _ rfl]
  rfl

/-! ## Each lane as the stop meets it -/

/-- A state `x` in which an engine stop meets a lane: the lane, its entry but for the claim, and its claim are those of
`s`, and what the lane's stop leaves is kept to the end `u` of the event. -/
structure State.MeetsLane (s x u : State) (n : LaneId) : Prop where
  lane : x.lane n = s.lane n
  entry : ∀ e, s.laneEntry n = some e → ∃ held, x.laneEntry n = some { e with claimed := held }
  result : u.lane n = (x.stopLane n).lane n
  waiting : ∀ h ∈ (x.stopLane n).writer.waiting, h ∈ u.writer.waiting
  freed : ∀ b : Fin 4, (x.stopLane n).banks[b] = .free → u.banks[b] = .free
  before : ∀ k i, State.UseOf True s s k i → State.UseOf True s x k i
  after : ∀ k i, State.UseOf False s (x.stopLane n) k i → State.UseOf False s u k i

theorem State.BankAfter.free {s t : State} {n : LaneId} {b : Fin 4} (h : s.BankAfter t n b) (hb : s.banks[b] = .free) :
    t.banks[b] = .free := by
  rcases h with h | ⟨h, -⟩
  · exact h.trans hb
  · exact h

theorem State.StandsIn.laneEntry {s x : State} {n : LaneId} {e : Entry} (h : s.StandsIn x)
    (hlane : x.lane n = s.lane n) (he : s.laneEntry n = some e) :
    ∃ held, x.laneEntry n = some { e with claimed := held } := by
  unfold State.laneEntry at he ⊢
  rw [hlane]
  split at he
  next slot hslot => exact h.entry slot e he
  next => cases he

/-- Lane 0 is met first, lane 1 in the state that lane 0's stop leaves (R182). -/
theorem State.meetsLane_ordersStopped (s : State) (n : LaneId) : ∃ x, s.MeetsLane x s.ordersStopped n := by
  set u := s.stopping.stopLane .lane0 with hu
  have hstopped : u.stopLane .lane1 = s.lanesStopped := rfl
  obtain ⟨-, -, banks, lanes, waiting⟩ := State.endAllParked_fields s.lanesStopped.parkedToEnd s.lanesStopped
  have slane (k : LaneId) : s.stopping.lane k = s.lane k := by cases k <;> rfl
  cases n
  case lane0 =>
    refine ⟨s.stopping, slane _, fun e he => s.standsIn_stopping.laneEntry (slane _) he, ?result,
      fun h hm => waiting h ?wait, fun b hb => ?freed, fun k i h => h.of_eq rfl rfl, fun k i h => ?after⟩
    case result => exact (lanes .lane0).trans (u.stopLane_lane_ne (n := .lane1) (k := .lane0) (by decide))
    case wait => exact (u.standsIn_stopLane .lane1).waiting h hm
    case freed => exact (congrArg (fun v => v[b]) banks).trans ((u.bankAfter_stopLane .lane1 b).free hb)
    case after => exact (h.stopLane .lane1).foldParked _ _
  case lane1 =>
    have ulane : u.lane .lane1 = s.lane .lane1 :=
      (s.stopping.stopLane_lane_ne (n := .lane0) (k := .lane1) (by decide)).trans (slane _)
    have stands : s.StandsIn u := s.standsIn_stopping.trans (s.stopping.standsIn_stopLane .lane0)
    refine ⟨u, ulane, fun e he => stands.laneEntry ulane he, lanes .lane1, waiting,
      fun b hb => (congrArg (fun v => v[b]) banks).trans hb, fun k i h => ?before, fun k i h => h.foldParked _ _⟩
    case before => exact (h.of_eq (v := s.stopping) rfl rfl).stopLane .lane0

/-! ## The lane of a walking order -/

/-- ENGINE_STOP outranks every request but itself (R170). -/
theorem StopRequest.rank_lt_engineStop {r : StopRequest} (h : r ≠ .engineStop) :
    r.rank < StopRequest.engineStop.rank := by
  by_cases hc : r = .cancel
  · rw [hc]
    decide
  · exact (StopRequest.rank_lt_cancel hc h).trans (by decide)

section
variable {s : State} {n : LaneId} {e : Entry} (he : s.laneEntry n = some e)
  (hk : e.header.kind.housekeeping = false) (hmark : (s.lane n).endMark = false)
  (hpark : (s.lane n).parkUnderWay = false) (hreq : (s.lane n).request ≠ .engineStop)
include he hk hmark hpark hreq

/-- A lane at work takes ENGINE_STOP in place of what is pending (R170, R182). -/
theorem State.stopLane_busy (hs : (s.lane n).state = .active ∨ (s.lane n).state = .yielding) :
    s.stopLane n = s.requested n .engineStop := by
  rw [State.stopLane_walking he hk]
  exact State.post_replaces s n .engineStop hs hmark hpark (StopRequest.rank_lt_engineStop hreq)

/-- A FROZEN lane ends its order at the stop (R160, R171, R182). -/
theorem State.stopLane_frozen (hs : (s.lane n).state = .frozen) :
    s.stopLane n = (s.requested n .engineStop).endWalk n .cancelled .engineStopped none := by
  rw [State.stopLane_walking he hk]
  exact State.post_frozen hs hmark hpark (StopRequest.rank_lt_engineStop hreq)

end

/-- The end of a walking order releases the use that its slot holds (R62). -/
theorem State.UseOf.endWalk_released {P : Prop} {s u : State} {n : LaneId} {e : Entry} {c : WalkContext} {i : Fin 8}
    (h : State.UseOf P s u e.slot i) (f : FinalState) (r : Reason) (x : Option (Nat × Nat))
    (he : u.laneEntry n = some e) (hc : (u.lane n).context = some c) :
    State.UseOf False s (u.endWalk n f r x) e.slot i := by
  obtain ⟨-, -, -, -, sets, table⟩ := State.freeRequestBank_fields u n
  set v := (u.freeRequestBank n).setLane n (u.lane n).ending with hv
  have vsets : v.bandSets = u.bandSets := by rw [hv, State.setLane_bandSets, sets]
  have vtable : v.table = u.table := by rw [hv, State.setLane_table, table]
  have entry : v.entry? e.slot = some e := by
    unfold State.entry?
    rw [vtable]
    exact State.laneEntry_entry he
  have released : State.UseOf False s (v.releaseSet e) e.slot i :=
    .inr ((h.of_eq vsets vtable).released e entry rfl)
  unfold State.endWalk
  rw [he, hc]
  exact released.of_eq rfl rfl

/-- The claim does not touch the step that begins. -/
theorem StepBegun.of_claimed {e : Entry} {held : Bool} {l l' : Lane} (h : StepBegun { e with claimed := held } l l') :
    StepBegun e l l' :=
  ⟨h.image, h.check, h.load, h.record, h.apply, h.write, h.clear⟩

/-- Settles O10: each lane in the state in which the stop meets it, the engine by `State.settleStop`. -/
theorem engineStopEntersStopping : Obligations.EngineStopEntersStopping := by
  unfold Obligations.EngineStopEntersStopping
  intro s p irq
  refine ⟨exec_engineStop_starting p irq, fun hs => ?_⟩
  set a := s.storeIrq irq with ha
  have leaves := a.stopLeaves_beginStop
  have kept : s.Kept (a.asOneEvent State.beginStop) :=
    (s.kept_engine _).trans (State.kept_asOneEvent _ _ (State.kept_beginStop a))
  obtain ⟨uengine, uslate, -, -⟩ := a.ordersStopped_fields
  have alane (n : LaneId) : a.lane n = s.lane n := by cases n <;> rfl
  have aentry (n : LaneId) : a.laneEntry n = s.laneEntry n := State.laneEntry_congr n (alane n) rfl
  refine ⟨_, exec_engineStop p irq hs, ?irq, leaves.state, leaves.off, leaves.slate.trans uslate, kept,
    fun n e he hk hst hmark hpark hreq => ?busy, fun n e c he hk hst hmark hpark hreq hc => ?frozen,
    fun n e he hk hst => ?housekeeping⟩
  case irq =>
    rw [leaves.engine, uengine]
    rfl
  case busy =>
    obtain ⟨x, meets⟩ := a.meetsLane_ordersStopped n
    have xlane : x.lane n = s.lane n := meets.lane.trans (alane n)
    obtain ⟨held, xentry⟩ := meets.entry e ((aentry n).trans he)
    have stopped : x.stopLane n = x.requested n .engineStop := by
      rw [← xlane] at hst hmark hpark hreq
      exact State.stopLane_busy xentry hk hmark hpark hreq hst
    refine ⟨?_, fun b hb => ?_⟩
    · rw [leaves.lanes, meets.result, stopped, State.requested_lane, xlane]
    · obtain ⟨-, -, -, -, -, -, rbanks, -⟩ := x.requested_fields n .engineStop
      rw [leaves.banks]
      refine meets.freed b ?_
      rw [stopped, rbanks]
      exact x.freeRequestBank_park n b (by rw [xlane]; exact hb)
  case frozen =>
    obtain ⟨x, meets⟩ := a.meetsLane_ordersStopped n
    have xlane : x.lane n = s.lane n := meets.lane.trans (alane n)
    obtain ⟨held, xentry⟩ := meets.entry e ((aentry n).trans he)
    rw [← xlane] at hst hmark hpark hreq hc
    have stopped := State.stopLane_frozen xentry hk hmark hpark hreq hst
    have ends := State.stoppedBy_requested (r := .engineStop) .engineStopped (fun _ => nofun) xentry hc
    rw [← stopped] at ends
    refine ⟨?lane, ?handed, fun i hclaimed hi => ?released⟩
    case lane => rw [leaves.lanes, meets.result, ends.lane, xlane]; rfl
    case handed =>
      obtain ⟨together, joined⟩ := leaves.waiting _ (meets.waiting _ (by
        rw [ends.ended.writer]
        exact List.mem_append_right _ (List.mem_singleton_self _)))
      exact ⟨_, joined, rfl, rfl, rfl, rfl, rfl, rfl, rfl, rfl, rfl⟩
    case released =>
      have entry : a.entry? e.slot = some e := State.laneEntry_entry ((aentry n).trans he)
      have before : State.UseOf True a x e.slot i := meets.before _ _ (State.useOf_self entry hclaimed hi)
      obtain ⟨-, -, -, -, rsets, rtable, -, -⟩ := x.requested_fields n .engineStop
      have requested : State.UseOf True a (x.requested n .engineStop) e.slot i := before.of_eq rsets rtable
      have after : State.UseOf False a (x.stopLane n) e.slot i := by
        rw [stopped]
        exact State.UseOf.endWalk_released (e := { e with claimed := held }) requested _ _ _
          ((x.requested_laneEntry n _).trans xentry) (by rw [x.requested_lane]; exact hc)
      rw [leaves.bandSets, leaves.table]
      exact (meets.after _ _ after).of_not_held
  case housekeeping =>
    obtain ⟨x, meets⟩ := a.meetsLane_ordersStopped n
    have xlane : x.lane n = s.lane n := meets.lane.trans (alane n)
    obtain ⟨held, xentry⟩ := meets.entry e ((aentry n).trans he)
    rw [← xlane] at hst ⊢
    rw [leaves.lanes, meets.result, State.stopLane_housekeeping xentry hk]
    exact ⟨(State.thaw_lane x n hst (by rw [xentry]; rfl)).1, (State.thaw_step x n _ hst xentry hk).of_claimed⟩

end Sys2Proof.Machine
end

section
/-! Totals stay within their limits at every step (R71, R79, R88). -/

namespace Sys2Proof.Machine

/-! ## Staging sets and record buffers -/

/-- A lane's staging values have at most 28 digits, and its record buffer holds totals of accumulators (R73, R79). -/
structure Lane.TotalsHeld (l : Lane) : Prop where
  staging : stagingInWidth l.staging
  buffer : l.buffer.inLimits

/-- The staging values that a HOLDING bank keeps have at most 28 digits (R73, R168). -/
def ParkBank.TotalsHeld (x : ParkBank) : Prop := ∀ c, x = .holding c → stagingInWidth c.staging

/-- The staging sets and record buffers of lanes and banks; no hand-over carries one. -/
abbrev State.StagedInLimits (s : State) : Prop := s.Contexts Lane.TotalsHeld ParkBank.TotalsHeld (fun _ => True)

theorem Lane.TotalsHeld.congr {l l' : Lane} (h : l.TotalsHeld) (hs : l'.staging = l.staging)
    (hb : l'.buffer = l.buffer) : l'.TotalsHeld := ⟨hs ▸ h.staging, hb ▸ h.buffer⟩

/-- A lane with nothing staged and an empty record buffer. -/
theorem Lane.totalsHeld_of_empty {l : Lane} (hs : l.staging = Staging.start) (hb : l.buffer = RecordBuffer.empty) :
    l.TotalsHeld := ⟨hs ▸ Staging.start_inWidth, hb ▸ RecordBuffer.empty_inLimits⟩

theorem Total.contribute_inWidth (t : Total) (v : Int) : (t.contribute v).inWidth := clampTotal_inWidth (t.value + v)

/-- A contribution saturates its entry, and every other change of staging sets and buffers moves or clears them
whole. -/
theorem closed_totalsHeld : Closed Lane.TotalsHeld ParkBank.TotalsHeld (fun _ => True) where
  same _ _ hs hb _ _ h := h.congr hs hb
  grow _ _ _ _ _ _ _ hs hb _ h := h.congr hs hb
  contribute _ i _ h :=
    ⟨vector_forall_get_set Total.inWidth _ i _ (Total.contribute_inWidth _ _) h.staging, h.buffer⟩
  ending _ _ := Lane.totalsHeld_of_empty rfl rfl
  reset := Lane.totalsHeld_of_empty rfl rfl
  fresh _ := Lane.totalsHeld_of_empty rfl rfl
  free _ h := nomatch h
  reserved _ _ h := nomatch h
  resumed _ c h := ⟨h c rfl, RecordBuffer.empty_inLimits⟩
  park _ _ _ _ h := by
    rintro _ ⟨⟩
    exact h.staging
  start := trivial
  walk _ _ _ _ := trivial
  banked _ _ := trivial

theorem latchedBuffer_inLimits (body : List Byte) {accums : Vector Total 64} (h : ∀ i : Fin 64, accums[i].inLimits) :
    (latchedBuffer body accums).inLimits := by
  intro i
  have entry : (latchedBuffer body accums).entries[i] = if inRange body i.val then accums[i] else Total.zero := by
    simp [latchedBuffer]
  rw [entry]
  split
  · exact h i
  · exact Total.zero_inLimits

/-- The latch copies accumulators, a preset record is checked as it is read, and a halt drops both sets. -/
theorem commandsClosed_totalsHeld {s : State} (h : s.StagedInLimits) (ha : ∀ i : Fin 64, s.accums[i].inLimits) :
    CommandsClosed Lane.TotalsHeld s where
  latch n e := ⟨(h.lanes n).staging, latchedBuffer_inLimits e.body ha⟩
  record n _ i _ _ ht := ⟨(h.lanes n).staging,
    vector_forall_get_set Total.inLimits _ (Fin.ofNat 64 i) _ (recordTotal_inLimits ht) (h.lanes n).buffer⟩
  limit n := (h.lanes n).congr rfl rfl
  halted _ _ := Lane.totalsHeld_of_empty rfl rfl

/-! ## Accumulators and their latch -/

/-- Every accumulator and the accumulator latch lie within the limits of R71. -/
structure State.AccumsInLimits (s : State) : Prop where
  accums : ∀ i : Fin 64, s.accums[i].inLimits
  latch : s.window.accumLatch.total.inLimits

namespace State.AccumsInLimits

theorem of_eq {s t : State} (h : s.AccumsInLimits) (ha : t.accums = s.accums) (hw : t.window = s.window) :
    t.AccumsInLimits := by
  obtain ⟨accums, latch⟩ := h
  rw [← ha] at accums
  rw [← hw] at latch
  exact ⟨accums, latch⟩

theorem kept {s t : State} (h : s.AccumsInLimits) (k : s.Kept t) : t.AccumsInLimits := h.of_eq k.accums k.window

theorem setMem {s : State} (h : s.AccumsInLimits) (m : Memory) : (s.setMem m).AccumsInLimits := h.of_eq rfl rfl

theorem afterHost {s : State} (h : s.AccumsInLimits) (x : HostWrites) : (s.afterHost x).AccumsInLimits := h.setMem _

theorem setAccums {s : State} (h : s.AccumsInLimits) {a : Vector Total 64} (ha : ∀ i : Fin 64, a[i].inLimits) :
    (s.setAccums a).AccumsInLimits := ⟨ha, h.latch⟩

theorem setWindow {s : State} (h : s.AccumsInLimits) {w : WindowPort} (hw : w.accumLatch.total.inLimits) :
    (s.setWindow w).AccumsInLimits := ⟨h.accums, hw⟩

/-- A fetch refills the latch from an accumulator or leaves it (R88). -/
theorem fetchWord {s : State} (h : s.AccumsInLimits) : s.fetchWord.accumLatch.total.inLimits := by
  have latched : ∀ i k, (s.latchAccum i k).total.inLimits := by
    intro i k
    unfold State.latchAccum
    split
    · exact h.accums i
    · exact h.latch
  unfold State.fetchWord
  split
  next i k _ => exact latched i k
  all_goals exact h.latch

theorem writeAccum {s : State} (h : s.AccumsInLimits) (i : Fin 64) (k : Nat) (w : Word) :
    (s.writeAccum i k w).AccumsInLimits := by
  have refused : s.windowRefused.AccumsInLimits := h.of_eq rfl rfl
  have latch : (s.window.dropAccum i).accumLatch.total.inLimits := by
    unfold WindowPort.dropAccum
    split <;> exact h.latch
  unfold State.writeAccum
  split
  · split
    next t ht =>
      exact ⟨vector_forall_get_set Total.inLimits _ i t (Total.writeWord_inLimits (h.accums i) ht) h.accums, latch⟩
    next => exact refused
  · exact refused

theorem writeSet {s : State} (h : s.AccumsInLimits) (i : Fin 8) (f : BandSet → BandSet) :
    (s.writeSet i f).AccumsInLimits := by
  have latch : (s.window.dropSet i).accumLatch.total.inLimits := by
    unfold WindowPort.dropSet
    repeat' split
    all_goals exact h.latch
  unfold State.writeSet
  split
  · exact ⟨h.accums, latch⟩
  · exact h.of_eq rfl rfl

theorem writeWindow {s : State} (h : s.AccumsInLimits) (w : Word) : (s.writeWindow w).AccumsInLimits := by
  unfold State.writeWindow
  split
  · exact h.writeAccum _ _ _
  · exact h.writeSet _ _
  · exact h.writeSet _ _
  · exact h.writeSet _ _
  all_goals exact h.of_eq rfl rfl

/-- A commit saturates every accumulator it names (R72, R77). -/
theorem commitLane {s : State} (h : s.AccumsInLimits) (n : LaneId) (e : Entry) (c : WalkContext) (set : BandSet) :
    (s.commitLane n e c set).AccumsInLimits := by
  have committed : ∀ i : Fin 64, (commitStaging (namedAccum set e.body) (s.lane n).staging s.accums).1[i].inLimits :=
    applyStaged_inLimits _ _ _ _ h.accums
  exact (h.setAccums committed).kept ((State.kept_setLane _ _ _).trans (State.kept_endWalk _ _ _ _ _))

/-- A bus error on the slate keeps accumulators and Window Port (R174, R184). -/
theorem slateFault {s : State} (h : s.AccumsInLimits) (r : Requester) (took : Nat → Bool) (f : SlateFaultAt)
    (sweeping : Bool) : ((s.dropFaulting r took).halt f sweeping).AccumsInLimits := by
  obtain ⟨-, -, -, -, accums, window, -⟩ := s.dropFaulting_fields r took
  exact h.of_eq accums window

/-- Every command keeps accumulators and latch within their limits where the record buffers are within theirs: PRESET
and CLEAR take totals from a buffer, a commit saturates, a window write is checked, and no other command touches them
but to clear or latch them. -/
theorem exec {s : State} (h : s.AccumsInLimits) (hb : ∀ n, (s.lane n).buffer.inLimits) (c : Instr) {t : State}
    (he : exec c s = .next t) : t.AccumsInLimits := by
  cases c
  case powerOnReset =>
    obtain rfl := Host.Outcome.next.inj he
    exact ⟨State.reset_totalsInLimits.accums, State.reset_totalsInLimits.latch⟩
  case softReset irq =>
    obtain rfl := Host.Outcome.next.inj he
    exact ⟨h.accums, Total.zero_inLimits⟩
  case apply n =>
    obtain rfl := Host.Outcome.next.inj he
    split
    · exact (h.setAccums (mapRange_inLimits _ _ _ (hb n) h.accums)).kept (State.kept_finishLast _ _)
    · exact h
  case clear n =>
    obtain rfl := Host.Outcome.next.inj he
    split
    · exact (h.setAccums (mapRange_inLimits _ _ _ (fun i => Total.clearBy_inLimits _ _ (h.accums i)) h.accums)).kept
        (State.kept_finishLast _ _)
    · exact h
  case commit n =>
    obtain rfl := Host.Outcome.next.inj he
    repeat' split
    all_goals first
      | exact h
      | exact h.commitLane _ _ _ _
  case windowAddrWrite =>
    obtain rfl := Host.Outcome.next.inj he
    exact h.setWindow h.latch
  case windowDataRead =>
    obtain rfl := Host.Outcome.next.inj he
    refine ⟨h.accums, ?_⟩
    show s.fetchWord.advance.accumLatch.total.inLimits
    rw [(WindowPort.advance_fields _).2.1]
    exact h.fetchWord
  case windowDataWrite w =>
    obtain rfl := Host.Outcome.next.inj he
    refine (h.writeWindow w).setWindow ?_
    rw [(WindowPort.advance_fields _).2.1]
    exact (h.writeWindow w).latch
  case enable | engineStop | pause | pauseRelease =>
    obtain rfl := Host.Outcome.next.inj he
    exact h.kept (s.kept_controlWrite _ _ _)
  case irqEnableWrite | statusClear | ack | registerWriteOther =>
    obtain rfl := Host.Outcome.next.inj he
    exact h.of_eq rfl rfl
  case anchorWrite =>
    obtain rfl := Host.Outcome.next.inj he
    split
    all_goals exact h.of_eq rfl rfl
  case nudge =>
    obtain rfl := Host.Outcome.next.inj he
    exact h.kept s.kept_requestSweep
  case cancel =>
    obtain rfl := Host.Outcome.next.inj he
    exact h.kept (s.kept_cancelSlot _)
  case sweepTimerExpiry =>
    obtain rfl := Host.Outcome.next.inj he
    split
    · exact h.kept ((s.kept_setSlate _).trans (State.kept_requestSweep _))
    · exact h
  case anchorReadDone reply =>
    obtain rfl := Host.Outcome.next.inj he
    repeat' split
    all_goals first
      | exact h
      | exact (h.afterHost _).kept (State.kept_takeAnchor _)
      | exact h.of_eq rfl rfl
  case completionWordReadDone reply =>
    obtain rfl := Host.Outcome.next.inj he
    repeat' split
    all_goals first
      | exact h
      | exact (h.afterHost _).kept (State.kept_completeStart _)
      | exact h.of_eq rfl rfl
  case headerReadDone host =>
    obtain rfl := Host.Outcome.next.inj he
    split
    · exact (h.afterHost host).kept (((State.kept_meetHeader _ _ _).trans (State.kept_settlePause _)).trans
        (State.kept_settleStop _))
    all_goals exact h
  case bodyReadDone reply =>
    obtain rfl := Host.Outcome.next.inj he
    split
    · exact h.kept (s.kept_failAtTake _ _ _)
    · exact (h.afterHost _).kept (State.kept_meetBody _ _ _ _)
    all_goals exact h
  case take =>
    obtain rfl := Host.Outcome.next.inj he
    split
    · split
      · refine State.AccumsInLimits.kept ?_ (((State.kept_advanceSweep _ _).trans (State.kept_settlePause _)).trans
          (State.kept_settleStop _))
        exact h.of_eq rfl rfl
      · exact h
    all_goals exact h
  case handBack =>
    obtain rfl := Host.Outcome.next.inj he
    split
    · exact h.of_eq rfl rfl
    · exact h
  case handBackWriteAccept =>
    obtain rfl := Host.Outcome.next.inj he
    split
    · refine State.AccumsInLimits.kept ?_ (State.kept_settleStop _)
      exact h.of_eq rfl rfl
    all_goals exact h
  case completion | resultAreaWriteAccept =>
    obtain rfl := Host.Outcome.next.inj he
    split
    all_goals first
      | exact h
      | exact h.of_eq rfl rfl
  case stateWriteAccept =>
    obtain rfl := Host.Outcome.next.inj he
    split
    · exact (h.setMem _).kept (((State.kept_leaveSlot _ _).trans (State.kept_setWriter _ _)).trans
        (State.kept_settlePause _))
    all_goals exact h
  case completionWordWriteAccept =>
    obtain rfl := Host.Outcome.next.inj he
    split
    · exact (h.setMem _).kept ((State.kept_setWriter _ _).trans (State.kept_settleStop _))
    all_goals exact h
  case startEvent =>
    obtain rfl := Host.Outcome.next.inj he
    split
    · split
      · exact h.kept (s.kept_resume _ _)
      · exact h.kept (s.kept_firstStart _ _)
    · exact h
  case progressRunningAccept n =>
    obtain rfl := Host.Outcome.next.inj he
    repeat' split
    all_goals first
      | exact h
      | exact (h.setMem _).kept (State.kept_beginCell _ _)
      | exact (h.setMem _).kept (State.kept_firstAccess _ _ _)
  case startClaim n =>
    obtain rfl := Host.Outcome.next.inj he
    repeat' split
    all_goals first
      | exact h
      | exact h.kept (s.kept_startClaim _ _ _)
  case startTest n =>
    obtain rfl := Host.Outcome.next.inj he
    repeat' split
    all_goals first
      | exact h
      | exact h.kept (s.kept_endPlain _ _ _)
      | exact h.kept (s.kept_finishStep _ _)
  case imageReadDone n bytes host =>
    obtain rfl := Host.Outcome.next.inj he
    split
    · exact (h.afterHost host).kept (State.kept_takeImage _ _ _ _)
    · exact h
  case loadClaim n =>
    obtain rfl := Host.Outcome.next.inj he
    repeat' split
    all_goals first
      | exact h
      | exact h.kept (s.kept_endPlain _ _ _)
      | exact h.kept ((s.kept_setBandSet _ _).trans (State.kept_finishLast _ _))
  case presetRecordReadDone n host =>
    obtain rfl := Host.Outcome.next.inj he
    split
    · exact (h.afterHost host).kept (State.kept_takePresetRecord _ _ _)
    · exact h
  case latch n =>
    obtain rfl := Host.Outcome.next.inj he
    split
    · exact h.kept ((s.kept_setLane _ _).trans (State.kept_finishStep _ _ _))
    · exact h
  case snapshotRecordWriteAccept n =>
    obtain rfl := Host.Outcome.next.inj he
    repeat' split
    all_goals first
      | exact h
      | exact (h.setMem _).kept (State.kept_finishStep _ _ _)
  case markReadDone n host =>
    obtain rfl := Host.Outcome.next.inj he
    split
    · exact (h.afterHost host).kept (State.kept_setLane _ _ _)
    · exact h
  case sourceReadDone n host =>
    obtain rfl := Host.Outcome.next.inj he
    split
    · exact (h.afterHost host).kept (State.kept_takeSourceA _ _ _ _)
    · exact (h.afterHost host).kept (State.kept_workOperands _ _ _ _ _ _)
    · exact h
  case destinationReadDone n host =>
    obtain rfl := Host.Outcome.next.inj he
    repeat' split
    all_goals first
      | exact h
      | exact (h.afterHost host).kept (State.kept_takeDestination _ _ _ _)
  case destinationWriteAccept n | exceptionRecordWriteAccept n =>
    obtain rfl := Host.Outcome.next.inj he
    repeat' split
    all_goals first
      | exact h
      | exact (h.setMem _).kept (State.kept_setLane _ _ _)
  case cellBoundary n =>
    obtain rfl := Host.Outcome.next.inj he
    split
    · exact h.kept (s.kept_passBoundary _ _ _ _)
    · exact h
  case parkRequest =>
    obtain rfl := Host.Outcome.next.inj he
    repeat' split
    all_goals first
      | exact h
      | exact h.kept (s.kept_requestPark _ _)
  case parkWithdraw =>
    obtain rfl := Host.Outcome.next.inj he
    repeat' split
    all_goals first
      | exact h
      | exact h.kept (s.kept_withdrawPark _)
  case parkComplete n =>
    obtain rfl := Host.Outcome.next.inj he
    repeat' split
    all_goals first
      | exact h
      | exact (h.setMem _).kept (((State.kept_finishPark _ _ _ _ _).trans (State.kept_afterPark _ _)).trans
          (State.kept_settlePause _))
  case timeLimit n =>
    obtain rfl := Host.Outcome.next.inj he
    split
    · exact h.kept ((s.kept_setLane _ _).trans (State.kept_post _ _ _))
    · exact h
  case memoryFault n took =>
    obtain rfl := Host.Outcome.next.inj he
    repeat' split
    all_goals first
      | exact h
      | exact (h.setMem _).kept (State.kept_failOrder _ _ _)
  case slateFault r took =>
    obtain rfl := Host.Outcome.next.inj he
    split
    · exact h.slateFault _ _ _ _
    · exact h

end State.AccumsInLimits

/-! ## One step -/

theorem State.kept_tickLane (s : State) (n : LaneId) : s.Kept (s.tickLane n) := by
  unfold State.tickLane
  split
  · dsimp only
    split
    · exact (s.kept_setLane _ _).trans (State.kept_post _ _ _)
    · exact s.kept_setLane _ _
  · exact .refl s

theorem State.kept_tickSweep (s : State) : s.Kept s.tickSweep := by
  unfold State.tickSweep
  split
  · split
    · exact (s.kept_setSlate _).trans (State.kept_requestSweep _)
    · exact s.kept_setSlate _
  · exact .refl s

theorem State.kept_tick (s : State) : s.Kept s.tick :=
  ((s.kept_tickLane .lane0).trans (State.kept_tickLane _ .lane1)).trans (State.kept_tickSweep _)

theorem State.StagedInLimits.tick {s : State} (h : s.StagedInLimits) : s.tick.StagedInLimits :=
  have timer : ∀ (l : Lane) (k : Nat), l.TotalsHeld → Lane.TotalsHeld { l with runTimer := k } :=
    fun _ _ hl => hl.congr rfl rfl
  State.Contexts.tickSweep ((h.tickLane closed_totalsHeld timer .lane0).tickLane closed_totalsHeld timer .lane1)

theorem State.totalsInLimits_iff (s : State) : s.TotalsInLimits ↔ s.StagedInLimits ∧ s.AccumsInLimits :=
  ⟨fun h => ⟨⟨fun n => ⟨h.staging n, h.buffers n⟩, h.banks, fun _ _ => trivial⟩, h.accums, h.latch⟩,
    fun ⟨staged, accums⟩ => ⟨accums.accums, fun n => (staged.lanes n).staging, fun n => (staged.lanes n).buffer,
      staged.banks, accums.latch⟩⟩

/-- Settles O56: staging sets and record buffers are a closed property of contexts given the accumulators, and the
accumulators are within limits given the record buffers. -/
theorem stepKeepsTotalsInLimits : Obligations.StepKeepsTotalsInLimits := by
  intro s t h hs
  obtain ⟨staged, accums⟩ := s.totalsInLimits_iff.1 h
  rw [State.totalsInLimits_iff]
  unfold Machine.step at hs
  split at hs
  next =>
    obtain rfl := Host.Outcome.next.inj hs
    exact ⟨staged.tick, accums.kept s.kept_tick⟩
  next c rest _ =>
    have staged' : ({ s with pending := rest } : State).StagedInLimits :=
      staged.of_eq (fun n => by cases n <;> rfl) rfl rfl
    have accums' : ({ s with pending := rest } : State).AccumsInLimits := accums.of_eq rfl rfl
    exact ⟨staged'.exec closed_totalsHeld (commandsClosed_totalsHeld staged' accums'.accums) c hs,
      accums'.exec (fun n => (staged'.lanes n).buffer) c hs⟩

end Sys2Proof.Machine
end

section
/-! Arithmetic of the Bank: saturating addition, and the clear of one accumulator (R72, R82). -/

namespace Sys2Proof.Machine

/-- A value held at the limits of a total, and when that changes it. -/
theorem clampTotal_table (v : Int) :
    (-(10 ^ 28 - 1) ≤ v → v ≤ 10 ^ 28 - 1 → (clampTotal v).1 = v) ∧
    (10 ^ 28 - 1 < v → (clampTotal v).1 = 10 ^ 28 - 1) ∧
    (v < -(10 ^ 28 - 1) → (clampTotal v).1 = -(10 ^ 28 - 1)) ∧
    ((clampTotal v).2 = true ↔ 10 ^ 28 - 1 < v ∨ v < -(10 ^ 28 - 1)) := by
  obtain ⟨inside, above, below⟩ := clampTotal_cases v
  refine ⟨fun hl hu => by rw [inside hl hu], fun h => by rw [above h], fun h => by rw [below h], ?_⟩
  rcases Int.lt_or_le (10 ^ 28 - 1) v with hu | hu
  · simp only [above hu, hu, true_or]
  · rcases Int.lt_or_le v (-(10 ^ 28 - 1)) with hl | hl
    · simp only [below hl, hl, or_true]
    · simp only [inside hl hu, Int.not_lt.2 hu, Int.not_lt.2 hl, or_self, Bool.false_eq_true]

theorem Total.add_count (a : Total) (x : Int) (n : Nat) :
    (a.add x n).1.count = if 4294967295 < a.count + n then 4294967295 else a.count + n := by
  exact if_congr decide_eq_true_iff rfl rfl

theorem Total.add_overflow (a : Total) (x : Int) (n : Nat) :
    (a.add x n).1.overflow = true ↔
      a.overflow = true ∨ (clampTotal (a.value + x)).2 = true ∨ 4294967295 < a.count + n := by
  simp only [Total.add, Bool.or_eq_true, or_assoc]
  exact or_congr_right (or_congr_right decide_eq_true_iff)

/-- Settles O52: the value by `clampTotal_table`, the count by its one limit. -/
theorem saturatingAdditionFollowsTheTable : Obligations.SaturatingAdditionFollowsTheTable := by
  intro a x n r v
  obtain ⟨inside, above, below, saturates⟩ := clampTotal_table v
  refine ⟨inside, above, below, fun h => ?_, fun h => ?_, ?_⟩
  · exact (a.add_count x n).trans (if_neg (Nat.not_lt.2 h))
  · exact (a.add_count x n).trans (if_pos h)
  · rw [a.add_overflow x n, saturates, or_assoc]

/-- The clear of an accumulator whose latched flag is clear (R82). -/
theorem Total.clearBy_of_clear {latched : Total} (held : Total) (h : latched.overflow = false) :
    latched.clearBy held = ⟨(clampTotal (held.value - latched.value)).1, held.count - latched.count,
      held.overflow || (clampTotal (held.value - latched.value)).2 || decide (held.count < latched.count)⟩ := by
  simp [Total.clearBy, h]

/-- The clear of an accumulator, by the table of R82. -/
theorem Total.clearBy_table (latched held : Total) :
    let d := held.value - latched.value
    let r := latched.clearBy held
    (latched.overflow = true → r = ⟨0, 0, false⟩) ∧
    (latched.overflow = false →
      (-(10 ^ 28 - 1) ≤ d → d ≤ 10 ^ 28 - 1 → r.value = d) ∧
      (10 ^ 28 - 1 < d → r.value = 10 ^ 28 - 1) ∧
      (d < -(10 ^ 28 - 1) → r.value = -(10 ^ 28 - 1)) ∧
      (latched.count ≤ held.count → r.count = held.count - latched.count) ∧
      (held.count < latched.count → r.count = 0) ∧
      (r.overflow = true ↔ held.overflow = true ∨ 10 ^ 28 - 1 < d ∨ d < -(10 ^ 28 - 1) ∨
        held.count < latched.count)) := by
  intro d r
  refine ⟨fun h => if_pos h, fun h => ?_⟩
  have hr : r = _ := Total.clearBy_of_clear held h
  obtain ⟨inside, above, below, saturates⟩ := clampTotal_table d
  rw [hr]
  refine ⟨inside, above, below, fun _ => rfl, fun hc => Nat.sub_eq_zero_of_le hc.le, ?_⟩
  rw [Bool.or_eq_true, Bool.or_eq_true, decide_eq_true_iff, saturates]
  tauto

end Sys2Proof.Machine
end

section
/-! The claims that end a housekeeping order on its range of accumulators, APPLY and CLEAR, and the records that a
PRESET reads before (R82, R84, R85, R125, R126, R130, R132, R160). -/

namespace Sys2Proof.Machine

/-! ## Ranges of accumulators -/

theorem mapRange_of_inside {body : List Byte} (f : Fin 64 → Total) (accums : Vector Total 64) {i : Fin 64}
    (h1 : firstAccum body ≤ i.val) (h2 : i.val ≤ lastAccum body) : (mapRange body f accums)[i] = f i := by
  simp [mapRange, inRange, h1, h2]

theorem mapRange_of_outside {body : List Byte} (f : Fin 64 → Total) (accums : Vector Total 64) {i : Fin 64}
    (h : i.val < firstAccum body ∨ lastAccum body < i.val) : (mapRange body f accums)[i] = accums[i] := by
  have out : inRange body i.val = false := by simpa [inRange, imp_iff_not_or] using h
  simp [mapRange, out]

/-! ## CLEAR -/

theorem exec_clear {s : State} {n : LaneId} {e : Entry} (hw : (s.lane n).work = .clearClaim)
    (he : s.laneEntry n = some e) :
    exec (.clear n) s = .next ((s.setAccums (clearBuffer e.body (s.lane n).buffer s.accums)).finishLast n) := by
  show execClear n s = _
  simp only [execClear, hw, he]

/-- Settles O50: the range by `mapRange`, each accumulator in it by `Total.clearBy_table`. -/
theorem clearSubtractsTheLatchedAmounts : Obligations.ClearSubtractsTheLatchedAmounts := by
  intro s n slot e ho he hw
  have hlane : s.laneEntry n = some e := State.laneEntry_of_order ho he
  set accums := clearBuffer e.body (s.lane n).buffer s.accums
  have outside (i : Fin 64) (hi : i.val < firstAccum e.body ∨ lastAccum e.body < i.val) : accums[i] = s.accums[i] :=
    mapRange_of_outside _ s.accums hi
  have cleared (i : Fin 64) (h1 : firstAccum e.body ≤ i.val) (h2 : i.val ≤ lastAccum e.body) :
      accums[i] = (s.lane n).buffer.entries[i].clearBy s.accums[i] := mapRange_of_inside _ s.accums h1 h2
  obtain ⟨h, ended, hh, -⟩ := (s.setAccums accums).ended_finishLast n e ((s.laneEntry_setAccums _ n).trans hlane)
  rw [State.lane_setAccums] at hh
  subst hh
  obtain ⟨alone, overflow⟩ := housekeepingIndicators_table e.header.kind
    ((s.lane n).buffer.entries.toList.any (fun t => t.overflow))
  refine ⟨_, _, accums, exec_clear hw hlane, ended, State.slot_of_entry he, rfl, rfl, rfl, rfl, rfl, rfl, rfl, alone,
    overflow.trans (and_congr_right' (any_overflow_iff _)), outside, fun i h1 h2 => ?_⟩
  rw [cleared i h1 h2]
  exact Total.clearBy_table _ _

/-! ## PRESET -/

/-- A record with a value and its accumulator's number is well formed (R84). -/
theorem recordTotal_of_good {i : Nat} {bytes : List Byte} {v : Int} (hv : signedField 28 bytes 8 15 = some v)
    (hi : (byteAt bytes 0).toNat = i) :
    recordTotal i bytes = some ⟨v, leField bytes 4 4, (byteAt bytes 1).getLsbD 0⟩ := by
  simp only [recordTotal, hv, if_pos hi]

theorem recordTotal_of_bad {i : Nat} {bytes : List Byte}
    (h : signedField 28 bytes 8 15 = none ∨ (byteAt bytes 0).toNat ≠ i) : recordTotal i bytes = none := by
  unfold recordTotal
  split
  · rfl
  next v hv => exact if_neg (h.resolve_left (by simp [hv]))

theorem exec_presetRecordReadDone {s : State} {n : LaneId} {e : Entry} (host : HostWrites)
    (hw : (s.lane n).work = .recordRead) (he : s.laneEntry n = some e) :
    exec (.presetRecordReadDone n host) s = .next ((s.afterHost host).takePresetRecord n e) := by
  show execPresetRecordReadDone n host s = _
  simp only [execPresetRecordReadDone, hw, he]

theorem exec_apply {s : State} {n : LaneId} {e : Entry} (hw : (s.lane n).work = .applyClaim)
    (he : s.laneEntry n = some e) :
    exec (.apply n) s = .next ((s.setAccums (applyBuffer e.body (s.lane n).buffer s.accums)).finishLast n) := by
  show execApply n s = _
  simp only [execApply, hw, he]

/-- The bytes of the record that a PRESET reads next (R84, R156). -/
def State.presetRecord (s : State) (n : LaneId) (e : Entry) : List Byte :=
  s.mem.readBytes (dataAddr e.body + 24 * (s.lane n).steps) 24

/-- A lane with a record in its buffer entry and the step of its read finished (R84). -/
def Lane.preset (l : Lane) (body : List Byte) (t : Total) : Lane :=
  { l.bufferRecord body (firstAccum body + l.steps) t with steps := l.steps + 1 }

theorem Lane.preset_buffer_self (l : Lane) (body : List Byte) (t : Total) {k : Fin 64}
    (hk : k.val = firstAccum body + l.steps) : (l.preset body t).buffer.entries[k] = t := by
  simp [Lane.preset, Lane.bufferRecord, ← hk]

theorem Lane.preset_buffer_ne (l : Lane) (body : List Byte) (t : Total) {k : Fin 64}
    (h : firstAccum body + l.steps ≤ 63) (hk : k.val ≠ firstAccum body + l.steps) :
    (l.preset body t).buffer.entries[k] = l.buffer.entries[k] := by
  refine vector_get_set_ne _ (Fin.ofNat 64 (firstAccum body + l.steps)) k t ?_
  simp only [Fin.val_ofNat]
  omega

section
variable {s : State} {n : LaneId} {e : Entry}

theorem State.takePresetRecord_of_good {t : Total}
    (h : recordTotal (firstAccum e.body + (s.lane n).steps) (s.presetRecord n e) = some t) :
    s.takePresetRecord n e = (s.setLane n
      ((s.lane n).bufferRecord e.body (firstAccum e.body + (s.lane n).steps) t)).finishStep n e := by
  unfold State.presetRecord at h
  simp only [State.takePresetRecord, h]

theorem State.takePresetRecord_of_bad
    (h : recordTotal (firstAccum e.body + (s.lane n).steps) (s.presetRecord n e) = none) :
    s.takePresetRecord n e = s.endPlain n .failed .recordMalformed := by
  unfold State.presetRecord at h
  simp only [State.takePresetRecord, h]

theorem State.nextHousekeepingStep_preset (hk : e.header.kind = .preset) :
    s.nextHousekeepingStep n e =
      s.setWork n (if (s.lane n).steps < rangeSize e.body then .recordRead else .applyClaim) := by
  simp only [State.nextHousekeepingStep, hk]
  split <;> rfl

/-- Outside PAUSING and PAUSED a buffered record is followed by the next read, and the last by the apply claim
(R130). -/
theorem State.takePresetRecord_running {t : Total} (hk : e.header.kind = .preset)
    (hf : ¬(s.engine.state = .pausing ∨ s.engine.state = .paused))
    (horder : firstAccum e.body ≤ lastAccum e.body)
    (h : recordTotal (firstAccum e.body + (s.lane n).steps) (s.presetRecord n e) = some t) :
    s.takePresetRecord n e = s.setLane n { (s.lane n).preset e.body t with
      work := if firstAccum e.body + (s.lane n).steps < lastAccum e.body then .recordRead else .applyClaim } := by
  have more : (s.lane n).steps + 1 < rangeSize e.body ↔
      firstAccum e.body + (s.lane n).steps < lastAccum e.body := by
    unfold rangeSize
    omega
  rw [State.takePresetRecord_of_good h, State.finishStep_of_not_paused n e (by simpa using hf), State.lane_setLane,
    State.setLane_setLane, State.nextHousekeepingStep_preset hk, State.setWork, State.lane_setLane,
    State.setLane_setLane]
  simp only [← more]
  rfl

/-- In PAUSING and PAUSED the lane freezes after every record, the last one too (R125, log 12). -/
theorem State.takePresetRecord_paused {t : Total} (hk : e.header.kind = .preset)
    (hf : s.engine.state = .pausing ∨ s.engine.state = .paused)
    (h : recordTotal (firstAccum e.body + (s.lane n).steps) (s.presetRecord n e) = some t) :
    s.FrozenAt (s.takePresetRecord n e) n ((s.lane n).preset e.body t) := by
  have frozen := State.finishStep_frozen s (s.setLane n
    ((s.lane n).bufferRecord e.body (firstAccum e.body + (s.lane n).steps) t)) n e hf (by simp) (by simp) (by simp)
    (by simp) (by simp) (by simp) (by simp) (by simp) (s.kept_setLane _ _) (lastStep_other e _ (by simp [hk]))
  rw [State.lane_setLane] at frozen
  rw [State.takePresetRecord_of_good h]
  exact frozen

end

/-- Settles O48: a record by `recordTotal`, the step after it by what is left, the range by `mapRange`. -/
theorem presetBuffersThenApplies : Obligations.PresetBuffersThenApplies := by
  intro s n slot e ho he hk paused first last horder hbound
  have hlane : s.laneEntry n = some e := State.laneEntry_of_order ho he
  have hsnap : e.header.kind ≠ .snapshot := by simp [hk]
  refine ⟨fun host hw => ?read, fun hw => ?apply⟩
  case read =>
    intro i bytes
    set u := s.afterHost host with hu
    have ulane : u.lane n = s.lane n := s.lane_afterHost host n
    have run : exec (.presetRecordReadDone n host) s = .next (u.takePresetRecord n e) :=
      exec_presetRecordReadDone host hw hlane
    have record : u.presetRecord n e = bytes := by
      unfold State.presetRecord
      rw [ulane]
      rfl
    refine ⟨fun v hi hv hnumber => ?good, fun hbad => ?bad⟩
    case good =>
      have read : recordTotal (firstAccum e.body + (u.lane n).steps) (u.presetRecord n e) =
          some ⟨v, leField bytes 4 4, (byteAt bytes 1).getLsbD 0⟩ := by
        rw [ulane, record]
        exact recordTotal_of_good hv hnumber
      have running := fun hf => State.takePresetRecord_running (s := u) hk hf horder read
      have frozen := fun hf => State.takePresetRecord_paused (s := u) hk hf read
      rw [ulane] at running frozen
      exact ⟨_, fun hf => run.trans (congrArg _ (running hf)), fun hf => ⟨_, run, frozen hf⟩, rfl, rfl,
        fun k => Lane.preset_buffer_self _ _ _, fun k => Lane.preset_buffer_ne _ _ _ (hi.trans hbound)⟩
    case bad =>
      have read : recordTotal (firstAccum e.body + (u.lane n).steps) (u.presetRecord n e) = none := by
        rw [ulane, record]
        exact recordTotal_of_bad hbad
      rw [State.takePresetRecord_of_bad read] at run
      obtain ⟨ended, -, -⟩ := State.ended_endPlain_clear (s := u) .failed .recordMalformed hlane hsnap
      exact ⟨_, _, run, ended, State.slot_of_entry he, rfl, rfl, rfl, rfl, rfl, rfl, rfl, rfl⟩
  case apply =>
    set accums := applyBuffer e.body (s.lane n).buffer s.accums
    have outside (i : Fin 64) (hi : i.val < first ∨ last < i.val) : accums[i] = s.accums[i] :=
      mapRange_of_outside _ s.accums hi
    have applied (i : Fin 64) (h1 : first ≤ i.val) (h2 : i.val ≤ last) :
        accums[i] = (s.lane n).buffer.entries[i] := mapRange_of_inside _ s.accums h1 h2
    obtain ⟨_, ended, rfl, -⟩ := (s.setAccums accums).ended_finishLast n e
      ((s.laneEntry_setAccums _ n).trans hlane)
    exact ⟨_, _, accums, exec_apply hw hlane, ended, State.slot_of_entry he, rfl, rfl, rfl,
      housekeeping_clear _ _ hsnap, rfl, rfl, rfl, rfl, applied, outside⟩

end Sys2Proof.Machine
end

section
/-! A WINDOW_DATA_READ, region by region of the window map (R88, R185, R201, R203, R204, R205). -/

namespace Sys2Proof.Machine

/-! ## The words shown -/

/-- A value word of an accumulator shows digits and sign (R203). -/
theorem decimalShown_totalWord (t : Total) {k : Nat} (hk : k < 4) : decimalShown 28 t.value k (totalWord t k) := by
  intro j hj place
  have word : totalWord t k = decimalWord (packSigned 28 t.value) k := if_pos hk
  rw [word, decimalWord_nibble _ _ _ hj]
  exact packSigned_nibble 28 t.value place

/-- The nibbles of a band's bounds, the low bound's words first (R203, log 34). -/
theorem bandWord_nibbles (b : Band) {k j : Nat} (hk : k < 4) (hj : j < 8) :
    (bandWord b k).toNat / 16 ^ j % 16 = b.low.toNat / 16 ^ (8 * (3 - k) + j) % 16 ∧
      (bandWord b (k + 4)).toNat / 16 ^ j % 16 = b.high.toNat / 16 ^ (8 * (3 - k) + j) % 16 := by
  have low : bandWord b k = decimalWord b.low.toNat k := if_pos hk
  have high : bandWord b (k + 4) = decimalWord b.high.toNat k := by
    unfold bandWord
    rw [if_neg (by omega), if_pos (by omega), Nat.add_sub_cancel]
  rw [low, high]
  exact ⟨decimalWord_nibble _ _ _ hj, decimalWord_nibble _ _ _ hj⟩

theorem setHeaderWord_toNat (x : BandSet) : (setHeaderWord x).toNat = x.count.toNat + 256 * x.state.code := by
  have count : x.count.toNat < 256 := x.count.isLt
  have state : x.state.code ≤ 2 := by cases x.state <;> decide
  unfold setHeaderWord
  rw [BitVec.toNat_ofNat]
  omega

theorem entryShown (e : Entry) (k : Nat) : e.Shown k (entryWord e k) where
  slot := by rintro rfl; rfl
  flags := by rintro rfl; rfl
  seq := by rintro rfl; rfl
  capacity := by rintro rfl; rfl

theorem faultShown (f : FaultRecord) (k : Nat) : f.Shown k (faultWord f k) where
  address := by rintro rfl; rfl
  kind := by rintro rfl; rfl
  slot := by rintro rfl; rfl
  state := by rintro rfl; rfl

/-! ## The fetch by the target of the window address -/

section
variable {s : State}

theorem State.fetchWord_accum {i : Fin 64} {k : Nat} (h : windowTarget s.window.addr.toNat = .accum i k) :
    s.fetchWord =
      { s.window with accumLatch := s.latchAccum i k, buffer := totalWord (s.latchAccum i k).total k } := by
  simp only [State.fetchWord, h]

theorem State.fetchWord_setHeader {i : Fin 8} (h : windowTarget s.window.addr.toNat = .setHeader i) :
    s.fetchWord = { s.window with buffer := setHeaderWord s.bandSets[i] } := by
  simp only [State.fetchWord, h]

theorem State.fetchWord_band {i b : Fin 8} {k : Nat} (h : windowTarget s.window.addr.toNat = .band i b k) :
    s.fetchWord =
      { s.window with bandLatch := s.latchBand i b k, buffer := bandWord (s.latchBand i b k).band k } := by
  simp only [State.fetchWord, h]

theorem State.fetchWord_setPad {i : Fin 8} (h : windowTarget s.window.addr.toNat = .setPad i) :
    s.fetchWord = { s.window with buffer := 0 } := by
  simp only [State.fetchWord, h]

theorem State.fetchWord_entry {p k : Nat} (h : windowTarget s.window.addr.toNat = .entry p k) :
    s.fetchWord = { s.window with buffer := (s.table[p]?.map (entryWord · k)).getD 0 } := by
  simp only [State.fetchWord, h]
  cases s.table[p]? <;> rfl

theorem State.fetchWord_lane {n : LaneId} {k : Nat} (h : windowTarget s.window.addr.toNat = .lane n k) :
    s.fetchWord = { s.window with buffer := s.laneWord n k } := by
  simp only [State.fetchWord, h]

theorem State.fetchWord_bank {b : Fin 4} {k : Nat} (h : windowTarget s.window.addr.toNat = .bank b k) :
    s.fetchWord = { s.window with buffer := s.bankWord b k } := by
  simp only [State.fetchWord, h]

theorem State.fetchWord_fault {k : Nat} (h : windowTarget s.window.addr.toNat = .fault k) :
    s.fetchWord = { s.window with buffer := faultWord s.engine.fault k } := by
  simp only [State.fetchWord, h]

theorem State.fetchWord_unmapped (h : windowTarget s.window.addr.toNat = .unmapped) :
    s.fetchWord = { s.window with buffer := 0 } := by
  simp only [State.fetchWord, h]

end

/-! ## The latches -/

theorem State.latchAccum_refilled {s : State} {i : Fin 64} {k : Nat}
    (h : k = 0 ∨ s.window.accumLatch.holds ≠ some i) : s.latchAccum i k = ⟨some i, s.accums[i]⟩ := if_pos h

theorem State.latchAccum_stands {s : State} {i : Fin 64} {k : Nat} (hk : k ≠ 0)
    (h : s.window.accumLatch.holds = some i) : s.latchAccum i k = s.window.accumLatch :=
  if_neg (not_or.2 ⟨hk, not_not.2 h⟩)

theorem State.latchBand_refilled {s : State} {i b : Fin 8} {k : Nat}
    (h : k = 0 ∨ s.window.bandLatch.holds ≠ some (i, b)) :
    s.latchBand i b k = ⟨some (i, b), s.bandSets[i].bands[b]⟩ := if_pos h

theorem State.latchBand_stands {s : State} {i b : Fin 8} {k : Nat} (hk : k ≠ 0)
    (h : s.window.bandLatch.holds = some (i, b)) : s.latchBand i b k = s.window.bandLatch :=
  if_neg (not_or.2 ⟨hk, not_not.2 h⟩)

/-- Below 180h a window address points at an accumulator (R203). -/
theorem windowTarget_low {a : Nat} (h : a < 0x180) : ∃ i k, windowTarget a = .accum i k := ⟨_, _, if_pos h⟩

/-- From 180h up to 400h a window address points at a word of a band set (R203). -/
theorem windowTarget_middle {a : Nat} (h : 0x180 ≤ a) (h' : a < 0x400) : ∃ i k, windowTarget a = setTarget i k :=
  ⟨_, _, (if_neg (Nat.not_lt.2 h)).trans (if_pos h')⟩

theorem State.fetchWord_latches_of_view {s : State} (h : 0x400 ≤ s.window.addr.toNat) :
    s.fetchWord.accumLatch = s.window.accumLatch ∧ s.fetchWord.bandLatch = s.window.bandLatch := by
  rcases windowTarget_view h with ⟨_, _, ht⟩ | ⟨_, _, ht⟩ | ⟨_, _, ht⟩ | ⟨_, ht⟩ | ht
  · simp only [State.fetchWord_entry ht, and_self]
  · simp only [State.fetchWord_lane ht, and_self]
  · simp only [State.fetchWord_bank ht, and_self]
  · simp only [State.fetchWord_fault ht, and_self]
  · simp only [State.fetchWord_unmapped ht, and_self]

/-- Only a word of an accumulator touches the accumulator latch (R88). -/
theorem State.fetchWord_accumLatch {s : State} (h : 0x180 ≤ s.window.addr.toNat) :
    s.fetchWord.accumLatch = s.window.accumLatch := by
  rcases Nat.lt_or_ge s.window.addr.toNat 0x400 with h' | h'
  · obtain ⟨i, k, ht⟩ := windowTarget_middle h h'
    rcases setTarget_cases i k with hs | ⟨b, j, hs⟩ | hs
    · rw [State.fetchWord_setHeader (ht.trans hs)]
    · rw [State.fetchWord_band (ht.trans hs)]
    · rw [State.fetchWord_setPad (ht.trans hs)]
  · exact (State.fetchWord_latches_of_view h').1

/-- Only a word of a band touches the band latch (R204). -/
theorem State.fetchWord_bandLatch {s : State} (h : s.window.addr.toNat < 0x180 ∨ 0x400 ≤ s.window.addr.toNat) :
    s.fetchWord.bandLatch = s.window.bandLatch := by
  rcases h with h | h
  · obtain ⟨i, k, ht⟩ := windowTarget_low h
    rw [State.fetchWord_accum ht]
  · exact (State.fetchWord_latches_of_view h).2

/-- Settles O17: each region of the map by its target, the latches by what refills them, the views by their laws. -/
theorem windowDataReadIsOneBehind : Obligations.WindowDataReadIsOneBehind := by
  refine ⟨fun s => ⟨s.fetchWord.advance, rfl, ?fetch⟩, fun t k => ⟨decimalShown_totalWord t, ?count, ?flag⟩,
    fun b k => ⟨fun j => bandWord_nibbles b, ?last⟩, rfl, rfl, rfl, rfl, rfl, rfl, rfl, rfl⟩
  case count => rintro rfl; rfl
  case flag => rintro rfl; rfl
  case last => rintro rfl; rfl
  case fetch =>
    simp only [WindowPort.advance_fields]
    refine ⟨fun i k hk ha => ?accum, fun i ha => ?header, fun i b k hk ha => ?band, fun i k h73 hk ha => ?pad,
      fun p k hp hk ha => ?entry, fun n k hk ha => ?lane, fun b k hk ha => ?bank, fun k hk ha => ?fault,
      fun ha => ?unmapped, State.fetchWord_accumLatch, State.fetchWord_bandLatch⟩
    case accum =>
      have ht : windowTarget s.window.addr.toNat = .accum i k := ha ▸ windowTarget_accum i k hk
      rw [State.fetchWord_accum ht]
      exact ⟨fun h => by rw [State.latchAccum_refilled h]; exact ⟨rfl, rfl⟩,
        fun h0 h => by rw [State.latchAccum_stands h0 h]; exact ⟨rfl, rfl⟩⟩
    case header =>
      have ht : windowTarget s.window.addr.toNat = .setHeader i := ha ▸ windowTarget_header i
      rw [State.fetchWord_setHeader ht]
      exact ⟨setHeaderWord_toNat _, rfl⟩
    case band =>
      have ht : windowTarget s.window.addr.toNat = .band i b k := ha ▸ windowTarget_band i b k hk
      rw [State.fetchWord_band ht]
      exact ⟨fun h => by rw [State.latchBand_refilled h]; exact ⟨rfl, rfl⟩,
        fun h0 h => by rw [State.latchBand_stands h0 h]; exact ⟨rfl, rfl⟩⟩
    case pad =>
      have ht : windowTarget s.window.addr.toNat = .setPad i := ha ▸ windowTarget_pad i k h73 hk
      rw [State.fetchWord_setPad ht]
      exact ⟨rfl, rfl⟩
    case entry =>
      have ht : windowTarget s.window.addr.toNat = .entry p k := ha ▸ windowTarget_entry p k hp hk
      rw [State.fetchWord_entry ht]
      refine ⟨fun e he => ?_, fun h => ?_⟩
      · rw [he]
        exact entryShown e k
      · rw [List.getElem?_eq_none h]
        rfl
    case lane =>
      have ht : windowTarget s.window.addr.toNat = .lane n k := ha ▸ target_lane n k hk
      rw [State.fetchWord_lane ht]
      exact laneShown s n k
    case bank =>
      have ht : windowTarget s.window.addr.toNat = .bank b k := ha ▸ target_bank b k hk
      rw [State.fetchWord_bank ht]
      exact bankShown s b k
    case fault =>
      have ht : windowTarget s.window.addr.toNat = .fault k := ha ▸ target_fault k hk
      rw [State.fetchWord_fault ht]
      exact faultShown s.engine.fault k
    case unmapped => rw [State.fetchWord_unmapped (windowTarget_unmapped _ ha)]

end Sys2Proof.Machine
end

section
/-! The value that a DIFFERENCE cell forms, and the relations of COMPARE (R102, R109). -/

namespace Sys2Proof.Machine

/-! ## The DIFFERENCE value -/

theorem formDifference_of_le {m limit : Nat} {a b : Int} (h : b ≤ a) :
    formDifference m limit a b = (a - b, none) := if_pos h

theorem formDifference_rollover {m limit : Nat} {a b : Int} (h : a < b)
    (hw : 1 ≤ m ∧ 1 ≤ a + 10 ^ m - b ∧ a + 10 ^ m - b ≤ limit) :
    formDifference m limit a b = (a + 10 ^ m - b, some ⟨.rollover, 0, a + 10 ^ m - b⟩) :=
  (if_neg h.not_ge).trans (if_pos hw)

/-- The two REVERSAL rows of the table, which share their outcome. -/
theorem formDifference_reversal {m limit : Nat} {a b : Int} (h : a < b)
    (hw : ¬ (1 ≤ m ∧ 1 ≤ a + 10 ^ m - b ∧ a + 10 ^ m - b ≤ limit)) :
    formDifference m limit a b = (a - b, some ⟨.reversal, 0, a - b⟩) :=
  (if_neg h.not_ge).trans (if_neg hw)

/-! ## The relations -/

theorem relationHolds_table (a b : Int) :
    (relationHolds 0 a b = true ↔ a = b) ∧ (relationHolds 1 a b = true ↔ a ≠ b) ∧
    (relationHolds 2 a b = true ↔ b < a) ∧ (relationHolds 3 a b = true ↔ b ≤ a) ∧
    (relationHolds 4 a b = true ↔ a < b) ∧ (relationHolds 5 a b = true ↔ a ≤ b) :=
  ⟨decide_eq_true_iff, decide_eq_true_iff, decide_eq_true_iff, decide_eq_true_iff, decide_eq_true_iff,
    decide_eq_true_iff⟩

/-- Settles O53: the DIFFERENCE value row by row of its table, the relations by `relationHolds_table`. -/
theorem differenceAndRelationsFollowTheTables : Obligations.DifferenceAndRelationsFollowTheTables := by
  refine ⟨?_, relationHolds_table⟩
  intro m limit a b w
  refine ⟨formDifference_of_le, ?rollover, ?noDigits, ?outOfRange⟩
  case rollover => exact fun h hm low high => formDifference_rollover h ⟨hm, low, high⟩
  case noDigits => exact fun h hm => formDifference_reversal h fun ⟨one, _⟩ => by omega
  case outOfRange =>
    intro h _ hw
    refine formDifference_reversal h fun ⟨_, low, high⟩ => ?_
    rcases hw with below | above
    · exact below.not_gt low
    · exact above.not_ge high

end Sys2Proof.Machine
end

section
/-! The Order Table stays sound at every step (R138, R142, R157). -/

namespace Sys2Proof.Machine

/-! ## Changes that bring no slot in -/

/-- A change that brings no slot into the Order Table and has no slot taken that was not being taken (R142, R144). -/
structure State.TableOnlyLoses (s t : State) : Prop where
  slots : (t.table.map (fun e => e.slot)).Sublist (s.table.map (fun e => e.slot))
  step : ∀ k, t.slate.step.mayEnter = some k → s.slate.step.mayEnter = some k

namespace State.TableOnlyLoses

theorem of_kept {s t : State} (h : State.TableKept s t) : s.TableOnlyLoses t :=
  ⟨by rw [h.slots], h.step⟩

theorem refl (s : State) : s.TableOnlyLoses s := of_kept (.refl s)

theorem trans {s t u : State} (h : s.TableOnlyLoses t) (k : t.TableOnlyLoses u) : s.TableOnlyLoses u :=
  ⟨k.slots.trans h.slots, fun x hx => h.step x (k.step x hx)⟩

theorem of_eq {s t : State} (htable : t.table = s.table) (hstep : t.slate.step = s.slate.step) :
    s.TableOnlyLoses t :=
  ⟨by rw [htable], fun k hk => by rwa [hstep] at hk⟩

/-- A reset empties the table and takes no slot (R194, R195). -/
theorem of_empty {s t : State} (htable : t.table = []) (hstep : t.slate.step = .idle) : s.TableOnlyLoses t :=
  ⟨by rw [htable]; exact List.nil_sublist _, fun k hk => by rw [hstep] at hk; cases hk⟩

/-- The Slate Reader comes to a step that takes no slot. -/
theorem setSlate (s : State) {x : SlateReader} (h : x.step.mayEnter = none) : s.TableOnlyLoses (s.setSlate x) :=
  of_kept (.setSlate x fun k hk => by rw [h] at hk; cases hk)

theorem removeEntry (s : State) (slot : Nat) : s.TableOnlyLoses (s.removeEntry slot) :=
  ⟨List.filter_sublist.map _, fun _ hk => hk⟩

/-! ## The operations beyond `State.TableKept` -/

theorem beginStart (s : State) : s.TableOnlyLoses s.beginStart := by
  unfold State.beginStart
  dsimp only
  split
  all_goals exact of_eq rfl rfl

theorem takeAnchor (s : State) : s.TableOnlyLoses s.takeAnchor := by
  unfold State.takeAnchor
  split
  all_goals exact of_eq rfl rfl

theorem completeStart (s : State) : s.TableOnlyLoses s.completeStart :=
  ⟨List.Sublist.refl _, fun _ hk => nomatch hk⟩

theorem beginPause (s : State) : s.TableOnlyLoses s.beginPause := by
  have paused : s.TableOnlyLoses
      ((s.setSlate { s.slate with ending := s.slate.sweeping }).setEngineState .pausing) := of_eq rfl rfl
  exact paused.trans (of_kept (.settlePause _))

theorem controlWrite (s : State) (enable pause : Bool) (irq : StickyBits) :
    s.TableOnlyLoses (s.controlWrite enable pause irq) := by
  have stored : s.TableOnlyLoses (s.storeIrq irq) := of_eq rfl rfl
  refine stored.trans ?_
  unfold State.controlWrite
  generalize s.storeIrq irq = t
  have fields : t.TableOnlyLoses (t.controlFields enable pause) := by
    unfold State.controlFields
    split
    case h_1 => exact beginStart t
    case h_2 => exact of_eq rfl rfl
    case h_3 => exact beginPause t
    case h_5 | h_7 => exact of_kept (.releasePause t)
    case h_4 | h_6 | h_8 => exact of_kept (.beginStop t)
    case h_9 => exact refl t
  exact fields.trans (of_eq rfl rfl)

/-- The slot whose body was read is the slot whose TAKEN write is issued (R143, R144). -/
theorem meetBody {s : State} {slot : Nat} {header : List Byte} (hs : s.slate.step = .bodyRead slot header)
    (body : List Byte) : s.TableOnlyLoses (s.meetBody slot header body) := by
  unfold State.meetBody
  split
  · exact of_kept (.failAtTake s slot header _)
  · split
    · exact of_kept (.failAtTake s slot header _)
    · exact of_kept (.setSlate _ fun k hk => by rw [hs]; exact hk)

theorem leaveSlot (s : State) (h : HandOver) : s.TableOnlyLoses (s.leaveSlot h) := by
  have lane (t : State) (n : LaneId) : t.TableOnlyLoses (t.clearLaneOf h.slot n) := by
    unfold State.clearLaneOf
    split
    · exact of_kept (.setLane t n _)
    · exact refl t
  have bank (t : State) : t.TableOnlyLoses (t.clearBankOf h.slot) := by
    obtain ⟨-, table, slate, -⟩ := State.clearBankOf_fields t h.slot
    exact of_eq table (by rw [slate])
  unfold State.leaveSlot
  split
  · split
    · exact of_kept (.advanceSweep s _)
    all_goals exact refl s
  · exact (((lane s .lane0).trans (lane _ .lane1)).trans (bank _)).trans (removeEntry _ _)

/-! ## The commands -/

/-- Every command but a header read answered and a take brings no slot in. -/
theorem exec {s t : State} {c : Instr} (he : exec c s = .next t) (hheader : ∀ host, c ≠ .headerReadDone host)
    (htake : c ≠ .take) : s.TableOnlyLoses t := by
  cases c
  case headerReadDone host => exact absurd rfl (hheader host)
  case take => exact absurd rfl htake
  all_goals obtain rfl := Host.Outcome.next.inj he
  case powerOnReset | softReset => exact of_empty rfl rfl
  case enable | engineStop | pause | pauseRelease => exact controlWrite s _ _ _
  case irqEnableWrite | statusClear | windowAddrWrite | windowDataRead | ack | registerWriteOther => exact of_eq rfl rfl
  case anchorWrite =>
    split
    all_goals exact of_eq rfl rfl
  case nudge => exact of_kept (.requestSweep s)
  case cancel => exact of_kept (.cancelSlot s _)
  case windowDataWrite w => exact (of_kept (.writeWindow s w)).trans (of_eq rfl rfl)
  case sweepTimerExpiry =>
    split
    · have reset : s.TableOnlyLoses (s.setSlate { s.slate with timer := 0 }) := of_eq rfl rfl
      exact reset.trans (of_kept (.requestSweep _))
    · exact refl s
  case anchorReadDone | completionWordReadDone =>
    repeat' split
    all_goals first
      | exact of_eq rfl rfl
      | exact (of_kept (.afterHost s _)).trans (takeAnchor _)
      | exact (of_kept (.afterHost s _)).trans (completeStart _)
  case bodyReadDone =>
    split
    case h_1 => exact of_kept (.failAtTake s _ _ _)
    case h_2 slot header host hs =>
      exact (of_kept (.afterHost s host)).trans (meetBody (s := s.afterHost host) hs _)
    all_goals exact refl s
  case handBack =>
    split
    · have marked (e : Entry) : s.TableOnlyLoses (s.updEntry e.slot fun x => { x with handBack := true }) :=
        of_kept (.updEntry s _ _ (fun _ => rfl) (fun _ hp => hp))
      exact (marked _).trans (setSlate _ rfl)
    · exact refl s
  case handBackWriteAccept =>
    split
    · exact (((of_kept (.setMem s _)).trans (removeEntry _ _)).trans (setSlate _ rfl)).trans
        (of_kept (.settleStop _))
    all_goals exact refl s
  case completion | resultAreaWriteAccept =>
    split
    all_goals exact of_eq rfl rfl
  case stateWriteAccept =>
    split
    case h_1 h _ =>
      have left := (of_kept (.setMem s (s.mem.land s.writerWrite))).trans (leaveSlot _ h)
      have counted (w : CompletionWriter) :
          s.TableOnlyLoses (((s.setMem (s.mem.land s.writerWrite)).leaveSlot h).setWriter w) :=
        left.trans (of_eq rfl rfl)
      exact (counted _).trans (of_kept (.settlePause _))
    all_goals exact refl s
  case completionWordWriteAccept =>
    split
    case h_1 h _ =>
      have counted (w : CompletionWriter) :
          s.TableOnlyLoses ((s.setMem (s.mem.land s.writerWrite)).setWriter w) := of_eq rfl rfl
      exact (counted _).trans (of_kept (.settleStop _))
    all_goals exact refl s
  case startEvent =>
    repeat' split
    · exact of_kept (.resume s _ _)
    · exact of_kept (.firstStart s _ _)
    · exact refl s
  case progressRunningAccept n =>
    repeat' split
    · exact refl s
    · exact of_kept ((State.TableKept.setMem s _).trans (.beginCell _ n))
    · exact of_kept ((State.TableKept.setMem s _).trans (.firstAccess _ n _))
    · exact refl s
  case startClaim n =>
    repeat' split
    · exact of_kept (.startClaim s n _ _)
    all_goals exact refl s
  case startTest n =>
    repeat' split
    · exact of_kept (.endPlain s n _ _)
    · exact of_kept (.finishStep s n _)
    · exact refl s
  case imageReadDone n bytes host =>
    split
    · exact of_kept ((State.TableKept.afterHost s host).trans (.takeImage _ n _ _))
    · exact refl s
  case loadClaim n =>
    repeat' split
    · exact of_kept (.endPlain s n _ _)
    · exact of_kept ((State.TableKept.setBandSet s _ _ fun _ _ => rfl).trans (.finishLast _ n))
    · exact refl s
  case presetRecordReadDone n host =>
    split
    · exact of_kept ((State.TableKept.afterHost s host).trans (.takePresetRecord _ n _))
    · exact refl s
  case apply n | clear n =>
    split
    · exact of_kept ((State.TableKept.setAccums s _).trans (.finishLast _ n))
    · exact refl s
  case latch n =>
    split
    · exact of_kept ((State.TableKept.setLane s n _).trans (.finishStep _ n _))
    · exact refl s
  case snapshotRecordWriteAccept n =>
    repeat' split
    · exact refl s
    · exact of_kept ((State.TableKept.setMem s _).trans (.finishStep _ n _))
    · exact refl s
  case markReadDone n host =>
    split
    · exact of_kept ((State.TableKept.afterHost s host).trans (.setLane _ n _))
    · exact refl s
  case sourceReadDone n host =>
    split
    · exact of_kept ((State.TableKept.afterHost s host).trans (.takeSourceA _ n _ _))
    · exact of_kept ((State.TableKept.afterHost s host).trans (.workOperands _ n _ _ _ _))
    · exact refl s
  case destinationReadDone n host =>
    repeat' split
    · exact refl s
    · exact of_kept ((State.TableKept.afterHost s host).trans (.takeDestination _ n _ _))
    · exact refl s
  case destinationWriteAccept n | exceptionRecordWriteAccept n =>
    repeat' split
    · exact refl s
    · exact of_kept ((State.TableKept.setMem s _).trans (.setLane _ n _))
    · exact refl s
  case cellBoundary n =>
    split
    · exact of_kept (.passBoundary s n _ _ _)
    · exact refl s
  case commit n =>
    repeat' split
    · exact of_kept (.commitLane s n _ _ _)
    all_goals exact refl s
  case parkRequest =>
    repeat' split
    · exact of_kept (.requestPark s _ _)
    all_goals exact refl s
  case parkWithdraw =>
    repeat' split
    · exact of_kept (.withdrawPark s _)
    all_goals exact refl s
  case parkComplete n =>
    repeat' split
    · exact refl s
    · exact of_kept ((((State.TableKept.setMem s _).trans (.finishPark _ n _ _ _)).trans (.afterPark _ _)).trans
        (.settlePause _))
    · exact refl s
  case timeLimit n =>
    split
    · exact of_kept ((State.TableKept.setLane s n _).trans (.post _ n _))
    · exact refl s
  case memoryFault n took =>
    repeat' split
    · exact of_kept ((State.TableKept.setMem s _).trans (.failOrder _ n _))
    all_goals exact refl s
  case slateFault r took =>
    split
    · exact of_kept ((State.TableKept.dropFaulting s r _).trans (.halt _ _ _))
    · exact refl s

end State.TableOnlyLoses

/-! ## What keeps the table sound -/

namespace State.TableSound

theorem after_loss {s t : State} (h : s.TableSound) (k : s.TableOnlyLoses t) : t.TableSound := by
  have fewer : t.table.length ≤ s.table.length := by simpa using k.slots.length_le
  refine ⟨fewer.trans h.size, h.slots.sublist k.slots, fun slot hslot => ?_⟩
  obtain ⟨absent, room⟩ := h.taking slot (k.step slot hslot)
  exact ⟨fun hm => absent (k.slots.subset hm), Nat.lt_of_le_of_lt fewer room⟩

/-- A slot begins to be taken where the table has room and does not hold it (R142). -/
theorem meetHeader {s : State} (h : s.TableSound) (slot : Nat) (header : List Byte) :
    (s.meetHeader slot header).TableSound := by
  unfold State.meetHeader State.meetPosted
  dsimp only
  split
  · split
    · split
      · exact h.after_loss (.of_kept (.advanceSweep s slot))
      · exact h.after_loss (.of_kept (.endSweep s))
    next room =>
      split
      · exact h.after_loss (.of_kept (.advanceSweep s slot))
      next held =>
        split
        · exact h.after_loss (.of_kept (.failAtTake s slot header _))
        · refine ⟨h.size, h.slots, fun k hk => ?_⟩
          obtain rfl := Option.some.inj hk
          refine ⟨fun hm => held ?_, Nat.lt_of_not_le room⟩
          obtain ⟨e, hmem, hslot⟩ := List.mem_map.1 hm
          exact List.find?_isSome.2 ⟨e, hmem, beq_iff_eq.2 hslot⟩
  · exact h.after_loss (.of_kept (.advanceSweep s slot))

/-- The slot being taken enters the table, and none is being taken after it (R144). -/
theorem entered {s t : State} (h : s.TableSound) {slot : Nat} (hs : s.slate.step.mayEnter = some slot)
    (htable : t.table.map (fun e => e.slot) = s.table.map (fun e => e.slot) ++ [slot])
    (hstep : t.slate.step.mayEnter = none) : t.TableSound := by
  obtain ⟨absent, room⟩ := h.taking slot hs
  have size : t.table.length = s.table.length + 1 := by simpa using congrArg List.length htable
  refine ⟨by omega, ?_, fun k hk => by rw [hstep] at hk; cases hk⟩
  rw [htable]
  exact List.nodup_append_comm.1 (List.nodup_cons.2 ⟨absent, h.slots⟩)

end State.TableSound

theorem State.endSweep_mayEnter (s : State) : s.endSweep.slate.step.mayEnter = none := by
  unfold State.endSweep
  dsimp only
  split
  · split <;> rfl
  all_goals rfl

theorem State.advanceSweep_mayEnter (s : State) (slot : Nat) : (s.advanceSweep slot).slate.step.mayEnter = none := by
  unfold State.advanceSweep
  dsimp only
  split
  · exact State.endSweep_mayEnter _
  · rfl

/-- A take enters the slot whose TAKEN write was issued (R144). -/
theorem State.TableSound.take {s t : State} (h : s.TableSound) (he : exec .take s = .next t) : t.TableSound := by
  obtain rfl := Host.Outcome.next.inj he
  split
  case h_1 slot header body hs =>
    split
    case h_1 k _ =>
      obtain ⟨-, -, left, -⟩ :=
        State.advanceSweep_fields ((s.setMem (s.mem.land s.slateWrite)).enterOrder k slot header body) slot
      obtain ⟨slate, table, -⟩ := State.settle_fields
        (((s.setMem (s.mem.land s.slateWrite)).enterOrder k slot header body).advanceSweep slot)
      refine h.entered (slot := slot) (by rw [hs]; rfl) ?_ ?_
      · rw [table, left]
        exact List.map_append
      · rw [slate]
        exact State.advanceSweep_mayEnter _ _
    case h_2 => exact h
  all_goals exact h

/-- Every command keeps the table sound. -/
theorem State.TableSound.exec {s t : State} (h : s.TableSound) (c : Instr) (he : exec c s = .next t) :
    t.TableSound := by
  by_cases hheader : ∃ host, c = .headerReadDone host
  · obtain ⟨host, rfl⟩ := hheader
    obtain rfl := Host.Outcome.next.inj he
    split
    case h_1 slot _ =>
      have met := (h.after_loss (.of_kept (.afterHost s host))).meetHeader slot
        ((s.afterHost host).mem.readBytes ((s.afterHost host).slotAddr slot) 16)
      exact met.after_loss (.of_kept ((State.TableKept.settlePause _).trans (.settleStop _)))
    all_goals exact h
  · by_cases htake : c = .take
    · subst htake
      exact h.take he
    · exact h.after_loss (.exec he (fun host hc => hheader ⟨host, hc⟩) htake)

/-- Settles O58: every command but HEADER_READ_DONE and TAKE brings no slot in; those two are met by the room that the
table has for the slot being taken. -/
theorem stepKeepsTheTableSound : Obligations.StepKeepsTheTableSound := by
  intro s t h hs
  unfold step at hs
  split at hs
  next =>
    obtain rfl := Host.Outcome.next.inj hs
    exact h.after_loss (.of_kept (.tick s))
  next c rest _ =>
    have front : ({ s with pending := rest } : State).TableSound := ⟨h.size, h.slots, h.taking⟩
    exact front.exec c hs

end Sys2Proof.Machine
end

section
/-! One µs on an empty queue (R140, R141, R168, R170, R172). -/

namespace Sys2Proof.Machine

theorem step_of_empty {s : State} (h : s.pending = []) : step s = .next s.tick := by
  unfold step
  rw [h]

/-! ## Timers that do not count, or count alone -/

theorem State.tickLane_still {s : State} {n : LaneId} (h : s.runTimerCounts n = false) : s.tickLane n = s :=
  if_neg (by rw [h]; exact Bool.false_ne_true)

theorem State.tickSweep_still {s : State} (h : s.sweepTimerCounts = false) : s.tickSweep = s :=
  if_neg (by rw [h]; exact Bool.false_ne_true)

theorem State.tickSweep_counts {s : State} (h : s.sweepTimerCounts = true)
    (hp : s.slate.timer + 1 < s.engine.anchor.sweepPeriod) :
    s.tickSweep = s.setSlate { s.slate with timer := s.slate.timer + 1 } := by
  unfold State.tickSweep
  rw [if_pos h, if_neg (Nat.not_le.2 hp)]

/-- A sweep timer that comes to the sweep period does what SWEEP_TIMER_EXPIRY does (R141). -/
theorem exec_sweepTimerExpiry_of_period {s : State} (h : s.sweepTimerCounts = true)
    (hp : s.engine.anchor.sweepPeriod ≤ s.slate.timer + 1) : exec .sweepTimerExpiry s = .next s.tickSweep := by
  show execSweepTimerExpiry s = _
  unfold execSweepTimerExpiry State.tickSweep
  rw [if_pos h, if_pos h, if_pos hp]

theorem State.tick_of_no_lane {s : State} (h : ∀ n, s.runTimerCounts n = false) : s.tick = s.tickSweep := by
  unfold State.tick
  rw [State.tickLane_still (h .lane0), State.tickLane_still (h .lane1)]

/-- A lane that counts alone is all that the µs changes. -/
theorem State.tick_of_one_lane {s : State} {n : LaneId} {l : Lane} (hlane : s.tickLane n = s.setLane n l)
    (hother : s.runTimerCounts (otherLane n) = false) (hsweep : s.sweepTimerCounts = false) :
    s.tick = s.setLane n l := by
  unfold State.tick
  cases n with
  | lane0 =>
    rw [hlane, State.tickLane_still (show (s.setLane .lane0 l).runTimerCounts .lane1 = false from hother)]
    exact State.tickSweep_still hsweep
  | lane1 =>
    rw [State.tickLane_still (show s.runTimerCounts .lane0 = false from hother), hlane]
    exact State.tickSweep_still hsweep

/-- A run timer below the limit counts up to where it holds (R172). -/
theorem State.tickLane_counts {s : State} {n : LaneId} (h : s.runTimerCounts n = true)
    (hlimit : s.engine.anchor.timeLimit = 0 ∨ (s.lane n).runTimer + 1 < s.limitMicros) :
    s.tickLane n = s.setLane n { s.lane n with runTimer := min ((s.lane n).runTimer + 1) 65535000 } := by
  unfold State.tickLane
  rw [if_pos h]
  refine if_neg fun ⟨hset, _, hreached⟩ => ?_
  have := Nat.min_le_left ((s.lane n).runTimer + 1) Config.maxRunTime
  omega

/-- A run timer that comes to the limit on a lane without a request posts TIME_LIMIT, and no bank changes (R170,
R172). -/
theorem State.tickLane_posts {s : State} {n : LaneId} (hT : s.engine.anchor.timeLimit ≤ 65535)
    (hr : s.limitReached n) (hq : (s.lane n).request = .none) : s.tickLane n = s.setLane n
      { s.lane n with runTimer := s.limitMicros, request := .timeLimit, state := .yielding } := by
  obtain ⟨y, l, htick, ticked⟩ := State.tickLane_spec s s n hT rfl rfl
  have banks : y = s.banks :=
    Vector.ext fun i hi => ticked.kept ⟨i, hi⟩ fun _ hb => by rw [hq] at hb; cases hb
  rw [htick, banks, ticked.posts hr (.inl hq)]

/-! ## All timers -/

/-- Both lanes after one µs, lane 0 before lane 1 (log 4). -/
theorem State.tickLanes_spec {s : State} (hT : s.engine.anchor.timeLimit ≤ 65535) :
    ∃ y0 y1 l0 l1, (s.tickLane .lane0).tickLane .lane1 = { s with banks := y1, lane0 := l0, lane1 := l1 } ∧
      LaneTicked s .lane0 s.banks y0 l0 ∧ LaneTicked s .lane1 y0 y1 l1 := by
  obtain ⟨y0, l0, htick0, ticked0⟩ := State.tickLane_spec s s .lane0 hT rfl rfl
  obtain ⟨y1, l1, htick1, ticked1⟩ := State.tickLane_spec s (({ s with banks := y0 } : State).setLane .lane0 l0)
    .lane1 hT rfl rfl
  exact ⟨y0, y1, l0, l1, by rw [htick0, htick1]; rfl, ticked0, ticked1⟩

section
variable {s : State} {y0 y1 : Vector ParkBank 4} {l0 l1 : Lane}

/-- A bank that a PARK reserved is FREE where either lane's run timer came to the limit (R170). -/
theorem banks_freed_by_ticks (ticked0 : LaneTicked s .lane0 s.banks y0 l0) (ticked1 : LaneTicked s .lane1 y0 y1 l1)
    {n : LaneId} {b : Fin 4} (hr : s.limitReached n) (hb : (s.lane n).request = .park b) : y1[b] = .free := by
  cases n with
  | lane1 => exact ticked1.freed b hr hb
  | lane0 =>
    by_cases both : s.limitReached .lane1 ∧ (s.lane .lane1).request = .park b
    · exact ticked1.freed b both.1 both.2
    · rw [ticked1.kept b fun hr1 hb1 => both ⟨hr1, hb1⟩]
      exact ticked0.freed b hr hb

theorem banks_kept_by_ticks (ticked0 : LaneTicked s .lane0 s.banks y0 l0) (ticked1 : LaneTicked s .lane1 y0 y1 l1)
    {b : Fin 4} (h : ∀ n, s.limitReached n → (s.lane n).request ≠ .park b) : y1[b] = s.banks[b] := by
  rw [ticked1.kept b (h .lane1), ticked0.kept b (h .lane0)]

end

/-- Settles O2: with one timer by the lemma of that timer, with several by the lanes in turn and then the sweep. -/
theorem emptyQueueCountsOneMicrosecond : Obligations.EmptyQueueCountsOneMicrosecond := by
  intro s hempty
  rw [step_of_empty hempty]
  refine ⟨fun hlanes hsweep => ?_, fun hlanes hsweep hp => ?_, fun hlanes hsweep hp => ?_,
    fun n hn hother hsweep hlimit => ?_, fun n hn hother hsweep h0 hT hlimit hq => ?_, fun hT => ?several⟩
  · rw [State.tick_of_no_lane hlanes, State.tickSweep_still hsweep]
  · rw [State.tick_of_no_lane hlanes, State.tickSweep_counts hsweep hp]
    rfl
  · rw [State.tick_of_no_lane hlanes, exec_sweepTimerExpiry_of_period hsweep hp]
  · rw [State.tick_of_one_lane (State.tickLane_counts hn hlimit) hother hsweep]
  · rw [State.tick_of_one_lane (State.tickLane_posts hT ⟨hn, h0, hlimit⟩ hq) hother hsweep]
  case several =>
    intro reached
    obtain ⟨y0, y1, l0, l1, hlanes, ticked0, ticked1⟩ := State.tickLanes_spec hT
    obtain ⟨still, counts, again, begins, x, hx⟩ :=
      State.tickSweep_spec ({ s with banks := y1, lane0 := l0, lane1 := l1 } : State)
    refine ⟨_, rfl, ?_⟩
    unfold State.tick
    rw [hlanes]
    refine ⟨fun n h => ?_, fun n h hn => ?_, fun n h hq => ?_, fun n h hq => ?_, fun n b h hb => ?_, fun b h => ?_,
      still, counts, again, begins, ?_⟩
    all_goals rw [hx]
    case refine_1 => cases n; exacts [ticked0.still h, ticked1.still h]
    case refine_2 => cases n; exacts [ticked0.counts h hn, ticked1.counts h hn]
    case refine_3 => cases n; exacts [ticked0.posts h hq, ticked1.posts h hq]
    case refine_4 => cases n; exacts [ticked0.drops h hq, ticked1.drops h hq]
    case refine_5 => exact banks_freed_by_ticks ticked0 ticked1 h hb
    case refine_6 => exact banks_kept_by_ticks ticked0 ticked1 h
    case refine_7 => exact ⟨rfl, rfl, rfl, rfl, rfl, rfl, rfl, rfl, rfl, rfl, rfl, rfl⟩

end Sys2Proof.Machine
end

section
/-! A start begun and a pause begun by a CONTROL write (R135, R148, R178, R179, R180, R185). -/

namespace Sys2Proof.Machine

/-! ## ENABLE in OFF -/

/-- Every CONTROL write with ENABLE 1 in OFF begins a start, whatever its PAUSE (R178). -/
theorem exec_enable_of_off {s : State} {irq : StickyBits} {c : Instr} (hc : c = .enable false irq ∨
    c = .enable true irq ∨ c = .pause irq ∨ c = .pauseRelease irq) (hs : s.engine.state = .off) :
    exec c s = .next (s.storeIrq irq).beginStart := by
  obtain ⟨pause, hwrite⟩ : ∃ pause, exec c s = .next (s.controlWrite true pause irq) := by
    rcases hc with rfl | rfl | rfl | rfl <;> exact ⟨_, rfl⟩
  have hfields : (s.storeIrq irq).controlFields true pause = (s.storeIrq irq).beginStart := by
    have hstate : (s.storeIrq irq).engine.state = .off := hs
    unfold State.controlFields
    rw [hstate]
  have handed : (s.storeIrq irq).beginStart.writer.waiting = (s.storeIrq irq).writer.waiting := by
    unfold State.beginStart
    dsimp only
    split <;> rfl
  rw [hwrite, State.controlWrite_eq (f := State.beginStart) hfields, State.asOneEvent_of_none_handed _ _ handed]

theorem State.beginStart_of_room {s : State} (h : s.engine.anchorReg.toNat + 31 ≤ Config.topAddress) :
    s.beginStart = { s with
      engine := { s.engine with state := .starting, abandoned := false, access := .anchorRead }
      slate := { s.slate with nextSeq := 0 } } :=
  if_neg (Nat.not_lt.2 h)

theorem State.beginStart_past_top {s : State} (h : Config.topAddress < s.engine.anchorReg.toNat + 31) :
    s.beginStart = (s.setSlate { s.slate with nextSeq := 0 }).failStart .anchorContent s.engine.anchorReg :=
  if_pos h

/-- Settles O6: the start by whether the anchor block runs past the top of the address space. -/
theorem enableStartsFromOff : Obligations.EnableStartsFromOff := by
  intro s irq c hc hs
  rw [exec_enable_of_off hc hs]
  refine ⟨fun h => ?_, fun h => ?_⟩
  · rw [State.beginStart_of_room (s := s.storeIrq irq) h]
    rfl
  · rw [State.beginStart_past_top (s := s.storeIrq irq) h]
    rfl

/-! ## PAUSE in RUNNING -/

/-- Entry to PAUSING goes on to PAUSED where nothing is busy (R148, R180). -/
theorem State.beginPause_eq (s : State) : s.beginPause = { s with
    engine :=
      { s.engine with
        state := if s.lane0.busy = false ∧ s.lane1.busy = false ∧ s.slate.sweeping = false then .paused else .pausing }
    slate := { s.slate with ending := s.slate.sweeping } } := by
  unfold State.beginPause State.settlePause
  by_cases h : s.lane0.busy = false ∧ s.lane1.busy = false ∧ s.slate.sweeping = false
  · rw [if_pos h]
    exact if_pos ⟨rfl, h⟩
  · rw [if_neg h]
    exact if_neg fun hb => h hb.2

theorem exec_pause_of_running {s : State} {irq : StickyBits} {c : Instr} (hc : c = .pause irq ∨ c = .enable true irq)
    (hs : s.engine.state = .running) : exec c s = .next (s.storeIrq irq).beginPause := by
  have hwrite : exec c s = .next (s.controlWrite true true irq) := by rcases hc with rfl | rfl <;> rfl
  have hfields : (s.storeIrq irq).controlFields true true = (s.storeIrq irq).beginPause := by
    have hstate : (s.storeIrq irq).engine.state = .running := hs
    unfold State.controlFields
    rw [hstate]
  have handed : (s.storeIrq irq).beginPause.writer.waiting = (s.storeIrq irq).writer.waiting := by
    rw [State.beginPause_eq]
  rw [hwrite, State.controlWrite_eq (f := State.beginPause) hfields, State.asOneEvent_of_none_handed _ _ handed]

/-- Settles O8: the pause hands nothing over, so its event is the entry to PAUSING. -/
theorem pauseEntersPausing : Obligations.PauseEntersPausing := by
  intro s irq c hc hs
  rw [exec_pause_of_running hc hs, State.beginPause_eq]
  rfl

end Sys2Proof.Machine
end

section
/-! Sweeps requested, and the two reads of a start (R134, R135, R140, R141, R151, R179, R185, R198). -/

namespace Sys2Proof.Machine

/-! ## Sweep requests -/

theorem State.requestSweep_begins {s : State} (hs : s.engine.state = .running) (hw : s.slate.sweeping = false) :
    s.requestSweep = s.beginSweep s.slate.again := by
  unfold State.requestSweep
  rw [hs]
  exact if_neg (by rw [hw]; exact Bool.false_ne_true)

theorem State.requestSweep_again {s : State} (h : s.engine.state = .running ∧ s.slate.sweeping = true ∨
    s.engine.state = .pausing ∨ s.engine.state = .paused) :
    s.requestSweep = s.setSlate { s.slate with again := true } := by
  unfold State.requestSweep
  rcases h with ⟨hs, hw⟩ | hs | hs
  · rw [hs]
    exact if_pos hw
  · rw [hs]
  · rw [hs]

theorem State.requestSweep_ignored {s : State} (h : s.engine.state = .off ∨ s.engine.state = .starting ∨
    s.engine.state = .stopping ∨ s.engine.state = .halted) : s.requestSweep = s := by
  unfold State.requestSweep
  rcases h with hs | hs | hs | hs <;> rw [hs]

theorem exec_nudge (v : Word) (s : State) : exec (.nudge v) s = .next s.requestSweep := rfl

/-- The expiry of a sweep timer that counts (R141). -/
theorem exec_sweepTimerExpiry {s : State} (hs : s.engine.state = .running) (hp : s.engine.anchor.sweepPeriod ≠ 0) :
    exec .sweepTimerExpiry s = .next (s.setSlate { s.slate with timer := 0 }).requestSweep := by
  have counts : s.sweepTimerCounts = true := by simp [State.sweepTimerCounts, hs, hp]
  show execSweepTimerExpiry s = _
  unfold execSweepTimerExpiry
  rw [if_pos counts]

/-- Settles O13: the request by the engine state, at the timer as it stands or set to 0. -/
theorem sweepRequestsActByEngineState : Obligations.SweepRequestsActByEngineState := by
  intro s v
  refine ⟨fun hs hw => ?_, fun h => ?_, fun h => ?_, fun hs hp hw => ?_, fun hs hp hw => ?_⟩
  · rw [exec_nudge, State.requestSweep_begins hs hw]
    rfl
  · rw [exec_nudge, State.requestSweep_again h]
    rfl
  · rw [exec_nudge, State.requestSweep_ignored h]
  · rw [exec_sweepTimerExpiry hs hp,
      State.requestSweep_begins (s := s.setSlate { s.slate with timer := 0 }) hs hw]
    rfl
  · rw [exec_sweepTimerExpiry hs hp,
      State.requestSweep_again (s := s.setSlate { s.slate with timer := 0 }) (.inl ⟨hs, hw⟩)]
    rfl

/-! ## The anchor block -/

theorem anchorOk_iff (a : Anchor) : anchorOk a = true ↔
    8 ≤ a.slotCount ∧ a.slotCount ≤ 256 ∧ a.slateBase.toNat % 256 = 0 ∧
      a.slateBase.toNat + 256 * a.slotCount - 1 ≤ 0xFFFFFFFF ∧ a.wordAddr.toNat % 4 = 0 := by
  unfold anchorOk Config.topAddress
  simp only [Bool.and_eq_true, decide_eq_true_eq, and_assoc]

theorem anchorOk_of_unsound {a : Anchor} (h : a.slotCount < 8 ∨ 256 < a.slotCount ∨ a.slateBase.toNat % 256 ≠ 0 ∨
    0xFFFFFFFF < a.slateBase.toNat + 256 * a.slotCount - 1 ∨ a.wordAddr.toNat % 4 ≠ 0) : anchorOk a ≠ true := by
  rw [Ne, anchorOk_iff]
  omega

/-- A 32-bit field fills an address (section 0.7). -/
theorem toNat_leField_address (bs : List Byte) (i : Nat) :
    (BitVec.ofNat 32 (leField bs i 4)).toNat = leField bs i 4 := by
  rw [BitVec.toNat_ofNat]
  exact Nat.mod_eq_of_lt (leField_lt bs i 4)

theorem anchorOf_fields (block : List Byte) :
    (anchorOf block).slateBase.toNat = leField block 0 4 ∧ (anchorOf block).slotCount = leField block 4 2 ∧
      (anchorOf block).wordAddr.toNat = leField block 8 4 ∧ (anchorOf block).sweepPeriod = leField block 12 2 ∧
      (anchorOf block).timeLimit = leField block 14 2 :=
  ⟨toNat_leField_address block 0, rfl, toNat_leField_address block 8, rfl, rfl⟩

theorem State.takeAnchor_sound {s : State} (h : anchorOk s.anchorBlock = true) : s.takeAnchor =
    { s with engine := { s.engine with anchor := s.anchorBlock, access := .wordRead } } :=
  if_pos h

theorem State.takeAnchor_unsound {s : State} (h : anchorOk s.anchorBlock ≠ true) :
    s.takeAnchor = s.failStart .anchorContent s.engine.anchorReg :=
  if_neg h

/-! ## The reads answered -/

section
variable {s : State} (host : HostWrites)

theorem exec_anchorReadDone (ha : s.engine.access = .anchorRead) (h : s.engine.abandoned = false) :
    exec (.anchorReadDone (.data host)) s = .next (s.afterHost host).takeAnchor ∧
      exec (.anchorReadDone .busError) s = .next (s.failStart .anchorRead s.engine.anchorReg) := by
  refine ⟨?_, ?_⟩
  all_goals
    show execAnchorReadDone _ s = _
    simp [execAnchorReadDone, ha, h]

theorem exec_anchorReadDone_abandoned (ha : s.engine.access = .anchorRead) (h : s.engine.abandoned = true) :
    exec (.anchorReadDone (.data host)) s = .next (s.afterHost host).dropStart ∧
      exec (.anchorReadDone .busError) s = .next s.dropStart := by
  refine ⟨?_, ?_⟩
  all_goals
    show execAnchorReadDone _ s = _
    simp [execAnchorReadDone, ha, h]

theorem exec_completionWordReadDone (ha : s.engine.access = .wordRead) (h : s.engine.abandoned = false) :
    exec (.completionWordReadDone (.data host)) s = .next (s.afterHost host).completeStart ∧
      exec (.completionWordReadDone .busError) s = .next (s.failStart .wordRead s.engine.anchor.wordAddr) := by
  refine ⟨?_, ?_⟩
  all_goals
    show execCompletionWordReadDone _ s = _
    simp [execCompletionWordReadDone, ha, h]

theorem exec_completionWordReadDone_abandoned (ha : s.engine.access = .wordRead) (h : s.engine.abandoned = true) :
    exec (.completionWordReadDone (.data host)) s = .next (s.afterHost host).dropStart ∧
      exec (.completionWordReadDone .busError) s = .next s.dropStart := by
  refine ⟨?_, ?_⟩
  all_goals
    show execCompletionWordReadDone _ s = _
    simp [execCompletionWordReadDone, ha, h]

end

/-- Settles O20: each read by its reply, by whether the start was abandoned and by whether the anchor is sound. -/
theorem startReadsEndInRunningOrOff : Obligations.StartReadsEndInRunningOrOff := by
  refine ⟨fun s => anchorOf_fields _, fun s host => ?_⟩
  intro dropped
  refine ⟨fun ha => ?_, fun ha => ?_⟩
  · intro a failed
    refine ⟨fun h hcount hcount' hbase htop hword => ?_, fun h hbad => ?_, fun h => ?_,
      fun h => exec_anchorReadDone_abandoned host ha h⟩
    all_goals obtain ⟨data, busError⟩ := exec_anchorReadDone host ha h
    · have ok : anchorOk (s.afterHost host).anchorBlock = true :=
        (anchorOk_iff _).2 ⟨hcount, hcount', hbase, htop, hword⟩
      rw [data, State.takeAnchor_sound ok]
      rfl
    · rw [data, State.takeAnchor_unsound (anchorOk_of_unsound hbad)]
      rfl
    · rw [busError]
      rfl
  · intro cursor
    refine ⟨fun h => ?_, fun h => ?_, fun h => exec_completionWordReadDone_abandoned host ha h⟩
    all_goals obtain ⟨data, busError⟩ := exec_completionWordReadDone host ha h
    · rw [data]
      rfl
    · rw [busError]
      rfl

end Sys2Proof.Machine
end

section
/-! A slot that the Slate Reader has in hand: its header read, its body checked, its order taken (R136 to R145, R148,
R157, R180, R183, R197). -/

namespace Sys2Proof.Machine

/-! ## What a step of the sweep leaves of the orders -/

/-- A change at the Slate Reader and Engine Control alone: the orders, where they are held, and what `State.Kept` names
stand as they were. -/
structure State.OrdersStand (s t : State) : Prop where
  table : t.table = s.table
  writer : t.writer = s.writer
  lanes : ∀ n, t.lane n = s.lane n
  banks : t.banks = s.banks
  bandSets : t.bandSets = s.bandSets
  parkOrder : t.parkOrder = s.parkOrder
  kept : s.Kept t

theorem State.OrdersStand.trans {s t u : State} (h : s.OrdersStand t) (k : t.OrdersStand u) : s.OrdersStand u :=
  ⟨k.table.trans h.table, k.writer.trans h.writer, fun n => (k.lanes n).trans (h.lanes n), k.banks.trans h.banks,
    k.bandSets.trans h.bandSets, k.parkOrder.trans h.parkOrder, h.kept.trans k.kept⟩

theorem State.ordersStand_endSweep (s : State) : s.OrdersStand s.endSweep := by
  obtain ⟨-, table, writer, lanes, banks, sets, -, kept, order, -⟩ := s.endSweep_fields
  exact ⟨table, writer, lanes, banks, sets, order, kept⟩

theorem State.ordersStand_advanceSweep (s : State) (slot : Nat) : s.OrdersStand (s.advanceSweep slot) := by
  obtain ⟨-, -, table, writer, lanes, banks, sets, -, kept, order, -⟩ := s.advanceSweep_fields slot
  exact ⟨table, writer, lanes, banks, sets, order, kept⟩

theorem State.ordersStand_settle (s : State) : s.OrdersStand s.settlePause.settleStop := by
  obtain ⟨-, table, writer, lanes, banks, sets, order, kept, -⟩ := s.settle_fields
  exact ⟨table, writer, lanes, banks, sets, order, kept⟩

/-- A slot finished, and the engine settled after it (R142, R148, R180, R183). -/
def State.slotPassed (u : State) (slot : Nat) : State := (u.advanceSweep slot).settlePause.settleStop

/-- What a finished slot leaves of the state `u` in which it is finished. -/
theorem State.slotPassed_spec {s u : State} (slot : Nat) (h : u.engine = s.engine) :
    s.SlotFinished u.slate (u.slotPassed slot).slate slot ∧ s.EngineSettled (u.slotPassed slot) ∧
      (u.slotPassed slot).slate.cursor = (if slot + 1 < s.engine.anchor.slotCount then slot + 1 else 0) ∧
      (u.slotPassed slot).slate.nextSeq = u.slate.nextSeq ∧ u.OrdersStand (u.slotPassed slot) := by
  have slate : (u.slotPassed slot).slate = (u.advanceSweep slot).slate := (State.settle_fields _).1
  obtain ⟨cursor, -, -, -, -, -, -, engine, -, -, seq⟩ := u.advanceSweep_fields slot
  rw [slate]
  refine ⟨s.slotFinished_advance u slot h, s.engineSettled_settle _ (engine.trans h), ?_, seq,
    (u.ordersStand_advanceSweep slot).trans (State.ordersStand_settle _)⟩
  rw [cursor, h]

/-- A sweep that ends with its slot in hand, and the engine settled after it (R142, R180, R183). -/
theorem State.endSweep_settled {s u : State} (h : u.engine = s.engine) :
    s.SweepEnded u.slate u.endSweep.settlePause.settleStop.slate ∧
      s.EngineSettled u.endSweep.settlePause.settleStop ∧ u.OrdersStand u.endSweep.settlePause.settleStop := by
  have slate : u.endSweep.settlePause.settleStop.slate = u.endSweep.slate := (State.settle_fields _).1
  obtain ⟨-, -, -, -, -, -, engine, -, -, -⟩ := u.endSweep_fields
  rw [slate]
  exact ⟨s.sweepEnded_endSweep u h, s.engineSettled_settle _ (engine.trans h),
    u.ordersStand_endSweep.trans (State.ordersStand_settle _)⟩

/-! ## HEADER_READ_DONE -/

theorem exec_headerReadDone {s : State} {slot : Nat} (host : HostWrites) (h : s.slate.step = .headerRead slot) :
    exec (.headerReadDone host) s = .next ((s.afterHost host).meetHeader slot
      ((s.afterHost host).mem.readBytes ((s.afterHost host).slotAddr slot) 16)).settlePause.settleStop := by
  show execHeaderReadDone host s = _
  unfold execHeaderReadDone
  rw [h]

section
variable {u : State} {slot : Nat} {header : List Byte}

/-- A slot that is not POSTED, or is held while the table has room, is skipped (R142). -/
theorem State.meetHeader_skips (h : byteAt header 0 ≠ 1 ∨
    u.table.length < Config.tableEntries ∧ (u.entry? slot).isSome = true) :
    u.meetHeader slot header = u.advanceSweep slot := by
  unfold State.meetHeader State.meetPosted
  split
  next hposted =>
    obtain ⟨room, held⟩ := h.resolve_left (not_not_intro hposted)
    dsimp only
    rw [if_neg (Nat.not_le.2 room), if_pos held]
  next => rfl

/-- A full table ends the sweep at a POSTED slot, or skips the slot where it holds it (R142, log 13). -/
theorem State.meetHeader_full (hposted : byteAt header 0 = 1) (hfull : Config.tableEntries ≤ u.table.length) :
    u.meetHeader slot header = u.endSweep ∨
      (u.entry? slot).isSome = true ∧ u.meetHeader slot header = u.advanceSweep slot := by
  unfold State.meetHeader State.meetPosted
  rw [if_pos hposted]
  dsimp only
  rw [if_pos hfull]
  split
  next hskip => exact .inr ⟨(Bool.and_eq_true_iff.1 hskip).1, rfl⟩
  next => exact .inl rfl

/-- A POSTED slot that is not held, with room in the table, fails where the part carries out no kind of its code (R143
step 1, R145). -/
theorem State.meetHeader_absent (hposted : byteAt header 0 = 1) (room : u.table.length < Config.tableEntries)
    (hfree : u.entry? slot = none) (hk : kindAtTake u.part header = none) :
    u.meetHeader slot header = u.failAtTake slot header .kindAbsent := by
  unfold State.meetHeader State.meetPosted
  dsimp only
  rw [if_pos hposted, if_neg (Nat.not_le.2 room), if_neg (by rw [hfree]; exact Bool.false_ne_true), hk]

/-- A POSTED slot that is not held, with room in the table, has its body read where the part carries out its kind (R142,
R143 step 1). -/
theorem State.meetHeader_reads {k : OrderKind} (hposted : byteAt header 0 = 1)
    (room : u.table.length < Config.tableEntries) (hfree : u.entry? slot = none)
    (hk : kindAtTake u.part header = some k) :
    u.meetHeader slot header = u.setSlate { u.slate with step := .bodyRead slot header } := by
  unfold State.meetHeader State.meetPosted
  dsimp only
  rw [if_pos hposted, if_neg (Nat.not_le.2 room), if_neg (by rw [hfree]; exact Bool.false_ne_true), hk]

end

/-- The engine stays as it is where the Slate Reader keeps a slot in hand (R180, R183, log 19). -/
theorem State.settle_of_sweeping {s : State} (h : s.slate.sweeping = true) : s.settlePause.settleStop = s := by
  have pause : s.settlePause = s := if_neg fun ⟨_, _, _, hs⟩ => by rw [h] at hs; cases hs
  rw [pause]
  refine if_neg fun ⟨_, _, _, _, hs⟩ => ?_
  unfold SlateReader.sweeping at h
  rw [hs] at h
  cases h

/-- Settles O21: the slot skipped, the sweep ended, the order failed or its body read, as `State.meetHeader` does. -/
theorem headerReadDoneSkipsEndsOrReads : Obligations.HeaderReadDoneSkipsEndsOrReads := by
  refine ⟨kindAtTake_iff, fun s host slot hs => ?_⟩
  rw [exec_headerReadDone host hs]
  intro u header unchanged
  have stands {t : State} (h : u.OrdersStand t) : unchanged t :=
    ⟨h.table, h.writer, h.lanes, h.banks, h.bandSets, h.parkOrder, h.kept⟩
  obtain ⟨finished, settled, cursor, -, passed⟩ := State.slotPassed_spec (s := s) (u := u) slot rfl
  refine ⟨fun h => ?skips, fun hposted hfull => ?full, fun hposted room hfree => ?room⟩
  case skips =>
    rw [State.meetHeader_skips (u := u) h]
    exact ⟨_, rfl, finished, settled, cursor, stands passed⟩
  case full =>
    obtain ⟨ended, endSettled, endStands⟩ := State.endSweep_settled (s := s) (u := u) rfl
    rcases State.meetHeader_full (u := u) (slot := slot) hposted hfull with hmeet | ⟨held, hmeet⟩
    · rw [hmeet]
      exact ⟨_, rfl, fun _ => ended, .inl ended, endSettled, stands endStands⟩
    · rw [hmeet]
      refine ⟨_, rfl, fun hfree => ?_, .inr finished, settled, stands passed⟩
      rw [show u.entry? slot = none from hfree] at held
      cases held
  case room =>
    refine ⟨fun hkind => ?_, fun hkind => ?_⟩
    · rw [State.meetHeader_absent (u := u) hposted room hfree hkind]
      exact ⟨_, congrArg _ (State.settle_of_sweeping rfl), rfl, rfl, rfl, rfl, rfl, rfl, rfl, rfl, rfl, rfl⟩
    · obtain ⟨k, hk⟩ := Option.isSome_iff_exists.1 hkind
      rw [State.meetHeader_reads (u := u) hposted room hfree hk]
      exact congrArg _ (State.settle_of_sweeping rfl)

/-! ## BODY_READ_DONE -/

theorem exec_bodyReadDone {s : State} {slot : Nat} {header : List Byte} (host : HostWrites)
    (h : s.slate.step = .bodyRead slot header) :
    exec (.bodyReadDone (.data host)) s = .next ((s.afterHost host).meetBody slot header
        ((s.afterHost host).mem.readBytes ((s.afterHost host).slotAddr slot + 64) 192)) ∧
      exec (.bodyReadDone .busError) s = .next (s.failAtTake slot header .memoryFault) := by
  refine ⟨?_, ?_⟩
  all_goals
    show execBodyReadDone _ s = _
    unfold execBodyReadDone
    rw [h]

section
variable {u : State} {k : OrderKind} {header body : List Byte}

theorem State.meetBody_fails {r : Reason} (slot : Nat) (hk : kindAtTake u.part header = some k)
    (hr : takeFailure k header body = some r) : u.meetBody slot header body = u.failAtTake slot header r := by
  unfold State.meetBody
  rw [hk]
  dsimp only
  rw [hr]

theorem State.meetBody_takes (slot : Nat) (hk : kindAtTake u.part header = some k)
    (hr : takeFailure k header body = none) :
    u.meetBody slot header body = u.setSlate { u.slate with step := .takenWrite slot header body } := by
  unfold State.meetBody
  rw [hk]
  dsimp only
  rw [hr]

end

/-- Settles O22: the reply and the first failing check decide, and each check is its own rule's. -/
theorem bodyReadDoneTakesOrFails : Obligations.BodyReadDoneTakesOrFails := by
  refine ⟨fun s host slot header k hs hk => ?_, takeFailure_checks⟩
  obtain ⟨data, busError⟩ := exec_bodyReadDone host hs
  intro body
  rw [data, busError]
  refine ⟨⟨_, rfl, rfl, rfl, rfl, rfl, rfl, rfl, rfl, rfl, rfl, rfl⟩, fun r hr => ?_, fun hr => ?_⟩
  · rw [State.meetBody_fails (u := s.afterHost host) slot hk hr]
    exact ⟨_, rfl, rfl, rfl, rfl, rfl, rfl, rfl, rfl, rfl, rfl, rfl⟩
  · rw [State.meetBody_takes (u := s.afterHost host) slot hk hr]
    rfl

/-! ## TAKE -/

/-- The state of a take with its TAKEN write landed and its order in the table, the slot still in hand (R144). -/
def State.orderTaken (s : State) (k : OrderKind) (slot : Nat) (header body : List Byte) : State :=
  (s.setMem (s.mem.land s.slateWrite)).enterOrder k slot header body

theorem exec_take {s : State} {slot : Nat} {header body : List Byte} {k : OrderKind}
    (hs : s.slate.step = .takenWrite slot header body) (hk : kindAtTake s.part header = some k) :
    exec .take s = .next ((s.orderTaken k slot header body).slotPassed slot) := by
  show execTake s = _
  unfold execTake
  rw [hs]
  dsimp only
  rw [hk]
  rfl

theorem State.slateWrite_takenWrite {s : State} {slot : Nat} {header body : List Byte}
    (hs : s.slate.step = .takenWrite slot header body) : s.slateWrite = some (s.slotAddr slot, [2, 1]) := by
  unfold State.slateWrite
  rw [hs]

/-- Settles O23: the order enters the table, then its slot is finished. -/
theorem takeEntersTheOrder : Obligations.TakeEntersTheOrder := by
  intro s slot header body k hs hk
  obtain ⟨finished, settled, cursor, seq, passed⟩ :=
    State.slotPassed_spec (s := s) (u := s.orderTaken k slot header body) slot rfl
  refine ⟨_, (s.setMem (s.mem.land s.slateWrite)).newEntry k slot header body, exec_take hs hk, passed.table, rfl, rfl,
    rfl, rfl, rfl, rfl, rfl, seq, cursor, finished, settled, fun hm => ?_, passed.writer, passed.lanes, passed.banks,
    passed.bandSets, passed.parkOrder, passed.kept.accums, passed.kept.window, passed.kept.pending⟩
  rw [passed.kept.mem]
  show Memory.Written s.mem (s.mem.land s.slateWrite) _ _
  rw [State.slateWrite_takenWrite hs]
  exact Memory.written_land hm _ _

end Sys2Proof.Machine
end

section
/-! Waiting orders handed back to the host while the engine stops (R153, R183). -/

namespace Sys2Proof.Machine

theorem exec_handBack {s : State} {e : Entry} (hs : s.engine.state = .stopping) (hstep : s.slate.step = .idle)
    (he : s.nextHandBack = some e) :
    exec .handBack s = .next ((s.updEntry e.slot (fun x => { x with handBack := true })).setSlate
      { s.slate with step := .handBackWrite e.slot }) := by
  show execHandBack s = _
  unfold execHandBack
  rw [hs, hstep, he]

/-- The state of a hand-back with its write landed and its entry gone, and no slot in the Slate Reader's hand (R153). -/
def State.handedBack (s : State) (slot : Nat) : State :=
  ((s.setMem (s.mem.land s.slateWrite)).removeEntry slot).setSlate { s.slate with step := .idle }

theorem exec_handBackWriteAccept {s : State} {slot : Nat} (hs : s.slate.step = .handBackWrite slot) :
    exec .handBackWriteAccept s = .next (s.handedBack slot).settleStop := by
  show execHandBackWriteAccept s = _
  unfold execHandBackWriteAccept
  rw [hs]
  rfl

theorem State.slateWrite_handBackWrite {s : State} {slot : Nat} (hs : s.slate.step = .handBackWrite slot) :
    s.slateWrite = some (s.slotAddr slot, [1, 0]) := by
  unfold State.slateWrite
  rw [hs]

/-- Settles O24: the claim as it is written, and the accepted write by the passage to OFF. -/
theorem handBackReturnsWaitingOrders : Obligations.HandBackReturnsWaitingOrders := by
  intro s
  refine ⟨fun e hs hstep he => exec_handBack hs hstep he, fun slot hs => ?_⟩
  obtain ⟨slate, table, writer, lanes, banks, sets, -, stands⟩ := State.settleStop_fields (s.handedBack slot)
  have kept := State.kept_settleStop (s.handedBack slot)
  refine ⟨_, exec_handBackWriteAccept hs, table, fun hm => ?written, slate, writer, fun hstop => ?off,
    fun hrun => by rw [stands hrun]; rfl, lanes, banks, sets, kept.accums, kept.window, kept.pending⟩
  case written =>
    rw [kept.mem]
    show Memory.Written s.mem (s.mem.land s.slateWrite) _ _
    rw [State.slateWrite_handBackWrite hs]
    exact Memory.written_land hm _ _
  case off =>
    rw [table, State.settleStop_off_iff (s.handedBack slot) hstop]
    exact ⟨fun ⟨ht, hw, hi, _⟩ => ⟨ht, hw, hi⟩, fun ⟨ht, hw, hi⟩ => ⟨ht, hw, hi, rfl⟩⟩

end Sys2Proof.Machine
end

section
/-! The four steps of a completion (R94, R126, R136, R145, R150 to R152, R156, R160, R168, R180, R183, R192). -/

namespace Sys2Proof.Machine

/-! ## COMPLETION -/

theorem takenPlace_of_lt {pick : Nat} {waiting : List HandOver} (h : pick < togetherCount waiting) :
    takenPlace pick waiting = pick :=
  Nat.mod_eq_of_lt h

/-- The first hand-over is the only choice where the next did not come together with it (R150, log 16). -/
theorem takenPlace_of_alone (pick : Nat) {h : HandOver} {rest : List HandOver}
    (alone : ∀ x, rest.head? = some x → x.together = false) : takenPlace pick (h :: rest) = 0 := by
  have none_together : rest.takeWhile (fun x => x.together) = [] := by
    cases rest with
    | nil => rfl
    | cons x xs => exact List.takeWhile_cons_of_neg (by rw [alone x rfl]; exact Bool.false_ne_true)
  have one : togetherCount (h :: rest) = 1 := by
    show 1 + (rest.takeWhile fun x => x.together).length = 1
    rw [none_together]
    rfl
  unfold takenPlace
  rw [one, Nat.mod_one]

theorem exec_completion {s : State} {pick k : Nat} {h : HandOver} (hs : s.writer.step = .idle)
    (hplace : takenPlace pick s.writer.waiting = k) (hh : s.writer.waiting[k]? = some h) :
    exec (.completion pick) s = .next
      { s with writer := { s.writer with step := .resultWrite h, waiting := s.writer.waiting.eraseIdx k } } := by
  show execCompletion pick s = _
  unfold execCompletion
  rw [hs, hplace, hh]
  rfl

/-- Settles O25: the place taken is 0, or the pick where it is one of those together. -/
theorem completionTakesWaitingHandOver : Obligations.CompletionTakesWaitingHandOver := by
  intro s pick hs
  refine ⟨fun h rest hw alone => ?_, fun h hp hh => exec_completion hs (takenPlace_of_lt hp) hh⟩
  have first : s.writer.waiting[0]? = some h := by rw [hw]; rfl
  rw [exec_completion hs (by rw [hw]; exact takenPlace_of_alone pick alone) first, hw]
  rfl

/-! ## The result area, field by field -/

/-- Fields of a format one after the other, each as its width in bytes and its value. -/
def fieldBytes : List (Nat × Nat) → List Byte
  | [] => []
  | (n, v) :: rest => leBytes n v ++ fieldBytes rest

/-- The offset at which field `j` of a format begins. -/
def fieldOffset (fields : List (Nat × Nat)) (j : Nat) : Nat := ((fields.take j).map (fun f => f.1)).sum

theorem leField_append_fieldBytes (pre : List Byte) {fields : List (Nat × Nat)} {j n v : Nat}
    (h : fields[j]? = some (n, v)) :
    leField (pre ++ fieldBytes fields) (pre.length + fieldOffset fields j) n = v % 256 ^ n := by
  induction fields generalizing pre j with
  | nil => cases h
  | cons f rest ih =>
    obtain ⟨m, w⟩ := f
    cases j with
    | zero =>
      cases h
      exact leField_at pre (fieldBytes rest) _ n v rfl
    | succ j =>
      have tail := ih (pre ++ leBytes m w) h
      rw [List.append_assoc, List.length_append, leBytes_length, Nat.add_assoc] at tail
      exact tail

/-- A field read at its offset is its value, as far as its width holds it. -/
theorem leField_fieldBytes {fields : List (Nat × Nat)} (j : Nat) {n v : Nat} (h : fields[j]? = some (n, v)) :
    leField (fieldBytes fields) (fieldOffset fields j) n = v % 256 ^ n := by
  have := leField_append_fieldBytes [] h
  rwa [List.nil_append, List.length_nil, Nat.zero_add] at this

/-- The fields of a result area in their order (R156). -/
def resultFields (h : HandOver) : List (Nat × Nat) :=
  [(1, h.final.code), (1, h.reason.code), (1, h.indicators.code), (1, h.parkCount), (2, h.tag.toNat),
    (2, (h.fault.map (fun f => f.1)).getD 0xFFFF), (2, (h.fault.map (fun f => f.2)).getD 0xFFFF),
    (2, h.record.written), (4, h.record.visited), (4, h.record.contributed), (4, h.record.marked),
    (4, h.record.excluded), (4, h.record.rejected), (4, h.record.raised), (4, h.record.lost),
    (4, h.record.trueCount), (4, h.record.falseCount)]

/-- The widths of the fields of a result area in bytes (R156). -/
def resultWidths : List Nat := [1, 1, 1, 1, 2, 2, 2, 2, 4, 4, 4, 4, 4, 4, 4, 4, 4]

theorem resultFields_widths (h : HandOver) : (resultFields h).map (fun f => f.1) = resultWidths := rfl

theorem resultArea_eq_fieldBytes (h : HandOver) : resultArea h = fieldBytes (resultFields h) := by
  obtain ⟨slot, final, reason, indicators, record, fault, parkCount, tag, notify, atTake, together⟩ := h
  cases fault <;> simp [resultArea, resultFields, fieldBytes]

/-- A field of the result area, by its place among the fields (R156). -/
theorem leField_resultArea (h : HandOver) (j : Nat) {i n v : Nat} (hj : (resultFields h)[j]? = some (n, v))
    (hi : (resultWidths.take j).sum = i) : leField (resultArea h) i n = v % 256 ^ n := by
  have offset : fieldOffset (resultFields h) j = i := by
    rw [← hi, ← resultFields_widths h, ← List.map_take]
    rfl
  rw [resultArea_eq_fieldBytes, ← offset]
  exact leField_fieldBytes j hj

theorem FinalState.code_lt (x : FinalState) : x.code < 256 := by cases x <;> decide

theorem Reason.code_lt (x : Reason) : x.code < 256 := by cases x <;> decide

/-- Each indicator is one bit of its byte (R156). -/
theorem Indicators.code_bits (x : Indicators) :
    x.code.testBit 0 = x.zero ∧ x.code.testBit 1 = x.saturated ∧ x.code.testBit 2 = x.overflow ∧
      x.code.testBit 3 = x.lost ∧ x.code.testBit 4 = x.allTrue ∧ x.code.testBit 5 = x.noneTrue ∧ x.code < 64 := by
  obtain ⟨zero, saturated, overflow, lost, allTrue, noneTrue⟩ := x
  revert zero saturated overflow lost allTrue noneTrue
  decide

/-! ## RESULT_AREA_WRITE_ACCEPT -/

theorem State.writerWrite_resultWrite {s : State} {h : HandOver} (hs : s.writer.step = .resultWrite h) :
    s.writerWrite = some (s.slotAddr h.slot + 16, resultArea h) := by
  unfold State.writerWrite
  rw [hs]

theorem exec_resultAreaWriteAccept {s : State} {h : HandOver} (hs : s.writer.step = .resultWrite h) :
    exec .resultAreaWriteAccept s = .next
      { s with mem := s.mem.land s.writerWrite, writer := { s.writer with step := .stateWrite h } } := by
  show execResultAreaWriteAccept s = _
  unfold execResultAreaWriteAccept
  rw [hs]
  rfl

/-- Settles O26: the write lands whole, and each field of the area is read back at its offset. -/
theorem resultAreaWriteAcceptWritesResult : Obligations.ResultAreaWriteAcceptWritesResult := by
  intro s h hs
  have final : leField (resultArea h) 0 1 = h.final.code :=
    (leField_resultArea h 0 rfl rfl).trans (Nat.mod_eq_of_lt h.final.code_lt)
  have reason : leField (resultArea h) 1 1 = h.reason.code :=
    (leField_resultArea h 1 rfl rfl).trans (Nat.mod_eq_of_lt h.reason.code_lt)
  have bits := h.indicators.code_bits
  have indicators : leField (resultArea h) 2 1 = h.indicators.code := by
    obtain ⟨-, -, -, -, -, -, small⟩ := bits
    exact (leField_resultArea h 2 rfl rfl).trans (Nat.mod_eq_of_lt (Nat.lt_trans small (by decide)))
  have tag : leField (resultArea h) 4 2 = h.tag.toNat :=
    (leField_resultArea h 4 rfl rfl).trans (Nat.mod_eq_of_lt h.tag.isLt)
  refine ⟨⟨_, exec_resultAreaWriteAccept hs, fun hm => ?written⟩, resultArea_length h, final, reason, indicators,
    leField_resultArea h 3 rfl rfl, tag, fun hf => ?noFault, fun r c hf hr hc => ?fault,
    leField_resultArea h 7 rfl rfl, leField_resultArea h 8 rfl rfl, leField_resultArea h 9 rfl rfl,
    leField_resultArea h 10 rfl rfl, leField_resultArea h 11 rfl rfl, leField_resultArea h 12 rfl rfl,
    leField_resultArea h 13 rfl rfl, leField_resultArea h 14 rfl rfl, leField_resultArea h 15 rfl rfl,
    leField_resultArea h 16 rfl rfl, rfl, rfl, by rw [indicators]; exact bits⟩
  case written =>
    rw [State.writerWrite_resultWrite hs]
    exact Memory.written_land hm _ _
  case noFault =>
    exact ⟨leField_resultArea h 5 (n := 2) (v := 0xFFFF) (by simp [resultFields, hf]) rfl,
      leField_resultArea h 6 (n := 2) (v := 0xFFFF) (by simp [resultFields, hf]) rfl⟩
  case fault =>
    exact ⟨(leField_resultArea h 5 (n := 2) (v := r) (by simp [resultFields, hf]) rfl).trans (Nat.mod_eq_of_lt hr),
      (leField_resultArea h 6 (n := 2) (v := c) (by simp [resultFields, hf]) rfl).trans (Nat.mod_eq_of_lt hc)⟩

/-! ## STATE_WRITE_ACCEPT -/

theorem State.writerWrite_stateWrite {s : State} {h : HandOver} (hs : s.writer.step = .stateWrite h) :
    s.writerWrite = some (s.slotAddr h.slot, stateBytes h) := by
  unfold State.writerWrite
  rw [hs]

/-- The state of an accepted state write with the slot released and the completion counted (R151, R152). -/
def State.completionCounted (s : State) (h : HandOver) : State :=
  ((s.setMem (s.mem.land s.writerWrite)).leaveSlot h).setWriter
    { ((s.setMem (s.mem.land s.writerWrite)).leaveSlot h).writer with
      count := ((s.setMem (s.mem.land s.writerWrite)).leaveSlot h).writer.count + 1, step := .wordWrite h }

theorem exec_stateWriteAccept {s : State} {h : HandOver} (hs : s.writer.step = .stateWrite h) :
    exec .stateWriteAccept s = .next (s.completionCounted h).settlePause := by
  show execStateWriteAccept s = _
  unfold execStateWriteAccept
  rw [hs]
  rfl

theorem State.kept_completionCounted (s : State) (h : HandOver) :
    (s.setMem (s.mem.land s.writerWrite)).Kept (s.completionCounted h).settlePause :=
  ((State.kept_leaveSlot _ h).trans (State.kept_setWriter _ _)).trans (State.kept_settlePause _)

/-- PAUSING passes to PAUSED; a completion word is still to be written, so STOPPING does not end (R180, R183). -/
theorem State.engineSettled_completionCounted {s : State} {h : HandOver}
    (he : ((s.setMem (s.mem.land s.writerWrite)).leaveSlot h).engine = s.engine) :
    s.EngineSettled (s.completionCounted h).settlePause :=
  s.engineSettled_settlePause (s.completionCounted h) he fun _ ⟨_, _, hidle, _⟩ => nomatch hidle

/-- The bytes of a state write in memory once it has been accepted (R31, R137). -/
theorem State.written_stateWrite {s : State} {h : HandOver} {bytes : List Byte} (hs : s.writer.step = .stateWrite h)
    (hbytes : stateBytes h = bytes) (hm : s.memoryCanonical) :
    Memory.Written s.mem (s.completionCounted h).settlePause.mem (s.slotAddr h.slot) bytes := by
  rw [(s.kept_completionCounted h).mem]
  show Memory.Written s.mem (s.mem.land s.writerWrite) _ _
  rw [State.writerWrite_stateWrite hs, hbytes]
  exact Memory.written_land hm _ _

/-! ## Orders that ran -/

/-- What holds a slot released: the lane that ran its order, the bank that kept its context, its entry (R152, R160,
R168). -/
structure State.SlotReleased (s t : State) (slot : Nat) : Prop where
  table : t.table = s.table.filter (fun e => e.slot != slot)
  ran : ∀ n, (s.lane n).order = some slot → t.lane n = Lane.reset
  other : ∀ n, (s.lane n).order ≠ some slot → t.lane n = s.lane n
  bank : ∀ e, s.entry? slot = some e → e.phase = .parked → t.banks[e.bank] = .free
  banks : ∀ e, s.entry? slot = some e → e.phase ≠ .parked → t.banks = s.banks
  slate : t.slate = s.slate
  bandSets : t.bandSets = s.bandSets
  writer : t.writer = s.writer
  engine : t.engine = s.engine

/-- Both lanes once those that ran the order of a slot are IDLE (R160). -/
theorem State.lane_cleared (s : State) (slot : Nat) (n : LaneId) :
    ((s.clearLaneOf slot .lane0).clearLaneOf slot .lane1).lane n =
      if (s.lane n).order = some slot then Lane.reset else s.lane n := by
  rw [(State.clearLaneOf_fields _ slot .lane1 n).1, (State.clearLaneOf_fields s slot .lane0 n).1,
    (State.clearLaneOf_fields s slot .lane0 .lane1).1]
  cases n with
  | lane0 => by_cases h : s.lane0.order = some slot <;> simp [h]
  | lane1 => by_cases h : s.lane1.order = some slot <;> simp [h]

theorem State.slotReleased_leaveSlot (s : State) {h : HandOver} (ran : h.atTake = false) :
    s.SlotReleased (s.leaveSlot h) h.slot := by
  have lanes := s.lane_cleared h.slot
  obtain ⟨-, table0, banks0, slate0, sets0, writer0, engine0⟩ := s.clearLaneOf_fields h.slot .lane0 .lane0
  obtain ⟨-, table1, banks1, slate1, sets1, writer1, engine1⟩ :=
    (s.clearLaneOf h.slot .lane0).clearLaneOf_fields h.slot .lane1 .lane0
  have table := table1.trans table0
  have hleft : s.leaveSlot h =
      (((s.clearLaneOf h.slot .lane0).clearLaneOf h.slot .lane1).clearBankOf h.slot).removeEntry h.slot :=
    if_neg (by rw [ran]; exact Bool.false_ne_true)
  rw [hleft]
  generalize (s.clearLaneOf h.slot .lane0).clearLaneOf h.slot .lane1 = u at *
  have entry : u.entry? h.slot = s.entry? h.slot := by
    unfold State.entry?
    rw [table]
  obtain ⟨lane2, table2, slate2, sets2, writer2, engine2, freed, stand⟩ := u.clearBankOf_fields h.slot
  refine ⟨?_, fun n hn => ?_, fun n hn => ?_, fun e he hp => ?_, fun e he hp => ?_, slate2.trans (slate1.trans slate0),
    sets2.trans (sets1.trans sets0), writer2.trans (writer1.trans writer0), engine2.trans (engine1.trans engine0)⟩
  · rw [State.removeEntry_table, table2, table]
  · rw [State.lane_removeEntry, lane2, lanes, if_pos hn]
  · rw [State.lane_removeEntry, lane2, lanes, if_neg hn]
  · rw [State.removeEntry_banks, freed e (entry.trans he) hp]
    exact vector_get_set_self _ _ _
  · rw [State.removeEntry_banks, stand e (entry.trans he) hp, banks1, banks0]

/-! ## Failures at take -/

theorem State.leaveSlot_atTake {s : State} {h : HandOver} {slot : Nat} (ht : h.atTake = true)
    (hs : s.slate.step = .failing slot) : s.leaveSlot h = s.advanceSweep slot := by
  unfold State.leaveSlot
  rw [if_pos ht, hs]

/-- Settles O27: the slot released or finished first, then the completion counted and PAUSING settled. -/
theorem stateWriteAcceptReleasesTheSlot : Obligations.StateWriteAcceptReleasesTheSlot := by
  intro s h hs
  have kept := s.kept_completionCounted h
  obtain ⟨slate, table, writer, lanes, banks, sets, -, -⟩ := State.settlePause_fields (s.completionCounted h)
  refine ⟨fun ran => ?ran, fun atTake slot hslot => ?atTake⟩
  case ran =>
    have left := (s.setMem (s.mem.land s.writerWrite)).slotReleased_leaveSlot ran
    refine ⟨_, exec_stateWriteAccept hs, ?_, table.trans left.table,
      State.written_stateWrite hs (by unfold stateBytes; rw [ran]; rfl), fun n hn => (lanes n).trans (left.ran n hn),
      fun n hn => (lanes n).trans (left.other n hn), fun e he hp => ?_, fun e he hp => banks.trans (left.banks e he hp),
      State.engineSettled_completionCounted left.engine, slate.trans left.slate, sets.trans left.bandSets, kept.accums,
      kept.window, kept.pending⟩
    · rw [writer]
      unfold State.completionCounted
      rw [State.setWriter_writer, left.writer]
      rfl
    · rw [banks]
      exact left.bank e he hp
  case atTake =>
    have hleft : (s.setMem (s.mem.land s.writerWrite)).leaveSlot h =
        (s.setMem (s.mem.land s.writerWrite)).advanceSweep slot := State.leaveSlot_atTake atTake hslot
    have stands := State.ordersStand_advanceSweep (s.setMem (s.mem.land s.writerWrite)) slot
    obtain ⟨cursor, -, -, -, -, -, -, engine, -⟩ :=
      State.advanceSweep_fields (s.setMem (s.mem.land s.writerWrite)) slot
    have finished := s.slotFinished_advance (s.setMem (s.mem.land s.writerWrite)) slot rfl
    rw [← hleft] at stands cursor finished engine
    refine ⟨_, exec_stateWriteAccept hs, ?_, table.trans stands.table,
      State.written_stateWrite hs (by unfold stateBytes; rw [atTake]; rfl), ?_, ?_,
      State.engineSettled_completionCounted engine, fun n => (lanes n).trans (stands.lanes n),
      banks.trans stands.banks, sets.trans stands.bandSets, kept.accums, kept.window, kept.pending⟩
    · rw [writer]
      unfold State.completionCounted
      rw [State.setWriter_writer, stands.writer]
      rfl
    · rw [slate]
      exact cursor
    · rw [slate]
      exact finished

/-! ## COMPLETION_WORD_WRITE_ACCEPT -/

theorem State.writerWrite_wordWrite {s : State} {h : HandOver} (hs : s.writer.step = .wordWrite h) :
    s.writerWrite = some (s.engine.anchor.wordAddr.toNat, leBytes 4 s.writer.count.toNat) := by
  unfold State.writerWrite
  rw [hs]

/-- The state of an accepted completion-word write, its notification counted where NOTIFY asks for it (R152, R192). -/
def State.completionDone (s : State) (h : HandOver) : State :=
  (s.setMem (s.mem.land s.writerWrite)).setWriter { s.writer with
    step := .idle
    notifyPending := if h.notify then min (s.writer.notifyPending + 1) 65535 else s.writer.notifyPending }

theorem exec_completionWordWriteAccept {s : State} {h : HandOver} (hs : s.writer.step = .wordWrite h) :
    exec .completionWordWriteAccept s = .next (s.completionDone h).settleStop := by
  show execCompletionWordWriteAccept s = _
  unfold execCompletionWordWriteAccept
  rw [hs]
  rfl

/-- Settles O28: the word lands, the notification is counted, and STOPPING ends where nothing is held. -/
theorem completionWordWriteAcceptNotifies : Obligations.CompletionWordWriteAcceptNotifies := by
  intro s h hs
  obtain ⟨slate, table, writer, lanes, banks, sets, -, stands⟩ := State.settleStop_fields (s.completionDone h)
  have kept := State.kept_settleStop (s.completionDone h)
  refine ⟨_, exec_completionWordWriteAccept hs, fun hm => ?written, writer, fun hstop => ?off,
    fun hrun => by rw [stands hrun]; rfl, table, slate, lanes, banks, sets, kept.accums, kept.window, kept.pending⟩
  case written =>
    rw [kept.mem]
    show Memory.Written s.mem (s.mem.land s.writerWrite) _ _
    rw [State.writerWrite_wordWrite hs]
    exact Memory.written_land hm _ _
  case off =>
    rw [State.settleStop_off_iff (s.completionDone h) hstop]
    exact ⟨fun ⟨ht, hw, _, hi⟩ => ⟨ht, hw, hi⟩, fun ⟨ht, hw, hi⟩ => ⟨ht, hw, rfl, hi⟩⟩

end Sys2Proof.Machine
end

section
/-! The choice of a start event: the fence, and the ranking of the eligible (R162, R163). -/

namespace Sys2Proof.Machine

/-! ## Eligibility -/

/-- Whether no entry of a list is a WAITING one with HOLD, behind which nothing is eligible (R162). -/
def NoneFences (entries : List Entry) : Prop := ∀ x ∈ entries, ¬(x.header.hold = true ∧ x.phase = .waiting)

theorem noneFences_cons (e : Entry) (rest : List Entry) :
    NoneFences (e :: rest) ↔ (e.header.hold && e.phase == .waiting) = false ∧ NoneFences rest := by
  simp [NoneFences]

/-- The scan of a table from a place on finds an entry where it stands behind no fence and, with HOLD, behind nothing:
neither in what has been scanned, as the two flags say, nor in what is to be scanned. -/
theorem mem_eligibleFrom {e : Entry} {ahead fence : Bool} {entries : List Entry} :
    e ∈ eligibleFrom ahead fence entries ↔
      ∃ before behind, entries = before ++ e :: behind ∧ e.phase ≠ .running ∧ e.pendingCancel = false ∧
        (fence = false ∧ NoneFences before) ∧ (e.header.hold = true → ahead = false ∧ before = []) := by
  induction entries generalizing ahead fence with
  | nil => simp [eligibleFrom]
  | cons x rest ih =>
    have split : e ∈ eligibleFrom ahead fence (x :: rest) ↔
        (e = x ∧ x.phase ≠ .running ∧ x.pendingCancel = false ∧ fence = false ∧
          (x.header.hold = true → ahead = false)) ∨
        e ∈ eligibleFrom true (fence || (x.header.hold && x.phase == .waiting)) rest := by
      rw [eligibleFrom]
      split
      next h =>
        simp only [Bool.and_eq_true, bne_iff_ne, Bool.not_eq_true', Bool.and_eq_false_imp] at h
        obtain ⟨⟨⟨hp, hc⟩, hf⟩, hh⟩ := h
        rw [List.mem_cons]
        exact or_congr_left (iff_self_and.2 fun _ => ⟨hp, hc, hf, hh⟩)
      next h =>
        simp only [Bool.and_eq_true, bne_iff_ne, Bool.not_eq_true', Bool.and_eq_false_imp] at h
        exact (or_iff_right fun ⟨_, hp, hc, hf, hh⟩ => h ⟨⟨⟨hp, hc⟩, hf⟩, hh⟩).symm
    rw [split, ih]
    constructor
    · rintro (⟨rfl, hp, hc, hf, hh⟩ | ⟨before, behind, rfl, hp, hc, ⟨hf, hn⟩, hh⟩)
      · exact ⟨[], rest, rfl, hp, hc, ⟨hf, by simp [NoneFences]⟩, fun h => ⟨hh h, rfl⟩⟩
      · rw [Bool.or_eq_false_iff] at hf
        exact ⟨x :: before, behind, rfl, hp, hc, ⟨hf.1, (noneFences_cons x before).2 ⟨hf.2, hn⟩⟩,
          fun h => nomatch (hh h).1⟩
    · rintro ⟨_ | ⟨y, before⟩, behind, heq, hp, hc, ⟨hf, hn⟩, hh⟩ <;> obtain ⟨rfl, rfl⟩ := List.cons.inj heq
      · exact .inl ⟨rfl, hp, hc, hf, fun h => (hh h).1⟩
      · obtain ⟨hx, hn⟩ := (noneFences_cons _ _).1 hn
        exact .inr ⟨before, behind, rfl, hp, hc, ⟨by rw [hf, hx]; rfl, hn⟩, fun h => nomatch (hh h).2⟩

/-- The whole table is scanned with nothing ahead (R162). -/
theorem State.mem_eligible_iff (s : State) (e : Entry) : e ∈ s.eligible ↔
    ∃ ahead behind, s.table = ahead ++ e :: behind ∧ e.phase ≠ .running ∧ e.pendingCancel = false ∧
      NoneFences ahead ∧ (e.header.hold = true → ahead = []) := by
  simp only [State.eligible, mem_eligibleFrom, true_and]

/-! ## The ranking -/

theorem State.startChoice_urgent {s : State} {e : Entry} (h : s.eligible.find? (fun x => x.header.urgent) = some e) :
    s.startChoice = some e := by
  unfold State.startChoice
  rw [h]

/-- With no URGENT entry eligible the park-order list is next (R163). -/
theorem State.startChoice_routine {s : State} (hu : ∀ x ∈ s.eligible, x.header.urgent = false) :
    s.startChoice =
      (firstParked s.parkOrder s.eligible).or
        (s.eligible.find? (fun e => e.phase == .waiting && !e.header.urgent)) := by
  have none_urgent : s.eligible.find? (fun e => e.header.urgent) = none :=
    List.find?_eq_none.2 fun x hx => by rw [hu x hx]; exact Bool.false_ne_true
  unfold State.startChoice
  rw [none_urgent]
  cases firstParked s.parkOrder s.eligible <;> rfl

theorem firstParked_head {slot : Nat} {rest : List Nat} {eligible : List Entry} {e : Entry}
    (hu : ∀ x ∈ eligible, x.header.urgent = false)
    (h : eligible.find? (fun x => x.slot == slot && x.phase == .parked) = some e) :
    firstParked (slot :: rest) eligible = some e := by
  have routine : eligible.find? (fun x => x.slot == slot && x.phase == .parked && !x.header.urgent) = some e :=
    (List.find?_congr fun x hx => by rw [hu x hx, Bool.not_false, Bool.and_true]).trans h
  unfold firstParked
  rw [List.findSome?_cons, routine]

theorem firstParked_of_none_parked {parkOrder : List Nat} {eligible : List Entry}
    (h : ∀ x ∈ eligible, x.phase ≠ .parked) : firstParked parkOrder eligible = none :=
  List.findSome?_eq_none_iff.2 fun slot _ => List.find?_eq_none.2 fun x hx => by simp [h x hx]

/-- Settles O29: eligibility by the scan of the table, the ranking by its three stages. -/
theorem startChoiceObeysFenceAndRanking : Obligations.StartChoiceObeysFenceAndRanking := by
  intro s
  refine ⟨s.mem_eligible_iff, fun e h => State.startChoice_urgent h, fun slot rest e hu hp h => ?parked,
    fun h => ?waiting⟩
  case parked => rw [State.startChoice_routine hu, hp, firstParked_head hu h, Option.some_or]
  case waiting =>
    have hu (x) (hx : x ∈ s.eligible) : x.header.urgent = false := (h x hx).1
    have hw (x) (hx : x ∈ s.eligible) : x.phase = .waiting := (h x hx).2
    rw [State.startChoice_routine hu, firstParked_of_none_parked fun x hx => by rw [hw x hx]; decide, Option.none_or]
    cases hl : s.eligible with
    | nil => rfl
    | cons x rest =>
      have hx : x ∈ s.eligible := hl ▸ List.mem_cons_self
      exact List.find?_cons_of_pos (by simp [hu x hx, hw x hx])

end Sys2Proof.Machine
end

section
/-! PARK requests and withdrawals: the demand, the lane and the bank chosen (R166, R167, R168, R176). -/

namespace Sys2Proof.Machine

/-! ## Lanes and banks -/

/-- The number of lanes that pass a test, each counting 1. -/
theorem State.countLanes_eq (s : State) (p : Lane → Bool) :
    s.countLanes p = (if p s.lane0 then 1 else 0) + (if p s.lane1 then 1 else 0) := by
  unfold State.countLanes
  cases p s.lane0 <;> cases p s.lane1 <;> rfl

theorem State.parkDemand_eq (s : State) : s.parkDemand =
    (s.eligible.filter (fun e => e.header.urgent)).length - s.countLanes (fun l => decide (l.state = .idle)) -
      s.countLanes (fun l => decide (l.state = .yielding) && !l.parkPending) := rfl

theorem Lane.parkPending_iff (l : Lane) : l.parkPending = true ↔ ∃ b, l.request = .park b := by
  unfold Lane.parkPending
  cases l.request <;> simp

theorem State.parkCandidate_iff (s : State) (n : LaneId) : s.parkCandidate n = true ↔
    (s.lane n).state = .active ∧ (s.lane n).endMark = false ∧ (s.lane n).request = .none ∧
      ∃ e, s.laneEntry n = some e ∧ e.header.urgent = false ∧ e.header.kind.housekeeping = false := by
  simp [State.parkCandidate, Option.any_eq_true, and_assoc]

/-- A lane's rank is the place of its order's entry, the first and only one with its slot (R142, R166). -/
theorem State.laneRank_eq {s : State} {n : LaneId} {i : Nat} {e : Entry}
    (hn : (s.table.map (fun x => x.slot)).Nodup) (hi : s.table[i]? = some e) (ho : (s.lane n).order = some e.slot) :
    s.laneRank n = i := by
  obtain ⟨hlt, rfl⟩ := List.getElem?_eq_some_iff.1 hi
  unfold State.laneRank
  rw [ho, List.findIdx_eq hlt]
  refine ⟨by simp, fun j hj => ?_⟩
  have earlier : s.table[j].slot ≠ s.table[i].slot := by
    have := List.pairwise_iff_getElem.1 hn j i (by rw [List.length_map]; omega) (by rwa [List.length_map]) hj
    rwa [List.getElem_map, List.getElem_map] at this
  simpa using earlier.symm

section
variable {s : State} {p : LaneId → Bool}

theorem State.youngestLane_eq_none (h : ∀ n, p n = false) : s.youngestLane p = none := by
  simp [State.youngestLane, h]

theorem State.oldestLane_eq_none (h : ∀ n, p n = false) : s.oldestLane p = none := by
  simp [State.oldestLane, h]

/-- The lane that passes alone, or with the later order of two (R166). -/
theorem State.youngestLane_eq {n : LaneId} (hn : p n = true)
    (ho : p (otherLane n) = true → s.laneRank (otherLane n) < s.laneRank n) : s.youngestLane p = some n := by
  unfold State.youngestLane
  cases n with
  | lane0 => rw [if_pos hn, if_neg (by simpa [otherLane] using fun h => (ho h).le)]
  | lane1 =>
    rw [hn]
    split
    next h0 => exact if_pos (by simpa [otherLane] using ho h0)
    next => rfl

/-- The lane that passes alone, or with the earlier order of two (R167). -/
theorem State.oldestLane_eq {n : LaneId} (hn : p n = true)
    (ho : p (otherLane n) = true → s.laneRank n < s.laneRank (otherLane n)) : s.oldestLane p = some n := by
  unfold State.oldestLane
  cases n with
  | lane0 => rw [if_pos hn, if_neg (by simpa [otherLane] using fun h => (ho h).le)]
  | lane1 =>
    rw [hn]
    split
    next h0 => exact if_pos (by simpa [otherLane] using ho h0)
    next => rfl

end

theorem State.freeBank_eq_none {s : State} (h : ∀ b : Fin 4, s.banks[b] ≠ .free) : s.freeBank = none :=
  List.find?_eq_none.2 fun b _ hb => h b (eq_of_beq hb)

theorem State.freeBank_eq {s : State} {b : Fin 4} (hb : s.banks[b] = .free)
    (hlower : ∀ k : Fin 4, k < b → s.banks[k] ≠ .free) : s.freeBank = some b := by
  refine List.find?_eq_some_iff_getElem.2 ⟨by simp [hb], b.val, by simp, by simp, fun j hj => ?_⟩
  simpa using hlower ⟨j, by omega⟩ hj

/-! ## The commands -/

/-- Outside RUNNING, or with no demand, candidate or FREE bank, nothing is posted (R166, R176). -/
theorem exec_parkRequest_of_nothing {s : State}
    (h : s.engine.state ≠ .running ∨ s.parkDemand ≤ s.parksPending ∨ (∀ n, s.parkCandidate n = false) ∨
      (∀ b : Fin 4, s.banks[b] ≠ .free)) : exec .parkRequest s = .next s := by
  show execParkRequest s = _
  unfold execParkRequest
  split
  next hd =>
    obtain ⟨hrun, hdemand⟩ := hd
    rcases h with h | h | h | h
    · exact absurd hrun h
    · omega
    · rw [State.youngestLane_eq_none h]
    · rw [State.freeBank_eq_none h]
      cases s.youngestLane s.parkCandidate <;> rfl
  next => rfl

theorem exec_parkRequest {s : State} {n : LaneId} {b : Fin 4} (hrun : s.engine.state = .running)
    (hdemand : s.parksPending < s.parkDemand) (hn : s.youngestLane s.parkCandidate = some n)
    (hb : s.freeBank = some b) : exec .parkRequest s = .next (s.requestPark n b) := by
  show execParkRequest s = _
  unfold execParkRequest
  rw [if_pos ⟨hrun, hdemand⟩, hn, hb]

theorem exec_parkWithdraw_of_demand {s : State} (h : s.parksPending ≤ s.parkDemand) :
    exec .parkWithdraw s = .next s :=
  congrArg Host.Outcome.next (if_neg (Nat.not_lt.2 h))

theorem exec_parkWithdraw {s : State} {n : LaneId} (hdemand : s.parkDemand < s.parksPending)
    (hn : s.oldestLane (fun k => (s.lane k).parkPending) = some n) :
    exec .parkWithdraw s = .next (s.withdrawPark n) := by
  show execParkWithdraw s = _
  unfold execParkWithdraw
  rw [if_pos hdemand, hn]

/-- Settles O32: the demand and the choices by their lemmas, the two commands by what they choose. -/
theorem parkRequestsAndWithdrawals : Obligations.ParkRequestsAndWithdrawals := by
  intro s urgent count idle yielding
  have counted (p : Lane → Bool) : s.countLanes p = count p := s.countLanes_eq p
  refine ⟨by rw [State.parkDemand_eq, counted, counted], counted _, fun n => (s.lane n).parkPending_iff,
    s.parkCandidate_iff, fun n i e => State.laneRank_eq, exec_parkRequest_of_nothing, exec_parkWithdraw_of_demand,
    fun n b => ⟨fun hrun hdemand hn ho hb hlower => ?request, fun hdemand hn ho => ?withdraw⟩⟩
  case request =>
    exact exec_parkRequest hrun hdemand (State.youngestLane_eq hn ho) (State.freeBank_eq hb hlower)
  case withdraw =>
    have pending : (s.lane n).parkPending = true := (Lane.parkPending_iff _).2 ⟨b, hn⟩
    rw [exec_parkWithdraw hdemand (State.oldestLane_eq pending ho), State.withdrawPark,
      State.freeRequestBank_of_park hn]

end Sys2Proof.Machine
end

section
/-! A run timer that comes to the order time limit (R170, R172, log 5). -/

namespace Sys2Proof.Machine

/-- A run timer counts on a lane that is ACTIVE or YIELDING, with its end mark clear and no park under way (R172). -/
theorem State.runTimerCounts_lane {s : State} {n : LaneId} (h : s.runTimerCounts n = true) :
    ((s.lane n).state = .active ∨ (s.lane n).state = .yielding) ∧ (s.lane n).endMark = false ∧
      (s.lane n).parkUnderWay = false := by
  simp only [State.runTimerCounts, Lane.busy, Bool.and_eq_true, Bool.or_eq_true, beq_iff_eq, Bool.not_eq_true'] at h
  obtain ⟨⟨⟨-, hbusy⟩, hmark⟩, hpark⟩ := h
  exact ⟨hbusy, hmark, hpark⟩

/-- The state with a lane's run timer at the limit, before the lane posts TIME_LIMIT to itself (R172, log 5). -/
def State.atLimit (s : State) (n : LaneId) : State := s.setLane n { s.lane n with runTimer := s.limitMicros }

theorem State.atLimit_lane (s : State) (n : LaneId) :
    (s.atLimit n).lane n = { s.lane n with runTimer := s.limitMicros } :=
  State.lane_setLane _ _ _

/-- The bank that a PARK reserves is freed alike under a lane that changes, but for its request. -/
theorem State.freeRequestBank_setLane {s : State} {n : LaneId} {l : Lane} (h : l.request = (s.lane n).request) :
    (s.setLane n l).freeRequestBank n = (s.freeRequestBank n).setLane n l := by
  unfold State.freeRequestBank
  rw [State.lane_setLane, h]
  split
  · cases n <;> rfl
  all_goals rfl

section
variable {s : State} {n : LaneId} (hcounts : s.runTimerCounts n = true) (hset : s.engine.anchor.timeLimit ≠ 0)
  (hbelow : (s.lane n).runTimer < s.limitMicros)
include hcounts hset hbelow

theorem exec_timeLimit : exec (.timeLimit n) s = .next ((s.atLimit n).post n .timeLimit) :=
  congrArg Host.Outcome.next (if_pos ⟨hcounts, hset, hbelow⟩)

/-- Over no request or a PARK, TIME_LIMIT is pending and the lane YIELDING; a PARK's bank is freed (R168, R170). -/
theorem exec_timeLimit_replaces (hrank : (s.lane n).request.rank < StopRequest.timeLimit.rank) :
    exec (.timeLimit n) s = .next ((s.freeRequestBank n).setLane n
      { s.lane n with runTimer := s.limitMicros, request := .timeLimit, state := .yielding }) := by
  obtain ⟨hbusy, hmark, hpark⟩ := State.runTimerCounts_lane hcounts
  have lane := s.atLimit_lane n
  have bank : (s.atLimit n).freeRequestBank n = (s.freeRequestBank n).setLane n _ := State.freeRequestBank_setLane rfl
  rw [exec_timeLimit hcounts hset hbelow, State.post_replaces _ _ _ (by rwa [lane]) (by rwa [lane]) (by rwa [lane])
    (by rwa [lane]), lane, bank, State.setLane_setLane]

/-- A CANCEL or ENGINE_STOP outranks TIME_LIMIT, which is dropped: only the run timer has moved (R170). -/
theorem exec_timeLimit_dropped (hrank : StopRequest.timeLimit.rank ≤ (s.lane n).request.rank) :
    exec (.timeLimit n) s = .next (s.atLimit n) := by
  rw [exec_timeLimit hcounts hset hbelow, State.post_dropped (by rwa [s.atLimit_lane n])]

end

/-- Settles O43: the request pending either is outranked by TIME_LIMIT and replaced, or outranks it. -/
theorem timeLimitPostsToItsLane : Obligations.TimeLimitPostsToItsLane := by
  intro s n hcounts hset hbelow
  refine ⟨fun hq => ?none, fun b hq => ?park, fun hq => ?outranked⟩
  case none =>
    rw [exec_timeLimit_replaces hcounts hset hbelow (by rw [hq]; decide),
      State.freeRequestBank_of_no_park (by rw [hq]; exact fun _ => nofun)]
    rfl
  case park =>
    rw [exec_timeLimit_replaces hcounts hset hbelow (by rw [hq]; exact Nat.one_lt_two),
      State.freeRequestBank_of_park hq]
    rfl
  case outranked =>
    refine exec_timeLimit_dropped hcounts hset hbelow ?_
    rcases hq with hq | hq <;> rw [hq] <;> decide

end Sys2Proof.Machine
end

section
/-! HALTED: no event of the engine happens there, and a register write changes registers alone (R174, R177, R178, R187,
R191, R192, R198 to R202). -/

namespace Sys2Proof.Machine

/-! ## What a register access may change in HALTED -/

/-- The state with other sticky flags, IRQ enables, notify-pending, Window Port, word read last and free counter. -/
def State.withRegisters (s : State) (flags irq : StickyBits) (notify : Nat) (window : WindowPort) (readData : Word)
    (free : Nat) : State :=
  { s with
    engine := { s.engine with flags := flags, irqEnables := irq }
    writer := { s.writer with notifyPending := notify }
    window := window
    readData := readData
    free := free }

/-- `t` differs from `s` in registers at most. -/
def State.RegistersOnly (s t : State) : Prop :=
  ∃ flags irq notify window readData free, t = s.withRegisters flags irq notify window readData free

theorem State.RegistersOnly.refl (s : State) : s.RegistersOnly s := ⟨_, _, _, _, _, _, rfl⟩

theorem State.RegistersOnly.mem {s t : State} (h : s.RegistersOnly t) : t.mem = s.mem := by
  obtain ⟨_, _, _, _, _, _, rfl⟩ := h
  rfl

/-- No register is among what makes the engine HALTED (R177). -/
theorem State.Halted.registersOnly {s t : State} (h : s.Halted) (ht : s.RegistersOnly t) : t.Halted := by
  obtain ⟨_, _, _, _, _, _, rfl⟩ := ht
  exact ⟨h.state, h.access, fun n => by cases n; exacts [h.lanes .lane0, h.lanes .lane1], h.slate, h.writer⟩

/-! ## No event happens -/

section
variable {s : State} (h : s.Halted)
include h

theorem State.Halted.work (n : LaneId) : (s.lane n).work = .none := (h.lanes n).1

theorem State.Halted.runTimerCounts (n : LaneId) : s.runTimerCounts n = false := by
  obtain ⟨-, -, hstate⟩ := h.lanes n
  rcases hstate with hs | hs <;> simp [State.runTimerCounts, Lane.busy, hs]

theorem State.Halted.sweepTimerCounts : s.sweepTimerCounts = false := by
  simp [State.sweepTimerCounts, h.state]

theorem State.Halted.tick : s.tick = s := by
  rw [State.tick_of_no_lane h.runTimerCounts, State.tickSweep_still h.sweepTimerCounts]

theorem State.Halted.parksPending : s.parksPending = 0 := by
  have noPark (n : LaneId) : (s.lane n).parkPending = false := by
    obtain ⟨-, hrequest, -⟩ := h.lanes n
    unfold Lane.parkPending
    rw [hrequest]
  unfold State.parksPending State.countLanes
  rw [show s.lane0.parkPending = false from noPark .lane0, show s.lane1.parkPending = false from noPark .lane1]
  rfl

theorem State.Halted.faultOf (r : Requester) : s.faultOf r = none := by
  cases r with
  | slateReader => simp [State.faultOf, State.readerFault, h.slate]
  | lane n => exact State.faultOf_lane_other (by simp [h.work n]) (by simp [h.work n])
  | completionWriter =>
    obtain ⟨hstep, -⟩ := h.writer
    simp [State.faultOf, State.writerFault, hstep]

/-! ## Register accesses -/

/-- A CONTROL write stores its IRQ enables and does no more (R178). -/
theorem State.Halted.controlWrite (enable pause : Bool) (irq : StickyBits) :
    s.controlWrite enable pause irq = s.storeIrq irq := by
  have hstate : (s.storeIrq irq).engine.state = .halted := h.state
  have hfields : (s.storeIrq irq).controlFields enable pause = s.storeIrq irq := by
    unfold State.controlFields
    rw [hstate]
  rw [State.controlWrite_eq (f := id) hfields, State.asOneEvent_of_none_handed _ _ rfl]
  rfl

theorem State.Halted.cancelSlot (i : Nat) : s.cancelSlot i = s.cancelMissed := by
  unfold State.cancelSlot
  rw [h.state]
  rfl

theorem State.Halted.writeWindow (v : Word) : s.writeWindow v = s.windowRefused :=
  State.writeWindow_not_permitted (by simp [h.state]) (by simp [h.state]) v

/-- Every command but the two resets leaves all but the registers as it stands: a register write changes its register,
and no event of the engine happens. -/
theorem State.Halted.exec {c : Instr} (hpower : c ≠ .powerOnReset) (hsoft : ∀ irq, c ≠ .softReset irq) {t : State}
    (he : exec c s = .next t) : s.RegistersOnly t := by
  have unchanged (hs : Machine.exec c s = .next s) : s.RegistersOnly t := by
    obtain rfl := Host.Outcome.next.inj (hs.symm.trans he)
    exact .refl s
  obtain ⟨writerIdle, noneWait⟩ := h.writer
  cases c
  case powerOnReset => exact absurd rfl hpower
  case softReset irq => exact absurd rfl (hsoft irq)
  case enable | engineStop | pause | pauseRelease =>
    obtain rfl := Host.Outcome.next.inj he
    rw [h.controlWrite]
    exact ⟨_, _, _, _, _, _, rfl⟩
  case irqEnableWrite | statusClear | ack | windowAddrWrite | windowDataRead =>
    obtain rfl := Host.Outcome.next.inj he
    exact ⟨_, _, _, _, _, _, rfl⟩
  case anchorWrite =>
    obtain rfl := Host.Outcome.next.inj he
    rw [h.state]
    exact ⟨_, _, _, _, _, _, rfl⟩
  case cancel =>
    obtain rfl := Host.Outcome.next.inj he
    rw [h.cancelSlot]
    exact ⟨_, _, _, _, _, _, rfl⟩
  case windowDataWrite v =>
    obtain rfl := Host.Outcome.next.inj ((exec_windowDataWrite_of_refused s v (h.writeWindow v)).symm.trans he)
    exact ⟨_, _, _, _, _, _, rfl⟩
  case registerWriteOther => exact unchanged rfl
  case nudge => exact unchanged (congrArg _ (State.requestSweep_ignored (by simp [h.state])))
  case sweepTimerExpiry =>
    exact unchanged (congrArg _ (if_neg (by rw [h.sweepTimerCounts]; exact Bool.false_ne_true)))
  case anchorReadDone | completionWordReadDone =>
    obtain rfl := Host.Outcome.next.inj he
    rw [h.access]
    exact .refl s
  case headerReadDone | bodyReadDone | take | handBackWriteAccept =>
    obtain rfl := Host.Outcome.next.inj he
    rw [h.slate]
    exact .refl s
  case handBack =>
    obtain rfl := Host.Outcome.next.inj he
    rw [h.state]
    exact .refl s
  case completion =>
    obtain rfl := Host.Outcome.next.inj he
    rw [noneWait, List.getElem?_nil]
    cases s.writer.step <;> exact .refl s
  case resultAreaWriteAccept | stateWriteAccept | completionWordWriteAccept =>
    obtain rfl := Host.Outcome.next.inj he
    rw [writerIdle]
    exact .refl s
  case startEvent => exact unchanged (exec_startEvent_of_nothing (.inl (by simp [h.state])))
  case parkRequest => exact unchanged (exec_parkRequest_of_nothing (.inl (by simp [h.state])))
  case parkWithdraw => exact unchanged (exec_parkWithdraw_of_demand (by rw [h.parksPending]; exact Nat.zero_le _))
  case progressRunningAccept n | startClaim n | startTest n | imageReadDone n _ _ | loadClaim n
    | presetRecordReadDone n _ | apply n | latch n | snapshotRecordWriteAccept n | clear n | markReadDone n _
    | sourceReadDone n _ | destinationReadDone n _ | destinationWriteAccept n | exceptionRecordWriteAccept n
    | cellBoundary n | commit n | parkComplete n =>
    obtain rfl := Host.Outcome.next.inj he
    rw [h.work n]
    exact .refl s
  case timeLimit n =>
    refine unchanged (congrArg _ (if_neg fun counts => ?_))
    rw [h.runTimerCounts n] at counts
    exact Bool.false_ne_true counts.1
  case memoryFault n _ =>
    obtain rfl := Host.Outcome.next.inj he
    rw [h.work n]
    cases s.laneEntry n <;> exact .refl s
  case slateFault r took => exact unchanged (exec_slateFault_of_none took (h.faultOf r))

end

/-- Settles O60: a µs moves no timer of a halted engine, and a command other than a reset changes registers alone. -/
theorem haltedEndsOnlyAtAReset : Obligations.HaltedEndsOnlyAtAReset := by
  intro s t h hpower hsoft hs
  cases hq : s.pending with
  | nil =>
    rw [step_of_empty hq, h.tick] at hs
    obtain rfl := Host.Outcome.next.inj hs
    exact ⟨h, rfl⟩
  | cons c rest =>
    rw [hq, List.head?_cons, ne_eq, Option.some_inj] at hpower
    simp only [hq, List.head?_cons, ne_eq, Option.some_inj] at hsoft
    have front : ({ s with pending := rest } : State).Halted := ⟨h.state, h.access, h.lanes, h.slate, h.writer⟩
    have changed : ({ s with pending := rest } : State).RegistersOnly t :=
      front.exec hpower hsoft (by unfold step at hs; rwa [hq] at hs)
    exact ⟨front.registersOnly changed, changed.mem⟩

end Sys2Proof.Machine
end

section
/-! Power-on reset, CONTROL writes of no effect, register writes that carry one event to one block, and cancels that miss
(R178, R187 to R192, R195 to R198). -/

namespace Sys2Proof.Machine

/-! ## POWER_ON_RESET -/

/-- POWER_ON_RESET leaves the state after reset, but for memory, the part fitted, the queue and the free counter
(R195). -/
theorem exec_powerOnReset (s : State) : exec .powerOnReset s =
    .next { State.reset with part := s.part, mem := s.mem, free := s.free, pending := s.pending } := rfl

/-- Memory, the part fitted, the free counter and the queue hold no power-on value. -/
theorem State.PowerOnValues.replace {s : State} (h : s.PowerOnValues) (part : Part) (mem : Memory) (free : Nat)
    (pending : List Instr) :
    ({ s with part := part, mem := mem, free := free, pending := pending } : State).PowerOnValues where
  engine := h.engine
  slate := h.slate
  table := h.table
  lanes n := by cases n; exacts [h.lanes .lane0, h.lanes .lane1]
  banks := h.banks
  parkOrder := h.parkOrder
  uses := h.uses
  writer := h.writer
  window := h.window
  anchorReg := h.anchorReg
  irqEnables := h.irqEnables
  sets := h.sets
  accums := h.accums

/-- Settles O4: the power-on values are those of the state after reset, which O3 gives, whatever memory holds. -/
theorem powerOnResetClearsAllButMemory : Obligations.PowerOnResetClearsAllButMemory := fun s =>
  ⟨_, exec_powerOnReset s, State.reset_powerOnValues.replace s.part s.mem s.free s.pending, rfl, rfl, rfl, rfl⟩

/-! ## CONTROL writes of no effect -/

/-- The rows of R178's table that give ENABLE and PAUSE of a CONTROL write no effect, by the engine state. -/
def EngineState.ControlIdle (x : EngineState) (enable pause : Bool) : Prop :=
  (x = .stopping ∨ x = .halted) ∨ (x = .off ∧ enable = false) ∨ (x = .starting ∧ enable = true) ∨
    (x = .running ∧ enable = true ∧ pause = false) ∨
    ((x = .pausing ∨ x = .paused) ∧ enable = true ∧ pause = true)

theorem State.controlFields_of_idle {s : State} {enable pause : Bool} (h : s.engine.state.ControlIdle enable pause) :
    s.controlFields enable pause = s := by
  unfold State.controlFields
  rcases h with (hs | hs) | ⟨hs, rfl⟩ | ⟨hs, rfl⟩ | ⟨hs, rfl, rfl⟩ | ⟨hs | hs, rfl, rfl⟩ <;> rw [hs]

/-- A CONTROL write whose ENABLE and PAUSE have no effect stores its IRQ enables and hands nothing over (R178). -/
theorem State.controlWrite_of_idle {s : State} {enable pause : Bool} (irq : StickyBits)
    (h : s.engine.state.ControlIdle enable pause) : s.controlWrite enable pause irq = s.storeIrq irq := by
  have fields : (s.storeIrq irq).controlFields enable pause = s.storeIrq irq := State.controlFields_of_idle h
  rw [State.controlWrite_eq (f := id) fields, State.asOneEvent_of_none_handed _ _ rfl]
  rfl

/-- Settles O7: each write is a CONTROL write in a row of R178's table without effect. -/
theorem controlWritesOfNoEffect : Obligations.ControlWritesOfNoEffect := by
  intro s p irq stored
  have idle {enable pause : Bool} (h : s.engine.state.ControlIdle enable pause) :
      .next (s.controlWrite enable pause irq) = stored := congrArg _ (State.controlWrite_of_idle irq h)
  refine ⟨rfl, fun hs => ?enabled, fun hs => ?running, fun hs => ?paused, fun hs => ?disabled⟩
  case enabled =>
    have any (pause : Bool) : s.engine.state.ControlIdle true pause := by
      rcases hs with hs | hs | hs
      · exact .inr (.inr (.inl ⟨hs, rfl⟩))
      · exact .inl (.inl hs)
      · exact .inl (.inr hs)
    exact ⟨idle (any p), idle (any true), idle (any false)⟩
  case running =>
    have release : s.engine.state.ControlIdle true false := .inr (.inr (.inr (.inl ⟨hs, rfl, rfl⟩)))
    exact ⟨idle release, idle release⟩
  case paused =>
    have pause : s.engine.state.ControlIdle true true := .inr (.inr (.inr (.inr ⟨hs, rfl, rfl⟩)))
    exact ⟨idle pause, idle pause⟩
  case disabled =>
    rcases hs with hs | hs | hs
    · exact idle (.inr (.inl ⟨hs, rfl⟩))
    · exact idle (.inl (.inl hs))
    · exact idle (.inl (.inr hs))

/-! ## STATUS, ANCHOR, ACK and the writes that are ignored -/

/-- A flag stands set after STATUS_CLEAR where it was set and the write carries 0 for it (R191). -/
theorem exec_statusClear (s : State) (clear : StickyBits) :
    exec (.statusClear clear) s = .next (s.setFlags (fun flags => stickyCleared flags clear)) := rfl

theorem exec_anchorWrite_of_off {s : State} (hs : s.engine.state = .off) (v : Word) :
    exec (.anchorWrite v) s = .next { s with engine := { s.engine with anchorReg := v } } := by
  show execAnchorWrite v s = _
  unfold execAnchorWrite
  rw [hs]

theorem exec_anchorWrite_refused {s : State} (hs : s.engine.state ≠ .off) (v : Word) :
    exec (.anchorWrite v) s = .next s.windowRefused := by
  show execAnchorWrite v s = _
  unfold execAnchorWrite
  split
  next off => exact absurd off hs
  all_goals rfl

theorem exec_ack (s : State) (n : Word) : exec (.ack n) s = .next
    (s.setWriter { s.writer with notifyPending := s.writer.notifyPending - min n.toNat s.writer.notifyPending }) := rfl

/-- Settles O12: each register by its write, ANCHOR by whether the engine is OFF. -/
theorem registerWritesStoreClearAndCount : Obligations.RegisterWritesStoreClearAndCount := fun s clear v n _ _ =>
  ⟨exec_statusClear s clear, fun hs => exec_anchorWrite_of_off hs v, fun hs => exec_anchorWrite_refused hs v,
    exec_ack s n, rfl⟩

/-! ## Cancels that miss -/

/-- A cancel misses unless the engine takes cancels, the index is that of a slot and an entry that holds it is reached
(R187, R198). -/
theorem exec_cancel_missed {s : State} {v : Word}
    (h : ∀ e, s.engine.state.takesCancels = true → v.toNat % 65536 < s.engine.anchor.slotCount →
      s.entry? (v.toNat % 65536) = some e → s.cancelEntry e = s.cancelMissed) :
    exec (.cancel v) s = .next s.cancelMissed := by
  have slot : s.cancelSlot (v.toNat % 65536) = s.cancelMissed := by
    unfold State.cancelSlot
    split
    next reaches =>
      rw [Bool.and_eq_true, decide_eq_true_iff] at reaches
      split
      next e he => exact h e reaches.1 reaches.2 he
      next => rfl
    next => rfl
  exact congrArg Host.Outcome.next slot

theorem State.cancelEntry_handBack {s : State} {e : Entry} (hp : e.pendingCancel = false) (hw : e.phase = .waiting)
    (hb : e.handBack = true) : s.cancelEntry e = s.cancelMissed := by
  simp [State.cancelEntry, State.cancelWaiting, hp, hw, hb]

theorem State.cancelEntry_unstoppable {s : State} {e : Entry} (hp : e.pendingCancel = false) (hr : e.phase = .running)
    (hl : (s.lane e.lane).parkUnderWay = false)
    (hk : e.header.kind.housekeeping = true ∨ (s.lane e.lane).endMark = true) : s.cancelEntry e = s.cancelMissed := by
  simp [State.cancelEntry, State.cancelRunning, hp, hr, hl, hk]

theorem State.cancelEntry_ended {s : State} {e : Entry} (hp : e.pendingCancel = false) (hr : e.phase = .parked)
    (hend : e.ended = true) : s.cancelEntry e = s.cancelMissed := by
  simp [State.cancelEntry, State.cancelParked, hp, hr, hend]

/-- Settles O14: no entry is reached, or the one reached is past cancelling in its phase. -/
theorem cancelMissesWhatItCannotReach : Obligations.CancelMissesWhatItCannotReach := by
  intro s v
  have entryMissed {e : Entry} (he : s.entry? (v.toNat % 65536) = some e) (hm : s.cancelEntry e = s.cancelMissed) :
      exec (.cancel v) s = .next s.cancelMissed :=
    exec_cancel_missed fun x _ _ hx => by
      obtain rfl := Option.some.inj (he.symm.trans hx)
      exact hm
  refine ⟨fun hs => ?state, fun hi => ?range, fun hn => ?held, fun e he hp hw hb => ?waiting,
    fun e he hp hr hl hk => ?running, fun e he hp hr hend => ?parked⟩
  case state =>
    have refuses : s.engine.state.takesCancels = false := by
      rcases hs with hs | hs | hs <;> exact congrArg EngineState.takesCancels hs
    exact exec_cancel_missed fun e takes _ _ => absurd (refuses.symm.trans takes) nofun
  case range => exact exec_cancel_missed fun e _ hlt _ => absurd hlt (Nat.not_lt.2 hi)
  case held => exact exec_cancel_missed fun e _ _ he => absurd (hn.symm.trans he) nofun
  case waiting => exact entryMissed he (State.cancelEntry_handBack hp hw hb)
  case running => exact entryMissed he (State.cancelEntry_unstoppable hp hr hl hk)
  case parked => exact entryMissed he (State.cancelEntry_ended hp hr hend)

end Sys2Proof.Machine
end

section
/-! What the registers read, bit by bit and at any width, and the level of IRQ (R193, R196 to R198, R200, R201). -/

namespace Sys2Proof.Machine

/-! ## The register at each offset -/

@[simp] theorem State.readRegister_ident (s : State) : s.readRegister 0x00 = identWord s.part := rfl
@[simp] theorem State.readRegister_control (s : State) : s.readRegister 0x04 = s.controlWord := rfl
@[simp] theorem State.readRegister_status (s : State) : s.readRegister 0x08 = s.statusWord := rfl
@[simp] theorem State.readRegister_windowAddr (s : State) : s.readRegister 0x1C = s.windowAddrWord := rfl

/-! ## CONTROL -/

theorem EngineState.enabled_iff (x : EngineState) :
    x.enabled = true ↔ x = .starting ∨ x = .running ∨ x = .pausing ∨ x = .paused := by cases x <;> decide

theorem EngineState.freezes_iff (x : EngineState) : x.freezes = true ↔ x = .pausing ∨ x = .paused := by
  cases x <;> decide

/-- The two lowest bits of CONTROL, below its IRQ enables (R178, R198). -/
theorem State.controlWord_state (s : State) : s.controlWord.getLsbD 0 = s.engine.state.enabled ∧
    s.controlWord.getLsbD 1 = s.engine.state.freezes := by
  have low (e p : Bool) (j : Nat) (hj : j < 2) :
      (BitVec.ofNat 32 (e.toNat + 2 * p.toNat + stickyWord s.engine.irqEnables)).getLsbD j =
        (e.toNat + 2 * p.toNat).testBit j := by
    have he := Bool.toNat_le e
    have hp := Bool.toNat_le p
    have split : e.toNat + 2 * p.toNat + stickyWord s.engine.irqEnables =
        2 ^ 2 * (stickyWord s.engine.irqEnables / 4) + (e.toNat + 2 * p.toNat) := by
      unfold stickyWord
      omega
    rw [BitVec.getLsbD_ofNat, split, Nat.testBit_two_pow_mul_add _ (by omega), if_pos hj,
      decide_eq_true (by omega : j < 32), Bool.true_and]
  unfold State.controlWord
  rw [low _ _ 0 (by decide), low _ _ 1 (by decide)]
  cases s.engine.state <;> exact ⟨rfl, rfl⟩

/-- The bits of CONTROL from bit 2 up (R178). -/
theorem State.controlWord_bits (s : State) : s.controlWord.getLsbD 8 = s.engine.irqEnables.anchorFault ∧
    s.controlWord.getLsbD 9 = s.engine.irqEnables.slateFault ∧
    s.controlWord.getLsbD 10 = s.engine.irqEnables.cancelMiss ∧
    s.controlWord.getLsbD 11 = s.engine.irqEnables.windowRefused ∧
    ∀ i, 2 ≤ i → i < 8 ∨ 12 ≤ i → s.controlWord.getLsbD i = false := by
  obtain ⟨h8, h9, h10, h11, clear⟩ := controlBits s.engine.state.enabled s.engine.state.freezes
    s.engine.irqEnables.anchorFault s.engine.irqEnables.slateFault s.engine.irqEnables.cancelMiss
    s.engine.irqEnables.windowRefused
  refine ⟨h8, h9, h10, h11, fun i h2 h => ?_⟩
  by_cases hi : i < 32
  · exact clear ⟨i, hi⟩ h2 h
  · exact BitVec.getLsbD_of_ge _ _ (Nat.not_lt.1 hi)

/-! ## STATUS -/

/-- The engine state and the sticky flags fill the low half of STATUS at most. -/
theorem Engine.statusLow_lt (x : Engine) : x.state.code + stickyWord x.flags < 65536 :=
  (statusLow x.state x.flags.anchorFault x.flags.slateFault x.flags.cancelMiss x.flags.windowRefused).1

/-- The low half of STATUS stands below notify-pending (R192, R196). -/
theorem State.statusWord_low (s : State) {i : Nat} (hi : i < 16) :
    s.statusWord.getLsbD i = (s.engine.state.code + stickyWord s.engine.flags).testBit i := by
  unfold State.statusWord
  rw [BitVec.getLsbD_ofNat, Nat.add_comm _ (65536 * _),
    Nat.testBit_two_pow_mul_add (i := 16) _ s.engine.statusLow_lt, if_pos hi, decide_eq_true (by omega : i < 32), Bool.true_and]

theorem statusFlagBits (x : EngineState) : ∀ a b c d : Bool,
    (x.code + stickyWord ⟨a, b, c, d⟩).testBit 8 = a ∧ (x.code + stickyWord ⟨a, b, c, d⟩).testBit 9 = b ∧
      (x.code + stickyWord ⟨a, b, c, d⟩).testBit 10 = c ∧ (x.code + stickyWord ⟨a, b, c, d⟩).testBit 11 = d := by
  cases x <;> decide

/-- The sticky flags in STATUS (R191). -/
theorem State.statusWord_flags (s : State) : s.statusWord.getLsbD 8 = s.engine.flags.anchorFault ∧
    s.statusWord.getLsbD 9 = s.engine.flags.slateFault ∧ s.statusWord.getLsbD 10 = s.engine.flags.cancelMiss ∧
    s.statusWord.getLsbD 11 = s.engine.flags.windowRefused := by
  simp only [s.statusWord_low (i := 8) (by decide), s.statusWord_low (i := 9) (by decide),
    s.statusWord_low (i := 10) (by decide), s.statusWord_low (i := 11) (by decide)]
  exact statusFlagBits _ _ _ _ _

theorem EngineState.code_lt (x : EngineState) : x.code < 8 := by cases x <;> decide

/-- STATUS as a number, its three parts one above the other (R191, R192, R196). -/
theorem State.statusWord_toNat (s : State) (h : s.writer.notifyPending ≤ 65535) :
    s.statusWord.toNat = s.engine.state.code + stickyWord s.engine.flags + 65536 * s.writer.notifyPending := by
  have := s.engine.statusLow_lt
  unfold State.statusWord
  rw [BitVec.toNat_ofNat, Nat.mod_eq_of_lt (by omega)]

/-- The engine state in the three lowest bits of STATUS (R196, R205). -/
theorem State.statusWord_code (s : State) : (s.statusWord.extractLsb' 0 3).toNat = s.engine.state.code := by
  have := s.engine.state.code_lt
  unfold State.statusWord stickyWord
  rw [BitVec.extractLsb'_toNat, BitVec.toNat_ofNat, Nat.shiftRight_zero]
  omega

/-- Notify-pending in the upper half of STATUS (R192, R196). -/
theorem State.statusWord_notify (s : State) (h : s.writer.notifyPending ≤ 65535) :
    s.statusWord.toNat / 65536 = s.writer.notifyPending := by
  rw [s.statusWord_toNat h, Nat.add_mul_div_left _ _ (by decide), Nat.div_eq_of_lt s.engine.statusLow_lt,
    Nat.zero_add]

/-! ## WINDOW_ADDR -/

/-- The window address in the low bits of WINDOW_ADDR (R200). -/
theorem State.windowAddrWord_addr (s : State) : s.windowAddrWord.extractLsb' 0 11 = s.window.addr := by
  have := s.window.addr.isLt
  apply BitVec.eq_of_toNat_eq
  unfold State.windowAddrWord
  rw [BitVec.extractLsb'_toNat, BitVec.toNat_ofNat, Nat.shiftRight_zero]
  omega

/-- The auto-increment flag in the top bit of WINDOW_ADDR (R200). -/
theorem State.windowAddrWord_autoIncrement (s : State) : s.windowAddrWord.getLsbD 31 = s.window.autoIncrement := by
  have small : s.window.addr.toNat < 2 ^ 31 := by have := s.window.addr.isLt; omega
  unfold State.windowAddrWord
  rw [BitVec.getLsbD_ofNat, Nat.add_comm, Nat.testBit_two_pow_mul_add (i := 31) _ small]
  cases s.window.autoIncrement <;> rfl

/-! ## Reads of any width, and IRQ -/

theorem State.readRegisterBytes_length (s : State) (offset : BitVec 6) (n : Nat) :
    (s.readRegisterBytes offset n).length = n := by
  unfold State.readRegisterBytes
  rw [List.length_map, List.length_range]

/-- A byte of a read is that of the register in which its own offset lies (R196). -/
theorem State.readRegisterBytes_getElem? (s : State) {offset : BitVec 6} {n : Nat} (hn : offset.toNat + n ≤ 64)
    {i : Nat} (hi : i < n) : (s.readRegisterBytes offset n)[i]? =
      some ((s.readRegister (BitVec.ofNat 6 ((offset.toNat + i) / 4 * 4))).extractLsb'
        (8 * ((offset.toNat + i) % 4)) 8) := by
  have place : offset + BitVec.ofNat 6 i = BitVec.ofNat 6 (offset.toNat + i) := by
    rw [BitVec.ofNat_add, BitVec.ofNat_toNat, BitVec.setWidth_eq]
  have inside : (BitVec.ofNat 6 (offset.toNat + i)).toNat = offset.toNat + i :=
    (BitVec.toNat_ofNat _ _).trans (Nat.mod_eq_of_lt (by omega))
  unfold State.readRegisterBytes
  rw [List.getElem?_map, List.getElem?_range hi, Option.map_some, place]
  unfold State.readRegisterByte
  rw [inside, readRegister_aligned s _ (by omega)]

theorem State.irq_iff (s : State) : s.irq = true ↔ 0 < s.writer.notifyPending ∨
    (s.engine.flags.anchorFault = true ∧ s.engine.irqEnables.anchorFault = true) ∨
    (s.engine.flags.slateFault = true ∧ s.engine.irqEnables.slateFault = true) ∨
    (s.engine.flags.cancelMiss = true ∧ s.engine.irqEnables.cancelMiss = true) ∨
    (s.engine.flags.windowRefused = true ∧ s.engine.irqEnables.windowRefused = true) := by
  unfold State.irq
  simp only [Bool.or_eq_true, Bool.and_eq_true, decide_eq_true_iff, or_assoc]

/-- Settles O19: register by register, each by the bits of its word. -/
theorem registersReadTheirFields : Obligations.RegistersReadTheirFields := by
  intro s
  obtain ⟨enable, pause⟩ := s.controlWord_state
  obtain ⟨irq8, irq9, irq10, irq11, controlClear⟩ := s.controlWord_bits
  obtain ⟨flag8, flag9, flag10, flag11⟩ := s.statusWord_flags
  simp only [State.readRegister_ident, State.readRegister_control, State.readRegister_status,
    State.readRegister_windowAddr]
  exact ⟨fun hp => by rw [hp]; rfl, fun hp => by rw [hp]; rfl, enable ▸ s.engine.state.enabled_iff,
    pause ▸ s.engine.state.freezes_iff, controlClear 2 (by decide) (.inl (by decide)), irq8, irq9, irq10, irq11,
    controlClear, s.statusWord_code, flag8, flag9, flag10, flag11, statusBits s, s.statusWord_notify, rfl, rfl, rfl, rfl,
    s.windowAddrWord_addr, s.windowAddrWord_autoIncrement, addrBits _ _, rfl, readRegister_unused s,
    fun offset n hn => ⟨s.readRegisterBytes_length offset n, fun i hi => s.readRegisterBytes_getElem? hn hi⟩, s.irq_iff⟩

end Sys2Proof.Machine
end

section
/-! The window address and its auto-increment flag: stored, advanced by each data access, read back (R200 to R202). -/

namespace Sys2Proof.Machine

/-- Another Window Port that stands at the same address with the same auto-increment flag: buffer and latches may
differ. -/
structure WindowPort.SamePlace (w x : WindowPort) : Prop where
  addr : x.addr = w.addr
  autoIncrement : x.autoIncrement = w.autoIncrement

namespace WindowPort

theorem SamePlace.refl (w : WindowPort) : w.SamePlace w := ⟨rfl, rfl⟩

/-- The address moves where auto-increment is set, and the flag stands (R200). -/
theorem advance_place (w : WindowPort) : w.advance.autoIncrement = w.autoIncrement ∧
    w.advance.addr = if w.autoIncrement then w.addr + 1 else w.addr := by
  unfold WindowPort.advance
  split
  · exact ⟨rfl, rfl⟩
  · exact ⟨rfl, rfl⟩

/-- What an access does besides to buffer and latches does not bear on where it goes next. -/
theorem SamePlace.advance {w x : WindowPort} (h : w.SamePlace x) : x.advance.autoIncrement = w.autoIncrement ∧
    x.advance.addr = if w.autoIncrement then w.addr + 1 else w.addr := by
  rw [← h.addr, ← h.autoIncrement]
  exact x.advance_place

theorem samePlace_dropAccum (w : WindowPort) (i : Fin 64) : w.SamePlace (w.dropAccum i) := by
  unfold WindowPort.dropAccum
  split
  · exact ⟨rfl, rfl⟩
  · exact .refl w

theorem samePlace_dropSet (w : WindowPort) (i : Fin 8) : w.SamePlace (w.dropSet i) := by
  unfold WindowPort.dropSet
  split
  · split
    · exact ⟨rfl, rfl⟩
    · exact .refl w
  · exact .refl w

end WindowPort

/-! ## What a data access leaves of the place -/

/-- The fetch fills buffer and latches alone (R201). -/
theorem State.samePlace_fetchWord (s : State) : s.window.SamePlace s.fetchWord := by
  unfold State.fetchWord
  split
  all_goals exact ⟨rfl, rfl⟩

theorem State.samePlace_writeAccum (s : State) (i : Fin 64) (k : Nat) (v : Word) :
    s.window.SamePlace (s.writeAccum i k v).window := by
  unfold State.writeAccum
  split
  · split
    · exact s.window.samePlace_dropAccum i
    · exact .refl s.window
  · exact .refl s.window

theorem State.samePlace_writeSet (s : State) (i : Fin 8) (f : BandSet → BandSet) :
    s.window.SamePlace (s.writeSet i f).window := by
  unfold State.writeSet
  split
  · exact s.window.samePlace_dropSet i
  · exact .refl s.window

/-- A write, stored or refused, touches the latches alone before the address advances (R202). -/
theorem State.samePlace_writeWindow (s : State) (v : Word) : s.window.SamePlace (s.writeWindow v).window := by
  unfold State.writeWindow
  split
  · exact s.samePlace_writeAccum _ _ v
  · exact s.samePlace_writeSet _ _
  · exact s.samePlace_writeSet _ _
  · exact s.samePlace_writeSet _ _
  all_goals exact .refl s.window

/-! ## The commands -/

/-- A WINDOW_ADDR_WRITE stores bits 10 to 0 and bit 31; buffer and latches stand (R200). -/
theorem exec_windowAddrWrite (s : State) (v : Word) : exec (.windowAddrWrite v) s =
    .next { s with window := { s.window with addr := v.extractLsb' 0 11, autoIncrement := v.getLsbD 31 } } := rfl

theorem exec_windowDataRead (s : State) : exec .windowDataRead s =
    .next { s with readData := s.window.buffer, window := s.fetchWord.advance, free := s.free + 1 } := rfl

/-- Settles O16: both data accesses advance from the place that their other effects keep. -/
theorem windowAddressStoredAndAdvanced : Obligations.WindowAddressStoredAndAdvanced := by
  intro s v
  refine ⟨⟨_, exec_windowAddrWrite s v, rfl, _, exec_windowDataRead _, rfl⟩,
    ⟨_, exec_windowDataRead s, s.samePlace_fetchWord.advance⟩,
    ⟨_, exec_windowDataWrite s v, (s.samePlace_writeWindow v).advance⟩, ?address, ?flag⟩
  case address => rw [State.readRegister_windowAddr, State.windowAddrWord_addr]
  case flag => rw [State.readRegister_windowAddr, State.windowAddrWord_autoIncrement]

end Sys2Proof.Machine
end

section
/-! What one step does to memory, and the canonical form of memory at every step (R31, R33, R144, R152, R153, R173,
R184, R194, logs 1, 2, 7, 9). -/

namespace Sys2Proof.Machine

/-! ## What a command does to memory -/

theorem State.writeSet_mem (s : State) (i : Fin 8) (f : BandSet → BandSet) : (s.writeSet i f).mem = s.mem := by
  unfold State.writeSet
  split
  · rfl
  · rfl

/-- A write through the Window Port, stored or refused, touches no memory (R202). -/
theorem State.writeWindow_mem (s : State) (w : Word) : (s.writeWindow w).mem = s.mem := by
  unfold State.writeWindow
  split
  · unfold State.writeAccum
    repeat' split
    all_goals rfl
  · exact s.writeSet_mem _ _
  · exact s.writeSet_mem _ _
  · exact s.writeSet_mem _ _
  all_goals rfl

/-- How one command changes the memory of a state: not at all, by what the host wrote before a read is answered (log 2),
by an issued write that lands (R31, R144, R152, R153), by the bytes that memory took of a write that a bus error answers
(R173, log 9), or by every issued write at once, at a soft reset (R194) and at the halt (R184). -/
inductive State.MemoryChange (s : State) : Memory → Prop
  | unchanged : s.MemoryChange s.mem
  | host (writes : HostWrites) : s.MemoryChange (s.mem.hostWrites writes)
  | landed (k : Fin 4) : s.MemoryChange (s.mem.land (s.issued k))
  | taken (took : Nat → Bool) (k : Fin 4) : s.MemoryChange (s.mem.landTaken took (s.issued k))
  | reset : s.MemoryChange s.landIssued.mem
  | halt (r : Requester) (took : Nat → Bool) : s.MemoryChange (s.dropFaulting r took).landIssued.mem

namespace State.MemoryChange

/-- What follows the memory access of a command leaves memory alone. -/
theorem kept {s t u : State} (h : s.MemoryChange t.mem) (k : t.Kept u) : s.MemoryChange u.mem := by
  rw [k.mem]
  exact h

theorem of_kept {s t : State} (k : s.Kept t) : s.MemoryChange t.mem := unchanged.kept k

theorem afterHost (s : State) (writes : HostWrites) : s.MemoryChange (s.afterHost writes).mem := host writes

theorem setAccums (s : State) (accums : Vector Total 64) : s.MemoryChange (s.setAccums accums).mem := unchanged

theorem landLane (s : State) (n : LaneId) : s.MemoryChange (s.setMem (s.mem.land (s.laneWrite n))).mem := by
  cases n
  · exact landed 0
  · exact landed 1

theorem landSlate (s : State) : s.MemoryChange (s.setMem (s.mem.land s.slateWrite)).mem := landed 2

theorem landWriter (s : State) : s.MemoryChange (s.setMem (s.mem.land s.writerWrite)).mem := landed 3

theorem takenLane (s : State) (n : LaneId) (took : Nat → Bool) :
    s.MemoryChange (s.mem.landTaken took (s.laneWrite n)) := by
  cases n
  · exact taken took 0
  · exact taken took 1

/-- A bus error on a lane's access (R31, R173, log 9). -/
theorem faultMem (s : State) (n : LaneId) (took : Nat → Bool) : s.MemoryChange (s.setMem (s.faultMem n took)).mem := by
  show s.MemoryChange (s.faultMem n took)
  unfold State.faultMem
  split
  · split
    · exact landLane s n
    · exact unchanged
  · exact takenLane s n took
  · exact takenLane s n took
  · exact unchanged

/-- Every command changes memory in one of these ways. -/
theorem exec {s t : State} {c : Instr} (he : exec c s = .next t) : s.MemoryChange t.mem := by
  cases c
  all_goals obtain rfl := Host.Outcome.next.inj he
  case powerOnReset | irqEnableWrite | statusClear | ack | windowAddrWrite | windowDataRead | registerWriteOther =>
    exact unchanged
  case softReset => exact reset
  case enable | engineStop | pause | pauseRelease => exact of_kept (s.kept_controlWrite _ _ _)
  case anchorWrite =>
    split
    all_goals exact unchanged
  case nudge => exact of_kept s.kept_requestSweep
  case cancel => exact of_kept (s.kept_cancelSlot _)
  case windowDataWrite w =>
    show s.MemoryChange (s.writeWindow w).mem
    rw [s.writeWindow_mem]
    exact unchanged
  case sweepTimerExpiry =>
    split
    · exact of_kept ((s.kept_setSlate _).trans (State.kept_requestSweep _))
    · exact unchanged
  case anchorReadDone =>
    split
    · split
      · exact of_kept s.kept_dropStart
      · exact of_kept (s.kept_failStart _ _)
    · split
      · exact (afterHost s _).kept (State.kept_dropStart _)
      · exact (afterHost s _).kept (State.kept_takeAnchor _)
    all_goals exact unchanged
  case completionWordReadDone =>
    split
    · split
      · exact of_kept s.kept_dropStart
      · exact of_kept (s.kept_failStart _ _)
    · split
      · exact (afterHost s _).kept (State.kept_dropStart _)
      · exact (afterHost s _).kept (State.kept_completeStart _)
    all_goals exact unchanged
  case headerReadDone host =>
    split
    · exact (afterHost s host).kept (((State.kept_meetHeader _ _ _).trans (State.kept_settlePause _)).trans
        (State.kept_settleStop _))
    all_goals exact unchanged
  case bodyReadDone =>
    split
    · exact of_kept (s.kept_failAtTake _ _ _)
    · exact (afterHost s _).kept (State.kept_meetBody _ _ _ _)
    all_goals exact unchanged
  case take =>
    split
    case h_1 slot header body _ =>
      split
      · have entered (k : OrderKind) :
            s.MemoryChange ((s.setMem (s.mem.land s.slateWrite)).enterOrder k slot header body).mem := landSlate s
        exact (entered _).kept (((State.kept_advanceSweep _ _).trans (State.kept_settlePause _)).trans
          (State.kept_settleStop _))
      · exact unchanged
    all_goals exact unchanged
  case handBack =>
    split
    · exact of_kept ((s.kept_updEntry _ _).trans (State.kept_setSlate _ _))
    · exact unchanged
  case handBackWriteAccept =>
    split
    · exact (landSlate s).kept (((State.kept_removeEntry _ _).trans (State.kept_setSlate _ _)).trans
        (State.kept_settleStop _))
    all_goals exact unchanged
  case completion =>
    split
    · exact of_kept (s.kept_setWriter _)
    · exact unchanged
  case resultAreaWriteAccept =>
    split
    · exact (landWriter s).kept (State.kept_setWriter _ _)
    all_goals exact unchanged
  case stateWriteAccept =>
    split
    · exact (landWriter s).kept (((State.kept_leaveSlot _ _).trans (State.kept_setWriter _ _)).trans
        (State.kept_settlePause _))
    all_goals exact unchanged
  case completionWordWriteAccept =>
    split
    · exact (landWriter s).kept ((State.kept_setWriter _ _).trans (State.kept_settleStop _))
    all_goals exact unchanged
  case startEvent =>
    repeat' split
    · exact of_kept (s.kept_resume _ _)
    · exact of_kept (s.kept_firstStart _ _)
    · exact unchanged
  case progressRunningAccept n =>
    repeat' split
    · exact unchanged
    · exact (landLane s n).kept (State.kept_beginCell _ n)
    · exact (landLane s n).kept (State.kept_firstAccess _ n _)
    · exact unchanged
  case startClaim n =>
    repeat' split
    · exact of_kept (s.kept_startClaim n _ _)
    all_goals exact unchanged
  case startTest n =>
    repeat' split
    · exact of_kept (s.kept_endPlain n _ _)
    · exact of_kept (s.kept_finishStep n _)
    · exact unchanged
  case imageReadDone n bytes host =>
    split
    · exact (afterHost s host).kept (State.kept_takeImage _ n _ bytes)
    · exact unchanged
  case loadClaim n =>
    repeat' split
    · exact of_kept (s.kept_endPlain n _ _)
    · exact of_kept ((s.kept_setBandSet _ _).trans (State.kept_finishLast _ n))
    · exact unchanged
  case presetRecordReadDone n host =>
    split
    · exact (afterHost s host).kept (State.kept_takePresetRecord _ n _)
    · exact unchanged
  case apply n | clear n =>
    split
    · exact (setAccums s _).kept (State.kept_finishLast _ n)
    · exact unchanged
  case latch n =>
    split
    · exact of_kept ((s.kept_setLane n _).trans (State.kept_finishStep _ n _))
    · exact unchanged
  case snapshotRecordWriteAccept n =>
    repeat' split
    · exact unchanged
    · exact (landLane s n).kept (State.kept_finishStep _ n _)
    · exact unchanged
  case markReadDone n host =>
    split
    · exact (afterHost s host).kept (State.kept_setLane _ n _)
    · exact unchanged
  case sourceReadDone n host =>
    split
    · exact (afterHost s host).kept (State.kept_takeSourceA _ n _ _)
    · exact (afterHost s host).kept (State.kept_workOperands _ n _ _ _ _)
    · exact unchanged
  case destinationReadDone n host =>
    repeat' split
    · exact unchanged
    · exact (afterHost s host).kept (State.kept_takeDestination _ n _ _)
    · exact unchanged
  case destinationWriteAccept n | exceptionRecordWriteAccept n =>
    repeat' split
    · exact unchanged
    · exact (landLane s n).kept (State.kept_setLane _ n _)
    · exact unchanged
  case cellBoundary n =>
    split
    · exact of_kept (s.kept_passBoundary n _ _ _)
    · exact unchanged
  case commit n =>
    repeat' split
    · exact (setAccums s _).kept ((State.kept_setLane _ n _).trans (State.kept_endWalk _ n _ _ _))
    all_goals exact unchanged
  case parkRequest =>
    repeat' split
    · exact of_kept (s.kept_requestPark _ _)
    all_goals exact unchanged
  case parkWithdraw =>
    repeat' split
    · exact of_kept (s.kept_withdrawPark _)
    all_goals exact unchanged
  case parkComplete n =>
    repeat' split
    · exact unchanged
    · exact (landLane s n).kept (((State.kept_finishPark _ n _ _ _).trans (State.kept_afterPark _ _)).trans
        (State.kept_settlePause _))
    · exact unchanged
  case timeLimit n =>
    split
    · exact of_kept ((s.kept_setLane n _).trans (State.kept_post _ n _))
    · exact unchanged
  case memoryFault n took =>
    repeat' split
    · exact (faultMem s n _).kept (State.kept_failOrder _ n _)
    all_goals exact unchanged
  case slateFault r took =>
    split
    · exact halt r _
    · exact unchanged

end State.MemoryChange

/-! ## The canonical form -/

theorem State.memoryCanonical.landIssued {s : State} (h : s.memoryCanonical) : s.landIssued.memoryCanonical :=
  Memory.wf_land (Memory.wf_land (Memory.wf_land (Memory.wf_land h _) _) _) _

/-- Whatever a command does to memory keeps the canonical form. -/
theorem State.MemoryChange.keeps_wf {s : State} {m : Memory} (hm : s.MemoryChange m) (h : s.memoryCanonical) :
    m.wf = true := by
  cases hm with
  | unchanged => exact h
  | host writes => exact Memory.wf_hostWrites h writes
  | landed k => exact Memory.wf_land h (s.issued k)
  | taken took k => exact Memory.wf_landTaken h took (s.issued k)
  | reset => exact h.landIssued
  | halt r took => exact State.memoryCanonical.landIssued (State.dropFaulting_memoryCanonical r took h)

/-! ## One step -/

/-- Settles O1: on a queue that is not empty, `step` is `exec` of its front. -/
theorem frontCommandRuns : Obligations.FrontCommandRuns := by
  intro s c rest hq
  unfold step
  rw [hq]

/-- Settles O55: one µs touches no memory, and a command changes it by writes that keep the canonical form. -/
theorem stepKeepsMemoryCanonical : Obligations.StepKeepsMemoryCanonical := by
  intro s t h hs
  cases hq : s.pending with
  | nil =>
    rw [step_of_empty hq] at hs
    obtain rfl := Host.Outcome.next.inj hs
    exact (State.MemoryChange.of_kept s.kept_tick).keeps_wf h
  | cons c rest =>
    rw [frontCommandRuns s c rest hq] at hs
    have front : ({ s with pending := rest } : State).memoryCanonical := h
    exact (State.MemoryChange.exec hs).keeps_wf front

end Sys2Proof.Machine
end
